-- ==== Sys2Proof/Word.lean ====
section
/-! DEFINITION. The word and the byte of the cpp11 CORE (00_scope.md R6, R7). A physical byte address is a Nat: the translator answers one
below 2^PA_WIDTH (R6, 20_memory.md R90). -/

namespace Sys2Proof

/-- A 16-bit word: a register, an instruction word, a virtual address (R6 XLEN, VA_WIDTH). -/
abbrev Word := BitVec 16

/-- An 8-bit byte (R44). -/
abbrev Byte := BitVec 8

/-- A 2-bit processor mode, encoded 0 kernel, 1 supervisor, 2 illegal, 3 user (10_state.md R24, R28). -/
abbrev ModeBits := BitVec 2

/-- A general register number 0..7 (R20). -/
abbrev Reg := Fin 8

/-- R6, the stack pointer (R20). -/
abbrev SP : Reg := 6

/-- R7, the program counter (R20, R23). -/
abbrev PC : Reg := 7

end Sys2Proof
end

