-- ==== Sys2Proof/Config.lean ====
section
/-! DEFINITION. The configuration record of 00_scope.md R6, and the free values the spec leaves open.
Every parameter with a number is a field of Config, which State holds, so that a claim over every state is a claim over every
configuration. Where the source fixes the number, a legal configuration has that number (WellFormed.lean, Config.sourceWf) and the types
of Word.lean carry it. MEM_INIT and BOOT_WORDS are fields too, of the words that a configuration names; a word it does not name is an
`opaque` constant, of which nothing can be proved, so that a claim holds whatever it is. -/

namespace Sys2Proof

/-- One entry of DEVICE_RANGES (R6, 20_memory.md R67): the inclusive physical byte range lo..hi is bound to device port `port`. -/
structure DeviceRange where
  lo : Nat
  hi : Nat
  port : Nat
  deriving DecidableEq, Repr

/-- The parameters of R6. No step changes them. -/
structure Config where
  /-- XLEN: the width of a register and of a word; the source's 16 (the type Word). -/
  xlen : Nat
  /-- NREG: the general registers; the source's 8 (the type Reg). -/
  nreg : Nat
  /-- NMODE: the modes, and the entries of the stack-pointer bank; the source's 4 (the type ModeBits). -/
  nmode : Nat
  /-- VA_WIDTH: the width of a virtual address; the source's 16 (the type Word). -/
  vaWidth : Nat
  /-- PA_WIDTH: the width of a physical address (D6: 12-bit frame and 64-byte block). -/
  paWidth : Nat
  /-- NPAGE: the descriptors of a bank; the source's 8 (the eight words of State.kpar). -/
  npage : Nat
  /-- NBANK: the descriptor banks; the source's 2 (the type Bank). -/
  nbank : Nat
  /-- ITAB_N: the slots of the interrupt table; the source's 8 (10_state.md R40). -/
  itabSlots : Nat
  /-- IO_BASE: the first physical byte address not in the memory array. -/
  ioBase : Nat
  /-- VA_IO_BASE: the first virtual address relocated when translation is off (20_memory.md R91). -/
  vaIoBase : Nat
  /-- IO_OFFSET: what is added to such an address (R91). -/
  ioOffset : Nat
  /-- ADDR_PSW (20_memory.md R65). -/
  addrPsw : Nat
  /-- ADDR_SR0 (R65). -/
  addrSr0 : Nat
  /-- ADDR_SR2 (R65). -/
  addrSr2 : Nat
  /-- ADDR_KPDR(0); ADDR_KPDR(i) is this plus 2i (R65). -/
  addrKpdr : Nat
  /-- ADDR_KPAR(0), likewise. -/
  addrKpar : Nat
  /-- ADDR_UPDR(0), likewise. -/
  addrUpdr : Nat
  /-- ADDR_UPAR(0), likewise. -/
  addrUpar : Nat
  /-- DEVICE_RANGES (R67, D28). -/
  devRanges : List DeviceRange
  /-- VEC_BUS: bus error (60_exceptions.md R321). -/
  vecBus : Word
  /-- VEC_ILL: illegal instruction, and a privileged one outside kernel mode (R321). -/
  vecIll : Word
  /-- VEC_BPT: breakpoint (R321). -/
  vecBpt : Word
  /-- VEC_IOT: input/output trap (R321). -/
  vecIot : Word
  /-- VEC_EMT: emulator trap (R321). -/
  vecEmt : Word
  /-- VEC_TRAP: trap instruction (R321). -/
  vecTrap : Word
  /-- VEC_MMU: memory-management fault (R321). -/
  vecMmu : Word
  /-- BOOT_BASE: the byte address of the first bootstrap word (70_reset_and_hazards.md R380, D25). -/
  bootBase : Nat
  /-- BOOT_ENTRY: the PC after reset (R380, D25). -/
  bootEntry : Word
  /-- BOOT_WORDS, as far as the configuration names them, the first one first (R380, D25): word k of the 29 is entry k, and a free value
  where the list has ended (log 6). -/
  bootWords : List Word
  /-- MEM_INIT, as far as the configuration names it: even physical addresses below IO_BASE and their words at reset; every other word is
  a free value (D36, log 5). -/
  memInit : List (Nat × Word)
  deriving DecidableEq, Repr

namespace Config

/-- The number of bootstrap words, which the source fixes (R6, R380). -/
def bootLength : Nat := 29

/-! ### Free values -/

/-- Word k of BOOT_WORDS where the configuration names none, OPEN (R6, D25): a free value, never a number of the model's (log 6, safe). -/
opaque freeBootWord : Nat → Word

/-- MEM_INIT at an even physical address below IO_BASE for which the configuration names no word, OPEN (R6, D36: "A model must not assume
zero"): a free value (log 5, safe). -/
opaque freeMemInit : Nat → Word

/-- The word a device answers to the n-th device read for which State.devIn holds no answer (00_scope.md R12, U10:
any value): a free value (log 2, safe). -/
opaque deviceAnswer : Nat → Word

/-! ### The configuration of State.reset -/

/-- R6's own values: the source's, and the spec's choices (D6, D7, D13; log 13). The OPEN parameters have named values here: no device range (DESIGN
CHOICE, log 1, unsafe), and 0o001000, the start address of the examples of 95_test_vectors.md, as BOOT_BASE and BOOT_ENTRY
(DESIGN CHOICE, log 6, unsafe). It names no word of BOOT_WORDS or MEM_INIT: all of them are free values. -/
def default : Config where
  xlen := 16
  nreg := 8
  nmode := 4
  vaWidth := 16
  paWidth := 18
  npage := 8
  nbank := 2
  itabSlots := 8
  ioBase := 0o760000
  vaIoBase := 0o160000
  ioOffset := 0o600000
  addrPsw := 0o777776
  addrSr0 := 0o777572
  addrSr2 := 0o777576
  addrKpdr := 0o772300
  addrKpar := 0o772340
  addrUpdr := 0o777600
  addrUpar := 0o777640
  devRanges := []
  vecBus := 0o004#16
  vecIll := 0o010#16
  vecBpt := 0o014#16
  vecIot := 0o020#16
  vecEmt := 0o030#16
  vecTrap := 0o034#16
  vecMmu := 0o250#16
  bootBase := 0o001000
  bootEntry := 0o001000#16
  bootWords := []
  memInit := []

/-- The blocks of the I/O page that the core's own registers fill: first byte address and length in bytes (20_memory.md R65). -/
def coreBlocks (c : Config) : List (Nat × Nat) :=
  [(c.addrKpdr, 16), (c.addrKpar, 16), (c.addrSr0, 2), (c.addrSr2, 2), (c.addrUpdr, 16), (c.addrUpar, 16), (c.addrPsw, 2)]

end Config

end Sys2Proof
end

