-- ==== Sys2Proof/Syntax.lean ====
section
/-! DEFINITION. The syntax of the instructions: one constructor of Instr for each of the 77 rows of spec/opcode_table.json
(30_encoding.md R126), in the table's order. Operands are the 6-bit specifiers of R123; the extension words they may need are no
part of Instr, because the engine fetches them from the instruction stream while it resolves the operand (R121,
40_addressing_modes.md R157). -/

namespace Sys2Proof

/-- The eight addressing modes, mode 0 to mode 7 in this order (R123). -/
inductive AddrMode where
  /-- Mode 0, `Rn`. -/
  | register
  /-- Mode 1, `(Rn)`. -/
  | regDeferred
  /-- Mode 2, `(Rn)+`; `#n` on R7. -/
  | autoInc
  /-- Mode 3, `@(Rn)+`; `@#A` on R7. -/
  | autoIncDeferred
  /-- Mode 4, `-(Rn)`. -/
  | autoDec
  /-- Mode 5, `@-(Rn)`. -/
  | autoDecDeferred
  /-- Mode 6, `X(Rn)`. -/
  | indexed
  /-- Mode 7, `@X(Rn)`. -/
  | indexedDeferred
  deriving DecidableEq, Repr

/-- An operand specifier: bits 5:3 the mode, bits 2:0 the register (R123). -/
structure Operand where
  mode : AddrMode
  reg : Reg
  deriving DecidableEq, Repr

/-- The operand length: a property of the instruction (R83, R130). -/
inductive Size where
  | byte
  | word
  deriving DecidableEq, Repr

/-- The instructions. The pattern in each docstring is the table's encoding, bit 15 first. -/
inductive Instr where
  /-- HALT, 0000000000000000: halt, kernel mode only (R289). -/
  | halt
  /-- WAIT, 0000000000000001: wait for interrupt, kernel mode only (R290). -/
  | wait
  /-- RTI, 0000000000000010: return from interrupt or trap (R287). -/
  | rti
  /-- BPT, 0000000000000011: breakpoint trap (R283). -/
  | bpt
  /-- IOT, 0000000000000100: input/output trap (R284). -/
  | iot
  /-- RESET, 0000000000000101: reset external devices (R291). -/
  | reset
  /-- RTT, 0000000000000110: return from trap (R288). -/
  | rtt
  /-- JMP, 0000000001DDDddd: jump (R256). -/
  | jmp (dst : Operand)
  /-- RTS, 0000000010000rrr: return from subroutine (R258). -/
  | rts (reg : Reg)
  /-- SPL, 0000000010011lll: set priority level (R292). -/
  | spl (level : BitVec 3)
  /-- CLx, 000000001010mmmm: clear condition codes (NOP, CLC, CLV, CLZ, CLN, CCC and combinations) (R296). -/
  | ccClear (mask : BitVec 4)
  /-- SEx, 000000001011mmmm: set condition codes (SEC, SEV, SEZ, SEN, SCC and combinations) (R296). -/
  | ccSet (mask : BitVec 4)
  /-- SWAB, 0000000011DDDddd: swap bytes (R225). -/
  | swab (dst : Operand)
  /-- BR, 00000001oooooooo: branch always (R241). -/
  | br (off : BitVec 8)
  /-- BNE, 00000010oooooooo: branch if Z = 0 (R242). -/
  | bne (off : BitVec 8)
  /-- BEQ, 00000011oooooooo: branch if Z = 1 (R243). -/
  | beq (off : BitVec 8)
  /-- BGE, 00000100oooooooo: branch if N xor V = 0 (R244). -/
  | bge (off : BitVec 8)
  /-- BLT, 00000101oooooooo: branch if N xor V = 1 (R245). -/
  | blt (off : BitVec 8)
  /-- BGT, 00000110oooooooo: branch if Z or (N xor V) = 0 (R246). -/
  | bgt (off : BitVec 8)
  /-- BLE, 00000111oooooooo: branch if Z or (N xor V) = 1 (R247). -/
  | ble (off : BitVec 8)
  /-- JSR, 0000100rrrDDDddd: jump to subroutine with link register reg (R257). -/
  | jsr (reg : Reg) (dst : Operand)
  /-- CLR, 0000101000DDDddd: clear (R201). -/
  | clr (dst : Operand)
  /-- CLRB, 1000101000DDDddd: clear (byte form) (R201). -/
  | clrb (dst : Operand)
  /-- COM, 0000101001DDDddd: complement (R202). -/
  | com (dst : Operand)
  /-- COMB, 1000101001DDDddd: complement (byte form) (R202). -/
  | comb (dst : Operand)
  /-- INC, 0000101010DDDddd: increment (R203). -/
  | inc (dst : Operand)
  /-- INCB, 1000101010DDDddd: increment (byte form) (R203). -/
  | incb (dst : Operand)
  /-- DEC, 0000101011DDDddd: decrement (R204). -/
  | dec (dst : Operand)
  /-- DECB, 1000101011DDDddd: decrement (byte form) (R204). -/
  | decb (dst : Operand)
  /-- NEG, 0000101100DDDddd: negate (R205). -/
  | neg (dst : Operand)
  /-- NEGB, 1000101100DDDddd: negate (byte form) (R205). -/
  | negb (dst : Operand)
  /-- ADC, 0000101101DDDddd: add carry (R206). -/
  | adc (dst : Operand)
  /-- ADCB, 1000101101DDDddd: add carry (byte form) (R206). -/
  | adcb (dst : Operand)
  /-- SBC, 0000101110DDDddd: subtract carry (R207). -/
  | sbc (dst : Operand)
  /-- SBCB, 1000101110DDDddd: subtract carry (byte form) (R207). -/
  | sbcb (dst : Operand)
  /-- TST, 0000101111DDDddd: test (R208). -/
  | tst (dst : Operand)
  /-- TSTB, 1000101111DDDddd: test (byte form) (R208). -/
  | tstb (dst : Operand)
  /-- ROR, 0000110000DDDddd: rotate right through C (R209). -/
  | ror (dst : Operand)
  /-- RORB, 1000110000DDDddd: rotate right through C (byte form) (R209). -/
  | rorb (dst : Operand)
  /-- ROL, 0000110001DDDddd: rotate left through C (R210). -/
  | rol (dst : Operand)
  /-- ROLB, 1000110001DDDddd: rotate left through C (byte form) (R210). -/
  | rolb (dst : Operand)
  /-- ASR, 0000110010DDDddd: arithmetic shift right (R211). -/
  | asr (dst : Operand)
  /-- ASRB, 1000110010DDDddd: arithmetic shift right (byte form) (R211). -/
  | asrb (dst : Operand)
  /-- ASL, 0000110011DDDddd: arithmetic shift left (R212). -/
  | asl (dst : Operand)
  /-- ASLB, 1000110011DDDddd: arithmetic shift left (byte form) (R212). -/
  | aslb (dst : Operand)
  /-- MARK, 0000110100nnnnnn: stack clean-up on return (R259). -/
  | mark (nn : BitVec 6)
  /-- MFPI, 0000110101SSSsss: move from previous space (R294). -/
  | mfpi (src : Operand)
  /-- MTPI, 0000110110DDDddd: move to previous space (R295). -/
  | mtpi (dst : Operand)
  /-- SXT, 0000110111DDDddd: sign extend (R224). -/
  | sxt (dst : Operand)
  /-- MOV, 0001SSSsssDDDddd: move (R181). -/
  | mov (src : Operand) (dst : Operand)
  /-- MOVB, 1001SSSsssDDDddd: move (byte form) (R182). -/
  | movb (src : Operand) (dst : Operand)
  /-- CMP, 0010SSSsssDDDddd: compare (R183). -/
  | cmp (src : Operand) (dst : Operand)
  /-- CMPB, 1010SSSsssDDDddd: compare (byte form) (R183). -/
  | cmpb (src : Operand) (dst : Operand)
  /-- BIT, 0011SSSsssDDDddd: bit test (R184). -/
  | bit (src : Operand) (dst : Operand)
  /-- BITB, 1011SSSsssDDDddd: bit test (byte form) (R184). -/
  | bitb (src : Operand) (dst : Operand)
  /-- BIC, 0100SSSsssDDDddd: bit clear (R185). -/
  | bic (src : Operand) (dst : Operand)
  /-- BICB, 1100SSSsssDDDddd: bit clear (byte form) (R185). -/
  | bicb (src : Operand) (dst : Operand)
  /-- BIS, 0101SSSsssDDDddd: bit set (R186). -/
  | bis (src : Operand) (dst : Operand)
  /-- BISB, 1101SSSsssDDDddd: bit set (byte form) (R186). -/
  | bisb (src : Operand) (dst : Operand)
  /-- ADD, 0110SSSsssDDDddd: add (R187). -/
  | add (src : Operand) (dst : Operand)
  /-- SUB, 1110SSSsssDDDddd: subtract (R188). -/
  | sub (src : Operand) (dst : Operand)
  /-- MUL, 0111000rrrSSSsss: multiply (R231). -/
  | mul (reg : Reg) (src : Operand)
  /-- DIV, 0111001rrrSSSsss: divide (R232). -/
  | div (reg : Reg) (src : Operand)
  /-- ASH, 0111010rrrSSSsss: arithmetic shift of one register (R233). -/
  | ash (reg : Reg) (src : Operand)
  /-- ASHC, 0111011rrrSSSsss: arithmetic shift of a register pair (R234). -/
  | ashc (reg : Reg) (src : Operand)
  /-- XOR, 0111100rrrDDDddd: exclusive or (R235). -/
  | xor (reg : Reg) (dst : Operand)
  /-- SOB, 0111111rrroooooo: subtract one and branch if not zero (R260). -/
  | sob (reg : Reg) (nn : BitVec 6)
  /-- BPL, 10000000oooooooo: branch if N = 0 (R248). -/
  | bpl (off : BitVec 8)
  /-- BMI, 10000001oooooooo: branch if N = 1 (R249). -/
  | bmi (off : BitVec 8)
  /-- BHI, 10000010oooooooo: branch if C or Z = 0 (R250). -/
  | bhi (off : BitVec 8)
  /-- BLOS, 10000011oooooooo: branch if C or Z = 1 (R251). -/
  | blos (off : BitVec 8)
  /-- BVC, 10000100oooooooo: branch if V = 0 (R252). -/
  | bvc (off : BitVec 8)
  /-- BVS, 10000101oooooooo: branch if V = 1 (R253). -/
  | bvs (off : BitVec 8)
  /-- BCC, 10000110oooooooo: branch if C = 0 (BHIS) (R254). -/
  | bcc (off : BitVec 8)
  /-- BCS, 10000111oooooooo: branch if C = 1 (BLO) (R255). -/
  | bcs (off : BitVec 8)
  /-- EMT, 10001000cccccccc: emulator trap (R281). -/
  | emt (code : BitVec 8)
  /-- TRAP, 10001001cccccccc: trap (R282). -/
  | trap (code : BitVec 8)
  deriving DecidableEq, Repr

end Sys2Proof
end

