-- ==== Sys2Proof/WellFormed.lean ====
section
/-! DEFINITION. What is well-formed. Every field of an Instr has exactly the values its encoding admits (a register is a Fin 8, an
offset a BitVec 8), so every Instr has an encoding. What can still be wrong with an instruction is a register operand where the
instruction needs an address in memory (40_addressing_modes.md R161): such a word decodes, and executing it is FATAL(REG_OPERAND).
What can be wrong with a configuration (00_scope.md R6) is a number the source fixes, its address map, its vectors, its list of device
ranges (20_memory.md R67) and its bootstrap parameters (70_reset_and_hazards.md R380, R381). -/

namespace Sys2Proof

/-- The operand is not register mode, so resolving it gives an address in memory (R157, R161). -/
def Operand.isMemory (o : Operand) : Bool :=
  decide (o.mode ≠ AddrMode.register)

/-- The operand MFPI and MTPI accept: an address in memory, or R6 (R161, 45_trap_system.md R294, R295). -/
def Operand.isMemoryOrSP (o : Operand) : Bool :=
  o.isMemory || decide (o.reg = SP)

/-- No register operand where a memory address is required: the four contexts of R161 (D21). -/
def Instr.wf : Instr → Bool
  | .jmp dst => dst.isMemory
  | .jsr _ dst => dst.isMemory
  | .mfpi src => src.isMemoryOrSP
  | .mtpi dst => dst.isMemoryOrSP
  | _ => true

/-- Two blocks of addresses, given by first address and length, share no address. -/
def Config.apart (a b : Nat × Nat) : Bool := decide (a.1 + a.2 ≤ b.1) || decide (b.1 + b.2 ≤ a.1)

/-- One device range lies in the I/O page, is not empty and covers no core register (R67). -/
def Config.rangeWf (c : Config) (r : DeviceRange) : Bool :=
  decide (c.ioBase ≤ r.lo) && decide (r.lo ≤ r.hi) && decide (r.hi < 2 ^ c.paWidth) &&
    c.coreBlocks.all fun b => Config.apart b (r.lo, r.hi + 1 - r.lo)

/-- Two ranges share no address (R67: "fixed, non-overlapping"). -/
def DeviceRange.disjoint (r q : DeviceRange) : Bool :=
  decide (r.hi < q.lo) || decide (q.hi < r.lo)

/-- Each range of a list obeys R67, and no two of them overlap. -/
def Config.deviceRangesWf (c : Config) : List DeviceRange → Bool
  | [] => true
  | r :: rs => c.rangeWf r && rs.all r.disjoint && c.deviceRangesWf rs

/-- BOOT_BASE and BOOT_ENTRY obey the constraints of R381, and no more than the 29 BOOT_WORDS are named (R380). -/
def Config.bootWf (c : Config) : Bool :=
  decide (c.bootBase % 2 = 0) && decide (c.bootEntry.toNat % 2 = 0) && decide (c.bootBase < c.vaIoBase) &&
    decide (c.bootEntry.toNat < c.vaIoBase) && decide (c.bootBase + 2 * Config.bootLength ≤ c.ioBase) &&
    decide (c.bootWords.length ≤ Config.bootLength)

/-- The parameters the source fixes have the source's values (R6, "fixed by source?": yes), which the types of the model carry. -/
def Config.sourceWf (c : Config) : Bool :=
  decide (c.xlen = 16) && decide (c.nreg = 8) && decide (c.nmode = 4) && decide (c.vaWidth = 16) && decide (c.npage = 8) &&
    decide (c.nbank = 2) && decide (c.itabSlots = 8)

/-- A virtual address has room in the physical space (20_memory.md R91), the memory array is a whole number of words inside that space
(10_state.md R41), and moving an address into the I/O page keeps its alignment (R91). -/
def Config.mapWf (c : Config) : Bool :=
  decide (c.vaWidth ≤ c.paWidth) && decide (c.ioBase % 2 = 0) && decide (c.ioBase ≤ 2 ^ c.paWidth) && decide (c.ioOffset % 2 = 0) &&
    decide (c.ioOffset < 2 ^ c.paWidth)

/-- The core registers stand at even addresses of the I/O page, no two at one address (20_memory.md R60, R65). -/
def Config.registersWf (c : Config) : Bool :=
  (c.coreBlocks.all fun b => decide (b.1 % 2 = 0) && decide (c.ioBase ≤ b.1) && decide (b.1 + b.2 ≤ 2 ^ c.paWidth)) &&
    decide (c.coreBlocks.Pairwise fun a b => Config.apart a b = true)

/-- Every vector is even (60_exceptions.md R321, R340: "the synchronous vectors are even constants"). -/
def Config.vectorsWf (c : Config) : Bool :=
  [c.vecBus, c.vecIll, c.vecBpt, c.vecIot, c.vecEmt, c.vecTrap, c.vecMmu].all fun v => !v.getLsbD 0

/-- The configuration obeys what the spec asks of its parameters. -/
def Config.wf (c : Config) : Bool :=
  c.sourceWf && c.mapWf && c.registersWf && c.vectorsWf && c.bootWf && c.deviceRangesWf c.devRanges

end Sys2Proof
end

