-- ==== Sys2Proof/Decode.lean ====
section
/-! DEFINITION. The decoder (30_encoding.md R122 to R130) and, after it, the encoder, both from R126's opcode map. Decoding reads the
instruction word alone (40_addressing_modes.md R152). A word of no row is rejected under the name of its range in R127's table. -/

namespace Sys2Proof

/-- The six ranges of illegal instruction words (R127, octal, inclusive). -/
inductive Illegal where
  /-- 000007 .. 000077, unassigned. -/
  | literalGroup
  /-- 000210 .. 000227, unassigned. -/
  | returnGroup
  /-- 007000 .. 007777, unassigned. -/
  | singleOperandGroup
  /-- 075000 .. 076777, floating instruction set and commercial instruction set, not in this hardware (R128). -/
  | registerGroup
  /-- 106400 .. 107777, MTPS, MFPD, MTPD, MFPS and unassigned, not in this hardware (D33). -/
  | byteOperandGroup
  /-- 170000 .. 177777, floating-point processor opcodes, not in this hardware (R128). -/
  | floatingPoint
  deriving DecidableEq, Repr

/-- Why bytes are not read as an instruction word. -/
inductive DecodeError where
  /-- Fewer than two bytes were given. -/
  | truncated
  /-- The word matches no row of R126. -/
  | illegal (range : Illegal)
  deriving DecidableEq, Repr

/-- `n` bits of `w` from bit `lo` upward: v[hi:lo] of 00_scope.md R7. -/
def field (w : Word) (lo n : Nat) : BitVec n :=
  w.extractLsb' lo n

/-- A register field (R123). -/
def Reg.ofBits (b : BitVec 3) : Reg :=
  b.toFin

/-- The three bits of a register number (R123). -/
def Reg.toBits (r : Reg) : BitVec 3 :=
  BitVec.ofFin r

/-- The addressing mode of a 3-bit mode field (R123). -/
def AddrMode.ofBits (b : BitVec 3) : AddrMode :=
  match b.toNat with
  | 0 => .register
  | 1 => .regDeferred
  | 2 => .autoInc
  | 3 => .autoIncDeferred
  | 4 => .autoDec
  | 5 => .autoDecDeferred
  | 6 => .indexed
  | _ => .indexedDeferred

/-- The 3-bit number of an addressing mode (R123). -/
def AddrMode.toBits : AddrMode → BitVec 3
  | .register => 0#3
  | .regDeferred => 1#3
  | .autoInc => 2#3
  | .autoIncDeferred => 3#3
  | .autoDec => 4#3
  | .autoDecDeferred => 5#3
  | .indexed => 6#3
  | .indexedDeferred => 7#3

/-- The 6-bit operand specifier (R123). -/
def Operand.toBits (o : Operand) : BitVec 6 :=
  o.mode.toBits ++ Reg.toBits o.reg

/-- The operand specifier whose register field starts at bit `lo` of the word (R123). -/
def operandAt (w : Word) (lo : Nat) : Operand :=
  ⟨AddrMode.ofBits (field w (lo + 3) 3), Reg.ofBits (field w lo 3)⟩

/-- The specifier in bits 5:0: the destination of DOP, SOP, RDST and JSR, the source of RSRC and MFPI (R122, R123). -/
def dstOf (w : Word) : Operand :=
  operandAt w 0

/-- The source specifier in bits 11:6 of DOP (R123). -/
def srcOf (w : Word) : Operand :=
  operandAt w 6

/-- The register field in bits 8:6 (R122). -/
def regOf (w : Word) : Reg :=
  Reg.ofBits (field w 6 3)

/-- Words 000000 .. 000077: the literal opcodes (R126). -/
def decodeLiteral (w : Word) : Except Illegal Instr :=
  match (field w 0 6).toNat with
  | 0 => .ok .halt
  | 1 => .ok .wait
  | 2 => .ok .rti
  | 3 => .ok .bpt
  | 4 => .ok .iot
  | 5 => .ok .reset
  | 6 => .ok .rtt
  | _ => .error .literalGroup

/-- Words 000200 .. 000277: RTS, SPL and the condition-code operators (R126). -/
def decodeReturn (w : Word) : Except Illegal Instr :=
  match (field w 3 3).toNat with
  | 0 => .ok (.rts (Reg.ofBits (field w 0 3)))
  | 3 => .ok (.spl (field w 0 3))
  | 4 => .ok (.ccClear (field w 0 4))
  | 5 => .ok (.ccClear (field w 0 4))
  | 6 => .ok (.ccSet (field w 0 4))
  | 7 => .ok (.ccSet (field w 0 4))
  | _ => .error .returnGroup

/-- Words 000000 .. 000377 (R126). -/
def decodeSystem (w : Word) : Except Illegal Instr :=
  match (field w 6 2).toNat with
  | 0 => decodeLiteral w
  | 1 => .ok (.jmp (dstOf w))
  | 2 => decodeReturn w
  | _ => .ok (.swab (dstOf w))

/-- Words 0050DD .. 0067DD, and no byte form (R126). -/
def decodeSingle (w : Word) : Except Illegal Instr :=
  match (field w 6 6).toNat with
  | 0o50 => .ok (.clr (dstOf w))
  | 0o51 => .ok (.com (dstOf w))
  | 0o52 => .ok (.inc (dstOf w))
  | 0o53 => .ok (.dec (dstOf w))
  | 0o54 => .ok (.neg (dstOf w))
  | 0o55 => .ok (.adc (dstOf w))
  | 0o56 => .ok (.sbc (dstOf w))
  | 0o57 => .ok (.tst (dstOf w))
  | 0o60 => .ok (.ror (dstOf w))
  | 0o61 => .ok (.rol (dstOf w))
  | 0o62 => .ok (.asr (dstOf w))
  | 0o63 => .ok (.asl (dstOf w))
  | 0o64 => .ok (.mark (field w 0 6))
  | 0o65 => .ok (.mfpi (dstOf w))
  | 0o66 => .ok (.mtpi (dstOf w))
  | 0o67 => .ok (.sxt (dstOf w))
  | _ => .error .singleOperandGroup

/-- Words 1050DD .. 1063DD, the byte forms (R126, R130). -/
def decodeSingleByte (w : Word) : Except Illegal Instr :=
  match (field w 6 6).toNat with
  | 0o50 => .ok (.clrb (dstOf w))
  | 0o51 => .ok (.comb (dstOf w))
  | 0o52 => .ok (.incb (dstOf w))
  | 0o53 => .ok (.decb (dstOf w))
  | 0o54 => .ok (.negb (dstOf w))
  | 0o55 => .ok (.adcb (dstOf w))
  | 0o56 => .ok (.sbcb (dstOf w))
  | 0o57 => .ok (.tstb (dstOf w))
  | 0o60 => .ok (.rorb (dstOf w))
  | 0o61 => .ok (.rolb (dstOf w))
  | 0o62 => .ok (.asrb (dstOf w))
  | 0o63 => .ok (.aslb (dstOf w))
  | _ => .error .byteOperandGroup

/-- Words whose bits 15:12 are 0 (R126). -/
def decodeLow (w : Word) : Except Illegal Instr :=
  match (field w 8 4).toNat with
  | 0 => decodeSystem w
  | 1 => .ok (.br (field w 0 8))
  | 2 => .ok (.bne (field w 0 8))
  | 3 => .ok (.beq (field w 0 8))
  | 4 => .ok (.bge (field w 0 8))
  | 5 => .ok (.blt (field w 0 8))
  | 6 => .ok (.bgt (field w 0 8))
  | 7 => .ok (.ble (field w 0 8))
  | 8 => .ok (.jsr (regOf w) (dstOf w))
  | 9 => .ok (.jsr (regOf w) (dstOf w))
  | 14 => .error .singleOperandGroup
  | 15 => .error .singleOperandGroup
  | _ => decodeSingle w

/-- Words whose bits 15:12 are 0b1000 (R126). -/
def decodeHigh (w : Word) : Except Illegal Instr :=
  match (field w 8 4).toNat with
  | 0 => .ok (.bpl (field w 0 8))
  | 1 => .ok (.bmi (field w 0 8))
  | 2 => .ok (.bhi (field w 0 8))
  | 3 => .ok (.blos (field w 0 8))
  | 4 => .ok (.bvc (field w 0 8))
  | 5 => .ok (.bvs (field w 0 8))
  | 6 => .ok (.bcc (field w 0 8))
  | 7 => .ok (.bcs (field w 0 8))
  | 8 => .ok (.emt (field w 0 8))
  | 9 => .ok (.trap (field w 0 8))
  | 13 => .error .byteOperandGroup
  | 14 => .error .byteOperandGroup
  | 15 => .error .byteOperandGroup
  | _ => decodeSingleByte w

/-- Words whose bits 15:12 are 0b0111 (R126). -/
def decodeRegister (w : Word) : Except Illegal Instr :=
  match (field w 9 3).toNat with
  | 0 => .ok (.mul (regOf w) (dstOf w))
  | 1 => .ok (.div (regOf w) (dstOf w))
  | 2 => .ok (.ash (regOf w) (dstOf w))
  | 3 => .ok (.ashc (regOf w) (dstOf w))
  | 4 => .ok (.xor (regOf w) (dstOf w))
  | 7 => .ok (.sob (regOf w) (field w 0 6))
  | _ => .error .registerGroup

/-- The row of R126 a word selects, or the illegal range it lies in (R125, R127, R152). -/
def decode (w : Word) : Except Illegal Instr :=
  match (field w 12 4).toNat with
  | 0 => decodeLow w
  | 1 => .ok (.mov (srcOf w) (dstOf w))
  | 2 => .ok (.cmp (srcOf w) (dstOf w))
  | 3 => .ok (.bit (srcOf w) (dstOf w))
  | 4 => .ok (.bic (srcOf w) (dstOf w))
  | 5 => .ok (.bis (srcOf w) (dstOf w))
  | 6 => .ok (.add (srcOf w) (dstOf w))
  | 7 => decodeRegister w
  | 8 => decodeHigh w
  | 9 => .ok (.movb (srcOf w) (dstOf w))
  | 10 => .ok (.cmpb (srcOf w) (dstOf w))
  | 11 => .ok (.bitb (srcOf w) (dstOf w))
  | 12 => .ok (.bicb (srcOf w) (dstOf w))
  | 13 => .ok (.bisb (srcOf w) (dstOf w))
  | 14 => .ok (.sub (srcOf w) (dstOf w))
  | _ => .error .floatingPoint

/-- Decoding from bytes in memory order, the low byte first (20_memory.md R70, R72): the instruction and the bytes after its
instruction word, which the engine reads as it resolves the operands (R121). -/
def decodeBytes : List Byte → Except DecodeError (Instr × List Byte)
  | lo :: hi :: rest =>
    match decode (hi ++ lo) with
    | .ok i => .ok (i, rest)
    | .error e => .error (.illegal e)
  | _ => .error .truncated

/-- The bytes of a number as the hardware stores its words: byte k is bits 8k+7:8k, so the first word comes first and each word
low byte first (R70). -/
def bytesOfNat : Nat → Nat → List Byte
  | 0, _ => []
  | k + 1, w => BitVec.ofNat 8 w :: bytesOfNat k (w / 256)

/-- The longest instruction, in bytes (R120). -/
def maxInstrBytes : Nat := 6

/-- What the decoder reads from an instruction whose bits, numbered as spec/opcode_table.json numbers them, are `w`; bits above
`nbits` are 0. -/
def decodeTableWord (nbits w : Nat) : Option Instr :=
  match decodeBytes (bytesOfNat maxInstrBytes (w % 2 ^ nbits)) with
  | .ok (i, _) => some i
  | .error _ => none

/-- The instruction word of an instruction, field by field from R122 and R126. -/
def encode : Instr → Word
  | .halt => 0o000000#16
  | .wait => 0o000001#16
  | .rti => 0o000002#16
  | .bpt => 0o000003#16
  | .iot => 0o000004#16
  | .reset => 0o000005#16
  | .rtt => 0o000006#16
  | .jmp dst => 0o0001#10 ++ dst.toBits
  | .rts reg => 0o00020#13 ++ Reg.toBits reg
  | .spl level => 0o00023#13 ++ level
  | .ccClear mask => 0b000000001010#12 ++ mask
  | .ccSet mask => 0b000000001011#12 ++ mask
  | .swab dst => 0o0003#10 ++ dst.toBits
  | .br off => 0o001#8 ++ off
  | .bne off => 0o002#8 ++ off
  | .beq off => 0o003#8 ++ off
  | .bge off => 0o004#8 ++ off
  | .blt off => 0o005#8 ++ off
  | .bgt off => 0o006#8 ++ off
  | .ble off => 0o007#8 ++ off
  | .jsr reg dst => 0b0000100#7 ++ (Reg.toBits reg ++ dst.toBits)
  | .clr dst => 0o0050#10 ++ dst.toBits
  | .clrb dst => 0o1050#10 ++ dst.toBits
  | .com dst => 0o0051#10 ++ dst.toBits
  | .comb dst => 0o1051#10 ++ dst.toBits
  | .inc dst => 0o0052#10 ++ dst.toBits
  | .incb dst => 0o1052#10 ++ dst.toBits
  | .dec dst => 0o0053#10 ++ dst.toBits
  | .decb dst => 0o1053#10 ++ dst.toBits
  | .neg dst => 0o0054#10 ++ dst.toBits
  | .negb dst => 0o1054#10 ++ dst.toBits
  | .adc dst => 0o0055#10 ++ dst.toBits
  | .adcb dst => 0o1055#10 ++ dst.toBits
  | .sbc dst => 0o0056#10 ++ dst.toBits
  | .sbcb dst => 0o1056#10 ++ dst.toBits
  | .tst dst => 0o0057#10 ++ dst.toBits
  | .tstb dst => 0o1057#10 ++ dst.toBits
  | .ror dst => 0o0060#10 ++ dst.toBits
  | .rorb dst => 0o1060#10 ++ dst.toBits
  | .rol dst => 0o0061#10 ++ dst.toBits
  | .rolb dst => 0o1061#10 ++ dst.toBits
  | .asr dst => 0o0062#10 ++ dst.toBits
  | .asrb dst => 0o1062#10 ++ dst.toBits
  | .asl dst => 0o0063#10 ++ dst.toBits
  | .aslb dst => 0o1063#10 ++ dst.toBits
  | .mark nn => 0o0064#10 ++ nn
  | .mfpi src => 0o0065#10 ++ src.toBits
  | .mtpi dst => 0o0066#10 ++ dst.toBits
  | .sxt dst => 0o0067#10 ++ dst.toBits
  | .mov src dst => 0o01#4 ++ (src.toBits ++ dst.toBits)
  | .movb src dst => 0o11#4 ++ (src.toBits ++ dst.toBits)
  | .cmp src dst => 0o02#4 ++ (src.toBits ++ dst.toBits)
  | .cmpb src dst => 0o12#4 ++ (src.toBits ++ dst.toBits)
  | .bit src dst => 0o03#4 ++ (src.toBits ++ dst.toBits)
  | .bitb src dst => 0o13#4 ++ (src.toBits ++ dst.toBits)
  | .bic src dst => 0o04#4 ++ (src.toBits ++ dst.toBits)
  | .bicb src dst => 0o14#4 ++ (src.toBits ++ dst.toBits)
  | .bis src dst => 0o05#4 ++ (src.toBits ++ dst.toBits)
  | .bisb src dst => 0o15#4 ++ (src.toBits ++ dst.toBits)
  | .add src dst => 0o06#4 ++ (src.toBits ++ dst.toBits)
  | .sub src dst => 0o16#4 ++ (src.toBits ++ dst.toBits)
  | .mul reg src => 0b0111000#7 ++ (Reg.toBits reg ++ src.toBits)
  | .div reg src => 0b0111001#7 ++ (Reg.toBits reg ++ src.toBits)
  | .ash reg src => 0b0111010#7 ++ (Reg.toBits reg ++ src.toBits)
  | .ashc reg src => 0b0111011#7 ++ (Reg.toBits reg ++ src.toBits)
  | .xor reg dst => 0b0111100#7 ++ (Reg.toBits reg ++ dst.toBits)
  | .sob reg nn => 0b0111111#7 ++ (Reg.toBits reg ++ nn)
  | .bpl off => 0o200#8 ++ off
  | .bmi off => 0o201#8 ++ off
  | .bhi off => 0o202#8 ++ off
  | .blos off => 0o203#8 ++ off
  | .bvc off => 0o204#8 ++ off
  | .bvs off => 0o205#8 ++ off
  | .bcc off => 0o206#8 ++ off
  | .bcs off => 0o207#8 ++ off
  | .emt code => 0o210#8 ++ code
  | .trap code => 0o211#8 ++ code

/-- The number of extension words an operand takes from the instruction stream: one for modes 6 and 7, and for modes 2 and 3 on
R7 (R120, R121). -/
def Operand.extensionWords (o : Operand) : Nat :=
  match o.mode with
  | .indexed => 1
  | .indexedDeferred => 1
  | .autoInc => if o.reg = PC then 1 else 0
  | .autoIncDeferred => if o.reg = PC then 1 else 0
  | _ => 0

end Sys2Proof
end

