-- ==== Sys2Proof/Machine/State.lean ====
section
/-! DEFINITION. The state of the machine, all of it, as plain data (10_state.md), why a step can stop, and the state after reset
(10_state.md R46, 70_reset_and_hazards.md R380). -/

namespace Sys2Proof.Machine

/-- The fatal conditions, all of them (10_state.md R42, 60_exceptions.md R340). -/
inductive FatalReason where
  /-- ODD_VECTOR: an odd interrupt vector given to the controller (R330), or a trap sequence at an odd vector (R322). -/
  | oddVector
  /-- IRQ_OVERFLOW: a ninth concurrent interrupt request (R330). -/
  | irqOverflow
  /-- REG_OPERAND: a register operand where a memory address is required (40_addressing_modes.md R161). -/
  | regOperand
  /-- DOUBLE_FAULT: a trap raised by an access of the trap sequence itself (R326). -/
  | doubleFault
  deriving DecidableEq, Repr

/-- RUN (R42). -/
inductive RunState where
  /-- The engine steps. -/
  | running
  /-- Entered by WAIT in kernel mode, left only by the delivery of an interrupt. -/
  | waiting
  /-- Entered by HALT in kernel mode, absorbing. -/
  | halted
  /-- Entered by a fatal condition, absorbing. -/
  | fatal (reason : FatalReason)
  deriving DecidableEq, Repr

/-- A device's request, and an entry of the interrupt table (R40): an 8-bit vector and a priority 0..7. -/
structure IrqRequest where
  vector : Byte
  priority : BitVec 3
  deriving DecidableEq, Repr

/-- An event at a device port, performed by the core (00_scope.md R12, R13, 20_memory.md R86, R110). -/
inductive PortEvent where
  /-- `DevRead16(pa)` on the device of port `port`, answered by `answer`. -/
  | read (port : Nat) (pa : Nat) (answer : Word)
  /-- `DevWrite16(pa, value)` on the device of port `port`. -/
  | write (port : Nat) (pa : Nat) (value : Word)
  /-- One `DevReset()` pulse on every device. -/
  | devReset
  deriving DecidableEq, Repr

/-- The state of the core, and after it the platform's data that a step reads or records (INVENTORY.md, State). -/
structure State where
  /-- R[0..7]: R6 is the live stack pointer, R7 the program counter (R20 to R23). -/
  regs : Vector Word 8
  /-- SPBANK[0..3]: kernel, supervisor, illegal, user (R22). -/
  spbank : Vector Word 4
  /-- The processor status word, 16 bits of storage (R24). -/
  psw : Word
  /-- PAR[K][0..7] (R33). -/
  kpar : Vector Word 8
  /-- PDR[K][0..7] (R34). -/
  kpdr : Vector Word 8
  /-- PAR[U][0..7] (R33). -/
  upar : Vector Word 8
  /-- PDR[U][0..7] (R34). -/
  updr : Vector Word 8
  /-- The translator's status register (R36, R37). -/
  sr0 : Word
  /-- The address of the instruction last fetched while no abort was recorded (R38). -/
  sr2 : Word
  /-- ITAB: the non-sentinel entries, slot 0 first; the slots after them hold the sentinel (R40). -/
  itab : List IrqRequest
  /-- MEM, by bytes: strictly rising physical byte addresses; an address not listed has not been written since reset (R41, log 5). -/
  mem : List Host.Cell
  /-- RUN (R42). -/
  run : RunState
  /-- The configuration of this machine, which no step changes (00_scope.md R6, logs 1, 5, 6, 13). -/
  cfg : Config
  /-- The environment's answers to the coming device reads, the next one first (00_scope.md R12, log 2). -/
  devIn : List Word
  /-- How many device reads a free value has answered, once devIn was used up (log 2). -/
  draws : Nat
  /-- The port events performed so far, the latest first (log 3). -/
  ports : List PortEvent
  /-- The environment's coming turns, the next one first: the requests that arrive in it, in order (00_scope.md R14, R15, log 4). -/
  arrivals : List (List IrqRequest)
  deriving DecidableEq, Repr

/-- A fault outcome: the only one is FATAL(reason) (00_scope.md R9: "In a model, `FATAL` is a fault outcome"). -/
inductive Fault where
  /-- The core stopped in FATAL(reason); `left` is the state it stopped in, RUN = FATAL(reason) (60_exceptions.md R340, U5).
  Raised by JMP, JSR, MFPI and MTPI (REG_OPERAND), by the trap sequence (DOUBLE_FAULT, ODD_VECTOR), by the environment's turn
  (ODD_VECTOR, IRQ_OVERFLOW), and by a step from a state that is already FATAL.
  Safe: the machine has no behaviour after it (log 7). -/
  | fatal (reason : FatalReason) (left : State)
  deriving DecidableEq, Repr

/-- A refusal outcome. -/
inductive Refusal where
  /-- An instruction that has no meaning yet; raised by no arm of exec once every instruction has its meaning. Safe. -/
  | notModelled (mnemonic : String)
  /-- The environment presented a request of vector 0, the sentinel, which is not a legal request (60_exceptions.md R330, D37;
  U9: refuse). Raised by the environment's turn. Safe (log 9). -/
  | vectorZeroRequest
  deriving DecidableEq, Repr

/-- The state right after the reset of a machine of configuration `c` (R46, R380). Memory lists nothing: the bootstrap words and
MEM_INIT are what an unlisted address reads as. Reset pulses DevReset once. -/
def State.resetOf (c : Config) : State where
  regs := ⟨#[0, 0, 0, 0, 0, 0, 0, c.bootEntry], rfl⟩
  spbank := ⟨#[0, 0, 0, 0], rfl⟩
  psw := 0
  kpar := ⟨#[0, 0, 0, 0, 0, 0, 0, 0], rfl⟩
  kpdr := ⟨#[0, 0, 0, 0, 0, 0, 0, 0], rfl⟩
  upar := ⟨#[0, 0, 0, 0, 0, 0, 0, 0], rfl⟩
  updr := ⟨#[0, 0, 0, 0, 0, 0, 0, 0], rfl⟩
  sr0 := 0
  sr2 := 0
  itab := []
  mem := []
  run := .running
  cfg := c
  devIn := []
  draws := 0
  ports := [.devReset]
  arrivals := []

/-- The state right after reset, in R6's default configuration. -/
def State.reset : State := State.resetOf Config.default

end Sys2Proof.Machine
end

