-- ==== Sys2Proof/Machine/Ops.lean ====
section
/-! DEFINITION. The named operations over registers, the PSW, memory, the router, the translator and the stack; the raising of a trap,
the ONE trap sequence (60_exceptions.md R322) and the return from it (45_trap_system.md R287); the interrupt table; the fetch.
An operation is a function of the state that completes, or raises and keeps the effects it already had (70_reset_and_hazards.md R388). -/

namespace Sys2Proof.Machine

/-! ### Raising -/

/-- What a statement of the pseudocode can raise (00_scope.md R8). -/
inductive Raise where
  /-- `raise Trap(vec)`. -/
  | trap (vec : Word)
  /-- `raise Fatal(reason)`. -/
  | fatal (reason : FatalReason)
  deriving DecidableEq, Repr

/-- A piece of pseudocode: it ends with a value, or raises; either way it leaves a state (R8, R388: no rollback). -/
abbrev Exec (α : Type) : Type := EStateM Raise State α

/-- `raise Trap(vec)`. -/
def raiseTrap {α : Type} (vec : Word) : Exec α := throw (.trap vec)

/-- `raise Trap(VEC)`, at a vector of the configuration: `raiseAt Config.vecBus` (00_scope.md R6, R8). -/
def raiseAt {α : Type} (vec : Config → Word) : Exec α := fun s => raiseTrap (vec s.cfg) s

/-- `raise Fatal(reason)`. -/
def raiseFatal {α : Type} (reason : FatalReason) : Exec α := throw (.fatal reason)

/-- The outcome of a step that ends in FATAL(reason): RUN becomes FATAL(reason) (40_addressing_modes.md R150, R340). -/
def stopFatal (reason : FatalReason) (s : State) : Host.Outcome State Fault Refusal :=
  .fault (.fatal reason { s with run := .fatal reason })

/-! ### General registers (10_state.md R20, R21) -/

/-- `R[n]`. -/
def State.reg (s : State) (n : Reg) : Word := s.regs.get n

/-- `R[n] <- v`. -/
def State.setReg (s : State) (n : Reg) (v : Word) : State :=
  { s with regs := s.regs.set n.val v n.isLt }

/-- Reads `R[n]` at the moment the statement executes (40_addressing_modes.md R164). -/
def getReg (n : Reg) : Exec Word := fun s => .ok (s.reg n) s

/-- `R[n] <- v` as a statement. -/
def putReg (n : Reg) (v : Word) : Exec Unit := fun s => .ok () (s.setReg n v)

/-! ### The PSW (10_state.md R24 to R30) -/

/-- cm, the current mode: PSW[15:14]. -/
def State.cm (s : State) : ModeBits := s.psw.extractLsb' 14 2

/-- pm, the previous mode: PSW[13:12]. -/
def State.pm (s : State) : ModeBits := s.psw.extractLsb' 12 2

/-- pri, the interrupt priority level: PSW[7:5] (R27). -/
def State.pri (s : State) : BitVec 3 := s.psw.extractLsb' 5 3

/-- The condition codes N, Z, V, C: PSW bits 3, 2, 1, 0 (R25). -/
structure CC where
  n : Bool
  z : Bool
  v : Bool
  c : Bool
  deriving DecidableEq, Repr

/-- The four bits N Z V C, N highest (R25). -/
def CC.toBits (f : CC) : BitVec 4 :=
  BitVec.ofBool f.n ++ (BitVec.ofBool f.z ++ (BitVec.ofBool f.v ++ BitVec.ofBool f.c))

/-- The condition codes in a word laid out as the PSW (R25). -/
def CC.ofPsw (w : Word) : CC :=
  ⟨w.getLsbD 3, w.getLsbD 2, w.getLsbD 1, w.getLsbD 0⟩

/-- The condition codes of the state. -/
def State.cc (s : State) : CC := CC.ofPsw s.psw

/-- Writes PSW[3:0] in place; no other bit changes and the stack pointer is not switched (R30). -/
def State.setLow (s : State) (b : BitVec 4) : State :=
  { s with psw := s.psw.extractLsb' 4 12 ++ b }

/-- `NZVC <- f` (R8, R26). -/
def State.setCC (s : State) (f : CC) : State := s.setLow f.toBits

/-- `PSW[7:5] <- n`, in place (R27, R30). -/
def State.setPri (s : State) (n : BitVec 3) : State :=
  { s with psw := s.psw.extractLsb' 8 8 ++ (n ++ s.psw.extractLsb' 0 5) }

/-- SPBANK[m] (R22). -/
def State.sp (s : State) (m : ModeBits) : Word := s.spbank.get m.toFin

/-- `SPBANK[m] <- v`. -/
def State.setSp (s : State) (m : ModeBits) (v : Word) : State :=
  { s with spbank := s.spbank.set m.toFin.val v m.toFin.isLt }

/-- `SPof(m)`: R6 for the current mode, the bank entry for another (R22). -/
def State.spOf (s : State) (m : ModeBits) : Word :=
  if m = s.cm then s.reg SP else s.sp m

/-- `SPof(m) <- v`: R6 for the current mode, the bank entry for another (R22). -/
def State.setSpOf (s : State) (m : ModeBits) (v : Word) : State :=
  if m = s.cm then s.setReg SP v else s.setSp m v

/-- `SetPSW(v)`: all 16 bits; when the current mode changes, R6 goes to the old mode's bank entry and comes from the new mode's (R30). -/
def State.setPsw (s : State) (v : Word) : State :=
  { s with
    psw := v
    regs := if v.extractLsb' 14 2 = s.cm then s.regs else s.regs.set SP.val (s.sp (v.extractLsb' 14 2)) SP.isLt
    spbank := if v.extractLsb' 14 2 = s.cm then s.spbank else s.spbank.set s.cm.toFin.val (s.reg SP) s.cm.toFin.isLt }

/-- The PSW, read. -/
def getPsw : Exec Word := fun s => .ok s.psw s

/-- The condition codes, read. -/
def getCC : Exec CC := fun s => .ok s.cc s

/-- `NZVC <- f` as a statement. -/
def putCC (f : CC) : Exec Unit := fun s => .ok () (s.setCC f)

/-- `SetPSW(v)` as a statement. -/
def putPsw (v : Word) : Exec Unit := fun s => .ok () (s.setPsw v)

/-! ### The memory array (10_state.md R41, 20_memory.md R64, R70) -/

/-- Bits 7:0 of a word: the byte at its even address (R70). -/
def lowByte (w : Word) : Byte := w.extractLsb' 0 8

/-- Bits 15:8 of a word: the byte at the odd address after it (R70). -/
def highByte (w : Word) : Byte := w.extractLsb' 8 8

/-- Word k of BOOT_WORDS: the configuration's, or a free value (70_reset_and_hazards.md R380, log 6). -/
def Memory.bootWord (c : Config) (k : Nat) : Word := c.bootWords.getD k (Config.freeBootWord k)

/-- MEM_INIT at an even address: the configuration's, or a free value (R46, log 5). -/
def Memory.initWord (c : Config) (a : Nat) : Word := (c.memInit.lookup a).getD (Config.freeMemInit a)

/-- What a byte not written since reset reads as: a bootstrap word's byte in the bootstrap region, MEM_INIT's elsewhere (R46, R380). -/
def Memory.unlisted (c : Config) (a : Nat) : Byte :=
  let w := if c.bootBase ≤ a ∧ a < c.bootBase + 2 * Config.bootLength
    then Memory.bootWord c ((a - c.bootBase) / 2) else Memory.initWord c (a - a % 2)
  if a % 2 = 0 then lowByte w else highByte w

/-- The byte listed at an address, if one is. -/
def Memory.lookup : List Host.Cell → Nat → Option Byte
  | [], _ => none
  | (x, b) :: m, a => if a = x then some b else if a < x then none else Memory.lookup m a

/-- The byte at a physical address of the memory array. -/
def Memory.readByte (c : Config) (m : List Host.Cell) (a : Nat) : Byte :=
  (Memory.lookup m a).getD (Memory.unlisted c a)

/-- Writes a byte, keeping the addresses strictly rising. -/
def Memory.writeByte : List Host.Cell → Nat → Byte → List Host.Cell
  | [], a, v => [(a, v)]
  | (x, b) :: m, a, v =>
    if a = x then (a, v) :: m else if a < x then (a, v) :: (x, b) :: m else (x, b) :: Memory.writeByte m a v

/-- The word at an even address: the byte there is its low half (R70). -/
def Memory.readWord (c : Config) (m : List Host.Cell) (a : Nat) : Word :=
  Memory.readByte c m (a + 1) ++ Memory.readByte c m a

/-- Writes the word at an even address (R70). -/
def Memory.writeWord (m : List Host.Cell) (a : Nat) (w : Word) : List Host.Cell :=
  Memory.writeByte (Memory.writeByte m a (lowByte w)) (a + 1) (highByte w)

/-- The canonical form: addresses strictly rising, above the bound `lo`. -/
def Memory.risingFrom : Nat → List Host.Cell → Bool
  | _, [] => true
  | lo, (x, _) :: m => decide (lo ≤ x) && Memory.risingFrom (x + 1) m

/-- The canonical form of memory: addresses strictly rising and below `top`, which is IO_BASE (R41). What an unlisted address
holds is no listed byte, so no entry can equal it (log 5). -/
def Memory.wf (top : Nat) (m : List Host.Cell) : Bool :=
  Memory.risingFrom 0 m && m.all fun c => decide (c.1 < top)

/-- The byte at a physical address of the memory array, in a state. -/
def State.byteAt (s : State) (a : Nat) : Byte := Memory.readByte s.cfg s.mem a

/-- The word at an even physical address of the memory array, in a state. -/
def State.wordAt (s : State) (a : Nat) : Word := Memory.readWord s.cfg s.mem a

/-- `MEM[a >> 1] <- w` (R62, R64). -/
def State.setWord (s : State) (a : Nat) (w : Word) : State :=
  { s with mem := Memory.writeWord s.mem a w }

/-! ### The translator's registers and the core's own registers (10_state.md R32 to R38, 20_memory.md R65) -/

/-- The two descriptor banks (R32). -/
inductive Bank where
  | kernel
  | user
  deriving DecidableEq, Repr

/-- The bank a mode selects: the user bank for mode 3, the kernel bank for 0, 1 and 2 (20_memory.md R98). -/
def bankOf (m : ModeBits) : Bank := if m = 3#2 then .user else .kernel

/-- PAR[b][i] (R33). -/
def State.par (s : State) (b : Bank) (i : Fin 8) : Word :=
  match b with
  | .kernel => s.kpar.get i
  | .user => s.upar.get i

/-- PDR[b][i] (R34). -/
def State.pdr (s : State) (b : Bank) (i : Fin 8) : Word :=
  match b with
  | .kernel => s.kpdr.get i
  | .user => s.updr.get i

/-- `PAR[b][i] <- v`: all 16 bits are stored (R33). -/
def State.setPar (s : State) (b : Bank) (i : Fin 8) (v : Word) : State :=
  { s with
    kpar := match b with
      | .kernel => s.kpar.set i.val v i.isLt
      | .user => s.kpar
    upar := match b with
      | .kernel => s.upar
      | .user => s.upar.set i.val v i.isLt }

/-- `PDR[b][i] <- v`: all 16 bits are stored, W included (R34). -/
def State.setPdr (s : State) (b : Bank) (i : Fin 8) (v : Word) : State :=
  { s with
    kpdr := match b with
      | .kernel => s.kpdr.set i.val v i.isLt
      | .user => s.kpdr
    updr := match b with
      | .kernel => s.updr
      | .user => s.updr.set i.val v i.isLt }

/-- `SR0 <- v` (R37). -/
def State.setSr0 (s : State) (v : Word) : State := { s with sr0 := v }

/-- `SR2 <- v` (R38). -/
def State.setSr2 (s : State) (v : Word) : State := { s with sr2 := v }

/-- The core's own memory-mapped registers (R65). -/
inductive CoreReg where
  | pdr (b : Bank) (i : Fin 8)
  | par (b : Bank) (i : Fin 8)
  | sr0
  | sr2
  | psw
  deriving DecidableEq, Repr

/-- The address lies in the eight-word block that starts at `base`. -/
def inBlock (base a : Nat) : Bool := decide (base ≤ a) && decide (a < base + 16)

/-- The index of the word at `a` in the eight-word block that starts at `base`. -/
def blockIndex (base a : Nat) : Fin 8 := Fin.ofNat 8 ((a - base) / 2)

/-- The core register at an even physical address, if there is one (R65, R66: exactly these). -/
def coreRegAt (c : Config) (pa : Nat) : Option CoreReg :=
  if inBlock c.addrKpdr pa then some (.pdr .kernel (blockIndex c.addrKpdr pa))
  else if inBlock c.addrKpar pa then some (.par .kernel (blockIndex c.addrKpar pa))
  else if pa = c.addrSr0 then some .sr0
  else if pa = c.addrSr2 then some .sr2
  else if inBlock c.addrUpdr pa then some (.pdr .user (blockIndex c.addrUpdr pa))
  else if inBlock c.addrUpar pa then some (.par .user (blockIndex c.addrUpar pa))
  else if pa = c.addrPsw then some .psw
  else none

/-- The 16 bits a core register reads as (R65). -/
def State.readCore (s : State) (r : CoreReg) : Word :=
  match r with
  | .pdr b i => s.pdr b i
  | .par b i => s.par b i
  | .sr0 => s.sr0
  | .sr2 => s.sr2
  | .psw => s.psw

/-- A write to a core register: SR2 ignores it, the PSW is written with SetPSW, the others store the word (R65, R31, R38). -/
def State.writeCore (s : State) (r : CoreReg) (w : Word) : State :=
  match r with
  | .pdr b i => s.setPdr b i w
  | .par b i => s.setPar b i w
  | .sr0 => s.setSr0 w
  | .sr2 => s
  | .psw => s.setPsw w

/-! ### Device ports (00_scope.md R12, R13) -/

/-- The device bound to a physical address, if it lies in a range of DEVICE_RANGES (20_memory.md R61, R67). -/
def deviceAt (ranges : List DeviceRange) (pa : Nat) : Option DeviceRange :=
  ranges.find? fun r => decide (r.lo ≤ pa) && decide (pa ≤ r.hi)

/-- Records a port event. -/
def State.logPort (s : State) (e : PortEvent) : State := { s with ports := e :: s.ports }

/-- `DevRead16(pa)`: the word is the environment's choice, any value (R12, U10); the event is recorded. -/
def devRead (port : Nat) (pa : Nat) : Exec Word := fun s =>
  match s.devIn with
  | w :: rest => .ok w ({ s with devIn := rest }.logPort (.read port pa w))
  | [] =>
    let w := Config.deviceAnswer s.draws
    .ok w ({ s with draws := s.draws + 1 }.logPort (.read port pa w))

/-- `DevWrite16(pa, w)`: the event is recorded. -/
def devWrite (port : Nat) (pa : Nat) (w : Word) : Exec Unit := fun s =>
  .ok () (s.logPort (.write port pa w))

/-- `DevReset()`: one pulse on every device; no state of the core changes (45_trap_system.md R291, D19). -/
def devReset : Exec Unit := fun s => .ok () (s.logPort .devReset)

/-! ### The router (20_memory.md R60 to R66) -/

/-- `raise BusError` (R63). -/
def busError {α : Type} : Exec α := raiseAt Config.vecBus

/-- `PhysRead16(pa)` (R61). -/
def physRead (pa : Nat) : Exec Word := fun s =>
  if pa % 2 = 1 then busError s
  else if pa < s.cfg.ioBase then .ok (s.wordAt pa) s
  else match coreRegAt s.cfg pa with
    | some r => .ok (s.readCore r) s
    | none => match deviceAt s.cfg.devRanges pa with
      | some d => devRead d.port pa s
      | none => busError s

/-- `PhysWrite16(pa, w)` (R62). -/
def physWrite (pa : Nat) (w : Word) : Exec Unit := fun s =>
  if pa % 2 = 1 then busError s
  else if pa < s.cfg.ioBase then .ok () (s.setWord pa w)
  else match coreRegAt s.cfg pa with
    | some r => .ok () (s.writeCore r w)
    | none => match deviceAt s.cfg.devRanges pa with
      | some d => devWrite d.port pa w s
      | none => busError s

/-! ### The translator (20_memory.md R90 to R100) -/

/-- The three kinds of memory-management fault (R90). -/
inductive MmuFaultKind where
  | noAccess
  | length
  | readOnly
  deriving DecidableEq, Repr

/-- SR0[15:13] of a fault: exactly one abort bit (R36, R95). -/
def MmuFaultKind.abortBits : MmuFaultKind → BitVec 3
  | .noAccess => 0b100#3
  | .length => 0b010#3
  | .readOnly => 0b001#3

/-- The word a fault writes to SR0: one abort bit, the mode in 6:5, the page in 3:1, EN = 1, every other bit 0 (R95). -/
def faultRecord (kind : MmuFaultKind) (m : ModeBits) (page : BitVec 3) : Word :=
  kind.abortBits ++ (0#6 ++ (m ++ (0#1 ++ (page ++ 1#1))))

/-- `Fault(kind, m, p)`: SR0 is written, then `Trap(VEC_MMU)` is raised (R95). -/
def mmuFault {α : Type} (kind : MmuFaultKind) (m : ModeBits) (page : BitVec 3) : Exec α := fun s =>
  raiseAt Config.vecMmu (s.setSr0 (faultRecord kind m page))

/-- PDR[14:8], PLF: the length field, in blocks of 64 bytes (R34). -/
def pdrLength (d : Word) : BitVec 7 := d.extractLsb' 8 7

/-- PDR[2:1], ACF: the access-control field (R34, R35). -/
def pdrAccess (d : Word) : BitVec 2 := d.extractLsb' 1 2

/-- PDR[3], ED: the page grows downward (R34). -/
def pdrDown (d : Word) : Bool := d.getLsbD 3

/-- PDR with W, bit 6, set (R34, R96). -/
def pdrModified (d : Word) : Word := d ||| 0o000100#16

/-- va[15:13], the page number (R92). -/
def pageOf (va : Word) : BitVec 3 := va.extractLsb' 13 3

/-- va[12:6], the block number (R92). -/
def blockOf (va : Word) : BitVec 7 := va.extractLsb' 6 7

/-- The violation an access meets at a descriptor, if any: access control first, then length (R92, R93, R94). -/
def violation (d : Word) (block : BitVec 7) (wr : Bool) : Option MmuFaultKind :=
  if pdrAccess d = 0#2 ∨ pdrAccess d = 2#2 then some .noAccess
  else if pdrAccess d = 1#2 ∧ wr = true then some .readOnly
  else if pdrDown d = true ∧ block.toNat < (pdrLength d).toNat then some .length
  else if pdrDown d = false ∧ (pdrLength d).toNat < block.toNat then some .length
  else none

/-- The physical address of a page's frame and a virtual address: frame plus block, times 64, plus displacement, modulo 2^PA_WIDTH
(R92, R97). -/
def relocate (c : Config) (par va : Word) : Nat :=
  (((par.extractLsb' 0 12).toNat + (blockOf va).toNat) * 64 + (va.extractLsb' 0 6).toNat) % 2 ^ c.paWidth

/-- The disabled-translation map (R91). -/
def mapDirect (c : Config) (va : Word) : Nat :=
  if c.vaIoBase ≤ va.toNat then (va.toNat + c.ioOffset) % 2 ^ c.paWidth else va.toNat

/-- SR0[0], EN: translation is enabled (10_state.md R36). -/
def State.mmuOn (s : State) : Bool := s.sr0.getLsbD 0

/-- `Translate(va, m, wr)` (R90 to R97). -/
def translate (va : Word) (m : ModeBits) (wr : Bool) : Exec Nat := fun s =>
  if s.mmuOn then
    let b := bankOf m
    let p := pageOf va
    match violation (s.pdr b p.toFin) (blockOf va) wr with
    | some kind => mmuFault kind m p s
    | none =>
      .ok (relocate s.cfg (s.par b p.toFin) va) (if wr then s.setPdr b p.toFin (pdrModified (s.pdr b p.toFin)) else s)
  else .ok (mapDirect s.cfg va) s

/-! ### Memory access (20_memory.md R80 to R82). A byte is carried in bits 7:0 of a word, the high half 0. -/

/-- `pa` with bit 0 cleared (R81, R82). -/
def evenAddr (pa : Nat) : Nat := pa - pa % 2

/-- Selects the byte of a word that an address names (R70, R81). -/
def selectByte (pa : Nat) (w : Word) : Word :=
  if pa % 2 = 1 then (highByte w).zeroExtend 16 else (lowByte w).zeroExtend 16

/-- Replaces the byte of a word that an address names (R70, R82). -/
def mergeByte (pa : Nat) (w v : Word) : Word :=
  if pa % 2 = 1 then lowByte v ++ lowByte w else highByte w ++ lowByte v

/-- `MemRead(va, n, m)` (R81). -/
def memReadAs (m : ModeBits) (va : Word) (sz : Size) : Exec Word := do
  let pa ← translate va m false
  match sz with
  | .word => physRead pa
  | .byte => do
    let w ← physRead (evenAddr pa)
    pure (selectByte pa w)

/-- `MemWrite(va, n, v, m)` (R82). -/
def memWriteAs (m : ModeBits) (va : Word) (sz : Size) (v : Word) : Exec Unit := do
  let pa ← translate va m true
  match sz with
  | .word => physWrite pa v
  | .byte => do
    let w ← physRead (evenAddr pa)
    physWrite (evenAddr pa) (mergeByte pa w v)

/-- `MemRead(va, n)`: in the current mode (R98). -/
def memRead (va : Word) (sz : Size) : Exec Word := fun s => memReadAs s.cm va sz s

/-- `MemWrite(va, n, v)`: in the current mode (R98). -/
def memWrite (va : Word) (sz : Size) (v : Word) : Exec Unit := fun s => memWriteAs s.cm va sz v s

/-! ### The stack (00_scope.md R8) -/

/-- `Push(v)`: SP is lowered first, and stays lowered if the write raises. -/
def push (v : Word) : Exec Unit := do
  let sp ← getReg SP
  putReg SP (sp - 2)
  memWrite (sp - 2) .word v

/-- `Pop()`. -/
def pop : Exec Word := do
  let sp ← getReg SP
  let t ← memRead sp .word
  putReg SP (sp + 2)
  pure t

/-! ### Taking a trap and returning from one (60_exceptions.md R322 to R326, 45_trap_system.md R287) -/

/-- A trap raised by an access of the trap sequence itself is FATAL(DOUBLE_FAULT) (R326). -/
def doubleFaultOnTrap {α : Type} (x : Exec α) : Exec α := fun s =>
  match x s with
  | .ok a t => .ok a t
  | .error (.trap _) t => .error (.fatal .doubleFault) t
  | .error (.fatal r) t => .error (.fatal r) t

/-- The PSW while the frame is pushed: cm kernel, pm the old cm, bits 11:0 kept (R322). -/
def kernelPsw (old : Word) : Word := 0#2 ++ (old.extractLsb' 14 2 ++ old.extractLsb' 0 12)

/-- The PSW loaded from a vector: bits 13:12 replaced by the old mode (R322, R324). -/
def vectorPsw (npsw old : Word) : Word :=
  npsw.extractLsb' 14 2 ++ (old.extractLsb' 14 2 ++ npsw.extractLsb' 0 12)

/-- A push of the trap sequence: on the kernel stack, the word written in mode 0 (20_memory.md R98, R323). In kernel mode it is Push. -/
def pushKernel (v : Word) : Exec Unit := fun s =>
  memWriteAs 0#2 (s.spOf 0#2 - 2) .word v (s.setSpOf 0#2 (s.spOf 0#2 - 2))

/-- The body of the trap sequence, after the check of the vector (R322). Every access is in mode 0 and the frame is on the kernel stack
(20_memory.md R98, R323), also where a push lands on ADDR_PSW and so runs SetPSW in mid-sequence; that the second push then takes the
kernel stack pointer from its bank entry, and not the R6 which R322's Push names, is DEDUCED (log 16, unsafe). -/
def trapSequence (vec : Word) : Exec Unit := do
  let old ← getPsw
  let opc ← getReg PC
  putPsw (kernelPsw old)
  pushKernel old
  pushKernel opc
  let npc ← memReadAs 0#2 vec .word
  let npsw ← memReadAs 0#2 (vec + 2) .word
  putReg PC npc
  putPsw (vectorPsw npsw old)

/-- `TrapAt(vec)`: the one sequence every trap and interrupt uses (R322, R326). -/
def trapAt (vec : Word) : Exec Unit := fun s =>
  if vec.getLsbD 0 then raiseFatal .oddVector s else doubleFaultOnTrap (trapSequence vec) s

/-- A synchronous trap taken: the trap sequence ends the step (40_addressing_modes.md R154), or it is fatal. -/
def takeTrap (vec : Word) (s : State) : Host.Outcome State Fault Refusal :=
  match trapAt vec s with
  | .ok _ t => .next t
  | .error (.fatal r) t => stopFatal r t
  | .error (.trap _) t => stopFatal .doubleFault t

/-- Runs an instruction's pseudocode to its outcome: a trap it raises is taken in the same step (R150, R154). -/
def runBody (x : Exec Unit) (s : State) : Host.Outcome State Fault Refusal :=
  match x s with
  | .ok _ t => .next t
  | .error (.trap vec) t => takeTrap vec t
  | .error (.fatal r) t => stopFatal r t

/-- The PSW a return loads outside kernel mode: only bits 4:0 come from the stack (45_trap_system.md R287). -/
def userReturnPsw (psw npsw : Word) : Word := psw.extractLsb' 5 11 ++ npsw.extractLsb' 0 5

/-- The PSW a return loads: the whole word in kernel mode, a part of it in the others (R287). -/
def returnPsw (psw npsw : Word) : Word :=
  if psw.extractLsb' 14 2 = 0#2 then npsw else userReturnPsw psw npsw

/-- The return from a trap: PC, then PSW, popped from the current stack, then loaded (R287). -/
def returnFromTrap : Exec Unit := do
  let npc ← pop
  let npsw ← pop
  putReg PC npc
  let psw ← getPsw
  putPsw (returnPsw psw npsw)

/-! ### The interrupt table (60_exceptions.md R330 to R333) -/

/-- An entry that stays ahead of a new request: higher priority, or equal priority and no greater vector (R330). -/
def outranks (e q : IrqRequest) : Bool :=
  decide (q.priority.toNat < e.priority.toNat) ||
    (decide (e.priority = q.priority) && decide (e.vector.toNat ≤ q.vector.toNat))

/-- Inserts a request behind every entry that outranks it; the entries after it move one slot toward the tail (R330). -/
def insertIrq (q : IrqRequest) : List IrqRequest → List IrqRequest
  | [] => [q]
  | e :: t => if outranks e q then e :: insertIrq q t else q :: e :: t

/-- `popirq()`: the later entries move down by one and the sentinel comes in at the tail (R332). -/
def popIrq (t : List IrqRequest) : List IrqRequest := t.tail

/-- Slot j of ITAB: the entry held there, or the sentinel {0, 0} (10_state.md R40). -/
def State.itabSlot (s : State) (j : Nat) : IrqRequest := s.itab.getD j ⟨0, 0⟩

/-- `interrupt(vec, pri)`: an odd vector and a ninth request are fatal; vector 0 is outside the environment's domain (R330, U9). -/
def acceptIrq (q : IrqRequest) (s : State) : Host.Outcome State Fault Refusal :=
  if q.vector.getLsbD 0 then stopFatal .oddVector s
  else if q.vector = 0#8 then .refused .vectorZeroRequest
  else if s.cfg.itabSlots ≤ s.itab.length then stopFatal .irqOverflow s
  else .next { s with itab := insertIrq q s.itab }

/-- The requests of one turn, in the order they arrive (00_scope.md R15, U31). -/
def acceptAll : List IrqRequest → State → Host.Outcome State Fault Refusal
  | [], s => .next s
  | q :: qs, s =>
    match acceptIrq q s with
    | .next t => acceptAll qs t
    | .fault f => .fault f
    | .refused r => .refused r

/-- The environment's turn: the requests of the next turn arrive (00_scope.md R14, R15). -/
def environmentTurn (s : State) : Host.Outcome State Fault Refusal :=
  match s.arrivals with
  | [] => .next s
  | turn :: later => acceptAll turn { s with arrivals := later }

/-- Slot 0 holds a request that may be delivered: it is not the sentinel and its priority is strictly greater than PSW[7:5] (R333). -/
def eligible (s : State) : Option IrqRequest :=
  match s.itab with
  | [] => none
  | e :: _ => if e.vector ≠ 0#8 ∧ s.pri.toNat < e.priority.toNat then some e else none

/-- `Poll()`: the delivery decision (R333). -/
def poll (s : State) : Host.Outcome State Fault Refusal :=
  match eligible s with
  | none => .next s
  | some e =>
    match takeTrap (e.vector.zeroExtend 16) s with
    | .next t => .next { t with itab := popIrq t.itab, run := .running }
    | .fault f => .fault f
    | .refused r => .refused r

/-- The rest of a machine cycle after the engine's step: the environment's turn, then the delivery decision, while RUN is RUNNING or
WAITING (00_scope.md R15, R330, R333). -/
def boundary (s : State) : Host.Outcome State Fault Refusal :=
  match s.run with
  | .halted => .next s
  | .fatal r => stopFatal r s
  | .running | .waiting =>
    match environmentTurn s with
    | .next t => poll t
    | .fault f => .fault f
    | .refused r => .refused r

/-! ### The fetch (40_addressing_modes.md R150, R151) -/

/-- SR0[15:13] = 0: no abort is recorded (10_state.md R38). -/
def State.noAbort (s : State) : Bool := decide (s.sr0.extractLsb' 13 3 = 0#3)

/-- SR2 takes the PC at the start of a fetch, unless an abort is recorded (R38). -/
def noteFetch : Exec Unit := fun s =>
  .ok () (if s.noAbort then s.setSr2 (s.reg PC) else s)

/-- Fetches the instruction word at the PC and advances the PC by 2; a fetch that raises leaves the PC as it was (R150, R151). -/
def fetch : Exec Word := do
  noteFetch
  let ia ← getReg PC
  let w ← memRead ia .word
  putReg PC (ia + 2)
  pure w

/-! ### Placing an instruction for the host (log 12) -/

/-- The physical address a fetch at `va` would read, if the translator lets it. -/
def fetchAddr (s : State) (va : Word) : Option Nat :=
  match translate va s.cm false s with
  | .ok pa _ => some pa
  | .error _ _ => none

/-- Stores a word where a fetch at `va` reads it, if that is a word of the memory array. -/
def placeWord (s : State) (va w : Word) : State :=
  match fetchAddr s va with
  | none => s
  | some pa => if pa < s.cfg.ioBase ∧ pa % 2 = 0 then s.setWord pa w else s

/-- Stores the `n` words of `w`, the first in bits 15:0, from virtual address `va` upward. -/
def placeWords : Nat → State → Word → Nat → State
  | 0, s, _, _ => s
  | n + 1, s, va, w => placeWords n (placeWord s va (BitVec.ofNat 16 w)) (va + 2) (w / 65536)

end Sys2Proof.Machine
end

