-- ==== Sys2Proof/Machine/Flags.lean ====
section
/-! DEFINITION. The result and the condition codes of every arithmetic, logic, shift and rotate instruction, as functions of the
operand values (41_double_operand.md, 42_single_operand.md, 43_eis_register.md). A value of length byte is carried in bits 7:0 of a
word with the high half 0, so `mask` and `msb` are the spec's own (00_scope.md R8), and one function serves both lengths (R130). -/

namespace Sys2Proof.Machine

/-- `mask = 2^w - 1` (00_scope.md R8). -/
def maskOf : Size → Word
  | .byte => 0o000377#16
  | .word => 0o177777#16

/-- `msb = 2^(w-1)` (R8). -/
def msbOf : Size → Word
  | .byte => 0o000200#16
  | .word => 0o100000#16

/-- Bit w-1 of a value. -/
def signBit (sz : Size) (x : Word) : Bool :=
  match sz with
  | .byte => x.getLsbD 7
  | .word => x.getLsbD 15

/-- The value is 0. -/
def isZero (x : Word) : Bool := decide (x = 0#16)

/-- A flag as a number, 0 or 1. -/
def bitWord (b : Bool) : Word := if b then 1#16 else 0#16

/-! ### Double operand (41_double_operand.md). Each takes the flags before, the source and the destination. -/

/-- N and Z from the value, V cleared, C kept: MOV, MOVB, BIT, BIC, BIS, XOR, MFPI, MTPI (R181, R182, R184 to R186, R235, R294, R295). -/
def logicFlags (sz : Size) (f : CC) (res : Word) : CC :=
  ⟨signBit sz res, isZero res, false, f.c⟩

/-- CMP: source minus destination, only the flags (R183). -/
def cmpFlags (sz : Size) (s d : Word) : CC :=
  let res := (s - d) &&& maskOf sz
  ⟨signBit sz res, isZero res, signBit sz ((s ^^^ d) &&& (s ^^^ res)), decide (s.toNat < d.toNat)⟩

/-- BIT (R184). -/
def bitFlags (sz : Size) (f : CC) (s d : Word) : CC := logicFlags sz f (s &&& d)

/-- BIC (R185). -/
def bicOp (sz : Size) (f : CC) (s d : Word) : Word × CC :=
  let res := d &&& ~~~s
  (res, logicFlags sz f res)

/-- BIS (R186). -/
def bisOp (sz : Size) (f : CC) (s d : Word) : Word × CC :=
  let res := d ||| s
  (res, logicFlags sz f res)

/-- ADD (R187). -/
def addOp (_ : CC) (s d : Word) : Word × CC :=
  let sum := s.toNat + d.toNat
  let res := BitVec.ofNat 16 sum
  (res, ⟨signBit .word res, isZero res, signBit .word ((s ^^^ res) &&& (d ^^^ res)), decide (65536 ≤ sum)⟩)

/-- SUB: destination minus source (R188). -/
def subOp (_ : CC) (s d : Word) : Word × CC :=
  let res := d - s
  (res, ⟨signBit .word res, isZero res, signBit .word ((s ^^^ d) &&& (d ^^^ res)), decide (d.toNat < s.toNat)⟩)

/-- XOR: the destination with the register (43_eis_register.md R235). -/
def xorOp (f : CC) (s d : Word) : Word × CC :=
  let res := d ^^^ s
  (res, logicFlags .word f res)

/-! ### Single operand (42_single_operand.md). Each takes the flags before and the old value. -/

/-- CLR (R201). -/
def clrFlags : CC := ⟨false, true, false, false⟩

/-- COM (R202). -/
def comOp (sz : Size) (_ : CC) (d : Word) : Word × CC :=
  let res := ~~~d &&& maskOf sz
  (res, ⟨signBit sz res, isZero res, false, true⟩)

/-- INC (R203). -/
def incOp (sz : Size) (f : CC) (d : Word) : Word × CC :=
  let res := (d + 1) &&& maskOf sz
  (res, ⟨signBit sz res, isZero res, decide (d = msbOf sz - 1), f.c⟩)

/-- DEC (R204). -/
def decOp (sz : Size) (f : CC) (d : Word) : Word × CC :=
  let res := (d - 1) &&& maskOf sz
  (res, ⟨signBit sz res, isZero res, decide (d = msbOf sz), f.c⟩)

/-- NEG (R205). -/
def negOp (sz : Size) (_ : CC) (d : Word) : Word × CC :=
  let res := (0 - d) &&& maskOf sz
  (res, ⟨signBit sz res, isZero res, decide (res = msbOf sz), !isZero res⟩)

/-- ADC (R206). -/
def adcOp (sz : Size) (f : CC) (d : Word) : Word × CC :=
  let res := (d + bitWord f.c) &&& maskOf sz
  (res, ⟨signBit sz res, isZero res, decide (d = msbOf sz - 1) && f.c, decide (d = maskOf sz) && f.c⟩)

/-- SBC (R207). -/
def sbcOp (sz : Size) (f : CC) (d : Word) : Word × CC :=
  let res := (d - bitWord f.c) &&& maskOf sz
  (res, ⟨signBit sz res, isZero res, decide (d = msbOf sz) && f.c, isZero d && f.c⟩)

/-- TST (R208). -/
def tstFlags (sz : Size) (d : Word) : CC := ⟨signBit sz d, isZero d, false, false⟩

/-- The flags of a shift or rotate: C the bit shifted out, V = N xor C with the new N and C (R209 to R212). -/
def shiftFlags (sz : Size) (res : Word) (out : Bool) : CC :=
  ⟨signBit sz res, isZero res, Bool.xor (signBit sz res) out, out⟩

/-- ROR (R209). -/
def rorOp (sz : Size) (f : CC) (d : Word) : Word × CC :=
  let res := (if f.c then msbOf sz else 0) ||| (d >>> 1)
  (res, shiftFlags sz res (d.getLsbD 0))

/-- ROL (R210). -/
def rolOp (sz : Size) (f : CC) (d : Word) : Word × CC :=
  let res := ((d <<< 1) ||| bitWord f.c) &&& maskOf sz
  (res, shiftFlags sz res (signBit sz d))

/-- ASR: the sign is kept (R211). -/
def asrOp (sz : Size) (_ : CC) (d : Word) : Word × CC :=
  let res := (d &&& msbOf sz) ||| (d >>> 1)
  (res, shiftFlags sz res (d.getLsbD 0))

/-- ASL (R212). -/
def aslOp (sz : Size) (_ : CC) (d : Word) : Word × CC :=
  let res := (d <<< 1) &&& maskOf sz
  (res, shiftFlags sz res (signBit sz d))

/-- SXT: all ones if N, else 0; N and C are kept (R224). -/
def sxtOp (f : CC) : Word × CC :=
  (if f.n then 0o177777#16 else 0#16, ⟨f.n, !f.n, false, f.c⟩)

/-- SWAB: the flags come from the new low byte (R225). -/
def swabOp (_ : CC) (d : Word) : Word × CC :=
  let res : Word := lowByte d ++ highByte d
  (res, ⟨res.getLsbD 7, decide (lowByte res = 0#8), false, false⟩)

/-! ### MUL, DIV, ASH, ASHC (43_eis_register.md) -/

/-- MUL: the exact signed product (R231). -/
def mulProduct (r s : Word) : Int := r.toInt * s.toInt

/-- MUL: the flags (R231). -/
def mulFlags (p : Int) : CC :=
  ⟨decide (p < 0), decide (p = 0), false, decide (p < -32768) || decide (32767 < p)⟩

/-- DIV: the outcome for the 32-bit dividend and the divisor: the flags, and quotient and remainder when they are written
(R232). The quotient is rounded toward zero and the remainder has the sign of the dividend. -/
def divOp (dividend : BitVec 32) (divisor : Word) : CC × Option (Word × Word) :=
  let dd := dividend.toInt
  let dv := divisor.toInt
  if dv = 0 then (⟨false, true, true, true⟩, none)
  else
    let q := dd.tdiv dv
    let rem := dd - q * dv
    if 32767 < q ∨ q < -32768 then (⟨decide (q < 0), false, true, false⟩, none)
    else (⟨decide (q < 0), decide (q = 0), false, false⟩, some (BitVec.ofInt 16 q, BitVec.ofInt 16 rem))

/-- The value being shifted, the sign-changed flag V' and the last bit out C' (R233). -/
structure ShiftAcc (w : Nat) where
  value : BitVec w
  v : Bool
  c : Bool
  deriving DecidableEq, Repr

/-- One single-bit step of a left shift: C' the bit out, V' set if the sign changes (R233). -/
def shiftLeftOne {w : Nat} (a : ShiftAcc w) : ShiftAcc w :=
  let nv := a.value <<< 1
  ⟨nv, a.v || Bool.xor nv.msb a.value.msb, a.value.msb⟩

/-- One single-bit step of a right shift: C' the bit out, the sign kept (R233). -/
def shiftRightOne {w : Nat} (a : ShiftAcc w) : ShiftAcc w :=
  ⟨a.value.sshiftRight 1, a.v, a.value.getLsbD 0⟩

/-- `n` single-bit steps. -/
def shiftSteps {w : Nat} (one : ShiftAcc w → ShiftAcc w) : Nat → ShiftAcc w → ShiftAcc w
  | 0, a => a
  | n + 1, a => shiftSteps one n (one a)

/-- The shift count: the low six bits of the source as a signed number, -32 .. 31 (R233). -/
def shiftCount (s : Word) : Int := (s.extractLsb' 0 6).toInt

/-- ASH on a 16-bit value, ASHC on a 32-bit one: left for a positive count, right for a negative one, V' and C' cleared first
(R233, R234). -/
def shiftOp {w : Nat} (x : BitVec w) (n : Int) : ShiftAcc w :=
  if 0 < n then shiftSteps shiftLeftOne n.toNat ⟨x, false, false⟩
  else shiftSteps shiftRightOne (-n).toNat ⟨x, false, false⟩

/-- The flags of ASH and ASHC, from the whole shifted value (R233, R234). -/
def ShiftAcc.flags {w : Nat} (a : ShiftAcc w) : CC :=
  ⟨a.value.msb, decide (a.value = 0), a.v, a.c⟩

/-! ### Branch conditions (44_branch_control.md R239) -/

/-- N xor V. -/
def CC.lt (f : CC) : Bool := Bool.xor f.n f.v

/-- Z or (N xor V). -/
def CC.le (f : CC) : Bool := f.z || f.lt

/-- C or Z. -/
def CC.los (f : CC) : Bool := f.c || f.z

end Sys2Proof.Machine
end

