-- ==== Sys2Proof/Machine/Operands.lean ====
section
/-! DEFINITION. Operand locations, the eight addressing modes, reading and writing a location (40_addressing_modes.md R156 to R161),
and the shapes the instruction families share (41_double_operand.md R180, 42_single_operand.md R200, 43_eis_register.md R230). -/

namespace Sys2Proof.Machine

/-- A resolved operand: a general register, or a virtual byte address (R156). -/
inductive Loc where
  | reg (n : Reg)
  | mem (va : Word)
  deriving DecidableEq, Repr

/-- The step of autoincrement and autodecrement: 2 for a word, and for R6 and R7 whatever the length; else 1 (R158). -/
def stepSize (sz : Size) (r : Reg) : Word :=
  match sz with
  | .word => 2#16
  | .byte => if 6 ≤ r.val then 2#16 else 1#16

/-- Fetches the index word of modes 6 and 7: R7 advances only after the read (R157, R166). -/
def indexWord : Exec Word := do
  let pc ← getReg PC
  let x ← memRead pc .word
  putReg PC (pc + 2)
  pure x

/-- The address formed by modes 6 and 7: the index word plus the register, read after R7 has advanced (R157). -/
def indexedAddr (r : Reg) : Exec Word := do
  let x ← indexWord
  let b ← getReg r
  pure (x + b)

/-- The address modes 2 and 3 give: the register, which is then advanced (R157). -/
def postAdd (r : Reg) (k : Word) : Exec Word := do
  let a ← getReg r
  putReg r (a + k)
  pure a

/-- The address modes 4 and 5 give: the register, lowered first (R157). -/
def preSub (r : Reg) (k : Word) : Exec Word := do
  let a ← getReg r
  putReg r (a - k)
  pure (a - k)

/-- `Resolve(spec, len)` (R157). -/
def resolve (o : Operand) (sz : Size) : Exec Loc :=
  match o.mode with
  | .register => pure (.reg o.reg)
  | .regDeferred => do
    let a ← getReg o.reg
    pure (.mem a)
  | .autoInc => do
    let a ← postAdd o.reg (stepSize sz o.reg)
    pure (.mem a)
  | .autoIncDeferred => do
    let a ← postAdd o.reg 2
    let p ← memRead a .word
    pure (.mem p)
  | .autoDec => do
    let a ← preSub o.reg (stepSize sz o.reg)
    pure (.mem a)
  | .autoDecDeferred => do
    let a ← preSub o.reg 2
    let p ← memRead a .word
    pure (.mem p)
  | .indexed => do
    let a ← indexedAddr o.reg
    pure (.mem a)
  | .indexedDeferred => do
    let a ← indexedAddr o.reg
    let p ← memRead a .word
    pure (.mem p)

/-- `Read(loc, len)`; a byte read of a register takes its low byte (R159). -/
def readLoc (l : Loc) (sz : Size) : Exec Word :=
  match l with
  | .reg n => do
    let v ← getReg n
    pure (v &&& maskOf sz)
  | .mem a => memRead a sz

/-- `Write(loc, len, v)`; a byte write to a register keeps its high byte (R160). -/
def writeLoc (l : Loc) (sz : Size) (v : Word) : Exec Unit :=
  match l, sz with
  | .reg n, .word => putReg n v
  | .reg n, .byte => do
    let old ← getReg n
    putReg n (highByte old ++ lowByte v)
  | .mem a, sz => memWrite a sz v

/-- The address of an operand that must be memory; a register operand is FATAL(REG_OPERAND) (R161). -/
def memLoc (l : Loc) : Exec Word :=
  match l with
  | .reg _ => raiseFatal .regOperand
  | .mem a => pure a

/-! ### Shared shapes. The order is: source resolved and read, destination resolved and read, flags written, destination written
(R153, 70_reset_and_hazards.md R389). -/

/-- `sl <- Resolve(ss, len); s <- Read(sl, len)` (R180, R230). -/
def sourceValue (src : Operand) (sz : Size) : Exec Word := do
  let sl ← resolve src sz
  readLoc sl sz

/-- The start of every double-operand instruction: the source value and the destination's location (R180). -/
def sourceAndDest (src dst : Operand) (sz : Size) : Exec (Word × Loc) := do
  let s ← sourceValue src sz
  let dl ← resolve dst sz
  pure (s, dl)

/-- The same, with the destination's old value. -/
def sourceAndOld (src dst : Operand) (sz : Size) : Exec (Word × Loc × Word) := do
  let s ← sourceValue src sz
  let dl ← resolve dst sz
  let d ← readLoc dl sz
  pure (s, dl, d)

/-- The destination's location and old value (R200). -/
def destAndOld (dst : Operand) (sz : Size) : Exec (Loc × Word) := do
  let dl ← resolve dst sz
  let d ← readLoc dl sz
  pure (dl, d)

/-- The flags, then the destination (R389). -/
def finishWith (dl : Loc) (sz : Size) (out : Word × CC) : Exec Unit := do
  putCC out.2
  writeLoc dl sz out.1

/-- A double-operand instruction that reads its destination and writes it. -/
def modifyDouble (sz : Size) (op : CC → Word → Word → Word × CC) (src dst : Operand) : Exec Unit := do
  let (s, dl, d) ← sourceAndOld src dst sz
  let f ← getCC
  finishWith dl sz (op f s d)

/-- A double-operand instruction that only sets flags. -/
def testDouble (sz : Size) (op : CC → Word → Word → CC) (src dst : Operand) : Exec Unit := do
  let (s, _, d) ← sourceAndOld src dst sz
  let f ← getCC
  putCC (op f s d)

/-- A single-operand instruction that reads its destination and writes it. -/
def modifySingle (sz : Size) (op : CC → Word → Word × CC) (dst : Operand) : Exec Unit := do
  let (dl, d) ← destAndOld dst sz
  let f ← getCC
  finishWith dl sz (op f d)

/-- A single-operand instruction that writes its destination without reading it. -/
def setSingle (sz : Size) (op : CC → Word × CC) (dst : Operand) : Exec Unit := do
  let dl ← resolve dst sz
  let f ← getCC
  finishWith dl sz (op f)

/-- A single-operand instruction that only sets flags. -/
def testSingle (sz : Size) (op : Word → CC) (dst : Operand) : Exec Unit := do
  let (_, d) ← destAndOld dst sz
  putCC (op d)

end Sys2Proof.Machine
end

