-- ==== Sys2Proof/Machine/Branch.lean ====
section
/-! DEFINITION. Branches, jumps, subroutine linkage and loop control (44_branch_control.md). For each instruction: its pseudocode, and its
outcome. -/

namespace Sys2Proof.Machine

/-- `2 * sext_8(oo)` (R240). -/
def branchOffset (off : BitVec 8) : Word := (off.signExtend 16) <<< 1

/-- `2 * nn` (R259, R260). -/
def countBytes (nn : BitVec 6) : Word := (nn.zeroExtend 16) <<< 1

/-- The shape of the fifteen branches: R7 already points after the branch (R240). -/
def branchIf (cond : CC → Bool) (off : BitVec 8) : Exec Unit := do
  let f ← getCC
  if cond f then do
    let pc ← getReg PC
    putReg PC (pc + branchOffset off)
  else pure ()

/-- BR, 000400+XXX: always taken (R241). -/
def brBody (off : BitVec 8) : Exec Unit :=
  branchIf (fun _ => true) off

/-- BR, 000400+XXX: its outcome. -/
def execBr (off : BitVec 8) (s : State) : Host.Outcome State Fault Refusal :=
  runBody (brBody off) s

/-- BNE, 001000+XXX: taken when Z = 0 (R242). -/
def bneBody (off : BitVec 8) : Exec Unit :=
  branchIf (fun f => !f.z) off

/-- BNE, 001000+XXX: its outcome. -/
def execBne (off : BitVec 8) (s : State) : Host.Outcome State Fault Refusal :=
  runBody (bneBody off) s

/-- BEQ, 001400+XXX: taken when Z = 1 (R243). -/
def beqBody (off : BitVec 8) : Exec Unit :=
  branchIf (fun f => f.z) off

/-- BEQ, 001400+XXX: its outcome. -/
def execBeq (off : BitVec 8) (s : State) : Host.Outcome State Fault Refusal :=
  runBody (beqBody off) s

/-- BGE, 002000+XXX: taken when N xor V = 0 (R244). -/
def bgeBody (off : BitVec 8) : Exec Unit :=
  branchIf (fun f => !f.lt) off

/-- BGE, 002000+XXX: its outcome. -/
def execBge (off : BitVec 8) (s : State) : Host.Outcome State Fault Refusal :=
  runBody (bgeBody off) s

/-- BLT, 002400+XXX: taken when N xor V = 1 (R245). -/
def bltBody (off : BitVec 8) : Exec Unit :=
  branchIf (fun f => f.lt) off

/-- BLT, 002400+XXX: its outcome. -/
def execBlt (off : BitVec 8) (s : State) : Host.Outcome State Fault Refusal :=
  runBody (bltBody off) s

/-- BGT, 003000+XXX: taken when Z or (N xor V) = 0 (R246). -/
def bgtBody (off : BitVec 8) : Exec Unit :=
  branchIf (fun f => !f.le) off

/-- BGT, 003000+XXX: its outcome. -/
def execBgt (off : BitVec 8) (s : State) : Host.Outcome State Fault Refusal :=
  runBody (bgtBody off) s

/-- BLE, 003400+XXX: taken when Z or (N xor V) = 1 (R247). -/
def bleBody (off : BitVec 8) : Exec Unit :=
  branchIf (fun f => f.le) off

/-- BLE, 003400+XXX: its outcome. -/
def execBle (off : BitVec 8) (s : State) : Host.Outcome State Fault Refusal :=
  runBody (bleBody off) s

/-- BPL, 100000+XXX: taken when N = 0 (R248). -/
def bplBody (off : BitVec 8) : Exec Unit :=
  branchIf (fun f => !f.n) off

/-- BPL, 100000+XXX: its outcome. -/
def execBpl (off : BitVec 8) (s : State) : Host.Outcome State Fault Refusal :=
  runBody (bplBody off) s

/-- BMI, 100400+XXX: taken when N = 1 (R249). -/
def bmiBody (off : BitVec 8) : Exec Unit :=
  branchIf (fun f => f.n) off

/-- BMI, 100400+XXX: its outcome. -/
def execBmi (off : BitVec 8) (s : State) : Host.Outcome State Fault Refusal :=
  runBody (bmiBody off) s

/-- BHI, 101000+XXX: taken when C or Z = 0 (R250). -/
def bhiBody (off : BitVec 8) : Exec Unit :=
  branchIf (fun f => !f.los) off

/-- BHI, 101000+XXX: its outcome. -/
def execBhi (off : BitVec 8) (s : State) : Host.Outcome State Fault Refusal :=
  runBody (bhiBody off) s

/-- BLOS, 101400+XXX: taken when C or Z = 1 (R251). -/
def blosBody (off : BitVec 8) : Exec Unit :=
  branchIf (fun f => f.los) off

/-- BLOS, 101400+XXX: its outcome. -/
def execBlos (off : BitVec 8) (s : State) : Host.Outcome State Fault Refusal :=
  runBody (blosBody off) s

/-- BVC, 102000+XXX: taken when V = 0 (R252). -/
def bvcBody (off : BitVec 8) : Exec Unit :=
  branchIf (fun f => !f.v) off

/-- BVC, 102000+XXX: its outcome. -/
def execBvc (off : BitVec 8) (s : State) : Host.Outcome State Fault Refusal :=
  runBody (bvcBody off) s

/-- BVS, 102400+XXX: taken when V = 1 (R253). -/
def bvsBody (off : BitVec 8) : Exec Unit :=
  branchIf (fun f => f.v) off

/-- BVS, 102400+XXX: its outcome. -/
def execBvs (off : BitVec 8) (s : State) : Host.Outcome State Fault Refusal :=
  runBody (bvsBody off) s

/-- BCC, 103000+XXX: taken when C = 0 (R254). -/
def bccBody (off : BitVec 8) : Exec Unit :=
  branchIf (fun f => !f.c) off

/-- BCC, 103000+XXX: its outcome. -/
def execBcc (off : BitVec 8) (s : State) : Host.Outcome State Fault Refusal :=
  runBody (bccBody off) s

/-- BCS, 103400+XXX: taken when C = 1 (R255). -/
def bcsBody (off : BitVec 8) : Exec Unit :=
  branchIf (fun f => f.c) off

/-- BCS, 103400+XXX: its outcome. -/
def execBcs (off : BitVec 8) (s : State) : Host.Outcome State Fault Refusal :=
  runBody (bcsBody off) s

/-- JMP, 0001dd (R256). The operand is not read. -/
def jmpBody (dst : Operand) : Exec Unit := do
  let dl ← resolve dst .word
  let a ← memLoc dl
  putReg PC a

/-- JMP, 0001dd: its outcome. -/
def execJmp (dst : Operand) (s : State) : Host.Outcome State Fault Refusal :=
  runBody (jmpBody dst) s

/-- JSR, 004rdd (R257). The address is resolved before the push, and the link register is read before SP moves. -/
def jsrBody (reg : Reg) (dst : Operand) : Exec Unit := do
  let dl ← resolve dst .word
  let a ← memLoc dl
  let t ← getReg reg
  push t
  let pc ← getReg PC
  putReg reg pc
  putReg PC a

/-- JSR, 004rdd: its outcome. -/
def execJsr (reg : Reg) (dst : Operand) (s : State) : Host.Outcome State Fault Refusal :=
  runBody (jsrBody reg dst) s

/-- RTS, 00020r (R258). -/
def rtsBody (reg : Reg) : Exec Unit := do
  let v ← getReg reg
  putReg PC v
  let t ← pop
  putReg reg t

/-- RTS, 00020r: its outcome. -/
def execRts (reg : Reg) (s : State) : Host.Outcome State Fault Refusal :=
  runBody (rtsBody reg) s

/-- MARK, 0064nn (R259). -/
def markBody (nn : BitVec 6) : Exec Unit := do
  let pc ← getReg PC
  putReg SP (pc + countBytes nn)
  let r5 ← getReg 5
  putReg PC r5
  let t ← pop
  putReg 5 t

/-- MARK, 0064nn: its outcome. -/
def execMark (nn : BitVec 6) (s : State) : Host.Outcome State Fault Refusal :=
  runBody (markBody nn) s

/-- SOB, 077rnn (R260). -/
def sobBody (reg : Reg) (nn : BitVec 6) : Exec Unit := do
  let v ← getReg reg
  putReg reg (v - 1)
  let w ← getReg reg
  if w = 0#16 then pure ()
  else do
    let pc ← getReg PC
    putReg PC (pc - countBytes nn)

/-- SOB, 077rnn: its outcome. -/
def execSob (reg : Reg) (nn : BitVec 6) (s : State) : Host.Outcome State Fault Refusal :=
  runBody (sobBody reg nn) s

end Sys2Proof.Machine
end

