-- ==== Sys2Proof/Machine/DoubleOperand.lean ====
section
/-! DEFINITION. The double-operand instructions (41_double_operand.md). For each instruction: its pseudocode, and its outcome. -/

namespace Sys2Proof.Machine

/-- MOV, 01ssdd (R181). The destination is not read. -/
def movBody (src dst : Operand) : Exec Unit := do
  let (v, dl) ← sourceAndDest src dst .word
  let f ← getCC
  finishWith dl .word (v, logicFlags .word f v)

/-- MOV, 01ssdd: its outcome. -/
def execMov (src dst : Operand) (s : State) : Host.Outcome State Fault Refusal :=
  runBody (movBody src dst) s

/-- MOVB, 11ssdd (R182). A register destination takes the byte sign-extended to the whole register. -/
def movbBody (src dst : Operand) : Exec Unit := do
  let (v, dl) ← sourceAndDest src dst .byte
  let f ← getCC
  putCC (logicFlags .byte f v)
  match dl with
  | .reg n => putReg n ((lowByte v).signExtend 16)
  | .mem a => memWrite a .byte v

/-- MOVB, 11ssdd: its outcome. -/
def execMovb (src dst : Operand) (s : State) : Host.Outcome State Fault Refusal :=
  runBody (movbBody src dst) s

/-- CMP, 02ssdd: source minus destination (R183). -/
def cmpBody (src dst : Operand) : Exec Unit :=
  testDouble .word (fun _ s d => cmpFlags .word s d) src dst

/-- CMP, 02ssdd: its outcome. -/
def execCmp (src dst : Operand) (s : State) : Host.Outcome State Fault Refusal :=
  runBody (cmpBody src dst) s

/-- CMPB, 12ssdd (R183). -/
def cmpbBody (src dst : Operand) : Exec Unit :=
  testDouble .byte (fun _ s d => cmpFlags .byte s d) src dst

/-- CMPB, 12ssdd: its outcome. -/
def execCmpb (src dst : Operand) (s : State) : Host.Outcome State Fault Refusal :=
  runBody (cmpbBody src dst) s

/-- BIT, 03ssdd (R184). -/
def bitBody (src dst : Operand) : Exec Unit :=
  testDouble .word (bitFlags .word) src dst

/-- BIT, 03ssdd: its outcome. -/
def execBit (src dst : Operand) (s : State) : Host.Outcome State Fault Refusal :=
  runBody (bitBody src dst) s

/-- BITB, 13ssdd (R184). -/
def bitbBody (src dst : Operand) : Exec Unit :=
  testDouble .byte (bitFlags .byte) src dst

/-- BITB, 13ssdd: its outcome. -/
def execBitb (src dst : Operand) (s : State) : Host.Outcome State Fault Refusal :=
  runBody (bitbBody src dst) s

/-- BIC, 04ssdd (R185). -/
def bicBody (src dst : Operand) : Exec Unit :=
  modifyDouble .word (bicOp .word) src dst

/-- BIC, 04ssdd: its outcome. -/
def execBic (src dst : Operand) (s : State) : Host.Outcome State Fault Refusal :=
  runBody (bicBody src dst) s

/-- BICB, 14ssdd (R185). -/
def bicbBody (src dst : Operand) : Exec Unit :=
  modifyDouble .byte (bicOp .byte) src dst

/-- BICB, 14ssdd: its outcome. -/
def execBicb (src dst : Operand) (s : State) : Host.Outcome State Fault Refusal :=
  runBody (bicbBody src dst) s

/-- BIS, 05ssdd (R186). -/
def bisBody (src dst : Operand) : Exec Unit :=
  modifyDouble .word (bisOp .word) src dst

/-- BIS, 05ssdd: its outcome. -/
def execBis (src dst : Operand) (s : State) : Host.Outcome State Fault Refusal :=
  runBody (bisBody src dst) s

/-- BISB, 15ssdd (R186). -/
def bisbBody (src dst : Operand) : Exec Unit :=
  modifyDouble .byte (bisOp .byte) src dst

/-- BISB, 15ssdd: its outcome. -/
def execBisb (src dst : Operand) (s : State) : Host.Outcome State Fault Refusal :=
  runBody (bisbBody src dst) s

/-- ADD, 06ssdd (R187). -/
def addBody (src dst : Operand) : Exec Unit :=
  modifyDouble .word addOp src dst

/-- ADD, 06ssdd: its outcome. -/
def execAdd (src dst : Operand) (s : State) : Host.Outcome State Fault Refusal :=
  runBody (addBody src dst) s

/-- SUB, 16ssdd (R188). -/
def subBody (src dst : Operand) : Exec Unit :=
  modifyDouble .word subOp src dst

/-- SUB, 16ssdd: its outcome. -/
def execSub (src dst : Operand) (s : State) : Host.Outcome State Fault Refusal :=
  runBody (subBody src dst) s

end Sys2Proof.Machine
end

