-- ==== Sys2Proof/Machine/RegisterOperand.lean ====
section
/-! DEFINITION. The register-and-operand instructions (43_eis_register.md). For each instruction: its pseudocode, and its outcome. The register
is read after the operand has been resolved and read (R230), and the flags are written before the registers. -/

namespace Sys2Proof.Machine

/-- `r|1`: the odd partner of an even register, and the register itself when it is odd (R230). -/
def partner (r : Reg) : Reg := if r.val % 2 = 0 then Fin.ofNat 8 (r.val + 1) else r

/-- `R[r] ++ R[r|1]`, R[r] the high word (R232, R234). -/
def getPair (r : Reg) : Exec (BitVec 32) := do
  let hi ← getReg r
  let lo ← getReg (partner r)
  pure (hi ++ lo)

/-- `R[r] <- hi; R[r|1] <- lo`, in this order, so that an odd register keeps the low word (R232, R234). -/
def putPair (r : Reg) (hi lo : Word) : Exec Unit := do
  putReg r hi
  putReg (partner r) lo

/-- MUL, 070rss (R231). An odd register receives the low word only. -/
def mulBody (reg : Reg) (src : Operand) : Exec Unit := do
  let v ← sourceValue src .word
  let r ← getReg reg
  let p := mulProduct r v
  putCC (mulFlags p)
  let w := BitVec.ofInt 32 p
  putPair reg (w.extractLsb' 16 16) (w.extractLsb' 0 16)

/-- MUL, 070rss: its outcome. -/
def execMul (reg : Reg) (src : Operand) (s : State) : Host.Outcome State Fault Refusal :=
  runBody (mulBody reg src) s

/-- DIV, 071rss (R232). A zero divisor and a quotient overflow only set flags. -/
def divBody (reg : Reg) (src : Operand) : Exec Unit := do
  let v ← sourceValue src .word
  let dd ← getPair reg
  let out := divOp dd v
  putCC out.1
  match out.2 with
  | none => pure ()
  | some (q, rem) => putPair reg q rem

/-- DIV, 071rss: its outcome. -/
def execDiv (reg : Reg) (src : Operand) (s : State) : Host.Outcome State Fault Refusal :=
  runBody (divBody reg src) s

/-- ASH, 072rss (R233). -/
def ashBody (reg : Reg) (src : Operand) : Exec Unit := do
  let v ← sourceValue src .word
  let r ← getReg reg
  let a := shiftOp r (shiftCount v)
  putCC a.flags
  putReg reg a.value

/-- ASH, 072rss: its outcome. -/
def execAsh (reg : Reg) (src : Operand) (s : State) : Host.Outcome State Fault Refusal :=
  runBody (ashBody reg src) s

/-- ASHC, 073rss (R234). Flags come from the 32-bit result. -/
def ashcBody (reg : Reg) (src : Operand) : Exec Unit := do
  let v ← sourceValue src .word
  let x ← getPair reg
  let a := shiftOp x (shiftCount v)
  putCC a.flags
  putPair reg (a.value.extractLsb' 16 16) (a.value.extractLsb' 0 16)

/-- ASHC, 073rss: its outcome. -/
def execAshc (reg : Reg) (src : Operand) (s : State) : Host.Outcome State Fault Refusal :=
  runBody (ashcBody reg src) s

/-- XOR, 074rdd: the register is the source (R235). -/
def xorBody (reg : Reg) (dst : Operand) : Exec Unit := do
  let (dl, d) ← destAndOld dst .word
  let r ← getReg reg
  let f ← getCC
  finishWith dl .word (xorOp f r d)

/-- XOR, 074rdd: its outcome. -/
def execXor (reg : Reg) (dst : Operand) (s : State) : Host.Outcome State Fault Refusal :=
  runBody (xorBody reg dst) s

end Sys2Proof.Machine
end

