-- ==== Sys2Proof/Machine/SingleOperand.lean ====
section
/-! DEFINITION. The single-operand instructions (42_single_operand.md). For each instruction: its pseudocode, and its outcome. -/

namespace Sys2Proof.Machine

/-- CLR, 0050dd (R201). The destination is not read first. -/
def clrBody (dst : Operand) : Exec Unit :=
  setSingle .word (fun _ => (0, clrFlags)) dst

/-- CLR, 0050dd: its outcome. -/
def execClr (dst : Operand) (s : State) : Host.Outcome State Fault Refusal :=
  runBody (clrBody dst) s

/-- CLRB, 1050dd (R201). The destination is not read first. -/
def clrbBody (dst : Operand) : Exec Unit :=
  setSingle .byte (fun _ => (0, clrFlags)) dst

/-- CLRB, 1050dd: its outcome. -/
def execClrb (dst : Operand) (s : State) : Host.Outcome State Fault Refusal :=
  runBody (clrbBody dst) s

/-- COM, 0051dd (R202). -/
def comBody (dst : Operand) : Exec Unit :=
  modifySingle .word (comOp .word) dst

/-- COM, 0051dd: its outcome. -/
def execCom (dst : Operand) (s : State) : Host.Outcome State Fault Refusal :=
  runBody (comBody dst) s

/-- COMB, 1051dd (R202). -/
def combBody (dst : Operand) : Exec Unit :=
  modifySingle .byte (comOp .byte) dst

/-- COMB, 1051dd: its outcome. -/
def execComb (dst : Operand) (s : State) : Host.Outcome State Fault Refusal :=
  runBody (combBody dst) s

/-- INC, 0052dd (R203). -/
def incBody (dst : Operand) : Exec Unit :=
  modifySingle .word (incOp .word) dst

/-- INC, 0052dd: its outcome. -/
def execInc (dst : Operand) (s : State) : Host.Outcome State Fault Refusal :=
  runBody (incBody dst) s

/-- INCB, 1052dd (R203). -/
def incbBody (dst : Operand) : Exec Unit :=
  modifySingle .byte (incOp .byte) dst

/-- INCB, 1052dd: its outcome. -/
def execIncb (dst : Operand) (s : State) : Host.Outcome State Fault Refusal :=
  runBody (incbBody dst) s

/-- DEC, 0053dd (R204). -/
def decBody (dst : Operand) : Exec Unit :=
  modifySingle .word (decOp .word) dst

/-- DEC, 0053dd: its outcome. -/
def execDec (dst : Operand) (s : State) : Host.Outcome State Fault Refusal :=
  runBody (decBody dst) s

/-- DECB, 1053dd (R204). -/
def decbBody (dst : Operand) : Exec Unit :=
  modifySingle .byte (decOp .byte) dst

/-- DECB, 1053dd: its outcome. -/
def execDecb (dst : Operand) (s : State) : Host.Outcome State Fault Refusal :=
  runBody (decbBody dst) s

/-- NEG, 0054dd (R205). -/
def negBody (dst : Operand) : Exec Unit :=
  modifySingle .word (negOp .word) dst

/-- NEG, 0054dd: its outcome. -/
def execNeg (dst : Operand) (s : State) : Host.Outcome State Fault Refusal :=
  runBody (negBody dst) s

/-- NEGB, 1054dd (R205). -/
def negbBody (dst : Operand) : Exec Unit :=
  modifySingle .byte (negOp .byte) dst

/-- NEGB, 1054dd: its outcome. -/
def execNegb (dst : Operand) (s : State) : Host.Outcome State Fault Refusal :=
  runBody (negbBody dst) s

/-- ADC, 0055dd (R206). -/
def adcBody (dst : Operand) : Exec Unit :=
  modifySingle .word (adcOp .word) dst

/-- ADC, 0055dd: its outcome. -/
def execAdc (dst : Operand) (s : State) : Host.Outcome State Fault Refusal :=
  runBody (adcBody dst) s

/-- ADCB, 1055dd (R206). -/
def adcbBody (dst : Operand) : Exec Unit :=
  modifySingle .byte (adcOp .byte) dst

/-- ADCB, 1055dd: its outcome. -/
def execAdcb (dst : Operand) (s : State) : Host.Outcome State Fault Refusal :=
  runBody (adcbBody dst) s

/-- SBC, 0056dd (R207). -/
def sbcBody (dst : Operand) : Exec Unit :=
  modifySingle .word (sbcOp .word) dst

/-- SBC, 0056dd: its outcome. -/
def execSbc (dst : Operand) (s : State) : Host.Outcome State Fault Refusal :=
  runBody (sbcBody dst) s

/-- SBCB, 1056dd (R207). -/
def sbcbBody (dst : Operand) : Exec Unit :=
  modifySingle .byte (sbcOp .byte) dst

/-- SBCB, 1056dd: its outcome. -/
def execSbcb (dst : Operand) (s : State) : Host.Outcome State Fault Refusal :=
  runBody (sbcbBody dst) s

/-- TST, 0057dd (R208). -/
def tstBody (dst : Operand) : Exec Unit :=
  testSingle .word (tstFlags .word) dst

/-- TST, 0057dd: its outcome. -/
def execTst (dst : Operand) (s : State) : Host.Outcome State Fault Refusal :=
  runBody (tstBody dst) s

/-- TSTB, 1057dd (R208). -/
def tstbBody (dst : Operand) : Exec Unit :=
  testSingle .byte (tstFlags .byte) dst

/-- TSTB, 1057dd: its outcome. -/
def execTstb (dst : Operand) (s : State) : Host.Outcome State Fault Refusal :=
  runBody (tstbBody dst) s

/-- ROR, 0060dd (R209). -/
def rorBody (dst : Operand) : Exec Unit :=
  modifySingle .word (rorOp .word) dst

/-- ROR, 0060dd: its outcome. -/
def execRor (dst : Operand) (s : State) : Host.Outcome State Fault Refusal :=
  runBody (rorBody dst) s

/-- RORB, 1060dd (R209). -/
def rorbBody (dst : Operand) : Exec Unit :=
  modifySingle .byte (rorOp .byte) dst

/-- RORB, 1060dd: its outcome. -/
def execRorb (dst : Operand) (s : State) : Host.Outcome State Fault Refusal :=
  runBody (rorbBody dst) s

/-- ROL, 0061dd (R210). -/
def rolBody (dst : Operand) : Exec Unit :=
  modifySingle .word (rolOp .word) dst

/-- ROL, 0061dd: its outcome. -/
def execRol (dst : Operand) (s : State) : Host.Outcome State Fault Refusal :=
  runBody (rolBody dst) s

/-- ROLB, 1061dd (R210). -/
def rolbBody (dst : Operand) : Exec Unit :=
  modifySingle .byte (rolOp .byte) dst

/-- ROLB, 1061dd: its outcome. -/
def execRolb (dst : Operand) (s : State) : Host.Outcome State Fault Refusal :=
  runBody (rolbBody dst) s

/-- ASR, 0062dd (R211). -/
def asrBody (dst : Operand) : Exec Unit :=
  modifySingle .word (asrOp .word) dst

/-- ASR, 0062dd: its outcome. -/
def execAsr (dst : Operand) (s : State) : Host.Outcome State Fault Refusal :=
  runBody (asrBody dst) s

/-- ASRB, 1062dd (R211). -/
def asrbBody (dst : Operand) : Exec Unit :=
  modifySingle .byte (asrOp .byte) dst

/-- ASRB, 1062dd: its outcome. -/
def execAsrb (dst : Operand) (s : State) : Host.Outcome State Fault Refusal :=
  runBody (asrbBody dst) s

/-- ASL, 0063dd (R212). -/
def aslBody (dst : Operand) : Exec Unit :=
  modifySingle .word (aslOp .word) dst

/-- ASL, 0063dd: its outcome. -/
def execAsl (dst : Operand) (s : State) : Host.Outcome State Fault Refusal :=
  runBody (aslBody dst) s

/-- ASLB, 1063dd (R212). -/
def aslbBody (dst : Operand) : Exec Unit :=
  modifySingle .byte (aslOp .byte) dst

/-- ASLB, 1063dd: its outcome. -/
def execAslb (dst : Operand) (s : State) : Host.Outcome State Fault Refusal :=
  runBody (aslbBody dst) s

/-- SXT, 0067dd (R224). The destination is not read. -/
def sxtBody (dst : Operand) : Exec Unit :=
  setSingle .word sxtOp dst

/-- SXT, 0067dd: its outcome. -/
def execSxt (dst : Operand) (s : State) : Host.Outcome State Fault Refusal :=
  runBody (sxtBody dst) s

/-- SWAB, 0003dd (R225). -/
def swabBody (dst : Operand) : Exec Unit :=
  modifySingle .word swabOp dst

/-- SWAB, 0003dd: its outcome. -/
def execSwab (dst : Operand) (s : State) : Host.Outcome State Fault Refusal :=
  runBody (swabBody dst) s

end Sys2Proof.Machine
end

