-- ==== Sys2Proof/Machine/System.lean ====
section
/-! DEFINITION. Programmed traps, returns, privileged and system instructions, previous-space moves and the condition-code operators
(45_trap_system.md). For each instruction: its pseudocode, and its outcome. -/

namespace Sys2Proof.Machine

/-- A statement that takes effect in kernel mode, and another that is executed in the other modes (60_exceptions.md R345). -/
def ifKernel (k other : Exec Unit) : Exec Unit := fun s =>
  if s.cm = 0#2 then k s else other s

/-- `RUN <- r`. -/
def putRun (r : RunState) : Exec Unit := fun s => .ok () { s with run := r }

/-- EMT, 104000+XXX: the code is not read by the hardware (R281). -/
def emtBody (_ : BitVec 8) : Exec Unit :=
  raiseAt Config.vecEmt

/-- EMT, 104000+XXX: its outcome. -/
def execEmt (code : BitVec 8) (s : State) : Host.Outcome State Fault Refusal :=
  runBody (emtBody code) s

/-- TRAP, 104400+XXX: the code is not read by the hardware (R282). -/
def trapBody (_ : BitVec 8) : Exec Unit :=
  raiseAt Config.vecTrap

/-- TRAP, 104400+XXX: its outcome. -/
def execTrap (code : BitVec 8) (s : State) : Host.Outcome State Fault Refusal :=
  runBody (trapBody code) s

/-- BPT, 000003 (R283). -/
def bptBody : Exec Unit :=
  raiseAt Config.vecBpt

/-- BPT, 000003: its outcome. -/
def execBpt (s : State) : Host.Outcome State Fault Refusal :=
  runBody bptBody s

/-- IOT, 000004 (R284). -/
def iotBody : Exec Unit :=
  raiseAt Config.vecIot

/-- IOT, 000004: its outcome. -/
def execIot (s : State) : Host.Outcome State Fault Refusal :=
  runBody iotBody s

/-- RTI, 000002 (R287). -/
def rtiBody : Exec Unit :=
  returnFromTrap

/-- RTI, 000002: its outcome. -/
def execRti (s : State) : Host.Outcome State Fault Refusal :=
  runBody rtiBody s

/-- RTT, 000006: as RTI in every respect (R288). -/
def rttBody : Exec Unit :=
  returnFromTrap

/-- RTT, 000006: its outcome. -/
def execRtt (s : State) : Host.Outcome State Fault Refusal :=
  runBody rttBody s

/-- HALT, 000000: an illegal instruction outside kernel mode (R289). -/
def haltBody : Exec Unit :=
  ifKernel (putRun .halted) (raiseAt Config.vecIll)

/-- HALT, 000000: its outcome. -/
def execHalt (s : State) : Host.Outcome State Fault Refusal :=
  runBody haltBody s

/-- WAIT, 000001: an illegal instruction outside kernel mode (R290). -/
def waitBody : Exec Unit :=
  ifKernel (putRun .waiting) (raiseAt Config.vecIll)

/-- WAIT, 000001: its outcome. -/
def execWait (s : State) : Host.Outcome State Fault Refusal :=
  runBody waitBody s

/-- RESET, 000005: no operation outside kernel mode (R291). -/
def resetBody : Exec Unit :=
  ifKernel devReset (pure ())

/-- RESET, 000005: its outcome. -/
def execReset (s : State) : Host.Outcome State Fault Refusal :=
  runBody resetBody s

/-- `PSW[7:5] <- n` as a statement. -/
def putPri (n : BitVec 3) : Exec Unit := fun s => .ok () (s.setPri n)

/-- SPL, 00023n: no operation outside kernel mode (R292). -/
def splBody (level : BitVec 3) : Exec Unit :=
  ifKernel (putPri level) (pure ())

/-- SPL, 00023n: its outcome. -/
def execSpl (level : BitVec 3) (s : State) : Host.Outcome State Fault Refusal :=
  runBody (splBody level) s

/-- `SPof(pm)`, read (10_state.md R22). -/
def getPreviousSp : Exec Word := fun s => .ok (s.spOf s.pm) s

/-- `MemRead(a, 2, pm)` (20_memory.md R98). -/
def readPrevious (a : Word) : Exec Word := fun s => memReadAs s.pm a .word s

/-- `MemWrite(a, 2, v, pm)` (20_memory.md R98). -/
def writePrevious (a v : Word) : Exec Unit := fun s => memWriteAs s.pm a .word v s

/-- The value MFPI moves: the previous mode's stack pointer, or the word at an address in its space (R294). -/
def previousValue (src : Operand) : Exec Word :=
  if src.mode = .register then
    if src.reg = SP then getPreviousSp else raiseFatal .regOperand
  else do
    let l ← resolve src .word
    let a ← memLoc l
    readPrevious a

/-- Where MTPI stores (R295): the previous mode's stack pointer, R6 itself if it is the current mode. -/
def putPreviousSp (v : Word) : Exec Unit := fun s =>
  .ok () (s.setSpOf s.pm v)

/-- The flags of MFPI and MTPI, from the word moved (R294, R295). -/
def putMoveFlags (v : Word) : Exec Unit := do
  let f ← getCC
  putCC (logicFlags .word f v)

/-- MFPI, 0065ss (R294). -/
def mfpiBody (src : Operand) : Exec Unit := do
  let v ← previousValue src
  putMoveFlags v
  push v

/-- MFPI, 0065ss: its outcome. -/
def execMfpi (src : Operand) (s : State) : Host.Outcome State Fault Refusal :=
  runBody (mfpiBody src) s

/-- MTPI, 0066dd (R295). The pop comes first. -/
def mtpiBody (dst : Operand) : Exec Unit := do
  let v ← pop
  if dst.mode = .register then
    if dst.reg = SP then do
      putMoveFlags v
      putPreviousSp v
    else raiseFatal .regOperand
  else do
    let l ← resolve dst .word
    let a ← memLoc l
    putMoveFlags v
    writePrevious a v

/-- MTPI, 0066dd: its outcome. -/
def execMtpi (dst : Operand) (s : State) : Host.Outcome State Fault Refusal :=
  runBody (mtpiBody dst) s

/-- CLx, 000240 to 000257: clears the condition codes of the mask (R296). -/
def ccClearBody (mask : BitVec 4) : Exec Unit :=
  fun s => .ok () (s.setLow (s.psw.extractLsb' 0 4 &&& ~~~mask))

/-- CLx, 000240 to 000257: its outcome. -/
def execCcClear (mask : BitVec 4) (s : State) : Host.Outcome State Fault Refusal :=
  runBody (ccClearBody mask) s

/-- SEx, 000260 to 000277: sets the condition codes of the mask (R296). -/
def ccSetBody (mask : BitVec 4) : Exec Unit :=
  fun s => .ok () (s.setLow (s.psw.extractLsb' 0 4 ||| mask))

/-- SEx, 000260 to 000277: its outcome. -/
def execCcSet (mask : BitVec 4) (s : State) : Host.Outcome State Fault Refusal :=
  runBody (ccSetBody mask) s

end Sys2Proof.Machine
end

