-- ==== Sys2Proof/Machine/Cycle.lean ====
section
/-! DEFINITION. The machine cycle (00_scope.md R15) and the engine step (40_addressing_modes.md R150), over exec; and the pseudocode of
every instruction in one table, for claims that speak of an instruction that runs to its end. -/

namespace Sys2Proof.Machine

/-- The pseudocode of an instruction: what exec runs (R152). -/
def bodyOf (i : Instr) : Exec Unit :=
  match i with
  | .halt => haltBody
  | .wait => waitBody
  | .rti => rtiBody
  | .bpt => bptBody
  | .iot => iotBody
  | .reset => resetBody
  | .rtt => rttBody
  | .jmp dst => jmpBody dst
  | .rts reg => rtsBody reg
  | .spl level => splBody level
  | .ccClear mask => ccClearBody mask
  | .ccSet mask => ccSetBody mask
  | .swab dst => swabBody dst
  | .br off => brBody off
  | .bne off => bneBody off
  | .beq off => beqBody off
  | .bge off => bgeBody off
  | .blt off => bltBody off
  | .bgt off => bgtBody off
  | .ble off => bleBody off
  | .jsr reg dst => jsrBody reg dst
  | .clr dst => clrBody dst
  | .clrb dst => clrbBody dst
  | .com dst => comBody dst
  | .comb dst => combBody dst
  | .inc dst => incBody dst
  | .incb dst => incbBody dst
  | .dec dst => decBody dst
  | .decb dst => decbBody dst
  | .neg dst => negBody dst
  | .negb dst => negbBody dst
  | .adc dst => adcBody dst
  | .adcb dst => adcbBody dst
  | .sbc dst => sbcBody dst
  | .sbcb dst => sbcbBody dst
  | .tst dst => tstBody dst
  | .tstb dst => tstbBody dst
  | .ror dst => rorBody dst
  | .rorb dst => rorbBody dst
  | .rol dst => rolBody dst
  | .rolb dst => rolbBody dst
  | .asr dst => asrBody dst
  | .asrb dst => asrbBody dst
  | .asl dst => aslBody dst
  | .aslb dst => aslbBody dst
  | .mark nn => markBody nn
  | .mfpi src => mfpiBody src
  | .mtpi dst => mtpiBody dst
  | .sxt dst => sxtBody dst
  | .mov src dst => movBody src dst
  | .movb src dst => movbBody src dst
  | .cmp src dst => cmpBody src dst
  | .cmpb src dst => cmpbBody src dst
  | .bit src dst => bitBody src dst
  | .bitb src dst => bitbBody src dst
  | .bic src dst => bicBody src dst
  | .bicb src dst => bicbBody src dst
  | .bis src dst => bisBody src dst
  | .bisb src dst => bisbBody src dst
  | .add src dst => addBody src dst
  | .sub src dst => subBody src dst
  | .mul reg src => mulBody reg src
  | .div reg src => divBody reg src
  | .ash reg src => ashBody reg src
  | .ashc reg src => ashcBody reg src
  | .xor reg dst => xorBody reg dst
  | .sob reg nn => sobBody reg nn
  | .bpl off => bplBody off
  | .bmi off => bmiBody off
  | .bhi off => bhiBody off
  | .blos off => blosBody off
  | .bvc off => bvcBody off
  | .bvs off => bvsBody off
  | .bcc off => bccBody off
  | .bcs off => bcsBody off
  | .emt code => emtBody code
  | .trap code => trapBody code

/-- What a fetched word does: the instruction it decodes to, or the illegal-instruction trap, raised after the fetch and before any
other effect (R152, 30_encoding.md R127). -/
def execWord (w : Word) (s : State) : Host.Outcome State Fault Refusal :=
  match decode w with
  | .ok i => exec i s
  | .error _ => takeTrap s.cfg.vecIll s

/-- `Step()`: one engine step, with any synchronous trap it takes (R150, R154). -/
def engineStep (s : State) : Host.Outcome State Fault Refusal :=
  match fetch s with
  | .ok w t => execWord w t
  | .error (.trap vec) t => takeTrap vec t
  | .error (.fatal r) t => stopFatal r t

/-- One machine cycle (00_scope.md R15): an engine step if RUNNING, nothing if WAITING, then the environment's turn and one
delivery decision. HALTED stays as it is, and FATAL is the fault outcome again (R16, 10_state.md R42; logs 7, 8, 10). -/
def machineCycle (s : State) : Host.Outcome State Fault Refusal :=
  match s.run with
  | .halted => .next s
  | .fatal r => stopFatal r s
  | .waiting => boundary s
  | .running =>
    match engineStep s with
    | .next t => boundary t
    | .fault f => .fault f
    | .refused r => .refused r

end Sys2Proof.Machine
end

