-- ==== Sys2Proof/Machine/Step.lean ====
section
/-! DEFINITION. One step of the machine, and the placing of an instruction where that step fetches it. -/

namespace Sys2Proof.Machine

/-- One step is one machine cycle (00_scope.md R15, log 10). -/
def step (s : State) : Host.Outcome State Fault Refusal := machineCycle s

/-- `s` with the instruction whose bits are `w` (bits above `nbits` zero, up to the longest instruction) in memory at the PC, where
the next step fetches it, and RUN = RUNNING, so that the next step runs exactly it (log 12). It stands for loading a program from
outside the machine. Where the PC does not name a word of the memory array, nothing can be placed. -/
def State.withFetchWord (s : State) (nbits w : Nat) : State :=
  placeWords (maxInstrBytes / 2) { s with run := .running } (s.reg PC) (w % 2 ^ nbits)

end Sys2Proof.Machine
end

