-- ==== Sys2Proof/Safety.lean ====
section
/-! DEFINITION. The vocabulary of the claims: the invariant of the machine, exact arithmetic and its narrowing, which accesses reach the
memory array, what an operand needs to resolve, when an instruction is ready to run, the address an instruction stores to, and which
registers it may write. Nothing here is used by the machine. -/

namespace Sys2Proof.Machine

/-! ### The invariant -/

/-- What every step keeps: memory in canonical form (10_state.md R41), the interrupt table ordered, of at most ITAB_N legal entries (R40,
60_exceptions.md R330, R331), and a configuration that obeys the spec's constraints (20_memory.md R67, 70_reset_and_hazards.md R381). -/
structure State.Inv (s : State) : Prop where
  memory : Memory.wf s.cfg.ioBase s.mem = true
  tableLength : s.itab.length ≤ s.cfg.itabSlots
  tableOrder : s.itab.Pairwise fun e q => outranks e q = true
  tableLegal : ∀ e ∈ s.itab, e.vector.getLsbD 0 = false ∧ e.vector ≠ 0#8
  config : s.cfg.wf = true

/-! ### Exact arithmetic, narrowed at the end (10_state.md R26) -/

/-- The number of bits of an operand length: `w = 8*len` (00_scope.md R8). -/
def widthOf : Size → Nat
  | .byte => 8
  | .word => 16

/-- An operand value read as a two's-complement number: `sext_8`, `sext_16` (00_scope.md R8). -/
def signedOf (sz : Size) (x : Word) : Int :=
  match sz with
  | .byte => (lowByte x).toInt
  | .word => x.toInt

/-- The two's-complement number of width w that an exact result wraps to. -/
def narrowed (sz : Size) (e : Int) : Int := e.bmod (2 ^ widthOf sz)

/-- `e mod 2^w`, carried in the low bits of a word. -/
def carried (sz : Size) (e : Int) : Word := BitVec.ofInt 16 (e % 2 ^ widthOf sz)

/-- The flags of an exact signed result: N its sign after narrowing, Z zero after narrowing, V it did not fit, C as given. -/
def exactFlags (sz : Size) (e : Int) (c : Bool) : CC :=
  ⟨decide (narrowed sz e < 0), decide (narrowed sz e = 0), decide (narrowed sz e ≠ e), c⟩

/-- The flags of a move or a logic instruction: N and Z of the result, V cleared, C as given (41_double_operand.md R181 to R186). -/
def moveFlags (sz : Size) (res : Word) (c : Bool) : CC :=
  ⟨decide (signedOf sz res < 0), decide (res = 0#16), false, c⟩

/-- The flags of a shift or rotate: N and Z of the result, C the bit shifted out, V = N xor C (42_single_operand.md R209 to R212). -/
def rotateFlags (sz : Size) (res : Word) (out : Bool) : CC :=
  ⟨decide (signedOf sz res < 0), decide (res = 0#16), Bool.xor (decide (signedOf sz res < 0)) out, out⟩

/-! ### Accesses that reach the memory array -/

/-- The physical address an access is translated to, if the translator lets it (20_memory.md R91, R92). -/
def State.mapped (s : State) (m : ModeBits) (va : Word) (wr : Bool) : Option Nat :=
  if s.mmuOn then
    match violation (s.pdr (bankOf m) (pageOf va).toFin) (blockOf va) wr with
    | some _ => none
    | none => some (relocate s.cfg (s.par (bankOf m) (pageOf va).toFin) va)
  else some (mapDirect s.cfg va)

/-- The state after a successful translation: W is set by a write while translation is on (20_memory.md R96). -/
def State.marked (s : State) (m : ModeBits) (va : Word) (wr : Bool) : State :=
  if s.mmuOn ∧ wr = true then
    s.setPdr (bankOf m) (pageOf va).toFin (pdrModified (s.pdr (bankOf m) (pageOf va).toFin))
  else s

/-- The access is translated to address `pa` of the memory array, even for a word (20_memory.md R64, R73). -/
def State.reachesAt (s : State) (m : ModeBits) (va : Word) (sz : Size) (wr : Bool) (pa : Nat) : Prop :=
  s.mapped m va wr = some pa ∧ pa < s.cfg.ioBase ∧ (sz = .word → pa % 2 = 0)

/-- The access is translated to some address of the memory array. -/
def State.reaches (s : State) (m : ModeBits) (va : Word) (sz : Size) (wr : Bool) : Prop :=
  ∃ pa, s.reachesAt m va sz wr pa

/-- The word a read in mode `m` finds in the memory array. -/
def State.loadWord (s : State) (m : ModeBits) (va : Word) : Word :=
  match s.mapped m va false with
  | some pa => s.wordAt pa
  | none => 0#16

/-- A location that can be read in the current mode without a device or a core register: a register, or a place in the memory array. -/
def State.readable (s : State) (l : Loc) (sz : Size) : Prop :=
  match l with
  | .reg _ => True
  | .mem a => s.reaches s.cm a sz false

/-- A location that can be written likewise. -/
def State.writable (s : State) (l : Loc) (sz : Size) : Prop :=
  match l with
  | .reg _ => True
  | .mem a => s.reaches s.cm a sz true

/-- The trap sequence can push its frame on the kernel stack and read the vector (60_exceptions.md R322, R323, R326). -/
def State.trapReady (s : State) (vec : Word) : Prop :=
  s.reaches 0#2 (s.spOf 0#2 - 2) .word true ∧ s.reaches 0#2 (s.spOf 0#2 - 4) .word true ∧
    s.reaches 0#2 vec .word false ∧ s.reaches 0#2 (vec + 2) .word false

/-- What a trap through `vec`, taken in `s`, leaves in `t`, its frame pushed at physical addresses `psw` and `pc` and its vector read at
`newPc` and `newPsw` (60_exceptions.md R322, R324, R325). -/
structure TrapTaken (s t : State) (psw pc newPc newPsw : Nat) : Prop where
  frame : t.mem = Memory.writeWord (Memory.writeWord s.mem psw s.psw) pc (s.reg PC)
  counter : t.reg PC = t.wordAt newPc
  mode : t.cm = (t.wordAt newPsw).extractLsb' 14 2
  previous : t.pm = s.cm
  rest : t.psw.extractLsb' 0 12 = (t.wordAt newPsw).extractLsb' 0 12
  kernelStack : t.spOf 0#2 = s.spOf 0#2 - 4
  otherStacks : ∀ m, m ≠ 0#2 → t.spOf m = s.spOf m
  registers : ∀ r, r ≠ SP → r ≠ PC → t.reg r = s.reg r
  translator : t.sr0 = s.sr0 ∧ t.sr2 = s.sr2 ∧ t.kpar = s.kpar ∧ t.upar = s.upar ∧ t.updr = s.updr
  kernelPages : ∀ i : Fin 8, t.pdr .kernel i =
    if s.sr0.getLsbD 0 = true ∧
        (i.val = (s.spOf 0#2 - 2).toNat / 8192 ∨ i.val = (s.spOf 0#2 - 4).toNat / 8192)
    then s.pdr .kernel i ||| 0o100#16 else s.pdr .kernel i
  controller : t.itab = s.itab ∧ t.run = s.run
  platform : t.cfg = s.cfg ∧ t.devIn = s.devIn ∧ t.draws = s.draws ∧ t.ports = s.ports ∧ t.arrivals = s.arrivals

/-- A word can be pushed in the current mode. -/
def State.canPush (s : State) : Prop := s.reaches s.cm (s.reg SP - 2) .word true

/-- A word can be popped in the current mode. -/
def State.canPop (s : State) : Prop := s.reaches s.cm (s.reg SP) .word false

end Sys2Proof.Machine

namespace Sys2Proof

open Sys2Proof.Machine

/-! ### What an operand resolves to (40_addressing_modes.md R157, R158), as functions of the state -/

/-- The state after the operand has been resolved, autoincrement and autodecrement being by `step`: the register stepped, or R7 past
the index word. -/
def Operand.afterBy (o : Operand) (step : Word) (s : State) : State :=
  match o.mode with
  | .register | .regDeferred => s
  | .autoInc => s.setReg o.reg (s.reg o.reg + step)
  | .autoIncDeferred => s.setReg o.reg (s.reg o.reg + 2)
  | .autoDec => s.setReg o.reg (s.reg o.reg - step)
  | .autoDecDeferred => s.setReg o.reg (s.reg o.reg - 2)
  | .indexed | .indexedDeferred => s.setReg PC (s.reg PC + 2)

/-- The state after the operand has been resolved. -/
def Operand.after (o : Operand) (sz : Size) (s : State) : State := o.afterBy (stepSize sz o.reg) s

/-- The sum modes 6 and 7 form: the index word and the register, R7 being already past the index word. -/
def Operand.indexSum (o : Operand) (s : State) : Word :=
  s.loadWord s.cm (s.reg PC) + (s.setReg PC (s.reg PC + 2)).reg o.reg

/-- The location the operand resolves to, autodecrement being by `step`. -/
def Operand.locBy (o : Operand) (step : Word) (s : State) : Loc :=
  match o.mode with
  | .register => .reg o.reg
  | .regDeferred | .autoInc => .mem (s.reg o.reg)
  | .autoIncDeferred => .mem (s.loadWord s.cm (s.reg o.reg))
  | .autoDec => .mem (s.reg o.reg - step)
  | .autoDecDeferred => .mem (s.loadWord s.cm (s.reg o.reg - 2))
  | .indexed => .mem (o.indexSum s)
  | .indexedDeferred => .mem (s.loadWord s.cm (o.indexSum s))

/-- The location the operand resolves to. -/
def Operand.locIn (o : Operand) (sz : Size) (s : State) : Loc := o.locBy (stepSize sz o.reg) s

/-- What resolving the operand reads, its index word and its pointer, lies in the memory array. -/
def Operand.reachable (o : Operand) (s : State) : Prop :=
  match o.mode with
  | .register | .regDeferred | .autoInc | .autoDec => True
  | .autoIncDeferred => s.reaches s.cm (s.reg o.reg) .word false
  | .autoDecDeferred => s.reaches s.cm (s.reg o.reg - 2) .word false
  | .indexed => s.reaches s.cm (s.reg PC) .word false
  | .indexedDeferred =>
    s.reaches s.cm (s.reg PC) .word false ∧ s.reaches s.cm (o.indexSum s) .word false

/-- The operand resolves and its value can be read. -/
def Operand.readableIn (o : Operand) (sz : Size) (s : State) : Prop :=
  o.reachable s ∧ s.readable (o.locIn sz s) sz

/-- The operand resolves and its location can be written. -/
def Operand.writableIn (o : Operand) (sz : Size) (s : State) : Prop :=
  o.reachable s ∧ s.writable (o.locIn sz s) sz

/-! ### When an instruction is ready: conditions on the state and the operands alone under which it completes -/

/-- Both operands of a double-operand instruction can be read. -/
def bothReadable (src dst : Operand) (sz : Size) (s : State) : Prop :=
  src.readableIn sz s ∧ dst.readableIn sz (src.after sz s)

/-- The destination of a double-operand instruction can be written. -/
def thenWritable (src dst : Operand) (sz : Size) (s : State) : Prop :=
  src.readableIn sz s ∧ dst.writableIn sz (src.after sz s)

/-- The vector of a programmed trap (45_trap_system.md R281 to R284). -/
def Instr.trapVector : Instr → Option (Config → Word)
  | .emt _ => some Config.vecEmt
  | .trap _ => some Config.vecTrap
  | .bpt => some Config.vecBpt
  | .iot => some Config.vecIot
  | _ => none

/-- The instruction has all it needs: its operands resolve, and what it reads and writes is a register or lies in the memory array. -/
def Instr.ready (i : Instr) (s : State) : Prop :=
  match i with
  | .halt | .wait => s.cm = 0#2
  | .emt _ | .trap _ | .bpt | .iot => ∀ vec, i.trapVector = some vec → s.trapReady (vec s.cfg)
  | .rti | .rtt => s.canPop ∧ (s.setReg SP (s.reg SP + 2)).canPop
  | .jmp dst => dst.isMemory = true ∧ dst.reachable s
  | .jsr _ dst => dst.isMemory = true ∧ dst.reachable s ∧ (dst.after .word s).canPush
  | .rts _ => s.canPop
  | .mark nn => s.reaches s.cm (s.reg PC + countBytes nn) .word false
  | .mfpi src =>
    (src.isMemory = false ∧ src.reg = SP ∧ s.canPush) ∨
      (src.isMemory = true ∧ src.reachable s ∧
        (∀ a, src.locIn .word s = .mem a → s.reaches s.pm a .word false) ∧ (src.after .word s).canPush)
  | .mtpi dst =>
    s.canPop ∧
      ((dst.isMemory = false ∧ dst.reg = SP) ∨
        (dst.isMemory = true ∧ dst.reachable (s.setReg SP (s.reg SP + 2)) ∧
          ∀ a, dst.locIn .word (s.setReg SP (s.reg SP + 2)) = .mem a → s.reaches s.pm a .word true))
  | .mov src dst => thenWritable src dst .word s
  | .movb src dst => thenWritable src dst .byte s
  | .cmp src dst | .bit src dst => bothReadable src dst .word s
  | .cmpb src dst | .bitb src dst => bothReadable src dst .byte s
  | .bic src dst | .bis src dst | .add src dst | .sub src dst =>
    bothReadable src dst .word s ∧ thenWritable src dst .word s
  | .bicb src dst | .bisb src dst => bothReadable src dst .byte s ∧ thenWritable src dst .byte s
  | .clr dst | .sxt dst => dst.writableIn .word s
  | .clrb dst => dst.writableIn .byte s
  | .com dst | .inc dst | .dec dst | .neg dst | .adc dst | .sbc dst | .ror dst | .rol dst | .asr dst | .asl dst | .swab dst
  | .xor _ dst => dst.readableIn .word s ∧ dst.writableIn .word s
  | .comb dst | .incb dst | .decb dst | .negb dst | .adcb dst | .sbcb dst | .rorb dst | .rolb dst | .asrb dst | .aslb dst =>
    dst.readableIn .byte s ∧ dst.writableIn .byte s
  | .tst dst => dst.readableIn .word s
  | .tstb dst => dst.readableIn .byte s
  | .mul _ src | .div _ src | .ash _ src | .ashc _ src => src.readableIn .word s
  | .reset | .spl _ | .ccClear _ | .ccSet _ | .sob _ _ | .br _ | .bne _ | .beq _ | .bge _ | .blt _ | .bgt _ | .ble _ | .bpl _
  | .bmi _ | .bhi _ | .blos _ | .bvc _ | .bvs _ | .bcc _ | .bcs _ => True

/-- The word form or the byte form of an instruction that has both (30_encoding.md R130). -/
def form (sz : Size) (word byte : Instr) : Instr :=
  match sz with
  | .word => word
  | .byte => byte

/-! ### Where an instruction stores, computed with the machine's own operations -/

/-- The mode, the virtual address and the length of a store to a location in the current mode; none for a register. -/
def siteOf (l : Loc) (sz : Size) : Exec (Option (ModeBits × Word × Size)) := fun s =>
  match l with
  | .reg _ => .ok none s
  | .mem a => .ok (some (s.cm, a, sz)) s

/-- The word below the stack pointer: where a push stores. -/
def pushSite : Exec (Option (ModeBits × Word × Size)) := fun s => .ok (some (s.cm, s.reg SP - 2, .word)) s

/-- The word at an address in the previous mode's space: where MTPI stores. -/
def previousSite (l : Loc) : Exec (Option (ModeBits × Word × Size)) := fun s =>
  match l with
  | .reg _ => .ok none s
  | .mem a => .ok (some (s.pm, a, .word)) s

/-- Runs an instruction's accesses up to its store, and names the store; none for a form that stores nothing. -/
def storeSite (i : Instr) : Exec (Option (ModeBits × Word × Size)) :=
  match i with
  | .mov src dst => do
    let (_, dl) ← sourceAndDest src dst .word
    siteOf dl .word
  | .movb src dst => do
    let (_, dl) ← sourceAndDest src dst .byte
    siteOf dl .byte
  | .bic src dst | .bis src dst | .add src dst | .sub src dst => do
    let (_, dl, _) ← sourceAndOld src dst .word
    siteOf dl .word
  | .bicb src dst | .bisb src dst => do
    let (_, dl, _) ← sourceAndOld src dst .byte
    siteOf dl .byte
  | .clr dst | .sxt dst => do
    let dl ← resolve dst .word
    siteOf dl .word
  | .clrb dst => do
    let dl ← resolve dst .byte
    siteOf dl .byte
  | .com dst | .inc dst | .dec dst | .neg dst | .adc dst | .sbc dst | .ror dst | .rol dst | .asr dst | .asl dst | .swab dst
  | .xor _ dst => do
    let (dl, _) ← destAndOld dst .word
    siteOf dl .word
  | .comb dst | .incb dst | .decb dst | .negb dst | .adcb dst | .sbcb dst | .rorb dst | .rolb dst | .asrb dst | .aslb dst => do
    let (dl, _) ← destAndOld dst .byte
    siteOf dl .byte
  | .jsr _ dst => do
    let dl ← resolve dst .word
    let _ ← memLoc dl
    pushSite
  | .mfpi src => do
    let _ ← previousValue src
    pushSite
  | .mtpi dst => do
    let _ ← pop
    let dl ← resolve dst .word
    previousSite dl
  | _ => pure none

/-- The physical address and the length of the instruction's store, if it stores. -/
def storeTarget (i : Instr) (s : State) : Option (Nat × Size) :=
  match storeSite i s with
  | .ok (some (m, va, sz)) u =>
    match translate va m true u with
    | .ok pa _ => some (pa, sz)
    | .error _ _ => none
  | _ => none

/-- The byte at physical address `x` is one the instruction stores to. -/
def storesByte (i : Instr) (s : State) (x : Nat) : Prop :=
  match storeTarget i s with
  | some (pa, .word) => x = pa ∨ x = pa + 1
  | some (pa, .byte) => x = pa
  | none => False

/-- The instruction stores to one of the core's own registers: its store's word address is in the table of 20_memory.md R65. -/
def storesCoreReg (i : Instr) (s : State) (r : CoreReg) : Prop :=
  ∃ pa sz, storeTarget i s = some (pa, sz) ∧ s.cfg.ioBase ≤ evenAddr pa ∧ coreRegAt s.cfg (evenAddr pa) = some r

/-- Forms that store nothing whatever their operands: branches, tests, register results, returns, traps, condition codes. -/
def Instr.neverStores : Instr → Bool
  | .mov _ dst | .movb _ dst | .bic _ dst | .bicb _ dst | .bis _ dst | .bisb _ dst | .add _ dst | .sub _ dst => !dst.isMemory
  | .clr dst | .clrb dst | .com dst | .comb dst | .inc dst | .incb dst | .dec dst | .decb dst | .neg dst | .negb dst | .adc dst
  | .adcb dst | .sbc dst | .sbcb dst | .ror dst | .rorb dst | .rol dst | .rolb dst | .asr dst | .asrb dst | .asl dst | .aslb dst
  | .sxt dst | .swab dst | .xor _ dst | .mtpi dst => !dst.isMemory
  | .jsr _ _ | .mfpi _ => false
  | _ => true

/-! ### What an instruction may write besides memory -/

/-- The register an operand's mode steps, if it steps one (R157). -/
def Operand.steps (o : Operand) (r : Reg) : Bool :=
  match o.mode with
  | .autoInc | .autoIncDeferred | .autoDec | .autoDecDeferred => decide (o.reg = r)
  | _ => false

/-- The operand is register `r` itself. -/
def Operand.isReg (o : Operand) (r : Reg) : Bool := !o.isMemory && decide (o.reg = r)

/-- The registers other than R7 an instruction may write: its destination registers and those its addressing modes or its rule update.
R6 is written besides by any load of the PSW that changes the mode (10_state.md R30). -/
def Instr.mayWriteReg (i : Instr) (r : Reg) : Bool :=
  match i with
  | .mov src dst | .movb src dst | .bic src dst | .bicb src dst | .bis src dst | .bisb src dst | .add src dst | .sub src dst =>
    src.steps r || dst.steps r || dst.isReg r
  | .cmp src dst | .cmpb src dst | .bit src dst | .bitb src dst => src.steps r || dst.steps r
  | .clr dst | .clrb dst | .com dst | .comb dst | .inc dst | .incb dst | .dec dst | .decb dst | .neg dst | .negb dst | .adc dst
  | .adcb dst | .sbc dst | .sbcb dst | .ror dst | .rorb dst | .rol dst | .rolb dst | .asr dst | .asrb dst | .asl dst | .aslb dst
  | .sxt dst | .swab dst | .xor _ dst => dst.steps r || dst.isReg r
  | .tst dst | .tstb dst | .jmp dst => dst.steps r
  | .mul reg src | .div reg src | .ashc reg src => src.steps r || decide (reg = r) || decide (partner reg = r)
  | .ash reg src => src.steps r || decide (reg = r)
  | .sob reg _ => decide (reg = r)
  | .jsr reg dst => dst.steps r || decide (reg = r) || decide (r = SP)
  | .rts reg => decide (reg = r) || decide (r = SP)
  | .mark _ => decide (r = 5) || decide (r = SP)
  | .mfpi src => src.steps r || decide (r = SP)
  | .mtpi dst => dst.steps r || decide (r = SP)
  | .rti | .rtt => decide (r = SP)
  | _ => false

/-- The instructions that write condition codes by their own rule (10_state.md R26): all but branches, jumps, subroutine linkage, SOB,
the privileged operations and the programmed traps. RTI and RTT write them with the whole PSW. -/
def Instr.setsFlags : Instr → Bool
  | .halt | .wait | .bpt | .iot | .reset | .jmp _ | .rts _ | .spl _ | .jsr _ _ | .mark _ | .sob _ _ | .emt _ | .trap _ | .br _
  | .bne _ | .beq _ | .bge _ | .blt _ | .bgt _ | .ble _ | .bpl _ | .bmi _ | .bhi _ | .blos _ | .bvc _ | .bvs _ | .bcc _
  | .bcs _ => false
  | _ => true

/-- RTI and RTT: the instructions that load the PSW by their own rule (45_trap_system.md R287, R288). -/
def Instr.isReturn : Instr → Bool
  | .rti | .rtt => true
  | _ => false

end Sys2Proof
end

