-- ==== Sys2Proof/Certificates/Slice0/Obligations.lean ====
section
/-! DEFINITION. The statements for the provers. Each docstring names the rule of spec/ it formalises, or the sections it rests on. -/

open Sys2Proof Sys2Proof.Machine

/-! ### Encoding -/

/-- Decoding the word of an instruction gives the instruction, with every operand at every value its field admits (30_encoding.md R122,
R123, R126). -/
def Obligations.DecodeOfEncode : Prop :=
  ∀ i : Instr, decode (encode i) = .ok i

/-- A word that decodes is the word of the instruction it decodes to: each word has one meaning (30_encoding.md R125, R126). -/
def Obligations.EncodeOfDecode : Prop :=
  ∀ (w : Word) (i : Instr), decode w = .ok i → encode i = w

/-- The illegal words are exactly six ranges (30_encoding.md R127, the table; R128). -/
def Obligations.IllegalWordsAreSixRanges : Prop :=
  ∀ w : Word, (∃ e, decode w = .error e) ↔
    (0o000007 ≤ w.toNat ∧ w.toNat ≤ 0o000077) ∨ (0o000210 ≤ w.toNat ∧ w.toNat ≤ 0o000227) ∨
      (0o007000 ≤ w.toNat ∧ w.toNat ≤ 0o007777) ∨ (0o075000 ≤ w.toNat ∧ w.toNat ≤ 0o076777) ∨
      (0o106400 ≤ w.toNat ∧ w.toNat ≤ 0o107777) ∨ (0o170000 ≤ w.toNat ∧ w.toNat ≤ 0o177777)

/-- Words written out from R126 and the examples of 41 to 45 decode to the instructions they stand for. -/
def Obligations.SpecWordsDecode : Prop :=
  decode 0o010001#16 = .ok (.mov ⟨.register, 0⟩ ⟨.register, 1⟩) ∧
    decode 0o113100#16 = .ok (.movb ⟨.autoIncDeferred, 1⟩ ⟨.register, 0⟩) ∧
    decode 0o005237#16 = .ok (.inc ⟨.autoIncDeferred, 7⟩) ∧
    decode 0o071201#16 = .ok (.div 2 ⟨.register, 1⟩) ∧
    decode 0o001003#16 = .ok (.bne 3#8) ∧
    decode 0o004511#16 = .ok (.jsr 5 ⟨.regDeferred, 1⟩) ∧
    decode 0o077002#16 = .ok (.sob 0 2#6) ∧
    decode 0o000233#16 = .ok (.spl 3#3) ∧
    decode 0o000245#16 = .ok (.ccClear 5#4) ∧
    decode 0o104123#16 = .ok (.emt 0o123#8)

/-! ### The step -/

/-- A step of a running machine fetches, runs the decoded instruction with exec, and then has the environment's turn and the delivery
decision, made with the PSW the step left; a word that decodes to nothing takes the illegal-instruction trap, and a fetch that raises
takes its trap (00_scope.md R15, 40_addressing_modes.md R150, R152, R154, 60_exceptions.md R336, R337). That a step is
one such machine cycle is DEDUCED (log 10). The requests of a turn are the ones the schedule of log 4 lists, each accepted in order, a
fatal or refused one ending the step. -/
def Obligations.StepRunsTheDecodedInstruction : Prop :=
  (∀ (s t : State) (w : Word) (i : Instr), s.run = .running → fetch s = .ok w t → decode w = .ok i →
    step s = match exec i t with
      | .next u => boundary u
      | .fault f => .fault f
      | .refused r => .refused r) ∧
  (∀ (s t : State) (w : Word) (e : Illegal), s.run = .running → fetch s = .ok w t → decode w = .error e →
    step s = match takeTrap t.cfg.vecIll t with
      | .next u => boundary u
      | .fault f => .fault f
      | .refused r => .refused r) ∧
  (∀ (s t : State) (vec : Word), s.run = .running → fetch s = .error (.trap vec) t →
    step s = match takeTrap vec t with
      | .next u => boundary u
      | .fault f => .fault f
      | .refused r => .refused r) ∧
  (∀ u : State, u.run = .running ∨ u.run = .waiting →
    (u.arrivals = [] → boundary u = poll u) ∧
      ∀ turn later, u.arrivals = turn :: later → boundary u =
        match acceptAll turn { u with arrivals := later } with
        | .next v => poll v
        | .fault f => .fault f
        | .refused r => .refused r) ∧
  (∀ s : State, acceptAll [] s = .next s) ∧
  ∀ (q : IrqRequest) (later : List IrqRequest) (s : State), acceptAll (q :: later) s =
    match acceptIrq q s with
    | .next t => acceptAll later t
    | .fault f => .fault f
    | .refused r => .refused r

/-- The fetch: SR2 takes the PC unless an abort is recorded, before anything is translated; then the word at the PC is read in the current
mode, and the PC advances by 2. The fetch raises exactly where that read does, with its raise and in the state it leaves: SR2 is written
all the same, and every register is as it was, so the PC that a trap saves is that of the instruction (40_addressing_modes.md R150, R151,
10_state.md R38, R23). -/
def Obligations.FetchReadsTheWordAtThePc : Prop :=
  (∀ s : State, s.reaches s.cm (s.reg PC) .word false →
    fetch s = .ok (s.loadWord s.cm (s.reg PC))
      ((if s.sr0.extractLsb' 13 3 = 0#3 then s.setSr2 (s.reg PC) else s).setReg PC (s.reg PC + 2))) ∧
  ∀ s : State,
    let noted := if s.sr0.extractLsb' 13 3 = 0#3 then { s with sr2 := s.reg PC } else s
    (∀ (w : Word) (u : State), memReadAs s.cm (s.reg PC) .word noted = .ok w u →
      fetch s = .ok w (u.setReg PC (s.reg PC + 2))) ∧
    (∀ (e : Raise) (u : State), fetch s = .error e u ↔ memReadAs s.cm (s.reg PC) .word noted = .error e u) ∧
    ∀ (e : Raise) (u : State), fetch s = .error e u → u.regs = s.regs ∧ u.sr2 = noted.sr2

/-- HALTED stays as it is, FATAL is the same fault again, WAITING fetches nothing (10_state.md R42; logs 7 and 8 say what a step from an
absorbing state answers). -/
def Obligations.StoppedStatesDoNotRun : Prop :=
  ∀ s : State,
    (s.run = .halted → step s = .next s) ∧ (∀ r, s.run = .fatal r → step s = .fault (.fatal r s)) ∧
      (s.run = .waiting → step s = boundary s)

/-- A waiting machine goes on waiting, the requests of the environment's turn taken in, no request eligible and nothing else in the state
changed, or the trap sequence at the vector of an eligible request has been taken, the request removed and RUN = RUNNING (10_state.md R42,
45_trap_system.md R290, 60_exceptions.md R330, R333). The turn is the schedule's next one (log 4); that a step is one machine cycle is DEDUCED (log 10). -/
def Obligations.WaitEndsOnlyByDelivery : Prop :=
  ∀ s t : State, s.run = .waiting → step s = .next t →
    (t.run = .waiting ∧ environmentTurn s = .next t ∧ { t with itab := s.itab, arrivals := s.arrivals } = s ∧
      ∀ e, t.itab.head? = some e → e.vector = 0#8 ∨ e.priority.toNat ≤ (t.psw.extractLsb' 5 3).toNat) ∨
      ∃ u e v, environmentTurn s = .next u ∧ u.itab.head? = some e ∧ e.vector ≠ 0#8 ∧
        (u.psw.extractLsb' 5 3).toNat < e.priority.toNat ∧ takeTrap (e.vector.zeroExtend 16) u = .next v ∧
        t = { v with itab := u.itab.tail, run := .running }

/-- The invariant holds at reset, in the default configuration and in every legal one (10_state.md R40, R41, R46, 00_scope.md R6; logs 1,
6 and 13 name the default's open numbers). -/
def Obligations.ResetMeetsInvariant : Prop :=
  State.reset.Inv ∧ ∀ c : Config, c.wf = true → (State.resetOf c).Inv

/-- Every step keeps the invariant: memory canonical, the interrupt table ordered and legal, the configuration legal; and it changes
nothing of the configuration (10_state.md R40, R41, 60_exceptions.md R331, 20_memory.md R67, 00_scope.md R6; log 13 holds it in State). -/
def Obligations.StepKeepsInvariant : Prop :=
  ∀ s t : State, s.Inv → step s = .next t → t.Inv ∧ t.cfg = s.cfg

/-- The reset state of every legal configuration, and the default configuration's numbers (70_reset_and_hazards.md R380, 10_state.md R46,
00_scope.md R6). The zeros R46 states by decision D24 are log 15's, the default numbers log 13's, the record of the reset pulse log 3's;
what log 6 chose, BOOT_BASE and BOOT_ENTRY, stays a variable. A word of BOOT_WORDS or MEM_INIT is the one the configuration names, and
where it names none a free value (logs 5 and 6). -/
def Obligations.ResetValues : Prop :=
  (∀ c : Config, c.wf = true →
    let s := State.resetOf c
    (∀ r : Reg, r ≠ PC → s.reg r = 0#16) ∧ s.reg PC = c.bootEntry ∧ (∀ m, s.sp m = 0#16) ∧ s.psw = 0#16 ∧
      (∀ b i, s.par b i = 0#16 ∧ s.pdr b i = 0#16) ∧ s.sr0 = 0#16 ∧ s.sr2 = 0#16 ∧
      (∀ j, s.itabSlot j = ⟨0#8, 0#3⟩) ∧ s.run = .running ∧ s.ports = [.devReset] ∧ s.cfg = c ∧
      (∀ k, k < 29 → s.wordAt (c.bootBase + 2 * k) = c.bootWords.getD k (Config.freeBootWord k)) ∧
      (∀ a, a % 2 = 0 → (a < c.bootBase ∨ c.bootBase + 58 ≤ a) →
        s.wordAt a = (c.memInit.lookup a).getD (Config.freeMemInit a))) ∧
  State.reset = State.resetOf Config.default ∧
  let d := Config.default
  d.ioBase = 0o760000 ∧ d.vaIoBase = 0o160000 ∧ d.ioOffset = 0o600000 ∧ d.addrPsw = 0o777776 ∧ d.addrSr0 = 0o777572 ∧
    d.addrSr2 = 0o777576 ∧ d.addrKpdr = 0o772300 ∧ d.addrKpar = 0o772340 ∧ d.addrUpdr = 0o777600 ∧ d.addrUpar = 0o777640 ∧
    d.vecBus = 0o004#16 ∧ d.vecIll = 0o010#16 ∧ d.vecBpt = 0o014#16 ∧ d.vecIot = 0o020#16 ∧ d.vecEmt = 0o030#16 ∧
    d.vecTrap = 0o034#16 ∧ d.vecMmu = 0o250#16 ∧ d.xlen = 16 ∧ d.nreg = 8 ∧ d.nmode = 4 ∧ d.vaWidth = 16 ∧ d.paWidth = 18 ∧
    d.npage = 8 ∧ d.nbank = 2 ∧ d.itabSlots = 8

/-- Executing an instruction completes, or is FATAL(DOUBLE_FAULT), or, only for a register operand where memory is required, is
FATAL(REG_OPERAND); it is never refused (00_scope.md R9, 60_exceptions.md R340, 40_addressing_modes.md R161). An odd vector of the
configuration, which R340 calls a parameter error, is ruled out by the configuration's constraints. -/
def Obligations.ExecOutcomes : Prop :=
  ∀ (i : Instr) (s : State), s.cfg.wf = true →
    (∃ t, exec i s = .next t) ∨ (∃ t, t.run = .fatal .doubleFault ∧ exec i s = .fault (.fatal .doubleFault t)) ∨
      (i.wf = false ∧ ∃ t, t.run = .fatal .regOperand ∧ exec i s = .fault (.fatal .regOperand t))

/-- JMP and JSR to a register, and MFPI and MTPI of a register other than R6, stop in FATAL(REG_OPERAND); JMP, JSR and MFPI have changed
nothing, MTPI has popped its word (40_addressing_modes.md R161, 44_branch_control.md R256, R257, 45_trap_system.md R294, R295). -/
def Obligations.RegisterOperandStops : Prop :=
  ∀ (r : Reg) (o : Operand) (s : State), o.mode = .register →
    exec (.jmp o) s = .fault (.fatal .regOperand { s with run := .fatal .regOperand }) ∧
      exec (.jsr r o) s = .fault (.fatal .regOperand { s with run := .fatal .regOperand }) ∧
      (o.reg ≠ SP → exec (.mfpi o) s = .fault (.fatal .regOperand { s with run := .fatal .regOperand })) ∧
      (o.reg ≠ SP → ∀ v t, pop s = .ok v t →
        exec (.mtpi o) s = .fault (.fatal .regOperand { t with run := .fatal .regOperand }))

/-! ### Operands -/

/-- Every addressing mode gives the location and leaves the registers that R157 says, where its index word and pointer lie in the memory
array; no other piece of state changes. Modes 2 and 4 step by 1 for a byte operand on R0 to R5, and by 2 for a word and for R6 and R7
(R158). -/
def Obligations.AddressingModesResolve : Prop :=
  ∀ (o : Operand) (sz : Size) (s : State) (step : Word), step = (if sz = .byte ∧ o.reg.val < 6 then 1#16 else 2#16) →
    o.reachable s → resolve o sz s = .ok (o.locBy step s) (o.afterBy step s)

/-- Reading and writing a location (40_addressing_modes.md R159, R160). -/
def Obligations.LocationReadsAndWrites : Prop :=
  ∀ (n : Reg) (a v : Word) (sz : Size) (s : State),
    readLoc (.reg n) .word s = .ok (s.reg n) s ∧
      readLoc (.reg n) .byte s = .ok (BitVec.ofNat 16 ((s.reg n).toNat % 256)) s ∧
      readLoc (.mem a) sz s = memReadAs s.cm a sz s ∧
      writeLoc (.reg n) .word v s = .ok () (s.setReg n v) ∧
      writeLoc (.reg n) .byte v s =
        .ok () (s.setReg n (BitVec.ofNat 16 ((s.reg n).toNat / 256 * 256 + v.toNat % 256))) ∧
      writeLoc (.mem a) sz v s = memWriteAs s.cm a sz v s

/-- A memory access, in any mode m. Where it reaches the memory array it reads and writes its bytes in little-endian order and nothing else
but the descriptor's W bit changes (20_memory.md R64, R70, R71, R74). Everywhere: a translation that raises is the access's raise; a word
access at an odd physical address is a bus error, W staying set after a write (R73, R76); a word access at an even one is the router's; a
byte read is the router's read of the even address and the half selected, a byte write that read, the merge and the router's write, for
the memory array, the core registers and the devices alike (R80, R81, R82; the devices' ranges, answers and record are the platform's data
of logs 1, 2 and 3). Operands are accessed in the current mode, MFPI and MTPI
access their operand in the previous mode (R98). -/
def Obligations.MemoryArrayAccess : Prop :=
  ∀ (s : State) (m : ModeBits) (va v : Word) (pa : Nat),
    (s.reachesAt m va .word false pa →
      memReadAs m va .word s = .ok (s.byteAt (pa + 1) ++ s.byteAt pa) s) ∧
    (s.reachesAt m va .byte false pa → memReadAs m va .byte s = .ok ((s.byteAt pa).zeroExtend 16) s) ∧
    (s.reachesAt m va .word true pa → ∃ t, memWriteAs m va .word v s = .ok () t ∧
      (∀ x, t.byteAt x = if x = pa then v.extractLsb' 0 8 else if x = pa + 1 then v.extractLsb' 8 8
        else s.byteAt x) ∧ t = { s.marked m va true with mem := t.mem }) ∧
    (s.reachesAt m va .byte true pa → ∃ t, memWriteAs m va .byte v s = .ok () t ∧
      (∀ x, t.byteAt x = if x = pa then v.extractLsb' 0 8 else s.byteAt x) ∧
      t = { s.marked m va true with mem := t.mem }) ∧
    (∀ (sz : Size) (e : Raise) (t : State),
      (translate va m false s = .error e t → memReadAs m va sz s = .error e t) ∧
      (translate va m true s = .error e t → memWriteAs m va sz v s = .error e t)) ∧
    (let even := pa - pa % 2
     let half := fun w : Word => BitVec.ofNat 16 (if pa % 2 = 1 then w.toNat / 256 else w.toNat % 256)
     let merged := fun w : Word => BitVec.ofNat 16
       (if pa % 2 = 1 then v.toNat % 256 * 256 + w.toNat % 256 else w.toNat / 256 * 256 + v.toNat % 256)
     (∀ u, translate va m false s = .ok pa u → u = s ∧
       (pa % 2 = 1 → memReadAs m va .word s = .error (.trap s.cfg.vecBus) s) ∧
       (pa % 2 = 0 → memReadAs m va .word s = physRead pa s) ∧
       (∀ w t, physRead even s = .ok w t → memReadAs m va .byte s = .ok (half w) t) ∧
       (∀ e t, physRead even s = .error e t → memReadAs m va .byte s = .error e t)) ∧
     ∀ u, translate va m true s = .ok pa u →
       (s.sr0.getLsbD 0 = false → u = s) ∧
       (∀ (b : Bank) (p : Fin 8), s.sr0.getLsbD 0 = true → b = (if m = 3#2 then .user else .kernel) → p.val = va.toNat / 8192 →
         u = s.setPdr b p (s.pdr b p ||| 0o100#16)) ∧
       (pa % 2 = 1 → memWriteAs m va .word v s = .error (.trap s.cfg.vecBus) u) ∧
       (pa % 2 = 0 → memWriteAs m va .word v s = physWrite pa v u) ∧
       (∀ w t, physRead even u = .ok w t → memWriteAs m va .byte v s = physWrite even (merged w) t) ∧
       (∀ e t, physRead even u = .error e t → memWriteAs m va .byte v s = .error e t) ∧
       (s.cfg.ioBase ≤ even →
         (∀ r, coreRegAt s.cfg even = some r → memWriteAs m va .byte v s = .ok () (u.writeCore r (merged (u.readCore r)))) ∧
         ∀ d, coreRegAt s.cfg even = none → deviceAt s.cfg.devRanges even = some d →
           ∃ w t, devRead d.port even u = .ok w t ∧ t.ports = .read d.port even w :: u.ports ∧
             memWriteAs m va .byte v s = .ok () { t with ports := .write d.port even (merged w) :: t.ports })) ∧
    ∀ sz, memRead va sz s = memReadAs s.cm va sz s ∧ memWrite va sz v s = memWriteAs s.cm va sz v s ∧
      readPrevious va s = memReadAs s.pm va .word s ∧ writePrevious va v s = memWriteAs s.pm va .word v s

/-- Writing a value through a location and reading it back gives the value, masked to the operand length (40_addressing_modes.md R167),
for a register and for a location in the memory array. -/
def Obligations.WriteThenReadRoundTrip : Prop :=
  ∀ (l : Loc) (sz : Size) (v : Word) (s t : State), s.writable l sz → writeLoc l sz v s = .ok () t →
    readLoc l sz t = .ok (BitVec.ofNat 16 (v.toNat % 2 ^ widthOf sz)) t

/-! ### Router and core registers -/

/-- The router: an odd word address is a bus error, an even one below IO_BASE is the memory array, a core register responds, then the
device of the first range lo..hi that holds the address, and anything else is a bus error that changes nothing (20_memory.md R61, R62,
R63). The ranges, the answers and the record of port accesses are the platform's data of logs 1, 2 and 3. -/
def Obligations.RouterDecodesPhysicalAddresses : Prop :=
  ∀ (pa : Nat) (w : Word) (s : State),
    let busError := physRead pa s = .error (.trap s.cfg.vecBus) s ∧ physWrite pa w s = .error (.trap s.cfg.vecBus) s
    let holds := fun d : DeviceRange => d.lo ≤ pa ∧ pa ≤ d.hi
    (pa % 2 = 1 → busError) ∧
    (pa % 2 = 0 → pa < s.cfg.ioBase →
      physRead pa s = .ok (s.wordAt pa) s ∧ physWrite pa w s = .ok () (s.setWord pa w)) ∧
    (pa % 2 = 0 → s.cfg.ioBase ≤ pa →
      (∀ r, coreRegAt s.cfg pa = some r → physRead pa s = .ok (s.readCore r) s ∧ physWrite pa w s = .ok () (s.writeCore r w)) ∧
      (∀ before d after, coreRegAt s.cfg pa = none → s.cfg.devRanges = before ++ d :: after →
        (∀ e ∈ before, ¬ holds e) → holds d →
        (∃ a t, physRead pa s = .ok a t ∧ t.ports = .read d.port pa a :: s.ports ∧
          { t with ports := s.ports, devIn := s.devIn, draws := s.draws } = s) ∧
        physWrite pa w s = .ok () { s with ports := .write d.port pa w :: s.ports }) ∧
      (coreRegAt s.cfg pa = none → (∀ e ∈ s.cfg.devRanges, ¬ holds e) → busError))

/-- Exactly the addresses of R65's table are core registers, in every legal configuration and at the default's numbers; each reads as
the value held and takes the word written and changes nothing else, but SR2 ignores it and the PSW takes it with SetPSW (20_memory.md
R65, R66, 10_state.md R31, R33, R34, R37, R38; the numbers are log 13's). -/
def Obligations.CoreRegisterMap : Prop :=
  (∀ (c : Config) (pa : Nat) (r : CoreReg), c.wf = true → pa % 2 = 0 → (coreRegAt c pa = some r ↔
    match r with
    | .pdr .kernel i => pa = c.addrKpdr + 2 * i.val
    | .par .kernel i => pa = c.addrKpar + 2 * i.val
    | .sr0 => pa = c.addrSr0
    | .sr2 => pa = c.addrSr2
    | .pdr .user i => pa = c.addrUpdr + 2 * i.val
    | .par .user i => pa = c.addrUpar + 2 * i.val
    | .psw => pa = c.addrPsw)) ∧
  (∀ (pa : Nat) (r : CoreReg), pa % 2 = 0 → (coreRegAt Config.default pa = some r ↔
    match r with
    | .pdr .kernel i => pa = 0o772300 + 2 * i.val
    | .par .kernel i => pa = 0o772340 + 2 * i.val
    | .sr0 => pa = 0o777572
    | .sr2 => pa = 0o777576
    | .pdr .user i => pa = 0o777600 + 2 * i.val
    | .par .user i => pa = 0o777640 + 2 * i.val
    | .psw => pa = 0o777776)) ∧
  ∀ (s : State) (w : Word) (b : Bank) (i : Fin 8),
    s.readCore (.par b i) = s.par b i ∧ s.readCore (.pdr b i) = s.pdr b i ∧ s.readCore .sr0 = s.sr0 ∧
      s.readCore .sr2 = s.sr2 ∧ s.readCore .psw = s.psw ∧
      s.writeCore (.par .kernel i) w = { s with kpar := s.kpar.set i.val w i.isLt } ∧
      s.writeCore (.par .user i) w = { s with upar := s.upar.set i.val w i.isLt } ∧
      s.writeCore (.pdr .kernel i) w = { s with kpdr := s.kpdr.set i.val w i.isLt } ∧
      s.writeCore (.pdr .user i) w = { s with updr := s.updr.set i.val w i.isLt } ∧
      (∀ j : Fin 8, s.par .kernel j = s.kpar[j.val] ∧ s.par .user j = s.upar[j.val] ∧ s.pdr .kernel j = s.kpdr[j.val] ∧
        s.pdr .user j = s.updr[j.val]) ∧
      s.writeCore .sr0 w = { s with sr0 := w } ∧ s.writeCore .sr2 w = s ∧ s.writeCore .psw w = s.setPsw w

/-! ### Translation -/

/-- Translation off: the address itself below VA_IO_BASE, moved up by IO_OFFSET from there; nothing is checked and nothing changes
(20_memory.md R91). At the default numbers, R91's 0o160000 and 0o600000, which are the spec's choice D6 (log 13), the map is R91's. -/
def Obligations.TranslationDisabled : Prop :=
  ∀ (va : Word) (m : ModeBits) (wr : Bool) (s : State), s.sr0.getLsbD 0 = false →
    ∃ pa, translate va m wr s = .ok pa s ∧
      (pa = if s.cfg.vaIoBase ≤ va.toNat then (va.toNat + s.cfg.ioOffset) % 2 ^ s.cfg.paWidth else va.toNat) ∧
      (s.cfg.wf = true → pa < 2 ^ s.cfg.paWidth) ∧
      (s.cfg = Config.default → pa = if 0o160000 ≤ va.toNat then va.toNat + 0o600000 else va.toNat)

/-- Translation on, no violation: bank by mode 3, page bits 15:13, block bits 12:6, displacement bits 5:0; the address is frame plus
block, times 64, plus displacement, modulo 2^PA_WIDTH, and a write sets W of that descriptor alone (20_memory.md R92 to R97; the modulus,
2^18 at the default PA_WIDTH of D6 and log 13, is the spec's choice D11, the bank by mode 3 its choice D3). -/
def Obligations.TranslationSucceeds : Prop :=
  ∀ (va : Word) (m : ModeBits) (wr : Bool) (s : State) (b : Bank) (p : Fin 8), s.sr0.getLsbD 0 = true →
    b = (if m = 3#2 then .user else .kernel) → p.val = va.toNat / 8192 →
    let d := s.pdr b p
    let block := va.toNat / 64 % 128
    let access := d.toNat / 2 % 4
    let length := d.toNat / 256 % 128
    access = 3 ∨ (access = 1 ∧ wr = false) →
    (d.getLsbD 3 = true → length ≤ block) → (d.getLsbD 3 = false → block ≤ length) →
    ∃ pa, translate va m wr s = .ok pa (if wr then s.setPdr b p (d ||| 0o100#16) else s) ∧
      pa = (((s.par b p).toNat % 4096 + block) * 64 + va.toNat % 64) % 2 ^ s.cfg.paWidth

/-- Translation on, a violation: no access, then read-only, then length; SR0 is written with one abort bit, the mode and the page, then
the trap at VEC_MMU is raised; no descriptor changes (20_memory.md R92, R93, R94, R95). SR0's layout is the spec's choice D9, and
VEC_MMU's default number, 0o250, its choice D13 (log 13). -/
def Obligations.TranslationFaults : Prop :=
  ∀ (va : Word) (m : ModeBits) (wr : Bool) (s : State) (b : Bank) (p : Fin 8), s.sr0.getLsbD 0 = true →
    b = (if m = 3#2 then .user else .kernel) → p.val = va.toNat / 8192 →
    let d := s.pdr b p
    let block := va.toNat / 64 % 128
    let access := d.toNat / 2 % 4
    let length := d.toNat / 256 % 128
    let faults := fun abort : Nat =>
      translate va m wr s = .error (.trap s.cfg.vecMmu) { s with sr0 := BitVec.ofNat 16 (abort + m.toNat * 32 + p.val * 2 + 1) }
    (access = 0 ∨ access = 2 → faults 0o100000) ∧
      (access = 1 → wr = true → faults 0o020000) ∧
      ((access = 3 ∨ (access = 1 ∧ wr = false)) →
        (d.getLsbD 3 = true ∧ block < length) ∨ (d.getLsbD 3 = false ∧ length < block) → faults 0o040000)

/-! ### The PSW and the stack-pointer bank -/

/-- SetPSW: all 16 bits, and when the mode changes R6 goes to the old mode's bank entry and comes from the new mode's; nothing else
changes, and every mode's stack pointer survives (10_state.md R22, R30). -/
def Obligations.SetPswSwitchesTheStack : Prop :=
  ∀ (s : State) (v : Word),
    (s.setPsw v).psw = v ∧
      (v.extractLsb' 14 2 = s.cm → (s.setPsw v).regs = s.regs ∧ (s.setPsw v).spbank = s.spbank) ∧
      (v.extractLsb' 14 2 ≠ s.cm →
        (∀ r, (s.setPsw v).reg r = if r = SP then s.sp (v.extractLsb' 14 2) else s.reg r) ∧
        ∀ m, (s.setPsw v).sp m = if m = s.cm then s.reg SP else s.sp m) ∧
      { s.setPsw v with psw := s.psw, regs := s.regs, spbank := s.spbank } = s ∧
      ∀ m, (s.setPsw v).spOf m = s.spOf m

/-! ### Traps, returns and interrupts -/

/-- The trap sequence completes when its four accesses reach the memory array, and leaves what R322, R324 and R325 say: of the kernel
descriptors too, which are as before but for W of the pages pushed to while translation is on (R325, 20_memory.md R96). And it completes
whatever its four accesses reach, a device or ADDR_PSW itself, when they end: each is in mode 0, and the frame goes below the kernel
stack pointer (20_memory.md R98, R323; where a push stores to ADDR_PSW, the stack pointer of the second push is DEDUCED, log 16). -/
def Obligations.TrapSequenceCompletes : Prop :=
  (∀ (vec : Word) (s : State) (p1 p2 v1 v2 : Nat), vec.getLsbD 0 = false →
    s.reachesAt 0#2 (s.spOf 0#2 - 2) .word true p1 → s.reachesAt 0#2 (s.spOf 0#2 - 4) .word true p2 →
    s.reachesAt 0#2 vec .word false v1 → s.reachesAt 0#2 (vec + 2) .word false v2 →
    ∃ t, takeTrap vec s = .next t ∧ TrapTaken s t p1 p2 v1 v2) ∧
  ∀ (vec npc npsw : Word) (s a b c d : State), vec.getLsbD 0 = false →
    let previous : Word := s.cm.zeroExtend 16 <<< 12
    memWriteAs 0#2 (s.spOf 0#2 - 2) .word s.psw
      ((s.setPsw ((s.psw &&& 0o007777#16) ||| previous)).setReg SP (s.spOf 0#2 - 2)) = .ok () a →
    memWriteAs 0#2 (s.spOf 0#2 - 4) .word (s.reg PC)
      (if a.cm = 0#2 then a.setReg SP (s.spOf 0#2 - 4) else a.setSp 0#2 (s.spOf 0#2 - 4)) = .ok () b →
    memReadAs 0#2 vec .word b = .ok npc c → memReadAs 0#2 (vec + 2) .word c = .ok npsw d →
    takeTrap vec s = .next ((d.setReg PC npc).setPsw ((npsw &&& 0o147777#16) ||| previous))

/-- EMT, TRAP, BPT and IOT take the trap at their vector, whatever the mode and the code (45_trap_system.md R280 to R284): they complete
where the sequence does. The vectors' default numbers, 030, 034, 014 and 020, are in ResetValues (log 13). -/
def Obligations.ProgrammedTraps : Prop :=
  ∀ (code : BitVec 8) (i : Instr) (vec : Word) (s : State), s.cfg.wf = true →
    (i, vec) ∈ [(Instr.emt code, s.cfg.vecEmt), (.trap code, s.cfg.vecTrap), (.bpt, s.cfg.vecBpt), (.iot, s.cfg.vecIot)] →
    ∀ p1 p2 v1 v2 : Nat,
      s.reachesAt 0#2 (s.spOf 0#2 - 2) .word true p1 → s.reachesAt 0#2 (s.spOf 0#2 - 4) .word true p2 →
      s.reachesAt 0#2 vec .word false v1 → s.reachesAt 0#2 (vec + 2) .word false v2 →
      ∃ t, exec i s = .next t ∧ TrapTaken s t p1 p2 v1 v2

/-- The PSW after a trap: whatever trap is taken, the previous mode is the mode before it; the current mode and bits 11:0 are those of the
vector's second word, and R6 is the stack pointer of the mode that word names (60_exceptions.md R324). The word is the one in memory
where the sequence's accesses reach the memory array. -/
def Obligations.TrapRecordsPreviousMode : Prop :=
  ∀ (vec : Word) (s t : State), takeTrap vec s = .next t → t.pm = s.cm ∧
    ∀ p1 p2 v1 v2 : Nat,
      s.reachesAt 0#2 (s.spOf 0#2 - 2) .word true p1 → s.reachesAt 0#2 (s.spOf 0#2 - 4) .word true p2 →
      s.reachesAt 0#2 vec .word false v1 → s.reachesAt 0#2 (vec + 2) .word false v2 →
      let npsw := t.wordAt v2
      t.psw.extractLsb' 14 2 = npsw.extractLsb' 14 2 ∧ t.psw.extractLsb' 12 2 = s.psw.extractLsb' 14 2 ∧
        t.psw.extractLsb' 0 12 = npsw.extractLsb' 0 12 ∧
        t.reg SP = if npsw.extractLsb' 14 2 = 0#2 then s.spOf 0#2 - 4 else s.spOf (npsw.extractLsb' 14 2)

/-- A trap with an odd kernel stack pointer is FATAL(DOUBLE_FAULT), with translation on or off, and an odd vector is FATAL(ODD_VECTOR)
(60_exceptions.md R322, R326). -/
def Obligations.TrapOnOddStackIsDoubleFault : Prop :=
  ∀ (vec : Word) (s : State),
    (s.cfg.wf = true → vec.getLsbD 0 = false → (s.spOf 0#2).getLsbD 0 = true →
      ∃ t, t.run = .fatal .doubleFault ∧ takeTrap vec s = .fault (.fatal .doubleFault t)) ∧
    (vec.getLsbD 0 = true → takeTrap vec s = .fault (.fatal .oddVector { s with run := .fatal .oddVector }))

/-- RTI and RTT pop PC then PSW from the current stack and load them: the whole PSW in kernel mode, only bits 4:0 in the others; all
stack pointers but the one popped from are kept (45_trap_system.md R287, R288). -/
def Obligations.ReturnRestoresPcAndPsw : Prop :=
  ∀ (i : Instr) (s : State), i = .rti ∨ i = .rtt →
    s.canPop → (s.setReg SP (s.reg SP + 2)).canPop →
    let npc := s.loadWord s.cm (s.reg SP)
    let npsw := s.loadWord s.cm (s.reg SP + 2)
    (s.cm = 0#2 → exec i s = .next (((s.setReg SP (s.reg SP + 4)).setReg PC npc).setPsw npsw)) ∧
      (s.cm ≠ 0#2 → exec i s = .next (((s.setReg SP (s.reg SP + 4)).setReg PC npc).setPsw
        ((s.psw &&& 0o177740#16) ||| (npsw &&& 0o000037#16))))

/-- A trap whose handler runs in kernel mode, followed by RTI or RTT, restores every register, the PSW and every mode's stack pointer
(95_test_vectors.md T5, 60_exceptions.md R339). -/
def Obligations.ReturnReversesTheTrap : Prop :=
  ∀ (vec : Word) (s t : State) (p1 p2 : Nat) (i : Instr), i = .rti ∨ i = .rtt →
    s.reachesAt 0#2 (s.spOf 0#2 - 2) .word true p1 → s.reachesAt 0#2 (s.spOf 0#2 - 4) .word true p2 → p1 ≠ p2 →
    s.trapReady vec → takeTrap vec s = .next t → t.cm = 0#2 →
    ∃ u, exec i t = .next u ∧ u.regs = s.regs ∧ u.psw = s.psw ∧ ∀ m, u.spOf m = s.spOf m

/-- HALT and WAIT outside kernel mode take the illegal-instruction trap; RESET and SPL there do nothing (45_trap_system.md R289 to R292,
60_exceptions.md R345). -/
def Obligations.PrivilegedOutsideKernel : Prop :=
  ∀ (s : State) (n : BitVec 3), s.cm ≠ 0#2 →
    exec .halt s = takeTrap s.cfg.vecIll s ∧ exec .wait s = takeTrap s.cfg.vecIll s ∧
      exec .reset s = .next s ∧ exec (.spl n) s = .next s

/-- In kernel mode HALT halts, WAIT waits, RESET pulses the device reset and SPL writes PSW[7:5]; each changes nothing else
(45_trap_system.md R289 to R292). -/
def Obligations.PrivilegedInKernel : Prop :=
  ∀ (s : State) (n : BitVec 3), s.cm = 0#2 →
    exec .halt s = .next { s with run := .halted } ∧ exec .wait s = .next { s with run := .waiting } ∧
      exec .reset s = .next { s with ports := .devReset :: s.ports } ∧
      ∃ p : Word, exec (.spl n) s = .next { s with psw := p } ∧ p.extractLsb' 5 3 = n ∧
        p.extractLsb' 8 8 = s.psw.extractLsb' 8 8 ∧ p.extractLsb' 0 5 = s.psw.extractLsb' 0 5

/-- A request goes behind every entry of higher priority, or of equal priority and no greater vector, and before the rest; the table
stays ordered (60_exceptions.md R330, R331). -/
def Obligations.RequestInsertionKeepsOrder : Prop :=
  ∀ (q : IrqRequest) (t : List IrqRequest),
    let ahead := fun e : IrqRequest =>
      q.priority.toNat < e.priority.toNat ∨ (e.priority = q.priority ∧ e.vector.toNat ≤ q.vector.toNat)
    (∃ l r, t = l ++ r ∧ insertIrq q t = l ++ q :: r ∧ (∀ e ∈ l, ahead e) ∧ (∀ e ∈ r.head?, ¬ ahead e)) ∧
      (t.Pairwise (fun e f => outranks e f = true) → (insertIrq q t).Pairwise (fun e f => outranks e f = true))

/-- A request of odd vector, or one that finds ITAB_N entries (eight, in a legal configuration), is fatal; any other of nonzero vector is
inserted; vector 0 is no legal request and is refused (log 9) (60_exceptions.md R330, R340, 00_scope.md R6). -/
def Obligations.RequestAcceptance : Prop :=
  ∀ (q : IrqRequest) (s : State),
    (q.vector.getLsbD 0 = true →
      acceptIrq q s = .fault (.fatal .oddVector { s with run := .fatal .oddVector })) ∧
    (q.vector.getLsbD 0 = false → q.vector ≠ 0#8 → s.cfg.itabSlots ≤ s.itab.length →
      acceptIrq q s = .fault (.fatal .irqOverflow { s with run := .fatal .irqOverflow })) ∧
    (q.vector.getLsbD 0 = false → q.vector ≠ 0#8 → s.itab.length < s.cfg.itabSlots →
      acceptIrq q s = .next { s with itab := insertIrq q s.itab }) ∧
    (q.vector = 0#8 → acceptIrq q s = .refused .vectorZeroRequest) ∧
    (s.cfg.wf = true → s.cfg.itabSlots = 8)

/-- The delivery decision: slot 0 is delivered exactly when it is not the sentinel and its priority is strictly greater than PSW[7:5];
delivery is the trap sequence at its vector, the entry removed and RUN = RUNNING; a fault inside the sequence is the step's. It is made
once a cycle, after the environment's turn, while RUN is RUNNING or WAITING (60_exceptions.md R330, R333). That the cycle whose step halts
ends there, without a turn of the environment or a decision, is DEDUCED (log 10, from 00_scope.md R16). -/
def Obligations.DeliveryDecision : Prop :=
  (∀ s : State, s.itab = [] → poll s = .next s) ∧
  (∀ (s : State) (e : IrqRequest) (l : List IrqRequest), s.itab = e :: l →
    (e.vector = 0#8 ∨ e.priority.toNat ≤ (s.psw.extractLsb' 5 3).toNat → poll s = .next s) ∧
    (e.vector ≠ 0#8 → (s.psw.extractLsb' 5 3).toNat < e.priority.toNat →
      (∀ t, takeTrap (e.vector.zeroExtend 16) s = .next t → poll s = .next { t with itab := l, run := .running }) ∧
      ∀ f, takeTrap (e.vector.zeroExtend 16) s = .fault f → poll s = .fault f)) ∧
  (∀ s t : State, s.run = .running ∨ s.run = .waiting → environmentTurn s = .next t → boundary s = poll t) ∧
  ∀ s : State, s.run = .halted → boundary s = .next s

/-! ### Results: double operand (41_double_operand.md). What the shared start reads is `u`; the destination is written in the state whose
flags are already set (R153, R389). -/

/-- MOV and MOVB: the value moved, N and Z of it, V cleared, C kept; MOVB to a register writes the sign-extended byte (R181, R182). -/
def Obligations.MoveResults : Prop :=
  ∀ (src dst : Operand) (s u t : State) (v : Word) (dl : Loc),
    (sourceAndDest src dst .word s = .ok (v, dl) u →
      writeLoc dl .word v (u.setCC (moveFlags .word v s.cc.c)) = .ok () t → exec (.mov src dst) s = .next t) ∧
    (∀ n, sourceAndDest src dst .byte s = .ok (v, .reg n) u →
      exec (.movb src dst) s =
        .next ((u.setCC (moveFlags .byte v s.cc.c)).setReg n (BitVec.ofInt 16 (v.extractLsb' 0 8).toInt))) ∧
    (∀ a, sourceAndDest src dst .byte s = .ok (v, .mem a) u →
      memWriteAs u.cm a .byte v (u.setCC (moveFlags .byte v s.cc.c)) = .ok () t → exec (.movb src dst) s = .next t)

/-- CMP, CMPB: the flags of source minus destination; BIT, BITB: of the conjunction; TST, TSTB: of the value, V and C cleared.
Nothing but the flags is written (R183, R184, 42_single_operand.md R208). -/
def Obligations.CompareAndTestResults : Prop :=
  ∀ (sz : Size) (src dst : Operand) (s u : State) (a b : Word) (dl : Loc),
    (sourceAndOld src dst sz s = .ok (a, dl, b) u →
      exec (form sz (.cmp src dst) (.cmpb src dst)) s =
        .next (u.setCC (exactFlags sz (signedOf sz a - signedOf sz b) (decide (a.toNat < b.toNat)))) ∧
      exec (form sz (.bit src dst) (.bitb src dst)) s = .next (u.setCC (moveFlags sz (a &&& b) s.cc.c))) ∧
    (destAndOld dst sz s = .ok (dl, b) u →
      exec (form sz (.tst dst) (.tstb dst)) s = .next (u.setCC (exactFlags sz (signedOf sz b) false)))

/-- BIC, BICB, BIS, BISB and XOR: destination and not source, destination or source, destination xor register; N and Z of the result, V
cleared, C kept (R185, R186, 43_eis_register.md R235). -/
def Obligations.LogicResults : Prop :=
  ∀ (sz : Size) (src dst : Operand) (reg : Reg) (s u t : State) (a b : Word) (dl : Loc),
    (sourceAndOld src dst sz s = .ok (a, dl, b) u →
      (writeLoc dl sz (b &&& ~~~a) (u.setCC (moveFlags sz (b &&& ~~~a) s.cc.c)) = .ok () t →
        exec (form sz (.bic src dst) (.bicb src dst)) s = .next t) ∧
      (writeLoc dl sz (b ||| a) (u.setCC (moveFlags sz (b ||| a) s.cc.c)) = .ok () t →
        exec (form sz (.bis src dst) (.bisb src dst)) s = .next t)) ∧
    (destAndOld dst .word s = .ok (dl, b) u →
      writeLoc dl .word (b ^^^ u.reg reg) (u.setCC (moveFlags .word (b ^^^ u.reg reg) s.cc.c)) = .ok () t →
      exec (.xor reg dst) s = .next t)

/-- ADD and SUB: the exact signed sum or difference narrowed to 16 bits, V when it does not fit, C the carry out or the borrow (R187,
R188). -/
def Obligations.AddAndSubtractResults : Prop :=
  ∀ (src dst : Operand) (s u t : State) (a b : Word) (dl : Loc),
    sourceAndOld src dst .word s = .ok (a, dl, b) u →
    (writeLoc dl .word (BitVec.ofInt 16 (a.toInt + b.toInt))
        (u.setCC (exactFlags .word (a.toInt + b.toInt) (decide (65536 ≤ a.toNat + b.toNat)))) = .ok () t →
      exec (.add src dst) s = .next t) ∧
    (writeLoc dl .word (BitVec.ofInt 16 (b.toInt - a.toInt))
        (u.setCC (exactFlags .word (b.toInt - a.toInt) (decide (b.toNat < a.toNat)))) = .ok () t →
      exec (.sub src dst) s = .next t)

/-! ### Results: single operand (42_single_operand.md) -/

/-- COM, INC, DEC, NEG, ADC, SBC and their byte forms: the exact result, narrowed; V when it does not fit; C set by COM, kept by INC and
DEC, set by NEG of a value other than 0, the carry of ADC and the borrow of SBC (R202 to R207). -/
def Obligations.SingleOperandArithmetic : Prop :=
  ∀ (sz : Size) (dst : Operand) (s u : State) (d : Word) (dl : Loc), destAndOld dst sz s = .ok (dl, d) u →
    let x := signedOf sz d
    let c : Nat := if s.cc.c then 1 else 0
    let ends := fun (i : Instr) (e : Int) (carry : Bool) =>
      ∀ t, writeLoc dl sz (carried sz e) (u.setCC (exactFlags sz e carry)) = .ok () t → exec i s = .next t
    ends (form sz (.com dst) (.comb dst)) (-1 - x) true ∧
      ends (form sz (.inc dst) (.incb dst)) (x + 1) s.cc.c ∧
      ends (form sz (.dec dst) (.decb dst)) (x - 1) s.cc.c ∧
      ends (form sz (.neg dst) (.negb dst)) (-x) (decide (d ≠ 0#16)) ∧
      ends (form sz (.adc dst) (.adcb dst)) (x + c) (decide (2 ^ widthOf sz ≤ d.toNat + c)) ∧
      ends (form sz (.sbc dst) (.sbcb dst)) (x - c) (decide (d.toNat < c))

/-- ROR, ROL, ASR, ASL and their byte forms: through the carry, by halving rounded down, by doubling; C is the bit shifted out and V is N
xor C (R209 to R212). -/
def Obligations.RotateAndShiftResults : Prop :=
  ∀ (sz : Size) (dst : Operand) (s u : State) (d : Word) (dl : Loc), destAndOld dst sz s = .ok (dl, d) u →
    let x := signedOf sz d
    let c : Nat := if s.cc.c then 1 else 0
    let ends := fun (i : Instr) (res : Word) (out : Bool) =>
      ∀ t, writeLoc dl sz res (u.setCC (rotateFlags sz res out)) = .ok () t → exec i s = .next t
    ends (form sz (.ror dst) (.rorb dst)) (BitVec.ofNat 16 ((d.toNat + 2 ^ widthOf sz * c) / 2)) (decide (d.toNat % 2 = 1)) ∧
      ends (form sz (.rol dst) (.rolb dst)) (BitVec.ofNat 16 ((2 * d.toNat + c) % 2 ^ widthOf sz))
        (decide (2 ^ widthOf sz ≤ 2 * d.toNat)) ∧
      ends (form sz (.asr dst) (.asrb dst)) (carried sz (x / 2)) (decide (x % 2 = 1)) ∧
      ends (form sz (.asl dst) (.aslb dst)) (carried sz (2 * x)) (decide (x < 0))

/-- CLR, CLRB, SXT and SWAB: 0 with NZVC = 0100; all ones or 0 by N, with N and C kept; the bytes exchanged, with the flags of the new
low byte (R201, R224, R225). -/
def Obligations.ClearExtendSwapResults : Prop :=
  ∀ (sz : Size) (dst : Operand) (s u t : State) (d : Word) (dl : Loc),
    (resolve dst sz s = .ok dl u → writeLoc dl sz 0#16 (u.setCC ⟨false, true, false, false⟩) = .ok () t →
      exec (form sz (.clr dst) (.clrb dst)) s = .next t) ∧
    (resolve dst .word s = .ok dl u →
      writeLoc dl .word (if s.cc.n then 0o177777#16 else 0#16) (u.setCC ⟨s.cc.n, !s.cc.n, false, s.cc.c⟩) = .ok () t →
      exec (.sxt dst) s = .next t) ∧
    (destAndOld dst .word s = .ok (dl, d) u →
      writeLoc dl .word (BitVec.ofNat 16 (d.toNat % 256 * 256 + d.toNat / 256))
        (u.setCC ⟨decide (0o200 ≤ d.toNat / 256), decide (d.toNat / 256 = 0), false, false⟩) = .ok () t →
      exec (.swab dst) s = .next t)

/-! ### Results: register and operand (43_eis_register.md) -/

/-- MUL: the exact signed product, its high word to R[r] when r is even and its low word to R[r|1]; C when it does not fit in 16 bits
(R231). -/
def Obligations.MultiplyResult : Prop :=
  ∀ (reg : Reg) (src : Operand) (s u : State) (v : Word), sourceValue src .word s = .ok v u →
    let p := (u.reg reg).toInt * v.toInt
    let f : CC := ⟨decide (p < 0), decide (p = 0), false, decide (p < -32768 ∨ 32767 < p)⟩
    (reg.val % 2 = 1 → exec (.mul reg src) s = .next ((u.setCC f).setReg reg (BitVec.ofInt 16 p))) ∧
      ∀ odd : Reg, reg.val % 2 = 0 → odd.val = reg.val + 1 →
        exec (.mul reg src) s =
          .next (((u.setCC f).setReg reg (BitVec.ofInt 16 (p / 65536))).setReg odd (BitVec.ofInt 16 p))

/-- DIV: for the quotient rounded toward zero and the remainder of the dividend's sign, both are written when the quotient fits in 16
bits; a zero divisor and a quotient overflow only set flags (R232). -/
def Obligations.DivideResult : Prop :=
  ∀ (reg low : Reg) (src : Operand) (s u : State) (v : Word), sourceValue src .word s = .ok v u →
    low.val = reg.val / 2 * 2 + 1 →
    let dd : Int := (u.reg reg).toInt * 65536 + (u.reg low).toNat
    (v = 0#16 → exec (.div reg src) s = .next (u.setCC ⟨false, true, true, true⟩)) ∧
      ∀ q rem : Int, dd = q * v.toInt + rem → rem.natAbs < v.toInt.natAbs → 0 ≤ rem * dd →
        (-32768 ≤ q ∧ q ≤ 32767 → exec (.div reg src) s =
          .next (((u.setCC ⟨decide (q < 0), decide (q = 0), false, false⟩).setReg reg (BitVec.ofInt 16 q)).setReg low
            (BitVec.ofInt 16 rem))) ∧
        (q < -32768 ∨ 32767 < q → exec (.div reg src) s = .next (u.setCC ⟨decide (q < 0), false, true, false⟩))

/-- ASH: by the signed low six bits of the source, left as a multiplication narrowed to 16 bits with V when the exact product does not
fit, right as a division rounded down with V cleared; C is the last bit shifted out (R233). -/
def Obligations.ArithmeticShiftResult : Prop :=
  ∀ (reg : Reg) (src : Operand) (s u : State) (v : Word) (n : Nat), sourceValue src .word s = .ok v u →
    let x := u.reg reg
    (v.toNat % 64 = n → n < 32 → exec (.ash reg src) s =
      .next ((u.setCC ⟨decide (narrowed .word (x.toInt * 2 ^ n) < 0), decide (narrowed .word (x.toInt * 2 ^ n) = 0),
        decide (narrowed .word (x.toInt * 2 ^ n) ≠ x.toInt * 2 ^ n), decide (0 < n ∧ n ≤ 16) && x.getLsbD (16 - n)⟩).setReg reg
          (BitVec.ofInt 16 (x.toInt * 2 ^ n)))) ∧
      (v.toNat % 64 + n = 64 → 0 < n → n ≤ 32 → exec (.ash reg src) s =
        .next ((u.setCC ⟨decide (x.toInt < 0), decide (x.toInt / 2 ^ n = 0), false,
          decide (x.toInt / 2 ^ (n - 1) % 2 = 1)⟩).setReg reg (BitVec.ofInt 16 (x.toInt / 2 ^ n))))

/-- ASHC: the same on the 32 bits of R[r] and R[r|1], the flags from the whole result, the high word written first (R234). -/
def Obligations.CombinedShiftResult : Prop :=
  ∀ (reg low : Reg) (src : Operand) (s u : State) (v : Word) (n : Nat), sourceValue src .word s = .ok v u →
    low.val = reg.val / 2 * 2 + 1 →
    let x : BitVec 32 := u.reg reg ++ u.reg low
    let put := fun (f : CC) (e : Int) =>
      ((u.setCC f).setReg reg (BitVec.ofInt 16 (e / 65536))).setReg low (BitVec.ofInt 16 e)
    (v.toNat % 64 = n → n < 32 →
      let e := x.toInt * 2 ^ n
      exec (.ashc reg src) s = .next (put ⟨decide (e.bmod (2 ^ 32) < 0), decide (e.bmod (2 ^ 32) = 0),
        decide (e.bmod (2 ^ 32) ≠ e), decide (0 < n) && x.getLsbD (32 - n)⟩ e)) ∧
      (v.toNat % 64 + n = 64 → 0 < n → n ≤ 32 →
        let e := x.toInt / 2 ^ n
        exec (.ashc reg src) s = .next (put ⟨decide (x.toInt < 0), decide (e = 0), false,
          decide (x.toInt / 2 ^ (n - 1) % 2 = 1)⟩ e))

/-! ### Results: control flow (44_branch_control.md) -/

/-- The fifteen branches: the opcode byte and the condition of R239's table; taken, the advanced PC plus twice the signed offset, not
taken, nothing; no other effect (R240 to R255). -/
def Obligations.BranchResults : Prop :=
  ∀ (off : BitVec 8) (s : State),
    let n := s.psw.getLsbD 3
    let z := s.psw.getLsbD 2
    let v := s.psw.getLsbD 1
    let c := s.psw.getLsbD 0
    let branches := fun (opcode : BitVec 8) (i : Instr) (cond : Bool) =>
      decode (opcode ++ off) = .ok i ∧
        exec i s = .next (if cond then s.setReg PC (BitVec.ofInt 16 ((s.reg PC).toInt + 2 * off.toInt)) else s)
    branches 0o001#8 (.br off) true ∧ branches 0o002#8 (.bne off) (!z) ∧ branches 0o003#8 (.beq off) z ∧
      branches 0o004#8 (.bge off) (n == v) ∧ branches 0o005#8 (.blt off) (n != v) ∧
      branches 0o006#8 (.bgt off) (!(z || n != v)) ∧ branches 0o007#8 (.ble off) (z || n != v) ∧
      branches 0o200#8 (.bpl off) (!n) ∧ branches 0o201#8 (.bmi off) n ∧ branches 0o202#8 (.bhi off) (!(c || z)) ∧
      branches 0o203#8 (.blos off) (c || z) ∧ branches 0o204#8 (.bvc off) (!v) ∧ branches 0o205#8 (.bvs off) v ∧
      branches 0o206#8 (.bcc off) (!c) ∧ branches 0o207#8 (.bcs off) c

/-- SOB subtracts one from its register and goes back twice its count unless the register is then 0; JMP sets the PC to its operand's
address; no flag changes (R256, R260). -/
def Obligations.LoopAndJumpResults : Prop :=
  (∀ (reg : Reg) (nn : BitVec 6) (s : State),
    let w := s.reg reg - 1
    exec (.sob reg nn) s = .next (if w = 0#16 then s.setReg reg w
      else (s.setReg reg w).setReg PC ((s.setReg reg w).reg PC - BitVec.ofNat 16 (2 * nn.toNat)))) ∧
  (∀ (dst : Operand) (s u : State) (a : Word), resolve dst .word s = .ok (.mem a) u →
    exec (.jmp dst) s = .next (u.setReg PC a))

/-- JSR pushes the link register after its address is resolved, links the PC and jumps; RTS jumps through its register and pops it;
MARK moves SP past its words, jumps through R5 and pops R5 (R257, R258, R259). -/
def Obligations.SubroutineLinkageResults : Prop :=
  (∀ (reg : Reg) (dst : Operand) (s u t : State) (a : Word), resolve dst .word s = .ok (.mem a) u →
    memWriteAs u.cm (u.reg SP - 2) .word (u.reg reg) (u.setReg SP (u.reg SP - 2)) = .ok () t →
    exec (.jsr reg dst) s = .next ((t.setReg reg (t.reg PC)).setReg PC a)) ∧
  (∀ (reg : Reg) (s u : State) (w : Word),
    memReadAs s.cm (s.reg SP) .word (s.setReg PC (s.reg reg)) = .ok w u →
    exec (.rts reg) s = .next ((u.setReg SP (s.reg SP + 2)).setReg reg w)) ∧
  (∀ (nn : BitVec 6) (s u : State) (w : Word),
    let sp := s.reg PC + BitVec.ofNat 16 (2 * nn.toNat)
    memReadAs s.cm sp .word ((s.setReg SP sp).setReg PC (s.reg 5)) = .ok w u →
    exec (.mark nn) s = .next ((u.setReg SP (sp + 2)).setReg 5 w))

/-! ### Results: previous space and condition codes (45_trap_system.md) -/

/-- MFPI pushes the previous mode's stack pointer, or the word at its operand's address read in the previous mode; N and Z of it, V
cleared, C kept, before the push (R294). -/
def Obligations.MoveFromPreviousResults : Prop :=
  ∀ (src : Operand) (s u u' t : State) (v a : Word),
    let pushes := fun (w : Word) (x : State) =>
      memWriteAs x.cm (x.reg SP - 2) .word w ((x.setCC (moveFlags .word w s.cc.c)).setReg SP (x.reg SP - 2)) = .ok () t
    (src.mode = .register → src.reg = SP → v = (if s.pm = s.cm then s.reg SP else s.sp s.pm) → pushes v s →
      exec (.mfpi src) s = .next t) ∧
    (resolve src .word s = .ok (.mem a) u → memReadAs s.pm a .word u = .ok v u' → pushes v u' →
      exec (.mfpi src) s = .next t)

/-- MTPI pops a word first, then stores it in the previous mode's stack pointer, or at its operand's address in the previous mode; N and
Z of it, V cleared, C kept, before the store (R295). -/
def Obligations.MoveToPreviousResults : Prop :=
  ∀ (dst : Operand) (s p u t : State) (v a : Word), pop s = .ok v p →
    (dst.mode = .register → dst.reg = SP →
      exec (.mtpi dst) s = .next (if s.pm = s.cm then (p.setCC (moveFlags .word v s.cc.c)).setReg SP v
        else (p.setCC (moveFlags .word v s.cc.c)).setSp s.pm v)) ∧
    (resolve dst .word p = .ok (.mem a) u →
      memWriteAs s.pm a .word v (u.setCC (moveFlags .word v s.cc.c)) = .ok () t → exec (.mtpi dst) s = .next t)

/-- CLx clears and SEx sets exactly the condition codes of the mask; no other PSW bit and nothing else changes (R296). And where the four
codes stand, for every statement that writes or reads them: N, Z, V, C are PSW bits 3, 2, 1, 0, and writing them changes nothing else
(10_state.md R25, R30). -/
def Obligations.ConditionCodeOperators : Prop :=
  (∀ (f : CC) (s : State), ∃ p : Word, s.setCC f = { s with psw := p } ∧ s.cc = CC.mk (s.psw.getLsbD 3) (s.psw.getLsbD 2)
    (s.psw.getLsbD 1) (s.psw.getLsbD 0) ∧ p.getLsbD 3 = f.n ∧ p.getLsbD 2 = f.z ∧ p.getLsbD 1 = f.v ∧ p.getLsbD 0 = f.c ∧
    ∀ k, 4 ≤ k → p.getLsbD k = s.psw.getLsbD k) ∧
  ∀ (mask : BitVec 4) (s : State), ∃ p q : Word,
    exec (.ccClear mask) s = .next { s with psw := p } ∧ exec (.ccSet mask) s = .next { s with psw := q } ∧
      ∀ k, k < 16 →
        p.getLsbD k = (s.psw.getLsbD k && !(decide (k < 4) && mask.getLsbD k)) ∧
          q.getLsbD k = (s.psw.getLsbD k || (decide (k < 4) && mask.getLsbD k))

/-! ### Completion and frames. `bodyOf i s = .ok () t` says that instruction i runs to its end from s without raising a trap: then exec
answers t. -/

/-- Every instruction completes when it is ready: its operands resolve and what it reads and writes is a register or lies in the memory
array, in any mode, with translation on or off. A programmed trap completes by taking its trap; every other instruction ends without
one (40_addressing_modes.md R150, R152, and each instruction's rule in 41 to 45). -/
def Obligations.EveryInstructionCompletes : Prop :=
  ∀ (i : Instr) (s : State), s.cfg.wf = true → i.ready s →
    ∃ t, exec i s = .next t ∧ (i.trapVector = none → bodyOf i s = .ok () t)

/-- An instruction that raises takes its trap from the state it had reached: nothing is rolled back (40_addressing_modes.md R154,
70_reset_and_hazards.md R388). -/
def Obligations.RaisedTrapKeepsEarlierEffects : Prop :=
  ∀ (i : Instr) (s u : State),
    (∀ vec, bodyOf i s = .error (.trap vec) u → exec i s = takeTrap vec u) ∧
      (∀ r, bodyOf i s = .error (.fatal r) u → exec i s = .fault (.fatal r { u with run := .fatal r })) ∧
      (bodyOf i s = .ok () u → exec i s = .next u)

/-- A form that stores nothing leaves every byte of memory as it was. -/
def Obligations.NonStoringFormsKeepMemory : Prop :=
  ∀ (i : Instr) (s t : State), i.neverStores = true → bodyOf i s = .ok () t →
    exec i s = .next t ∧ ∀ x, t.byteAt x = s.byteAt x

/-- A form that stores leaves every byte as it was but those of its store, whose address is computed with the machine's own operations
in the state it stores from. -/
def Obligations.StoringFormsChangeOnlyTheirBytes : Prop :=
  ∀ (i : Instr) (s t : State), bodyOf i s = .ok () t →
    exec i s = .next t ∧ ∀ x, ¬ storesByte i s x → t.byteAt x = s.byteAt x

/-- Every register but R7 is unchanged except the instruction's destination registers, those its addressing modes step, and the stack
pointer of an instruction that pushes or pops; R6 changes besides only with the mode (10_state.md R21, R30). -/
def Obligations.OnlyNamedRegistersChange : Prop :=
  ∀ (i : Instr) (s t : State) (r : Reg), bodyOf i s = .ok () t → r ≠ PC → i.mayWriteReg r = false →
    (r = SP → t.cm = s.cm) → exec i s = .next t ∧ t.reg r = s.reg r

/-- Unless it is RTI or RTT or stores to ADDR_PSW, an instruction leaves the modes and bits 11:8 and 4 as they were, PSW[7:5] too unless
it is SPL, and the condition codes unless it writes them (10_state.md R26, R27, R30). -/
def Obligations.PswFrame : Prop :=
  ∀ (i : Instr) (s t : State), bodyOf i s = .ok () t → i.isReturn = false → ¬ storesCoreReg i s .psw →
    t.psw.extractLsb' 8 8 = s.psw.extractLsb' 8 8 ∧ t.psw.getLsbD 4 = s.psw.getLsbD 4 ∧
      ((∀ n, i ≠ .spl n) → t.pri = s.pri) ∧ (i.setsFlags = false → t.cc = s.cc)

/-- Outside kernel mode no instruction that runs to its end changes the current mode, the previous mode or the priority unless it stores
to ADDR_PSW, returns included (60_exceptions.md R346, 45_trap_system.md R287). -/
def Obligations.UnprivilegedModeIsKept : Prop :=
  ∀ (i : Instr) (s t : State), s.cm ≠ 0#2 → bodyOf i s = .ok () t → ¬ storesCoreReg i s .psw →
    t.cm = s.cm ∧ t.pm = s.pm ∧ t.pri = s.pri

/-- The translator's registers change only by a store to their address, but for the W bit a write sets; the other modes' stack pointers
change only by MTPI of R6, and by a JSR that links R6 after its push has stored to ADDR_PSW (10_state.md R22, R33, R34, R37,
20_memory.md R96). -/
def Obligations.TranslatorAndBankFrame : Prop :=
  ∀ (i : Instr) (s t : State), bodyOf i s = .ok () t →
    (¬ storesCoreReg i s .sr0 → t.sr0 = s.sr0) ∧
      (∀ b k, ¬ storesCoreReg i s (.par b k) → t.par b k = s.par b k) ∧
      (∀ b k, ¬ storesCoreReg i s (.pdr b k) →
        t.pdr b k = s.pdr b k ∨ (i.neverStores = false ∧ t.pdr b k = (s.pdr b k ||| 0o100#16))) ∧
      (∀ m, m ≠ s.cm → (∀ dst, i = .mtpi dst → dst.isMemory = true ∨ m ≠ s.pm) →
        (∀ dst, i = .jsr SP dst → ¬ storesCoreReg i s .psw) → t.spOf m = s.spOf m)

/-- Executing an instruction, whatever its outcome's trap, leaves SR2, the interrupt table and the platform's data of later cycles as
they were, and RUN too unless it is HALT or WAIT (10_state.md R38, R40, R42, 60_exceptions.md R332). -/
def Obligations.ControllerFrame : Prop :=
  ∀ (i : Instr) (s t : State), exec i s = .next t →
    t.sr2 = s.sr2 ∧ t.itab = s.itab ∧ t.cfg = s.cfg ∧ t.arrivals = s.arrivals ∧
      (i ≠ .halt → i ≠ .wait → t.run = s.run)
end

