-- ==== Sys2Proof/Laws/Memory.lean ====
section
/-! SUPPORT. The laws of the memory list: a read after a write, and the canonical form, which every memory operation keeps. -/

namespace Sys2Proof.Machine

/-! ### Bytes and words -/

@[simp] theorem highByte_append (h l : Byte) : highByte (h ++ l) = h := by
  apply BitVec.eq_of_getLsbD_eq
  intro i hi
  unfold highByte
  rw [BitVec.getLsbD_extractLsb']
  simp only [hi, decide_true, Bool.true_and]
  refine (BitVec.getLsbD_append (x := h) (y := l) (i := 8 + i)).trans ?_
  rw [if_neg (by omega), show 8 + i - 8 = i by omega]

@[simp] theorem lowByte_append (h l : Byte) : lowByte (h ++ l) = l := by
  apply BitVec.eq_of_getLsbD_eq
  intro i hi
  unfold lowByte
  rw [BitVec.getLsbD_extractLsb']
  simp only [hi, decide_true, Bool.true_and, Nat.zero_add]
  refine (BitVec.getLsbD_append (x := h) (y := l) (i := i)).trans ?_
  rw [if_pos hi]

@[simp] theorem high_append_low (w : Word) : highByte w ++ lowByte w = w := by
  apply BitVec.eq_of_getLsbD_eq
  intro i hi
  refine (BitVec.getLsbD_append (x := highByte w) (y := lowByte w) (i := i)).trans ?_
  unfold highByte lowByte
  split
  · next h => simp [h]
  · next h => simp [show i - 8 < 8 by omega, show 8 + (i - 8) = i by omega]

/-! ### Read after write -/

theorem Memory.lookup_below {lo : Nat} {m : List Host.Cell} {a : Nat} (h : Memory.risingFrom lo m = true) (ha : a < lo) :
    Memory.lookup m a = none := by
  cases m with
  | nil => rfl
  | cons c m =>
    obtain ⟨x, b⟩ := c
    simp only [Memory.risingFrom, Bool.and_eq_true, decide_eq_true_eq] at h
    simp [Memory.lookup, show a ≠ x by omega, show a < x by omega]

/-- A byte read after a byte write: the value written there, the old value elsewhere. -/
theorem Memory.readByte_writeByte (cfg : Config) (m : List Host.Cell) (a : Nat) (v : Byte) (x : Nat) :
    Memory.readByte cfg (Memory.writeByte m a v) x = if x = a then v else Memory.readByte cfg m x := by
  have key : Memory.lookup (Memory.writeByte m a v) x = if x = a then some v else Memory.lookup m x := by
    induction m with
    | nil => simp only [Memory.writeByte, Memory.lookup]; split <;> simp
    | cons c m ih =>
      obtain ⟨y, b⟩ := c
      simp only [Memory.writeByte]
      by_cases h1 : a = y
      · subst h1
        by_cases hx : x = a <;> simp [Memory.lookup, hx]
      · by_cases h2 : a < y
        · rw [if_neg h1, if_pos h2, Memory.lookup]
          by_cases hx : x = a
          · simp [hx]
          · rw [if_neg hx, if_neg hx]
            by_cases hlt : x < a
            · simp [Memory.lookup, hlt, show x ≠ y by omega, show x < y by omega]
            · simp [hlt]
        · rw [if_neg h1, if_neg h2, Memory.lookup, ih, Memory.lookup]
          by_cases hxy : x = y
          · simp [hxy, Ne.symm h1]
          · by_cases hlt : x < y
            · simp [hxy, hlt, show x ≠ a by omega]
            · simp [hxy, hlt]
  unfold Memory.readByte
  rw [key]
  split <;> rfl

theorem Memory.readByte_writeWord (cfg : Config) (m : List Host.Cell) (a : Nat) (w : Word) (x : Nat) :
    Memory.readByte cfg (Memory.writeWord m a w) x =
      if x = a + 1 then highByte w else if x = a then lowByte w else Memory.readByte cfg m x := by
  simp [Memory.writeWord, Memory.readByte_writeByte]

/-- A word read where a word was written gives that word. -/
@[simp] theorem Memory.readWord_writeWord (cfg : Config) (m : List Host.Cell) (a : Nat) (w : Word) :
    Memory.readWord cfg (Memory.writeWord m a w) a = w := by
  simp [Memory.readWord, Memory.readByte_writeWord]

/-- A word write leaves the words beside it alone. -/
theorem Memory.readWord_writeWord_ne (cfg : Config) (m : List Host.Cell) (a x : Nat) (w : Word) (h : x + 1 < a ∨ a + 1 < x) :
    Memory.readWord cfg (Memory.writeWord m a w) x = Memory.readWord cfg m x := by
  simp only [Memory.readWord, Memory.readByte_writeWord]
  rw [if_neg (by omega), if_neg (by omega), if_neg (by omega), if_neg (by omega)]

/-! ### The canonical form -/

theorem Memory.risingFrom_writeByte {lo : Nat} {m : List Host.Cell} {a : Nat} (v : Byte)
    (h : Memory.risingFrom lo m = true) (ha : lo ≤ a) : Memory.risingFrom lo (Memory.writeByte m a v) = true := by
  induction m generalizing lo with
  | nil => simp [Memory.writeByte, Memory.risingFrom, ha]
  | cons c m ih =>
    obtain ⟨x, b⟩ := c
    simp only [Memory.risingFrom, Bool.and_eq_true, decide_eq_true_eq] at h
    simp only [Memory.writeByte]
    by_cases h1 : a = x
    · subst h1; simp [Memory.risingFrom, ha, h.2]
    · by_cases h2 : a < x
      · simp [Memory.risingFrom, h1, h2, ha, h.2, show a + 1 ≤ x by omega]
      · simp [Memory.risingFrom, h1, h2, h.1, ih h.2 (by omega)]

theorem Memory.bounded_writeByte {top : Nat} {m : List Host.Cell} {a : Nat} (v : Byte)
    (h : (m.all fun c => decide (c.1 < top)) = true) (ha : a < top) :
    ((Memory.writeByte m a v).all fun c => decide (c.1 < top)) = true := by
  induction m with
  | nil => simp [Memory.writeByte, ha]
  | cons c m ih =>
    obtain ⟨x, b⟩ := c
    simp only [List.all_cons, Bool.and_eq_true] at h
    simp only [Memory.writeByte]
    split
    · simp [ha, h.2]
    · split
      · simp only [List.all_cons, Bool.and_eq_true]; exact ⟨by simpa using ha, h.1, h.2⟩
      · simp only [List.all_cons, Bool.and_eq_true]; exact ⟨h.1, ih h.2⟩

/-- A byte write below the bound keeps the canonical form. -/
theorem Memory.wf_writeByte {top : Nat} {m : List Host.Cell} {a : Nat} (v : Byte) (h : Memory.wf top m = true) (ha : a < top) :
    Memory.wf top (Memory.writeByte m a v) = true := by
  simp only [Memory.wf, Bool.and_eq_true] at h ⊢
  exact ⟨Memory.risingFrom_writeByte v h.1 (Nat.zero_le _), Memory.bounded_writeByte v h.2 ha⟩

/-- A word write below the bound keeps the canonical form. -/
theorem Memory.wf_writeWord {top : Nat} {m : List Host.Cell} {a : Nat} (w : Word) (h : Memory.wf top m = true) (ha : a + 1 < top) :
    Memory.wf top (Memory.writeWord m a w) = true :=
  Memory.wf_writeByte _ (Memory.wf_writeByte _ h (by omega)) ha

/-- Reset memory is in canonical form. -/
theorem Memory.wf_reset (c : Config) : Memory.wf c.ioBase (State.resetOf c).mem = true := rfl

/-- What a legal configuration says of the memory array's end (WellFormed.lean, Config.mapWf). -/
theorem Config.wf_ioBase {c : Config} (h : c.wf = true) : c.ioBase % 2 = 0 := by
  simp only [Config.wf, Config.mapWf, Bool.and_eq_true, decide_eq_true_eq] at h
  exact h.1.1.1.1.2.1.1.1.2

/-- A virtual address has room in the physical space of a legal configuration. -/
theorem Config.wf_paWidth {c : Config} (h : c.wf = true) : 16 ≤ c.paWidth := by
  simp only [Config.wf, Config.mapWf, Config.sourceWf, Bool.and_eq_true, decide_eq_true_eq] at h
  have h1 := h.1.1.1.1.1.1.1.1.2
  have h2 := h.1.1.1.1.2.1.1.1.1
  omega

/-- Adding IO_OFFSET and reducing modulo 2^PA_WIDTH keep the alignment of an address. -/
theorem Config.wf_alignment {c : Config} (h : c.wf = true) : c.ioOffset % 2 = 0 ∧ 2 ^ c.paWidth % 2 = 0 := by
  have hw := Config.wf_paWidth h
  simp only [Config.wf, Config.mapWf, Bool.and_eq_true, decide_eq_true_eq] at h
  refine ⟨h.1.1.1.1.2.1.2, ?_⟩
  obtain ⟨k, hk⟩ : ∃ k, c.paWidth = k + 1 := ⟨c.paWidth - 1, by omega⟩
  rw [hk, Nat.pow_succ]
  omega

/-- The interrupt table of a legal configuration has the source's eight slots. -/
theorem Config.wf_itabSlots {c : Config} (h : c.wf = true) : c.itabSlots = 8 := by
  simp only [Config.wf, Config.sourceWf, Bool.and_eq_true, decide_eq_true_eq] at h
  exact h.1.1.1.1.1.2

/-- Every vector of a legal configuration is even. -/
theorem Config.wf_vectors {c : Config} (h : c.wf = true) :
    ∀ v ∈ [c.vecBus, c.vecIll, c.vecBpt, c.vecIot, c.vecEmt, c.vecTrap, c.vecMmu], v.getLsbD 0 = false := by
  simp only [Config.wf, Config.vectorsWf, Bool.and_eq_true, List.all_eq_true, Bool.not_eq_true'] at h
  exact h.1.1.2

/-- An even address below IO_BASE has its whole word below IO_BASE. -/
theorem even_below_ioBase {c : Config} {pa : Nat} (hc : c.ioBase % 2 = 0) (h0 : pa % 2 = 0) (h : pa < c.ioBase) :
    pa + 1 < c.ioBase := by omega

end Sys2Proof.Machine
end

