-- ==== Sys2Proof/Laws/State.lean ====
section
/-! SUPPORT. The small lemmas of the state updates: one for each field an update leaves alone, and what an update does to the accessors
it changes. -/

namespace Sys2Proof.Machine

/-! ### What an update leaves alone -/

@[simp] theorem State.spbank_setReg (s : State) (n : Reg) (v : Word) : (s.setReg n v).spbank = s.spbank := rfl
@[simp] theorem State.psw_setReg (s : State) (n : Reg) (v : Word) : (s.setReg n v).psw = s.psw := rfl
@[simp] theorem State.kpar_setReg (s : State) (n : Reg) (v : Word) : (s.setReg n v).kpar = s.kpar := rfl
@[simp] theorem State.kpdr_setReg (s : State) (n : Reg) (v : Word) : (s.setReg n v).kpdr = s.kpdr := rfl
@[simp] theorem State.upar_setReg (s : State) (n : Reg) (v : Word) : (s.setReg n v).upar = s.upar := rfl
@[simp] theorem State.updr_setReg (s : State) (n : Reg) (v : Word) : (s.setReg n v).updr = s.updr := rfl
@[simp] theorem State.sr0_setReg (s : State) (n : Reg) (v : Word) : (s.setReg n v).sr0 = s.sr0 := rfl
@[simp] theorem State.sr2_setReg (s : State) (n : Reg) (v : Word) : (s.setReg n v).sr2 = s.sr2 := rfl
@[simp] theorem State.itab_setReg (s : State) (n : Reg) (v : Word) : (s.setReg n v).itab = s.itab := rfl
@[simp] theorem State.mem_setReg (s : State) (n : Reg) (v : Word) : (s.setReg n v).mem = s.mem := rfl
@[simp] theorem State.run_setReg (s : State) (n : Reg) (v : Word) : (s.setReg n v).run = s.run := rfl
@[simp] theorem State.cfg_setReg (s : State) (n : Reg) (v : Word) : (s.setReg n v).cfg = s.cfg := rfl
@[simp] theorem State.devIn_setReg (s : State) (n : Reg) (v : Word) : (s.setReg n v).devIn = s.devIn := rfl
@[simp] theorem State.draws_setReg (s : State) (n : Reg) (v : Word) : (s.setReg n v).draws = s.draws := rfl
@[simp] theorem State.ports_setReg (s : State) (n : Reg) (v : Word) : (s.setReg n v).ports = s.ports := rfl
@[simp] theorem State.arrivals_setReg (s : State) (n : Reg) (v : Word) : (s.setReg n v).arrivals = s.arrivals := rfl
@[simp] theorem State.sp_setReg (s : State) (n : Reg) (v : Word) (k : ModeBits) : ((s.setReg n v).sp k) = s.sp k := rfl
@[simp] theorem State.cm_setReg (s : State) (n : Reg) (v : Word) : ((s.setReg n v).cm) = s.cm := rfl
@[simp] theorem State.pm_setReg (s : State) (n : Reg) (v : Word) : ((s.setReg n v).pm) = s.pm := rfl
@[simp] theorem State.pri_setReg (s : State) (n : Reg) (v : Word) : ((s.setReg n v).pri) = s.pri := rfl
@[simp] theorem State.cc_setReg (s : State) (n : Reg) (v : Word) : ((s.setReg n v).cc) = s.cc := rfl
@[simp] theorem State.par_setReg (s : State) (n : Reg) (v : Word) (c : Bank) (j : Fin 8) : ((s.setReg n v).par c j) = s.par c j := rfl
@[simp] theorem State.pdr_setReg (s : State) (n : Reg) (v : Word) (c : Bank) (j : Fin 8) : ((s.setReg n v).pdr c j) = s.pdr c j := rfl
@[simp] theorem State.mmuOn_setReg (s : State) (n : Reg) (v : Word) : ((s.setReg n v).mmuOn) = s.mmuOn := rfl
@[simp] theorem State.noAbort_setReg (s : State) (n : Reg) (v : Word) : ((s.setReg n v).noAbort) = s.noAbort := rfl
@[simp] theorem State.byteAt_setReg (s : State) (n : Reg) (v : Word) (x : Nat) : ((s.setReg n v).byteAt x) = s.byteAt x := rfl
@[simp] theorem State.wordAt_setReg (s : State) (n : Reg) (v : Word) (x : Nat) : ((s.setReg n v).wordAt x) = s.wordAt x := rfl

@[simp] theorem State.regs_setLow (s : State) (b : BitVec 4) : (s.setLow b).regs = s.regs := rfl
@[simp] theorem State.spbank_setLow (s : State) (b : BitVec 4) : (s.setLow b).spbank = s.spbank := rfl
@[simp] theorem State.kpar_setLow (s : State) (b : BitVec 4) : (s.setLow b).kpar = s.kpar := rfl
@[simp] theorem State.kpdr_setLow (s : State) (b : BitVec 4) : (s.setLow b).kpdr = s.kpdr := rfl
@[simp] theorem State.upar_setLow (s : State) (b : BitVec 4) : (s.setLow b).upar = s.upar := rfl
@[simp] theorem State.updr_setLow (s : State) (b : BitVec 4) : (s.setLow b).updr = s.updr := rfl
@[simp] theorem State.sr0_setLow (s : State) (b : BitVec 4) : (s.setLow b).sr0 = s.sr0 := rfl
@[simp] theorem State.sr2_setLow (s : State) (b : BitVec 4) : (s.setLow b).sr2 = s.sr2 := rfl
@[simp] theorem State.itab_setLow (s : State) (b : BitVec 4) : (s.setLow b).itab = s.itab := rfl
@[simp] theorem State.mem_setLow (s : State) (b : BitVec 4) : (s.setLow b).mem = s.mem := rfl
@[simp] theorem State.run_setLow (s : State) (b : BitVec 4) : (s.setLow b).run = s.run := rfl
@[simp] theorem State.cfg_setLow (s : State) (b : BitVec 4) : (s.setLow b).cfg = s.cfg := rfl
@[simp] theorem State.devIn_setLow (s : State) (b : BitVec 4) : (s.setLow b).devIn = s.devIn := rfl
@[simp] theorem State.draws_setLow (s : State) (b : BitVec 4) : (s.setLow b).draws = s.draws := rfl
@[simp] theorem State.ports_setLow (s : State) (b : BitVec 4) : (s.setLow b).ports = s.ports := rfl
@[simp] theorem State.arrivals_setLow (s : State) (b : BitVec 4) : (s.setLow b).arrivals = s.arrivals := rfl
@[simp] theorem State.reg_setLow (s : State) (b : BitVec 4) (r : Reg) : ((s.setLow b).reg r) = s.reg r := rfl
@[simp] theorem State.sp_setLow (s : State) (b : BitVec 4) (k : ModeBits) : ((s.setLow b).sp k) = s.sp k := rfl
@[simp] theorem State.par_setLow (s : State) (b : BitVec 4) (c : Bank) (j : Fin 8) : ((s.setLow b).par c j) = s.par c j := rfl
@[simp] theorem State.pdr_setLow (s : State) (b : BitVec 4) (c : Bank) (j : Fin 8) : ((s.setLow b).pdr c j) = s.pdr c j := rfl
@[simp] theorem State.mmuOn_setLow (s : State) (b : BitVec 4) : ((s.setLow b).mmuOn) = s.mmuOn := rfl
@[simp] theorem State.noAbort_setLow (s : State) (b : BitVec 4) : ((s.setLow b).noAbort) = s.noAbort := rfl
@[simp] theorem State.byteAt_setLow (s : State) (b : BitVec 4) (x : Nat) : ((s.setLow b).byteAt x) = s.byteAt x := rfl
@[simp] theorem State.wordAt_setLow (s : State) (b : BitVec 4) (x : Nat) : ((s.setLow b).wordAt x) = s.wordAt x := rfl

@[simp] theorem State.regs_setCC (s : State) (f : CC) : (s.setCC f).regs = s.regs := rfl
@[simp] theorem State.spbank_setCC (s : State) (f : CC) : (s.setCC f).spbank = s.spbank := rfl
@[simp] theorem State.kpar_setCC (s : State) (f : CC) : (s.setCC f).kpar = s.kpar := rfl
@[simp] theorem State.kpdr_setCC (s : State) (f : CC) : (s.setCC f).kpdr = s.kpdr := rfl
@[simp] theorem State.upar_setCC (s : State) (f : CC) : (s.setCC f).upar = s.upar := rfl
@[simp] theorem State.updr_setCC (s : State) (f : CC) : (s.setCC f).updr = s.updr := rfl
@[simp] theorem State.sr0_setCC (s : State) (f : CC) : (s.setCC f).sr0 = s.sr0 := rfl
@[simp] theorem State.sr2_setCC (s : State) (f : CC) : (s.setCC f).sr2 = s.sr2 := rfl
@[simp] theorem State.itab_setCC (s : State) (f : CC) : (s.setCC f).itab = s.itab := rfl
@[simp] theorem State.mem_setCC (s : State) (f : CC) : (s.setCC f).mem = s.mem := rfl
@[simp] theorem State.run_setCC (s : State) (f : CC) : (s.setCC f).run = s.run := rfl
@[simp] theorem State.cfg_setCC (s : State) (f : CC) : (s.setCC f).cfg = s.cfg := rfl
@[simp] theorem State.devIn_setCC (s : State) (f : CC) : (s.setCC f).devIn = s.devIn := rfl
@[simp] theorem State.draws_setCC (s : State) (f : CC) : (s.setCC f).draws = s.draws := rfl
@[simp] theorem State.ports_setCC (s : State) (f : CC) : (s.setCC f).ports = s.ports := rfl
@[simp] theorem State.arrivals_setCC (s : State) (f : CC) : (s.setCC f).arrivals = s.arrivals := rfl
@[simp] theorem State.reg_setCC (s : State) (f : CC) (r : Reg) : ((s.setCC f).reg r) = s.reg r := rfl
@[simp] theorem State.sp_setCC (s : State) (f : CC) (k : ModeBits) : ((s.setCC f).sp k) = s.sp k := rfl
@[simp] theorem State.par_setCC (s : State) (f : CC) (c : Bank) (j : Fin 8) : ((s.setCC f).par c j) = s.par c j := rfl
@[simp] theorem State.pdr_setCC (s : State) (f : CC) (c : Bank) (j : Fin 8) : ((s.setCC f).pdr c j) = s.pdr c j := rfl
@[simp] theorem State.mmuOn_setCC (s : State) (f : CC) : ((s.setCC f).mmuOn) = s.mmuOn := rfl
@[simp] theorem State.noAbort_setCC (s : State) (f : CC) : ((s.setCC f).noAbort) = s.noAbort := rfl
@[simp] theorem State.byteAt_setCC (s : State) (f : CC) (x : Nat) : ((s.setCC f).byteAt x) = s.byteAt x := rfl
@[simp] theorem State.wordAt_setCC (s : State) (f : CC) (x : Nat) : ((s.setCC f).wordAt x) = s.wordAt x := rfl

@[simp] theorem State.regs_setPri (s : State) (n : BitVec 3) : (s.setPri n).regs = s.regs := rfl
@[simp] theorem State.spbank_setPri (s : State) (n : BitVec 3) : (s.setPri n).spbank = s.spbank := rfl
@[simp] theorem State.kpar_setPri (s : State) (n : BitVec 3) : (s.setPri n).kpar = s.kpar := rfl
@[simp] theorem State.kpdr_setPri (s : State) (n : BitVec 3) : (s.setPri n).kpdr = s.kpdr := rfl
@[simp] theorem State.upar_setPri (s : State) (n : BitVec 3) : (s.setPri n).upar = s.upar := rfl
@[simp] theorem State.updr_setPri (s : State) (n : BitVec 3) : (s.setPri n).updr = s.updr := rfl
@[simp] theorem State.sr0_setPri (s : State) (n : BitVec 3) : (s.setPri n).sr0 = s.sr0 := rfl
@[simp] theorem State.sr2_setPri (s : State) (n : BitVec 3) : (s.setPri n).sr2 = s.sr2 := rfl
@[simp] theorem State.itab_setPri (s : State) (n : BitVec 3) : (s.setPri n).itab = s.itab := rfl
@[simp] theorem State.mem_setPri (s : State) (n : BitVec 3) : (s.setPri n).mem = s.mem := rfl
@[simp] theorem State.run_setPri (s : State) (n : BitVec 3) : (s.setPri n).run = s.run := rfl
@[simp] theorem State.cfg_setPri (s : State) (n : BitVec 3) : (s.setPri n).cfg = s.cfg := rfl
@[simp] theorem State.devIn_setPri (s : State) (n : BitVec 3) : (s.setPri n).devIn = s.devIn := rfl
@[simp] theorem State.draws_setPri (s : State) (n : BitVec 3) : (s.setPri n).draws = s.draws := rfl
@[simp] theorem State.ports_setPri (s : State) (n : BitVec 3) : (s.setPri n).ports = s.ports := rfl
@[simp] theorem State.arrivals_setPri (s : State) (n : BitVec 3) : (s.setPri n).arrivals = s.arrivals := rfl
@[simp] theorem State.reg_setPri (s : State) (n : BitVec 3) (r : Reg) : ((s.setPri n).reg r) = s.reg r := rfl
@[simp] theorem State.sp_setPri (s : State) (n : BitVec 3) (k : ModeBits) : ((s.setPri n).sp k) = s.sp k := rfl
@[simp] theorem State.par_setPri (s : State) (n : BitVec 3) (c : Bank) (j : Fin 8) : ((s.setPri n).par c j) = s.par c j := rfl
@[simp] theorem State.pdr_setPri (s : State) (n : BitVec 3) (c : Bank) (j : Fin 8) : ((s.setPri n).pdr c j) = s.pdr c j := rfl
@[simp] theorem State.mmuOn_setPri (s : State) (n : BitVec 3) : ((s.setPri n).mmuOn) = s.mmuOn := rfl
@[simp] theorem State.noAbort_setPri (s : State) (n : BitVec 3) : ((s.setPri n).noAbort) = s.noAbort := rfl
@[simp] theorem State.byteAt_setPri (s : State) (n : BitVec 3) (x : Nat) : ((s.setPri n).byteAt x) = s.byteAt x := rfl
@[simp] theorem State.wordAt_setPri (s : State) (n : BitVec 3) (x : Nat) : ((s.setPri n).wordAt x) = s.wordAt x := rfl

@[simp] theorem State.regs_setSp (s : State) (m : ModeBits) (v : Word) : (s.setSp m v).regs = s.regs := rfl
@[simp] theorem State.psw_setSp (s : State) (m : ModeBits) (v : Word) : (s.setSp m v).psw = s.psw := rfl
@[simp] theorem State.kpar_setSp (s : State) (m : ModeBits) (v : Word) : (s.setSp m v).kpar = s.kpar := rfl
@[simp] theorem State.kpdr_setSp (s : State) (m : ModeBits) (v : Word) : (s.setSp m v).kpdr = s.kpdr := rfl
@[simp] theorem State.upar_setSp (s : State) (m : ModeBits) (v : Word) : (s.setSp m v).upar = s.upar := rfl
@[simp] theorem State.updr_setSp (s : State) (m : ModeBits) (v : Word) : (s.setSp m v).updr = s.updr := rfl
@[simp] theorem State.sr0_setSp (s : State) (m : ModeBits) (v : Word) : (s.setSp m v).sr0 = s.sr0 := rfl
@[simp] theorem State.sr2_setSp (s : State) (m : ModeBits) (v : Word) : (s.setSp m v).sr2 = s.sr2 := rfl
@[simp] theorem State.itab_setSp (s : State) (m : ModeBits) (v : Word) : (s.setSp m v).itab = s.itab := rfl
@[simp] theorem State.mem_setSp (s : State) (m : ModeBits) (v : Word) : (s.setSp m v).mem = s.mem := rfl
@[simp] theorem State.run_setSp (s : State) (m : ModeBits) (v : Word) : (s.setSp m v).run = s.run := rfl
@[simp] theorem State.cfg_setSp (s : State) (m : ModeBits) (v : Word) : (s.setSp m v).cfg = s.cfg := rfl
@[simp] theorem State.devIn_setSp (s : State) (m : ModeBits) (v : Word) : (s.setSp m v).devIn = s.devIn := rfl
@[simp] theorem State.draws_setSp (s : State) (m : ModeBits) (v : Word) : (s.setSp m v).draws = s.draws := rfl
@[simp] theorem State.ports_setSp (s : State) (m : ModeBits) (v : Word) : (s.setSp m v).ports = s.ports := rfl
@[simp] theorem State.arrivals_setSp (s : State) (m : ModeBits) (v : Word) : (s.setSp m v).arrivals = s.arrivals := rfl
@[simp] theorem State.reg_setSp (s : State) (m : ModeBits) (v : Word) (r : Reg) : ((s.setSp m v).reg r) = s.reg r := rfl
@[simp] theorem State.cm_setSp (s : State) (m : ModeBits) (v : Word) : ((s.setSp m v).cm) = s.cm := rfl
@[simp] theorem State.pm_setSp (s : State) (m : ModeBits) (v : Word) : ((s.setSp m v).pm) = s.pm := rfl
@[simp] theorem State.pri_setSp (s : State) (m : ModeBits) (v : Word) : ((s.setSp m v).pri) = s.pri := rfl
@[simp] theorem State.cc_setSp (s : State) (m : ModeBits) (v : Word) : ((s.setSp m v).cc) = s.cc := rfl
@[simp] theorem State.par_setSp (s : State) (m : ModeBits) (v : Word) (c : Bank) (j : Fin 8) : ((s.setSp m v).par c j) = s.par c j := rfl
@[simp] theorem State.pdr_setSp (s : State) (m : ModeBits) (v : Word) (c : Bank) (j : Fin 8) : ((s.setSp m v).pdr c j) = s.pdr c j := rfl
@[simp] theorem State.mmuOn_setSp (s : State) (m : ModeBits) (v : Word) : ((s.setSp m v).mmuOn) = s.mmuOn := rfl
@[simp] theorem State.noAbort_setSp (s : State) (m : ModeBits) (v : Word) : ((s.setSp m v).noAbort) = s.noAbort := rfl
@[simp] theorem State.byteAt_setSp (s : State) (m : ModeBits) (v : Word) (x : Nat) : ((s.setSp m v).byteAt x) = s.byteAt x := rfl
@[simp] theorem State.wordAt_setSp (s : State) (m : ModeBits) (v : Word) (x : Nat) : ((s.setSp m v).wordAt x) = s.wordAt x := rfl

@[simp] theorem State.kpar_setPsw (s : State) (v : Word) : (s.setPsw v).kpar = s.kpar := rfl
@[simp] theorem State.kpdr_setPsw (s : State) (v : Word) : (s.setPsw v).kpdr = s.kpdr := rfl
@[simp] theorem State.upar_setPsw (s : State) (v : Word) : (s.setPsw v).upar = s.upar := rfl
@[simp] theorem State.updr_setPsw (s : State) (v : Word) : (s.setPsw v).updr = s.updr := rfl
@[simp] theorem State.sr0_setPsw (s : State) (v : Word) : (s.setPsw v).sr0 = s.sr0 := rfl
@[simp] theorem State.sr2_setPsw (s : State) (v : Word) : (s.setPsw v).sr2 = s.sr2 := rfl
@[simp] theorem State.itab_setPsw (s : State) (v : Word) : (s.setPsw v).itab = s.itab := rfl
@[simp] theorem State.mem_setPsw (s : State) (v : Word) : (s.setPsw v).mem = s.mem := rfl
@[simp] theorem State.run_setPsw (s : State) (v : Word) : (s.setPsw v).run = s.run := rfl
@[simp] theorem State.cfg_setPsw (s : State) (v : Word) : (s.setPsw v).cfg = s.cfg := rfl
@[simp] theorem State.devIn_setPsw (s : State) (v : Word) : (s.setPsw v).devIn = s.devIn := rfl
@[simp] theorem State.draws_setPsw (s : State) (v : Word) : (s.setPsw v).draws = s.draws := rfl
@[simp] theorem State.ports_setPsw (s : State) (v : Word) : (s.setPsw v).ports = s.ports := rfl
@[simp] theorem State.arrivals_setPsw (s : State) (v : Word) : (s.setPsw v).arrivals = s.arrivals := rfl
@[simp] theorem State.par_setPsw (s : State) (v : Word) (c : Bank) (j : Fin 8) : ((s.setPsw v).par c j) = s.par c j := rfl
@[simp] theorem State.pdr_setPsw (s : State) (v : Word) (c : Bank) (j : Fin 8) : ((s.setPsw v).pdr c j) = s.pdr c j := rfl
@[simp] theorem State.mmuOn_setPsw (s : State) (v : Word) : ((s.setPsw v).mmuOn) = s.mmuOn := rfl
@[simp] theorem State.noAbort_setPsw (s : State) (v : Word) : ((s.setPsw v).noAbort) = s.noAbort := rfl
@[simp] theorem State.byteAt_setPsw (s : State) (v : Word) (x : Nat) : ((s.setPsw v).byteAt x) = s.byteAt x := rfl
@[simp] theorem State.wordAt_setPsw (s : State) (v : Word) (x : Nat) : ((s.setPsw v).wordAt x) = s.wordAt x := rfl

@[simp] theorem State.regs_setWord (s : State) (a : Nat) (w : Word) : (s.setWord a w).regs = s.regs := rfl
@[simp] theorem State.spbank_setWord (s : State) (a : Nat) (w : Word) : (s.setWord a w).spbank = s.spbank := rfl
@[simp] theorem State.psw_setWord (s : State) (a : Nat) (w : Word) : (s.setWord a w).psw = s.psw := rfl
@[simp] theorem State.kpar_setWord (s : State) (a : Nat) (w : Word) : (s.setWord a w).kpar = s.kpar := rfl
@[simp] theorem State.kpdr_setWord (s : State) (a : Nat) (w : Word) : (s.setWord a w).kpdr = s.kpdr := rfl
@[simp] theorem State.upar_setWord (s : State) (a : Nat) (w : Word) : (s.setWord a w).upar = s.upar := rfl
@[simp] theorem State.updr_setWord (s : State) (a : Nat) (w : Word) : (s.setWord a w).updr = s.updr := rfl
@[simp] theorem State.sr0_setWord (s : State) (a : Nat) (w : Word) : (s.setWord a w).sr0 = s.sr0 := rfl
@[simp] theorem State.sr2_setWord (s : State) (a : Nat) (w : Word) : (s.setWord a w).sr2 = s.sr2 := rfl
@[simp] theorem State.itab_setWord (s : State) (a : Nat) (w : Word) : (s.setWord a w).itab = s.itab := rfl
@[simp] theorem State.run_setWord (s : State) (a : Nat) (w : Word) : (s.setWord a w).run = s.run := rfl
@[simp] theorem State.cfg_setWord (s : State) (a : Nat) (w : Word) : (s.setWord a w).cfg = s.cfg := rfl
@[simp] theorem State.devIn_setWord (s : State) (a : Nat) (w : Word) : (s.setWord a w).devIn = s.devIn := rfl
@[simp] theorem State.draws_setWord (s : State) (a : Nat) (w : Word) : (s.setWord a w).draws = s.draws := rfl
@[simp] theorem State.ports_setWord (s : State) (a : Nat) (w : Word) : (s.setWord a w).ports = s.ports := rfl
@[simp] theorem State.arrivals_setWord (s : State) (a : Nat) (w : Word) : (s.setWord a w).arrivals = s.arrivals := rfl
@[simp] theorem State.reg_setWord (s : State) (a : Nat) (w : Word) (r : Reg) : ((s.setWord a w).reg r) = s.reg r := rfl
@[simp] theorem State.sp_setWord (s : State) (a : Nat) (w : Word) (k : ModeBits) : ((s.setWord a w).sp k) = s.sp k := rfl
@[simp] theorem State.cm_setWord (s : State) (a : Nat) (w : Word) : ((s.setWord a w).cm) = s.cm := rfl
@[simp] theorem State.pm_setWord (s : State) (a : Nat) (w : Word) : ((s.setWord a w).pm) = s.pm := rfl
@[simp] theorem State.pri_setWord (s : State) (a : Nat) (w : Word) : ((s.setWord a w).pri) = s.pri := rfl
@[simp] theorem State.cc_setWord (s : State) (a : Nat) (w : Word) : ((s.setWord a w).cc) = s.cc := rfl
@[simp] theorem State.par_setWord (s : State) (a : Nat) (w : Word) (c : Bank) (j : Fin 8) : ((s.setWord a w).par c j) = s.par c j := rfl
@[simp] theorem State.pdr_setWord (s : State) (a : Nat) (w : Word) (c : Bank) (j : Fin 8) : ((s.setWord a w).pdr c j) = s.pdr c j := rfl
@[simp] theorem State.mmuOn_setWord (s : State) (a : Nat) (w : Word) : ((s.setWord a w).mmuOn) = s.mmuOn := rfl
@[simp] theorem State.noAbort_setWord (s : State) (a : Nat) (w : Word) : ((s.setWord a w).noAbort) = s.noAbort := rfl

@[simp] theorem State.regs_setPar (s : State) (b : Bank) (i : Fin 8) (v : Word) : (s.setPar b i v).regs = s.regs := rfl
@[simp] theorem State.spbank_setPar (s : State) (b : Bank) (i : Fin 8) (v : Word) : (s.setPar b i v).spbank = s.spbank := rfl
@[simp] theorem State.psw_setPar (s : State) (b : Bank) (i : Fin 8) (v : Word) : (s.setPar b i v).psw = s.psw := rfl
@[simp] theorem State.kpdr_setPar (s : State) (b : Bank) (i : Fin 8) (v : Word) : (s.setPar b i v).kpdr = s.kpdr := rfl
@[simp] theorem State.updr_setPar (s : State) (b : Bank) (i : Fin 8) (v : Word) : (s.setPar b i v).updr = s.updr := rfl
@[simp] theorem State.sr0_setPar (s : State) (b : Bank) (i : Fin 8) (v : Word) : (s.setPar b i v).sr0 = s.sr0 := rfl
@[simp] theorem State.sr2_setPar (s : State) (b : Bank) (i : Fin 8) (v : Word) : (s.setPar b i v).sr2 = s.sr2 := rfl
@[simp] theorem State.itab_setPar (s : State) (b : Bank) (i : Fin 8) (v : Word) : (s.setPar b i v).itab = s.itab := rfl
@[simp] theorem State.mem_setPar (s : State) (b : Bank) (i : Fin 8) (v : Word) : (s.setPar b i v).mem = s.mem := rfl
@[simp] theorem State.run_setPar (s : State) (b : Bank) (i : Fin 8) (v : Word) : (s.setPar b i v).run = s.run := rfl
@[simp] theorem State.cfg_setPar (s : State) (b : Bank) (i : Fin 8) (v : Word) : (s.setPar b i v).cfg = s.cfg := rfl
@[simp] theorem State.devIn_setPar (s : State) (b : Bank) (i : Fin 8) (v : Word) : (s.setPar b i v).devIn = s.devIn := rfl
@[simp] theorem State.draws_setPar (s : State) (b : Bank) (i : Fin 8) (v : Word) : (s.setPar b i v).draws = s.draws := rfl
@[simp] theorem State.ports_setPar (s : State) (b : Bank) (i : Fin 8) (v : Word) : (s.setPar b i v).ports = s.ports := rfl
@[simp] theorem State.arrivals_setPar (s : State) (b : Bank) (i : Fin 8) (v : Word) : (s.setPar b i v).arrivals = s.arrivals := rfl
@[simp] theorem State.reg_setPar (s : State) (b : Bank) (i : Fin 8) (v : Word) (r : Reg) : ((s.setPar b i v).reg r) = s.reg r := rfl
@[simp] theorem State.sp_setPar (s : State) (b : Bank) (i : Fin 8) (v : Word) (k : ModeBits) : ((s.setPar b i v).sp k) = s.sp k := rfl
@[simp] theorem State.cm_setPar (s : State) (b : Bank) (i : Fin 8) (v : Word) : ((s.setPar b i v).cm) = s.cm := rfl
@[simp] theorem State.pm_setPar (s : State) (b : Bank) (i : Fin 8) (v : Word) : ((s.setPar b i v).pm) = s.pm := rfl
@[simp] theorem State.pri_setPar (s : State) (b : Bank) (i : Fin 8) (v : Word) : ((s.setPar b i v).pri) = s.pri := rfl
@[simp] theorem State.cc_setPar (s : State) (b : Bank) (i : Fin 8) (v : Word) : ((s.setPar b i v).cc) = s.cc := rfl
@[simp] theorem State.pdr_setPar (s : State) (b : Bank) (i : Fin 8) (v : Word) (c : Bank) (j : Fin 8) : ((s.setPar b i v).pdr c j) = s.pdr c j := rfl
@[simp] theorem State.mmuOn_setPar (s : State) (b : Bank) (i : Fin 8) (v : Word) : ((s.setPar b i v).mmuOn) = s.mmuOn := rfl
@[simp] theorem State.noAbort_setPar (s : State) (b : Bank) (i : Fin 8) (v : Word) : ((s.setPar b i v).noAbort) = s.noAbort := rfl
@[simp] theorem State.byteAt_setPar (s : State) (b : Bank) (i : Fin 8) (v : Word) (x : Nat) : ((s.setPar b i v).byteAt x) = s.byteAt x := rfl
@[simp] theorem State.wordAt_setPar (s : State) (b : Bank) (i : Fin 8) (v : Word) (x : Nat) : ((s.setPar b i v).wordAt x) = s.wordAt x := rfl

@[simp] theorem State.regs_setPdr (s : State) (b : Bank) (i : Fin 8) (v : Word) : (s.setPdr b i v).regs = s.regs := rfl
@[simp] theorem State.spbank_setPdr (s : State) (b : Bank) (i : Fin 8) (v : Word) : (s.setPdr b i v).spbank = s.spbank := rfl
@[simp] theorem State.psw_setPdr (s : State) (b : Bank) (i : Fin 8) (v : Word) : (s.setPdr b i v).psw = s.psw := rfl
@[simp] theorem State.kpar_setPdr (s : State) (b : Bank) (i : Fin 8) (v : Word) : (s.setPdr b i v).kpar = s.kpar := rfl
@[simp] theorem State.upar_setPdr (s : State) (b : Bank) (i : Fin 8) (v : Word) : (s.setPdr b i v).upar = s.upar := rfl
@[simp] theorem State.sr0_setPdr (s : State) (b : Bank) (i : Fin 8) (v : Word) : (s.setPdr b i v).sr0 = s.sr0 := rfl
@[simp] theorem State.sr2_setPdr (s : State) (b : Bank) (i : Fin 8) (v : Word) : (s.setPdr b i v).sr2 = s.sr2 := rfl
@[simp] theorem State.itab_setPdr (s : State) (b : Bank) (i : Fin 8) (v : Word) : (s.setPdr b i v).itab = s.itab := rfl
@[simp] theorem State.mem_setPdr (s : State) (b : Bank) (i : Fin 8) (v : Word) : (s.setPdr b i v).mem = s.mem := rfl
@[simp] theorem State.run_setPdr (s : State) (b : Bank) (i : Fin 8) (v : Word) : (s.setPdr b i v).run = s.run := rfl
@[simp] theorem State.cfg_setPdr (s : State) (b : Bank) (i : Fin 8) (v : Word) : (s.setPdr b i v).cfg = s.cfg := rfl
@[simp] theorem State.devIn_setPdr (s : State) (b : Bank) (i : Fin 8) (v : Word) : (s.setPdr b i v).devIn = s.devIn := rfl
@[simp] theorem State.draws_setPdr (s : State) (b : Bank) (i : Fin 8) (v : Word) : (s.setPdr b i v).draws = s.draws := rfl
@[simp] theorem State.ports_setPdr (s : State) (b : Bank) (i : Fin 8) (v : Word) : (s.setPdr b i v).ports = s.ports := rfl
@[simp] theorem State.arrivals_setPdr (s : State) (b : Bank) (i : Fin 8) (v : Word) : (s.setPdr b i v).arrivals = s.arrivals := rfl
@[simp] theorem State.reg_setPdr (s : State) (b : Bank) (i : Fin 8) (v : Word) (r : Reg) : ((s.setPdr b i v).reg r) = s.reg r := rfl
@[simp] theorem State.sp_setPdr (s : State) (b : Bank) (i : Fin 8) (v : Word) (k : ModeBits) : ((s.setPdr b i v).sp k) = s.sp k := rfl
@[simp] theorem State.cm_setPdr (s : State) (b : Bank) (i : Fin 8) (v : Word) : ((s.setPdr b i v).cm) = s.cm := rfl
@[simp] theorem State.pm_setPdr (s : State) (b : Bank) (i : Fin 8) (v : Word) : ((s.setPdr b i v).pm) = s.pm := rfl
@[simp] theorem State.pri_setPdr (s : State) (b : Bank) (i : Fin 8) (v : Word) : ((s.setPdr b i v).pri) = s.pri := rfl
@[simp] theorem State.cc_setPdr (s : State) (b : Bank) (i : Fin 8) (v : Word) : ((s.setPdr b i v).cc) = s.cc := rfl
@[simp] theorem State.par_setPdr (s : State) (b : Bank) (i : Fin 8) (v : Word) (c : Bank) (j : Fin 8) : ((s.setPdr b i v).par c j) = s.par c j := rfl
@[simp] theorem State.mmuOn_setPdr (s : State) (b : Bank) (i : Fin 8) (v : Word) : ((s.setPdr b i v).mmuOn) = s.mmuOn := rfl
@[simp] theorem State.noAbort_setPdr (s : State) (b : Bank) (i : Fin 8) (v : Word) : ((s.setPdr b i v).noAbort) = s.noAbort := rfl
@[simp] theorem State.byteAt_setPdr (s : State) (b : Bank) (i : Fin 8) (v : Word) (x : Nat) : ((s.setPdr b i v).byteAt x) = s.byteAt x := rfl
@[simp] theorem State.wordAt_setPdr (s : State) (b : Bank) (i : Fin 8) (v : Word) (x : Nat) : ((s.setPdr b i v).wordAt x) = s.wordAt x := rfl

@[simp] theorem State.regs_setSr0 (s : State) (v : Word) : (s.setSr0 v).regs = s.regs := rfl
@[simp] theorem State.spbank_setSr0 (s : State) (v : Word) : (s.setSr0 v).spbank = s.spbank := rfl
@[simp] theorem State.psw_setSr0 (s : State) (v : Word) : (s.setSr0 v).psw = s.psw := rfl
@[simp] theorem State.kpar_setSr0 (s : State) (v : Word) : (s.setSr0 v).kpar = s.kpar := rfl
@[simp] theorem State.kpdr_setSr0 (s : State) (v : Word) : (s.setSr0 v).kpdr = s.kpdr := rfl
@[simp] theorem State.upar_setSr0 (s : State) (v : Word) : (s.setSr0 v).upar = s.upar := rfl
@[simp] theorem State.updr_setSr0 (s : State) (v : Word) : (s.setSr0 v).updr = s.updr := rfl
@[simp] theorem State.sr2_setSr0 (s : State) (v : Word) : (s.setSr0 v).sr2 = s.sr2 := rfl
@[simp] theorem State.itab_setSr0 (s : State) (v : Word) : (s.setSr0 v).itab = s.itab := rfl
@[simp] theorem State.mem_setSr0 (s : State) (v : Word) : (s.setSr0 v).mem = s.mem := rfl
@[simp] theorem State.run_setSr0 (s : State) (v : Word) : (s.setSr0 v).run = s.run := rfl
@[simp] theorem State.cfg_setSr0 (s : State) (v : Word) : (s.setSr0 v).cfg = s.cfg := rfl
@[simp] theorem State.devIn_setSr0 (s : State) (v : Word) : (s.setSr0 v).devIn = s.devIn := rfl
@[simp] theorem State.draws_setSr0 (s : State) (v : Word) : (s.setSr0 v).draws = s.draws := rfl
@[simp] theorem State.ports_setSr0 (s : State) (v : Word) : (s.setSr0 v).ports = s.ports := rfl
@[simp] theorem State.arrivals_setSr0 (s : State) (v : Word) : (s.setSr0 v).arrivals = s.arrivals := rfl
@[simp] theorem State.reg_setSr0 (s : State) (v : Word) (r : Reg) : ((s.setSr0 v).reg r) = s.reg r := rfl
@[simp] theorem State.sp_setSr0 (s : State) (v : Word) (k : ModeBits) : ((s.setSr0 v).sp k) = s.sp k := rfl
@[simp] theorem State.cm_setSr0 (s : State) (v : Word) : ((s.setSr0 v).cm) = s.cm := rfl
@[simp] theorem State.pm_setSr0 (s : State) (v : Word) : ((s.setSr0 v).pm) = s.pm := rfl
@[simp] theorem State.pri_setSr0 (s : State) (v : Word) : ((s.setSr0 v).pri) = s.pri := rfl
@[simp] theorem State.cc_setSr0 (s : State) (v : Word) : ((s.setSr0 v).cc) = s.cc := rfl
@[simp] theorem State.par_setSr0 (s : State) (v : Word) (c : Bank) (j : Fin 8) : ((s.setSr0 v).par c j) = s.par c j := rfl
@[simp] theorem State.pdr_setSr0 (s : State) (v : Word) (c : Bank) (j : Fin 8) : ((s.setSr0 v).pdr c j) = s.pdr c j := rfl
@[simp] theorem State.byteAt_setSr0 (s : State) (v : Word) (x : Nat) : ((s.setSr0 v).byteAt x) = s.byteAt x := rfl
@[simp] theorem State.wordAt_setSr0 (s : State) (v : Word) (x : Nat) : ((s.setSr0 v).wordAt x) = s.wordAt x := rfl

@[simp] theorem State.regs_setSr2 (s : State) (v : Word) : (s.setSr2 v).regs = s.regs := rfl
@[simp] theorem State.spbank_setSr2 (s : State) (v : Word) : (s.setSr2 v).spbank = s.spbank := rfl
@[simp] theorem State.psw_setSr2 (s : State) (v : Word) : (s.setSr2 v).psw = s.psw := rfl
@[simp] theorem State.kpar_setSr2 (s : State) (v : Word) : (s.setSr2 v).kpar = s.kpar := rfl
@[simp] theorem State.kpdr_setSr2 (s : State) (v : Word) : (s.setSr2 v).kpdr = s.kpdr := rfl
@[simp] theorem State.upar_setSr2 (s : State) (v : Word) : (s.setSr2 v).upar = s.upar := rfl
@[simp] theorem State.updr_setSr2 (s : State) (v : Word) : (s.setSr2 v).updr = s.updr := rfl
@[simp] theorem State.sr0_setSr2 (s : State) (v : Word) : (s.setSr2 v).sr0 = s.sr0 := rfl
@[simp] theorem State.itab_setSr2 (s : State) (v : Word) : (s.setSr2 v).itab = s.itab := rfl
@[simp] theorem State.mem_setSr2 (s : State) (v : Word) : (s.setSr2 v).mem = s.mem := rfl
@[simp] theorem State.run_setSr2 (s : State) (v : Word) : (s.setSr2 v).run = s.run := rfl
@[simp] theorem State.cfg_setSr2 (s : State) (v : Word) : (s.setSr2 v).cfg = s.cfg := rfl
@[simp] theorem State.devIn_setSr2 (s : State) (v : Word) : (s.setSr2 v).devIn = s.devIn := rfl
@[simp] theorem State.draws_setSr2 (s : State) (v : Word) : (s.setSr2 v).draws = s.draws := rfl
@[simp] theorem State.ports_setSr2 (s : State) (v : Word) : (s.setSr2 v).ports = s.ports := rfl
@[simp] theorem State.arrivals_setSr2 (s : State) (v : Word) : (s.setSr2 v).arrivals = s.arrivals := rfl
@[simp] theorem State.reg_setSr2 (s : State) (v : Word) (r : Reg) : ((s.setSr2 v).reg r) = s.reg r := rfl
@[simp] theorem State.sp_setSr2 (s : State) (v : Word) (k : ModeBits) : ((s.setSr2 v).sp k) = s.sp k := rfl
@[simp] theorem State.cm_setSr2 (s : State) (v : Word) : ((s.setSr2 v).cm) = s.cm := rfl
@[simp] theorem State.pm_setSr2 (s : State) (v : Word) : ((s.setSr2 v).pm) = s.pm := rfl
@[simp] theorem State.pri_setSr2 (s : State) (v : Word) : ((s.setSr2 v).pri) = s.pri := rfl
@[simp] theorem State.cc_setSr2 (s : State) (v : Word) : ((s.setSr2 v).cc) = s.cc := rfl
@[simp] theorem State.par_setSr2 (s : State) (v : Word) (c : Bank) (j : Fin 8) : ((s.setSr2 v).par c j) = s.par c j := rfl
@[simp] theorem State.pdr_setSr2 (s : State) (v : Word) (c : Bank) (j : Fin 8) : ((s.setSr2 v).pdr c j) = s.pdr c j := rfl
@[simp] theorem State.mmuOn_setSr2 (s : State) (v : Word) : ((s.setSr2 v).mmuOn) = s.mmuOn := rfl
@[simp] theorem State.noAbort_setSr2 (s : State) (v : Word) : ((s.setSr2 v).noAbort) = s.noAbort := rfl
@[simp] theorem State.byteAt_setSr2 (s : State) (v : Word) (x : Nat) : ((s.setSr2 v).byteAt x) = s.byteAt x := rfl
@[simp] theorem State.wordAt_setSr2 (s : State) (v : Word) (x : Nat) : ((s.setSr2 v).wordAt x) = s.wordAt x := rfl

@[simp] theorem State.regs_logPort (s : State) (e : PortEvent) : (s.logPort e).regs = s.regs := rfl
@[simp] theorem State.spbank_logPort (s : State) (e : PortEvent) : (s.logPort e).spbank = s.spbank := rfl
@[simp] theorem State.psw_logPort (s : State) (e : PortEvent) : (s.logPort e).psw = s.psw := rfl
@[simp] theorem State.kpar_logPort (s : State) (e : PortEvent) : (s.logPort e).kpar = s.kpar := rfl
@[simp] theorem State.kpdr_logPort (s : State) (e : PortEvent) : (s.logPort e).kpdr = s.kpdr := rfl
@[simp] theorem State.upar_logPort (s : State) (e : PortEvent) : (s.logPort e).upar = s.upar := rfl
@[simp] theorem State.updr_logPort (s : State) (e : PortEvent) : (s.logPort e).updr = s.updr := rfl
@[simp] theorem State.sr0_logPort (s : State) (e : PortEvent) : (s.logPort e).sr0 = s.sr0 := rfl
@[simp] theorem State.sr2_logPort (s : State) (e : PortEvent) : (s.logPort e).sr2 = s.sr2 := rfl
@[simp] theorem State.itab_logPort (s : State) (e : PortEvent) : (s.logPort e).itab = s.itab := rfl
@[simp] theorem State.mem_logPort (s : State) (e : PortEvent) : (s.logPort e).mem = s.mem := rfl
@[simp] theorem State.run_logPort (s : State) (e : PortEvent) : (s.logPort e).run = s.run := rfl
@[simp] theorem State.cfg_logPort (s : State) (e : PortEvent) : (s.logPort e).cfg = s.cfg := rfl
@[simp] theorem State.devIn_logPort (s : State) (e : PortEvent) : (s.logPort e).devIn = s.devIn := rfl
@[simp] theorem State.draws_logPort (s : State) (e : PortEvent) : (s.logPort e).draws = s.draws := rfl
@[simp] theorem State.arrivals_logPort (s : State) (e : PortEvent) : (s.logPort e).arrivals = s.arrivals := rfl
@[simp] theorem State.reg_logPort (s : State) (e : PortEvent) (r : Reg) : ((s.logPort e).reg r) = s.reg r := rfl
@[simp] theorem State.sp_logPort (s : State) (e : PortEvent) (k : ModeBits) : ((s.logPort e).sp k) = s.sp k := rfl
@[simp] theorem State.cm_logPort (s : State) (e : PortEvent) : ((s.logPort e).cm) = s.cm := rfl
@[simp] theorem State.pm_logPort (s : State) (e : PortEvent) : ((s.logPort e).pm) = s.pm := rfl
@[simp] theorem State.pri_logPort (s : State) (e : PortEvent) : ((s.logPort e).pri) = s.pri := rfl
@[simp] theorem State.cc_logPort (s : State) (e : PortEvent) : ((s.logPort e).cc) = s.cc := rfl
@[simp] theorem State.par_logPort (s : State) (e : PortEvent) (c : Bank) (j : Fin 8) : ((s.logPort e).par c j) = s.par c j := rfl
@[simp] theorem State.pdr_logPort (s : State) (e : PortEvent) (c : Bank) (j : Fin 8) : ((s.logPort e).pdr c j) = s.pdr c j := rfl
@[simp] theorem State.mmuOn_logPort (s : State) (e : PortEvent) : ((s.logPort e).mmuOn) = s.mmuOn := rfl
@[simp] theorem State.noAbort_logPort (s : State) (e : PortEvent) : ((s.logPort e).noAbort) = s.noAbort := rfl
@[simp] theorem State.byteAt_logPort (s : State) (e : PortEvent) (x : Nat) : ((s.logPort e).byteAt x) = s.byteAt x := rfl
@[simp] theorem State.wordAt_logPort (s : State) (e : PortEvent) (x : Nat) : ((s.logPort e).wordAt x) = s.wordAt x := rfl

/-! ### What an update does -/

@[simp] theorem State.reg_setReg (s : State) (n : Reg) (v : Word) (r : Reg) :
    (s.setReg n v).reg r = if r = n then v else s.reg r := by
  simp only [State.reg, State.setReg, Vector.get_eq_getElem, Vector.getElem_set, Fin.ext_iff, eq_comm]

@[simp] theorem State.sp_setSp (s : State) (m : ModeBits) (v : Word) (k : ModeBits) :
    (s.setSp m v).sp k = if k = m then v else s.sp k := by
  have h : (m.toFin.val = k.toFin.val) ↔ k = m :=
    ⟨fun e => BitVec.toFin_inj.mp (Fin.ext e.symm), fun e => by rw [e]⟩
  simp only [State.sp, State.setSp, Vector.get_eq_getElem, Vector.getElem_set, h]

theorem State.par_setPar (s : State) (b : Bank) (i : Fin 8) (v : Word) (c : Bank) (j : Fin 8) :
    (s.setPar b i v).par c j = if c = b ∧ j = i then v else s.par c j := by
  cases b <;> cases c <;>
    simp [State.par, State.setPar, Vector.get_eq_getElem, Vector.getElem_set, Fin.ext_iff, eq_comm]

theorem State.pdr_setPdr (s : State) (b : Bank) (i : Fin 8) (v : Word) (c : Bank) (j : Fin 8) :
    (s.setPdr b i v).pdr c j = if c = b ∧ j = i then v else s.pdr c j := by
  cases b <;> cases c <;>
    simp [State.pdr, State.setPdr, Vector.get_eq_getElem, Vector.getElem_set, Fin.ext_iff, eq_comm]

@[simp] theorem State.psw_setPsw (s : State) (v : Word) : (s.setPsw v).psw = v := rfl
@[simp] theorem State.sr0_setSr0 (s : State) (v : Word) : (s.setSr0 v).sr0 = v := rfl
@[simp] theorem State.sr2_setSr2 (s : State) (v : Word) : (s.setSr2 v).sr2 = v := rfl
@[simp] theorem State.ports_logPort (s : State) (e : PortEvent) : (s.logPort e).ports = e :: s.ports := rfl
@[simp] theorem State.cm_setPsw (s : State) (v : Word) : (s.setPsw v).cm = v.extractLsb' 14 2 := rfl
@[simp] theorem State.pm_setPsw (s : State) (v : Word) : (s.setPsw v).pm = v.extractLsb' 12 2 := rfl
@[simp] theorem State.pri_setPsw (s : State) (v : Word) : (s.setPsw v).pri = v.extractLsb' 5 3 := rfl

/-- A PSW load that keeps the mode keeps every register. -/
theorem State.reg_setPsw_same (s : State) (v : Word) (h : v.extractLsb' 14 2 = s.cm) (r : Reg) :
    (s.setPsw v).reg r = s.reg r := by
  simp [State.reg, State.setPsw, h]

/-- A PSW load that changes the mode brings R6 from the new mode's bank entry (10_state.md R30). -/
theorem State.reg_setPsw_switch (s : State) (v : Word) (h : v.extractLsb' 14 2 ≠ s.cm) (r : Reg) :
    (s.setPsw v).reg r = if r = SP then s.sp (v.extractLsb' 14 2) else s.reg r := by
  simp only [State.reg, State.setPsw, h, if_false, Vector.get_eq_getElem, Vector.getElem_set, Fin.ext_iff, eq_comm]

/-- A PSW load changes no register but R6. -/
theorem State.reg_setPsw_ne (s : State) (v : Word) (r : Reg) (hr : r ≠ SP) : (s.setPsw v).reg r = s.reg r := by
  by_cases h : v.extractLsb' 14 2 = s.cm
  · exact s.reg_setPsw_same v h r
  · rw [s.reg_setPsw_switch v h, if_neg hr]

/-- After a PSW load, R6 is the stack pointer the new mode had (R22, R30). -/
theorem State.sp_reg_setPsw (s : State) (v : Word) : (s.setPsw v).reg SP = s.spOf (v.extractLsb' 14 2) := by
  by_cases h : v.extractLsb' 14 2 = s.cm
  · rw [s.reg_setPsw_same v h]; simp [State.spOf, h]
  · rw [s.reg_setPsw_switch v h]; simp [State.spOf, h]

/-- The bank entries after a PSW load. -/
theorem State.sp_setPsw (s : State) (v : Word) (k : ModeBits) :
    (s.setPsw v).sp k = if v.extractLsb' 14 2 = s.cm then s.sp k else if k = s.cm then s.reg SP else s.sp k := by
  by_cases h : v.extractLsb' 14 2 = s.cm
  · simp [State.sp, State.setPsw, h]
  · have hk := State.sp_setSp s s.cm (s.reg SP) k
    simpa [State.sp, State.setPsw, State.setSp, h] using hk

/-- Writing one mode's stack pointer: that one, and no other's (R22). -/
theorem State.spOf_setSpOf (s : State) (m : ModeBits) (v : Word) (k : ModeBits) :
    (s.setSpOf m v).spOf k = if k = m then v else s.spOf k := by
  unfold State.setSpOf
  by_cases h : m = s.cm
  · subst h
    rw [if_pos rfl]
    simp only [State.spOf, State.cm_setReg, State.reg_setReg, if_true, State.sp_setReg]
    split <;> rfl
  · rw [if_neg h]
    simp only [State.spOf, State.cm_setSp, State.reg_setSp, State.sp_setSp]
    by_cases hk : k = s.cm
    · subst hk; rw [if_pos rfl, if_neg (Ne.symm h), if_pos rfl]
    · rw [if_neg hk, if_neg hk]

/-- It changes no register but R6, and nothing of the PSW. -/
theorem State.setSpOf_frame (s : State) (m : ModeBits) (v : Word) :
    (s.setSpOf m v).psw = s.psw ∧ { s.setSpOf m v with regs := s.regs, spbank := s.spbank } = s ∧
      ∀ r, r ≠ SP → (s.setSpOf m v).reg r = s.reg r := by
  unfold State.setSpOf
  split
  · exact ⟨rfl, rfl, fun r hr => by rw [State.reg_setReg, if_neg hr]⟩
  · exact ⟨rfl, rfl, fun r _ => rfl⟩

/-- The stack pointer of every mode survives a PSW load (R22: "exactly one bank entry mirrors the live R6"). -/
theorem State.spOf_setPsw (s : State) (v : Word) (k : ModeBits) : (s.setPsw v).spOf k = s.spOf k := by
  by_cases hk : k = v.extractLsb' 14 2
  · have h1 : (s.setPsw v).spOf k = (s.setPsw v).reg SP := by simp [State.spOf, hk]
    rw [h1, s.sp_reg_setPsw, ← hk]
  · have h1 : (s.setPsw v).spOf k = (s.setPsw v).sp k := by simp [State.spOf, hk]
    rw [h1, s.sp_setPsw]
    by_cases h : v.extractLsb' 14 2 = s.cm
    · rw [if_pos h]; simp [State.spOf, ← h, hk]
    · rw [if_neg h]; rfl

/-! ### The condition codes and the rest of the PSW -/

/-- The bits of a PSW made of 12 high bits and 4 low ones. -/
theorem bit_high_low (x : BitVec 12) (y : BitVec 4) (i : Nat) :
    BitVec.getLsbD (w := 16) (x ++ y) i = if i < 4 then y.getLsbD i else x.getLsbD (i - 4) :=
  BitVec.getLsbD_append

/-- The bits of a PSW made of its high byte, a priority and its low five bits. -/
theorem bit_priority (x : BitVec 8) (n : BitVec 3) (y : BitVec 5) (i : Nat) :
    BitVec.getLsbD (w := 16) (x ++ (n ++ y)) i =
      if i < 8 then (if i < 5 then y.getLsbD i else n.getLsbD (i - 5)) else x.getLsbD (i - 8) := by
  refine (BitVec.getLsbD_append (x := x) (y := (n ++ y : BitVec 8)) (i := i)).trans ?_
  split
  · exact BitVec.getLsbD_append
  · rfl

theorem CC.ofPsw_high_low (hi : BitVec 12) (b : BitVec 4) :
    CC.ofPsw (hi ++ b) = ⟨b.getLsbD 3, b.getLsbD 2, b.getLsbD 1, b.getLsbD 0⟩ := by
  simp only [CC.ofPsw, bit_high_low]; rfl

@[simp] theorem CC.ofPsw_toBits (f : CC) (hi : BitVec 12) : CC.ofPsw (hi ++ f.toBits) = f := by
  rw [CC.ofPsw_high_low]
  obtain ⟨n, z, v, c⟩ := f
  cases n <;> cases z <;> cases v <;> cases c <;> rfl

@[simp] theorem State.cc_setCC (s : State) (f : CC) : (s.setCC f).cc = f :=
  CC.ofPsw_toBits f _

theorem State.cc_setLow (s : State) (b : BitVec 4) :
    (s.setLow b).cc = ⟨b.getLsbD 3, b.getLsbD 2, b.getLsbD 1, b.getLsbD 0⟩ :=
  CC.ofPsw_high_low _ b

/-- `v[hi:lo]` of a PSW whose low four bits were replaced, above them. -/
theorem extract_setLow (p : Word) (b : BitVec 4) (lo n : Nat) (h : 4 ≤ lo) (hn : lo + n ≤ 16) :
    BitVec.extractLsb' lo n (p.extractLsb' 4 12 ++ b : Word) = p.extractLsb' lo n := by
  apply BitVec.eq_of_getLsbD_eq
  intro i hi
  rw [BitVec.getLsbD_extractLsb', bit_high_low, BitVec.getLsbD_extractLsb', BitVec.getLsbD_extractLsb',
    if_neg (by omega), show 4 + (lo + i - 4) = lo + i by omega]
  simp [show lo + i - 4 < 12 by omega]

@[simp] theorem State.cm_setLow (s : State) (b : BitVec 4) : (s.setLow b).cm = s.cm :=
  extract_setLow s.psw b 14 2 (by decide) (by decide)

@[simp] theorem State.pm_setLow (s : State) (b : BitVec 4) : (s.setLow b).pm = s.pm :=
  extract_setLow s.psw b 12 2 (by decide) (by decide)

@[simp] theorem State.pri_setLow (s : State) (b : BitVec 4) : (s.setLow b).pri = s.pri :=
  extract_setLow s.psw b 5 3 (by decide) (by decide)

@[simp] theorem State.cm_setCC (s : State) (f : CC) : (s.setCC f).cm = s.cm := s.cm_setLow _
@[simp] theorem State.pm_setCC (s : State) (f : CC) : (s.setCC f).pm = s.pm := s.pm_setLow _
@[simp] theorem State.pri_setCC (s : State) (f : CC) : (s.setCC f).pri = s.pri := s.pri_setLow _

/-- PSW[15:4] is not touched by a write of the condition codes (R30). -/
@[simp] theorem State.high_setLow (s : State) (b : BitVec 4) :
    (s.setLow b).psw.extractLsb' 4 12 = s.psw.extractLsb' 4 12 :=
  extract_setLow s.psw b 4 12 (by decide) (by decide)

@[simp] theorem State.high_setCC (s : State) (f : CC) :
    (s.setCC f).psw.extractLsb' 4 12 = s.psw.extractLsb' 4 12 := s.high_setLow _

/-- The PSW bits a change of the priority leaves (R27, R30). -/
theorem State.bit_setPri (s : State) (n : BitVec 3) (i : Nat) (h : i < 5 ∨ 8 ≤ i) (hi : i < 16) :
    (s.setPri n).psw.getLsbD i = s.psw.getLsbD i := by
  show BitVec.getLsbD (w := 16) (s.psw.extractLsb' 8 8 ++ (n ++ s.psw.extractLsb' 0 5)) i = _
  rw [bit_priority, BitVec.getLsbD_extractLsb', BitVec.getLsbD_extractLsb']
  rcases h with h | h
  · simp [h, show i < 8 by omega]
  · simp [show ¬ i < 8 by omega, show i - 8 < 8 by omega, show 8 + (i - 8) = i by omega]

@[simp] theorem State.pri_setPri (s : State) (n : BitVec 3) : (s.setPri n).pri = n := by
  apply BitVec.eq_of_getLsbD_eq
  intro i hi
  show (BitVec.extractLsb' 5 3 (s.psw.extractLsb' 8 8 ++ (n ++ s.psw.extractLsb' 0 5) : Word)).getLsbD i = _
  rw [BitVec.getLsbD_extractLsb', bit_priority]
  simp [hi, show 5 + i < 8 by omega]

theorem State.extract_setPri (s : State) (n : BitVec 3) (lo k : Nat) (h : lo + k ≤ 5 ∨ 8 ≤ lo) (hk : lo + k ≤ 16) :
    (s.setPri n).psw.extractLsb' lo k = s.psw.extractLsb' lo k := by
  apply BitVec.eq_of_getLsbD_eq
  intro i hi
  rw [BitVec.getLsbD_extractLsb', BitVec.getLsbD_extractLsb', s.bit_setPri n (lo + i) (by omega) (by omega)]

@[simp] theorem State.cm_setPri (s : State) (n : BitVec 3) : (s.setPri n).cm = s.cm :=
  s.extract_setPri n 14 2 (by decide) (by decide)

@[simp] theorem State.pm_setPri (s : State) (n : BitVec 3) : (s.setPri n).pm = s.pm :=
  s.extract_setPri n 12 2 (by decide) (by decide)

@[simp] theorem State.cc_setPri (s : State) (n : BitVec 3) : (s.setPri n).cc = s.cc := by
  simp only [State.cc, CC.ofPsw]
  rw [s.bit_setPri n 3 (by decide) (by decide), s.bit_setPri n 2 (by decide) (by decide),
    s.bit_setPri n 1 (by decide) (by decide), s.bit_setPri n 0 (by decide) (by decide)]

end Sys2Proof.Machine
end

