-- ==== Sys2Proof/Laws/Ops.lean ====
section
/-! SUPPORT. What each shared operation can do, said once: how statements are sequenced, what a read leaves alone (everything but the
device data), what a translation answers, what a store changes, and the properties every statement of an instruction keeps. -/

namespace Sys2Proof.Machine

/-! ### Sequencing -/

theorem pure_apply {α : Type} (a : α) (s : State) : (pure a : Exec α) s = .ok a s := rfl

theorem bind_apply {α β : Type} (x : Exec α) (f : α → Exec β) (s : State) :
    (x >>= f) s = match x s with
      | .ok a u => f a u
      | .error e u => .error e u := by
  show EStateM.bind x f s = _
  unfold EStateM.bind
  cases x s <;> rfl

theorem bind_of_ok {α β : Type} {x : Exec α} {f : α → Exec β} {s u : State} {a : α} (h : x s = .ok a u) :
    (x >>= f) s = f a u := by rw [bind_apply, h]

theorem bind_of_error {α β : Type} {x : Exec α} {f : α → Exec β} {s u : State} {e : Raise} (h : x s = .error e u) :
    (x >>= f) s = .error e u := by rw [bind_apply, h]

/-- A sequence that ends: both parts ended. -/
theorem bind_eq_ok {α β : Type} {x : Exec α} {f : α → Exec β} {s t : State} {b : β} :
    (x >>= f) s = .ok b t ↔ ∃ a u, x s = .ok a u ∧ f a u = .ok b t := by
  rw [bind_apply]
  cases h : x s with
  | ok a u =>
    constructor
    · intro hf; exact ⟨a, u, rfl, hf⟩
    · rintro ⟨a', u', h', hf⟩; cases h'; exact hf
  | error e u => simp

/-- A sequence that raises: its first part raised, or the first ended and the second raised. -/
theorem bind_eq_error {α β : Type} {x : Exec α} {f : α → Exec β} {s t : State} {e : Raise} :
    (x >>= f) s = .error e t ↔ x s = .error e t ∨ ∃ a u, x s = .ok a u ∧ f a u = .error e t := by
  rw [bind_apply]
  cases h : x s with
  | ok a u =>
    constructor
    · intro hf; exact .inr ⟨a, u, rfl, hf⟩
    · rintro (h' | ⟨a', u', h', hf⟩)
      · cases h'
      · cases h'; exact hf
  | error e' u => simp

@[simp] theorem getReg_apply (n : Reg) (s : State) : getReg n s = .ok (s.reg n) s := rfl
@[simp] theorem putReg_apply (n : Reg) (v : Word) (s : State) : putReg n v s = .ok () (s.setReg n v) := rfl
@[simp] theorem getCC_apply (s : State) : getCC s = .ok s.cc s := rfl
@[simp] theorem putCC_apply (f : CC) (s : State) : putCC f s = .ok () (s.setCC f) := rfl
@[simp] theorem putPsw_apply (v : Word) (s : State) : putPsw v s = .ok () (s.setPsw v) := rfl
@[simp] theorem raiseTrap_apply {α : Type} (vec : Word) (s : State) : (raiseTrap vec : Exec α) s = .error (.trap vec) s := rfl
@[simp] theorem raiseAt_apply {α : Type} (vec : Config → Word) (s : State) :
    (raiseAt vec : Exec α) s = .error (.trap (vec s.cfg)) s := rfl
@[simp] theorem raiseFatal_apply {α : Type} (r : FatalReason) (s : State) :
    (raiseFatal r : Exec α) s = .error (.fatal r) s := rfl
@[simp] theorem busError_apply {α : Type} (s : State) : (busError : Exec α) s = .error (.trap s.cfg.vecBus) s := rfl

/-! ### Reads leave everything but registers and device data alone -/

/-- `t` is `s` but for the registers, the environment's answers and the port events. -/
structure Quiet (s t : State) : Prop where
  spbank : t.spbank = s.spbank
  psw : t.psw = s.psw
  kpar : t.kpar = s.kpar
  kpdr : t.kpdr = s.kpdr
  upar : t.upar = s.upar
  updr : t.updr = s.updr
  sr0 : t.sr0 = s.sr0
  sr2 : t.sr2 = s.sr2
  itab : t.itab = s.itab
  mem : t.mem = s.mem
  run : t.run = s.run
  cfg : t.cfg = s.cfg
  arrivals : t.arrivals = s.arrivals

theorem Quiet.refl (s : State) : Quiet s s := ⟨rfl, rfl, rfl, rfl, rfl, rfl, rfl, rfl, rfl, rfl, rfl, rfl, rfl⟩

theorem Quiet.trans {s t u : State} (h : Quiet s t) (k : Quiet t u) : Quiet s u :=
  ⟨k.spbank.trans h.spbank, k.psw.trans h.psw, k.kpar.trans h.kpar, k.kpdr.trans h.kpdr, k.upar.trans h.upar,
    k.updr.trans h.updr, k.sr0.trans h.sr0, k.sr2.trans h.sr2, k.itab.trans h.itab, k.mem.trans h.mem, k.run.trans h.run,
    k.cfg.trans h.cfg, k.arrivals.trans h.arrivals⟩

theorem Quiet.setReg (s : State) (n : Reg) (v : Word) : Quiet s (s.setReg n v) :=
  ⟨rfl, rfl, rfl, rfl, rfl, rfl, rfl, rfl, rfl, rfl, rfl, rfl, rfl⟩

theorem Quiet.cm {s t : State} (h : Quiet s t) : t.cm = s.cm := by simp only [State.cm, h.psw]
theorem Quiet.pm {s t : State} (h : Quiet s t) : t.pm = s.pm := by simp only [State.pm, h.psw]
theorem Quiet.cc {s t : State} (h : Quiet s t) : t.cc = s.cc := by simp only [State.cc, h.psw]
theorem Quiet.sp {s t : State} (h : Quiet s t) (k : ModeBits) : t.sp k = s.sp k := by simp only [State.sp, h.spbank]
theorem Quiet.byteAt {s t : State} (h : Quiet s t) (x : Nat) : t.byteAt x = s.byteAt x := by
  simp only [State.byteAt, h.mem, h.cfg]

theorem Quiet.mapped {s t : State} (h : Quiet s t) (m : ModeBits) (va : Word) (wr : Bool) :
    t.mapped m va wr = s.mapped m va wr := by
  have hd : ∀ b i, t.pdr b i = s.pdr b i := by intro b i; cases b <;> simp only [State.pdr, h.kpdr, h.updr]
  have hp : ∀ b i, t.par b i = s.par b i := by intro b i; cases b <;> simp only [State.par, h.kpar, h.upar]
  have hm : t.mmuOn = s.mmuOn := by unfold State.mmuOn; rw [h.sr0]
  unfold State.mapped
  rw [hm, hd, hp, h.cfg]

/-- A device read ends, changing the environment's answers and the port events alone. -/
theorem devRead_ok (port : Nat) (pa : Nat) (s : State) :
    ∃ w t, devRead port pa s = .ok w t ∧ Quiet s t ∧ t.regs = s.regs := by
  unfold devRead
  cases s.devIn with
  | nil => exact ⟨_, _, rfl, ⟨rfl, rfl, rfl, rfl, rfl, rfl, rfl, rfl, rfl, rfl, rfl, rfl, rfl⟩, rfl⟩
  | cons w rest => exact ⟨_, _, rfl, ⟨rfl, rfl, rfl, rfl, rfl, rfl, rfl, rfl, rfl, rfl, rfl, rfl, rfl⟩, rfl⟩

/-- A router read that ends leaves registers and everything but the device data alone (20_memory.md R64, R86). -/
theorem physRead_ok {pa : Nat} {s t : State} {w : Word} (h : physRead pa s = .ok w t) :
    Quiet s t ∧ t.regs = s.regs := by
  unfold physRead at h
  split at h
  · cases h
  · split at h
    · cases h; exact ⟨Quiet.refl s, rfl⟩
    · split at h
      · cases h; exact ⟨Quiet.refl s, rfl⟩
      · split at h
        · next d _ =>
          obtain ⟨w', t', hr, hq⟩ := devRead_ok d.port pa s
          rw [hr] at h; cases h; exact hq
        · cases h

/-- A router read that raises is a bus error and changes nothing (R61, R63). -/
theorem physRead_error {pa : Nat} {s t : State} {e : Raise} (h : physRead pa s = .error e t) :
    e = .trap s.cfg.vecBus ∧ t = s := by
  unfold physRead at h
  split at h
  · cases h; exact ⟨rfl, rfl⟩
  · split at h
    · cases h
    · split at h
      · cases h
      · split at h
        · next d _ =>
          obtain ⟨w', t', hr, _⟩ := devRead_ok d.port pa s
          rw [hr] at h; cases h
        · cases h; exact ⟨rfl, rfl⟩

/-- A router write that ends stores a word of the array, writes a core register, or writes a device (R62). -/
theorem physWrite_ok {pa : Nat} {w : Word} {s t : State} (h : physWrite pa w s = .ok () t) :
    pa % 2 = 0 ∧
      ((pa < s.cfg.ioBase ∧ t = s.setWord pa w) ∨
        (s.cfg.ioBase ≤ pa ∧ ∃ r, coreRegAt s.cfg pa = some r ∧ t = s.writeCore r w) ∨
        (s.cfg.ioBase ≤ pa ∧ coreRegAt s.cfg pa = none ∧ ∃ d, deviceAt s.cfg.devRanges pa = some d ∧
          t = s.logPort (.write d.port pa w))) := by
  unfold physWrite at h
  split at h
  · cases h
  · next h0 =>
    refine ⟨by omega, ?_⟩
    split at h
    · next hlt => cases h; exact .inl ⟨hlt, rfl⟩
    · next hlt =>
      have hge : s.cfg.ioBase ≤ pa := Nat.le_of_not_lt hlt
      split at h
      · next r hr => cases h; exact .inr (.inl ⟨hge, r, hr, rfl⟩)
      · next hn =>
        split at h
        · next d hd => cases h; exact .inr (.inr ⟨hge, hn, d, hd, rfl⟩)
        · cases h

/-- A router write that raises is a bus error and changes nothing (R62, R63). -/
theorem physWrite_error {pa : Nat} {w : Word} {s t : State} {e : Raise} (h : physWrite pa w s = .error e t) :
    e = .trap s.cfg.vecBus ∧ t = s := by
  unfold physWrite at h
  split at h
  · cases h; exact ⟨rfl, rfl⟩
  · split at h
    · cases h
    · split at h
      · cases h
      · split at h
        · cases h
        · cases h; exact ⟨rfl, rfl⟩

/-! ### Translation -/

/-- A translation ends exactly when the address is mapped, with the address `mapped` gives. -/
theorem translate_ok_iff {va : Word} {m : ModeBits} {wr : Bool} {s t : State} {pa : Nat} :
    translate va m wr s = .ok pa t ↔ s.mapped m va wr = some pa ∧ t = s.marked m va wr := by
  unfold translate State.mapped State.marked
  by_cases hon : s.mmuOn = true
  · simp only [hon, if_true]
    split
    · next kind hv => simp [hv, mmuFault]
    · next hv => cases wr <;> simp [hv, eq_comm]
  · simp [hon, eq_comm]

/-- A read translation that ends changes nothing. -/
theorem translate_read_ok {va : Word} {m : ModeBits} {s t : State} {pa : Nat}
    (h : translate va m false s = .ok pa t) : t = s := by
  have := (translate_ok_iff.mp h).2
  simpa [State.marked] using this

/-- A translation that raises: translation is on, a violation is recorded in SR0 and nothing else changes (R95). -/
theorem translate_error {va : Word} {m : ModeBits} {wr : Bool} {s t : State} {e : Raise}
    (h : translate va m wr s = .error e t) :
    e = .trap s.cfg.vecMmu ∧ ∃ v, t = s.setSr0 v := by
  unfold translate at h
  split at h
  · simp only at h
    split at h
    · cases h; exact ⟨rfl, _, rfl⟩
    · cases h
  · cases h

/-! ### Memory reads -/

/-- A memory read that ends leaves registers and everything but the device data alone. -/
theorem memReadAs_ok {m : ModeBits} {va : Word} {sz : Size} {s t : State} {w : Word}
    (h : memReadAs m va sz s = .ok w t) : Quiet s t ∧ t.regs = s.regs := by
  unfold memReadAs at h
  obtain ⟨pa, u, ht, h⟩ := bind_eq_ok.mp h
  cases translate_read_ok ht
  cases sz with
  | word => exact physRead_ok h
  | byte =>
    obtain ⟨w', u', hr, h⟩ := bind_eq_ok.mp h
    cases h
    exact physRead_ok hr

theorem memRead_ok {va : Word} {sz : Size} {s t : State} {w : Word} (h : memRead va sz s = .ok w t) :
    Quiet s t ∧ t.regs = s.regs := memReadAs_ok h

theorem reg_of_regs {s t : State} (h : t.regs = s.regs) (r : Reg) : t.reg r = s.reg r := by
  simp only [State.reg, h]

/-- A pop that ends: SP past the word, nothing else but the device data changed. -/
theorem pop_ok {s t : State} {w : Word} (h : pop s = .ok w t) :
    ∃ u, memRead (s.reg SP) .word s = .ok w u ∧ Quiet s u ∧ u.regs = s.regs ∧ t = u.setReg SP (s.reg SP + 2) := by
  unfold pop at h
  obtain ⟨sp, u, h1, h⟩ := bind_eq_ok.mp h
  cases h1
  obtain ⟨v, u, h2, h⟩ := bind_eq_ok.mp h
  cases h
  obtain ⟨hq, hr⟩ := memRead_ok h2
  exact ⟨u, h2, hq, hr, rfl⟩

/-! ### Stores -/

/-- What a store at physical address `pa` may change. -/
structure StoreEffect (pa : Nat) (sz : Size) (s t : State) : Prop where
  bytes : ∀ x, (x ≠ pa ∧ (sz = .word → x ≠ pa + 1)) → t.byteAt x = s.byteAt x
  array : evenAddr pa < s.cfg.ioBase ∨ t.mem = s.mem
  psw : ¬(s.cfg.ioBase ≤ evenAddr pa ∧ coreRegAt s.cfg (evenAddr pa) = some .psw) →
    t.psw = s.psw ∧ t.regs = s.regs ∧ t.spbank = s.spbank
  regs : ∀ r, r ≠ SP → t.reg r = s.reg r
  sp : t.cm = s.cm → t.reg SP = s.reg SP
  stackPtr : ∀ k, t.spOf k = s.spOf k
  sr0 : ¬(s.cfg.ioBase ≤ evenAddr pa ∧ coreRegAt s.cfg (evenAddr pa) = some .sr0) → t.sr0 = s.sr0
  par : ∀ b i, ¬(s.cfg.ioBase ≤ evenAddr pa ∧ coreRegAt s.cfg (evenAddr pa) = some (.par b i)) → t.par b i = s.par b i
  pdr : ∀ b i, ¬(s.cfg.ioBase ≤ evenAddr pa ∧ coreRegAt s.cfg (evenAddr pa) = some (.pdr b i)) →
    t.pdr b i = s.pdr b i ∨ t.pdr b i = pdrModified (s.pdr b i)
  sr2 : t.sr2 = s.sr2
  itab : t.itab = s.itab
  run : t.run = s.run
  cfg : t.cfg = s.cfg
  arrivals : t.arrivals = s.arrivals

theorem evenAddr_of_even {pa : Nat} (h : pa % 2 = 0) : evenAddr pa = pa := by
  unfold evenAddr; omega

theorem evenAddr_even (pa : Nat) : evenAddr pa % 2 = 0 := by
  unfold evenAddr; omega

theorem StoreEffect.ofReadOnly {pa : Nat} {sz : Size} {s u t : State} (hq : Quiet s u) (hr : u.regs = s.regs)
    (h : StoreEffect pa sz u t) : StoreEffect pa sz s t where
  bytes x hx := (h.bytes x hx).trans (hq.byteAt x)
  array := h.array.imp (fun e => hq.cfg ▸ e) fun e => e.trans hq.mem
  psw hn := by
    rw [← hq.cfg] at hn
    exact ⟨(h.psw hn).1.trans hq.psw, (h.psw hn).2.1.trans hr, (h.psw hn).2.2.trans hq.spbank⟩
  regs r hne := (h.regs r hne).trans (reg_of_regs hr r)
  sp hc := (h.sp (hc.trans hq.cm.symm)).trans (reg_of_regs hr SP)
  stackPtr k := by
    rw [h.stackPtr k]; simp only [State.spOf, hq.cm, reg_of_regs hr, hq.sp]
  sr0 hn := (h.sr0 (by rw [hq.cfg]; exact hn)).trans hq.sr0
  par b i hn := by
    rw [← hq.cfg] at hn
    rw [h.par b i hn]; cases b <;> simp only [State.par, hq.kpar, hq.upar]
  pdr b i hn := by
    rw [← hq.cfg] at hn
    have : u.pdr b i = s.pdr b i := by cases b <;> simp only [State.pdr, hq.kpdr, hq.updr]
    rw [← this]; exact h.pdr b i hn
  sr2 := h.sr2.trans hq.sr2
  itab := h.itab.trans hq.itab
  run := h.run.trans hq.run
  cfg := h.cfg.trans hq.cfg
  arrivals := h.arrivals.trans hq.arrivals

theorem State.writeCore_frame (s : State) (r : CoreReg) (w : Word) :
    (s.writeCore r w).mem = s.mem ∧ (s.writeCore r w).sr2 = s.sr2 ∧ (s.writeCore r w).itab = s.itab ∧
      (s.writeCore r w).run = s.run ∧ (s.writeCore r w).cfg = s.cfg ∧
      (s.writeCore r w).arrivals = s.arrivals := by
  cases r <;> exact ⟨rfl, rfl, rfl, rfl, rfl, rfl⟩

theorem StoreEffect.ofCore {pa : Nat} {sz : Size} {s : State} {r : CoreReg} {w : Word}
    (hge : s.cfg.ioBase ≤ evenAddr pa) (hr : coreRegAt s.cfg (evenAddr pa) = some r) : StoreEffect pa sz s (s.writeCore r w) := by
  obtain ⟨hm, h2, hi, hru, hd, ha⟩ := s.writeCore_frame r w
  refine ⟨fun x _ => by simp only [State.byteAt, hm, hd], .inr hm, ?_, ?_, ?_, ?_, ?_, ?_, ?_, h2, hi, hru, hd, ha⟩
  · intro hn
    cases r with
    | psw => exact absurd ⟨hge, hr⟩ hn
    | _ => exact ⟨rfl, rfl, rfl⟩
  · intro n hne
    cases r with
    | psw => exact s.reg_setPsw_ne w n hne
    | _ => rfl
  · intro hc
    cases r with
    | psw => exact s.reg_setPsw_same w hc SP
    | _ => rfl
  · intro k
    cases r with
    | psw => exact s.spOf_setPsw w k
    | _ => rfl
  · intro hn
    cases r with
    | sr0 => exact absurd ⟨hge, hr⟩ hn
    | _ => rfl
  · intro b i hn
    cases r with
    | par c j =>
      show (s.setPar c j w).par b i = _
      rw [s.par_setPar]
      by_cases hbi : b = c ∧ i = j
      · obtain ⟨rfl, rfl⟩ := hbi; exact absurd ⟨hge, hr⟩ hn
      · rw [if_neg hbi]
    | _ => rfl
  · intro b i hn
    cases r with
    | pdr c j =>
      left
      show (s.setPdr c j w).pdr b i = _
      rw [s.pdr_setPdr]
      by_cases hbi : b = c ∧ i = j
      · obtain ⟨rfl, rfl⟩ := hbi; exact absurd ⟨hge, hr⟩ hn
      · rw [if_neg hbi]
    | _ => exact .inl rfl

/-- A router word write, seen as a store of `sz` at `pa`, its word being at `evenAddr pa`; a byte store keeps the other byte. -/
theorem StoreEffect.ofPhysWrite {pa : Nat} {sz : Size} {s t : State} {w : Word}
    (h : physWrite (evenAddr pa) w s = .ok () t) (hw : sz = .word → pa % 2 = 0)
    (hb : sz = .byte → evenAddr pa < s.cfg.ioBase → ∃ v, w = mergeByte pa (s.wordAt (evenAddr pa)) v) :
    StoreEffect pa sz s t := by
  have hev : evenAddr pa = pa - pa % 2 := rfl
  obtain ⟨_, ⟨hlt, rfl⟩ | ⟨hge, r, hr, rfl⟩ | ⟨hge, hn, d, _, rfl⟩⟩ := physWrite_ok h
  · refine ⟨?_, .inl hlt, fun _ => ⟨rfl, rfl, rfl⟩, fun _ _ => rfl, fun _ => rfl, fun _ => rfl, fun _ => rfl, fun _ _ _ => rfl,
      fun _ _ _ => .inl rfl, rfl, rfl, rfl, rfl, rfl⟩
    intro x hx
    simp only [State.byteAt, State.setWord, Memory.readByte_writeWord]
    cases sz with
    | word =>
      have he : evenAddr pa = pa := evenAddr_of_even (hw rfl)
      have := hx.2 rfl
      rw [he, if_neg this, if_neg hx.1]
    | byte =>
      obtain ⟨v, rfl⟩ := hb rfl hlt
      by_cases hodd : pa % 2 = 1
      · have hxne := hx.1
        rw [if_neg (by omega)]
        split
        · next hxe => rw [mergeByte, if_pos hodd, State.wordAt, Memory.readWord, hxe]; simp
        · rfl
      · have hxne := hx.1
        split
        · next hxe => rw [mergeByte, if_neg hodd, State.wordAt, Memory.readWord, hxe]; simp
        · rw [if_neg (by omega)]
  · exact .ofCore hge hr
  · refine ⟨fun _ _ => rfl, .inr rfl, fun _ => ⟨rfl, rfl, rfl⟩, fun _ _ => rfl, fun _ => rfl, fun _ => rfl, fun _ => rfl,
      fun _ _ _ => rfl, fun _ _ _ => .inl rfl, rfl, rfl, rfl, rfl, rfl⟩

/-- A store that ends: the address translated, and a store at it (R82). -/
theorem memWriteAs_ok {m : ModeBits} {va : Word} {sz : Size} {v : Word} {s t : State}
    (h : memWriteAs m va sz v s = .ok () t) :
    ∃ pa, translate va m true s = .ok pa (s.marked m va true) ∧ StoreEffect pa sz s t := by
  unfold memWriteAs at h
  obtain ⟨pa, u, ht, h⟩ := bind_eq_ok.mp h
  have hu := (translate_ok_iff.mp ht).2
  subst hu
  refine ⟨pa, ht, ?_⟩
  have core : StoreEffect pa sz (s.marked m va true) t := by
    cases sz with
    | word =>
      have h0 := (physWrite_ok h).1
      refine StoreEffect.ofPhysWrite (w := v) ?_ (fun _ => h0) (fun hh => by cases hh)
      rw [evenAddr_of_even h0]; exact h
    | byte =>
      obtain ⟨w, u, hr, h⟩ := bind_eq_ok.mp h
      obtain ⟨hq, hregs⟩ := physRead_ok hr
      refine StoreEffect.ofReadOnly hq hregs (StoreEffect.ofPhysWrite h (fun hh => by cases hh) ?_)
      intro _ hlt
      refine ⟨v, ?_⟩
      unfold physRead at hr
      rw [if_neg (by rw [evenAddr_even]; decide), if_pos (by rw [← hq.cfg]; exact hlt)] at hr
      cases hr
      rfl
  have hpdr : ∀ b i, (s.marked m va true).pdr b i = s.pdr b i ∨
      (s.marked m va true).pdr b i = pdrModified (s.pdr b i) := by
    intro b i
    unfold State.marked
    split
    · rw [s.pdr_setPdr]
      split
      · next hbi => obtain ⟨rfl, rfl⟩ := hbi; exact .inr rfl
      · exact .inl rfl
    · exact .inl rfl
  have hidem : ∀ d : Word, pdrModified (pdrModified d) = pdrModified d := by
    intro d; unfold pdrModified; rw [BitVec.or_assoc, BitVec.or_self]
  unfold State.marked at core hpdr
  split at core
  · next hc =>
    rw [if_pos hc] at hpdr
    exact ⟨core.bytes, core.array, core.psw, core.regs, core.sp, core.stackPtr, core.sr0, core.par,
      fun b i hn => by
        rcases core.pdr b i hn with h1 | h1 <;> rcases hpdr b i with h2 | h2 <;> rw [h1, h2] <;> simp [hidem],
      core.sr2, core.itab, core.run, core.cfg, core.arrivals⟩
  · exact core

/-- A push that ends: SP lowered by 2, and a store of the word there. -/
theorem push_ok {v : Word} {s t : State} (h : push v s = .ok () t) :
    ∃ pa u, translate (s.reg SP - 2) s.cm true (s.setReg SP (s.reg SP - 2)) = .ok pa u ∧
      StoreEffect pa .word (s.setReg SP (s.reg SP - 2)) t := by
  unfold push at h
  rw [bind_of_ok (getReg_apply _ _), bind_of_ok (putReg_apply _ _ _)] at h
  obtain ⟨pa, ht, he⟩ := memWriteAs_ok h
  exact ⟨pa, _, ht, he⟩

/-- A push of the trap sequence in kernel mode is Push (00_scope.md R8, 60_exceptions.md R322). -/
theorem pushKernel_eq_push {s : State} (h : s.cm = 0#2) (v : Word) : pushKernel v s = push v s := by
  unfold pushKernel push
  rw [bind_of_ok (getReg_apply _ _), bind_of_ok (putReg_apply _ _ _)]
  simp only [State.setSpOf, State.spOf, h, if_true, memWrite]
  rw [show (s.setReg SP (s.reg SP - 2)).cm = 0#2 from h]

/-! ### Properties every statement keeps -/

/-- `x` keeps `I`, whether it ends or raises. -/
def Keeps {α : Type} (I : State → Prop) (x : Exec α) : Prop :=
  ∀ s, I s → (∀ a t, x s = .ok a t → I t) ∧ (∀ e t, x s = .error e t → I t)

theorem Keeps.pure {α : Type} {I : State → Prop} (a : α) : Keeps I (pure a : Exec α) := by
  intro s hs
  constructor
  · intro b t h; cases h; exact hs
  · intro e t h; cases h

theorem Keeps.bind {α β : Type} {I : State → Prop} {x : Exec α} {f : α → Exec β} (hx : Keeps I x) (hf : ∀ a, Keeps I (f a)) :
    Keeps I (x >>= f) := by
  intro s hs
  constructor
  · intro b t h
    obtain ⟨a, u, h1, h2⟩ := bind_eq_ok.mp h
    exact (hf a u ((hx s hs).1 a u h1)).1 b t h2
  · intro e t h
    rcases bind_eq_error.mp h with h1 | ⟨a, u, h1, h2⟩
    · exact (hx s hs).2 e t h1
    · exact (hf a u ((hx s hs).1 a u h1)).2 e t h2

/-- A statement that always ends keeps what its effect keeps. -/
theorem Keeps.ofUpdate {α : Type} {I : State → Prop} {x : Exec α} {g : State → α} {f : State → State}
    (hx : ∀ s, x s = .ok (g s) (f s)) (hf : ∀ s, I s → I (f s)) : Keeps I x := by
  intro s hs
  constructor
  · intro a t h; rw [hx] at h; cases h; exact hf s hs
  · intro e t h; rw [hx] at h; cases h

/-- A statement that raises at once keeps anything. -/
theorem Keeps.ofRaise {α : Type} {I : State → Prop} {x : Exec α} {e : State → Raise} (hx : ∀ s, x s = .error (e s) s) :
    Keeps I x := by
  intro s hs
  constructor
  · intro a t h; rw [hx] at h; cases h
  · intro e' t h; rw [hx] at h; cases h; exact hs

/-- `x` raises no fatal condition. -/
def NoFatal {α : Type} (x : Exec α) : Prop := ∀ s r t, x s ≠ .error (.fatal r) t

theorem NoFatal.bind {α β : Type} {x : Exec α} {f : α → Exec β} (hx : NoFatal x) (hf : ∀ a, NoFatal (f a)) :
    NoFatal (x >>= f) := by
  intro s r t h
  rcases bind_eq_error.mp h with h1 | ⟨a, u, _, h2⟩
  · exact hx s r t h1
  · exact hf a u r t h2

theorem NoFatal.ofUpdate {α : Type} {x : Exec α} {g : State → α} {f : State → State} (hx : ∀ s, x s = .ok (g s) (f s)) :
    NoFatal x := by
  intro s r t h; rw [hx] at h; cases h

theorem NoFatal.pure {α : Type} (a : α) : NoFatal (pure a : Exec α) := .ofUpdate (g := fun _ => a) (f := id) fun _ => rfl

theorem NoFatal.raiseTrap {α : Type} (vec : Word) : NoFatal (raiseTrap vec : Exec α) := by
  intro s r t h; cases h

theorem NoFatal.raiseAt {α : Type} (vec : Config → Word) : NoFatal (raiseAt vec : Exec α) := by
  intro s r t h; cases h

theorem NoFatal.translate (va : Word) (m : ModeBits) (wr : Bool) : NoFatal (translate va m wr) := by
  intro s r t h; have := (translate_error h).1; cases this

theorem NoFatal.physRead (pa : Nat) : NoFatal (physRead pa) := by
  intro s r t h; have := (physRead_error h).1; cases this

theorem NoFatal.physWrite (pa : Nat) (w : Word) : NoFatal (physWrite pa w) := by
  intro s r t h; have := (physWrite_error h).1; cases this

theorem NoFatal.memReadAs (m : ModeBits) (va : Word) (sz : Size) : NoFatal (memReadAs m va sz) := by
  refine .bind (.translate _ _ _) fun pa => ?_
  cases sz with
  | word => exact .physRead pa
  | byte => exact .bind (.physRead _) fun _ => .pure _

theorem NoFatal.memWriteAs (m : ModeBits) (va : Word) (sz : Size) (v : Word) : NoFatal (memWriteAs m va sz v) := by
  refine .bind (.translate _ _ _) fun pa => ?_
  cases sz with
  | word => exact .physWrite pa v
  | byte => exact .bind (.physRead _) fun _ => .physWrite _ _

theorem NoFatal.memRead (va : Word) (sz : Size) : NoFatal (memRead va sz) := fun s => NoFatal.memReadAs s.cm va sz s
theorem NoFatal.memWrite (va : Word) (sz : Size) (v : Word) : NoFatal (memWrite va sz v) :=
  fun s => NoFatal.memWriteAs s.cm va sz v s
theorem NoFatal.getReg (n : Reg) : NoFatal (getReg n) := .ofUpdate (g := fun s => s.reg n) (f := id) fun _ => rfl
theorem NoFatal.putReg (n : Reg) (v : Word) : NoFatal (putReg n v) :=
  .ofUpdate (g := fun _ => ()) (f := fun s => s.setReg n v) fun _ => rfl
theorem NoFatal.getCC : NoFatal getCC := .ofUpdate (g := State.cc) (f := id) fun _ => rfl
theorem NoFatal.putCC (f : CC) : NoFatal (putCC f) := .ofUpdate (g := fun _ => ()) (f := fun s => s.setCC f) fun _ => rfl
theorem NoFatal.putPsw (v : Word) : NoFatal (putPsw v) := .ofUpdate (g := fun _ => ()) (f := fun s => s.setPsw v) fun _ => rfl
theorem NoFatal.push (v : Word) : NoFatal (push v) := .bind (.getReg _) fun _ => .bind (.putReg _ _) fun _ => .memWrite _ _ _
theorem NoFatal.pushKernel (v : Word) : NoFatal (pushKernel v) :=
  fun s => NoFatal.memWriteAs 0#2 (s.spOf 0#2 - 2) .word v (s.setSpOf 0#2 (s.spOf 0#2 - 2))
theorem NoFatal.pop : NoFatal pop :=
  .bind (.getReg _) fun _ => .bind (.memRead _ _) fun _ => .bind (.putReg _ _) fun _ => .pure _

end Sys2Proof.Machine
end

