-- ==== Sys2Proof/Laws/Operands.lean ====
section
/-! SUPPORT. What operand resolution and the shared starts of the instructions can do, said once; and that no addressing mode raises a
fatal condition. -/

namespace Sys2Proof.Machine

/-- `t` is reached from `s` by resolving and reading operands: only registers the modes step, R7 and the device data may differ. -/
structure OperandRun (steps : Reg → Bool) (s t : State) : Prop where
  quiet : Quiet s t
  regs : ∀ r, r ≠ PC → steps r = false → t.reg r = s.reg r

theorem OperandRun.trans {f g : Reg → Bool} {s t u : State} (h : OperandRun f s t) (k : OperandRun g t u) :
    OperandRun (fun r => f r || g r) s u where
  quiet := h.quiet.trans k.quiet
  regs r hp hr := by
    simp only [Bool.or_eq_false_iff] at hr
    exact (k.regs r hp hr.2).trans (h.regs r hp hr.1)

theorem OperandRun.ofRead {f : Reg → Bool} {s t u : State} (h : OperandRun f s t) (k : Quiet t u ∧ u.regs = t.regs) :
    OperandRun f s u where
  quiet := h.quiet.trans k.1
  regs r hp hr := (reg_of_regs k.2 r).trans (h.regs r hp hr)

theorem indexedAddr_ok {r : Reg} {s t : State} {a : Word} (h : indexedAddr r s = .ok a t) :
    OperandRun (fun _ => false) s t := by
  unfold indexedAddr indexWord at h
  obtain ⟨x, u, h1, h2⟩ := bind_eq_ok.mp h
  obtain ⟨pc, v, h3, h1⟩ := bind_eq_ok.mp h1
  cases h3
  obtain ⟨w, v, h4, h1⟩ := bind_eq_ok.mp h1
  cases h1
  cases h2
  obtain ⟨hq, hr⟩ := memRead_ok h4
  exact ⟨hq.trans (Quiet.setReg _ _ _), fun n hn _ => by simp [hn, reg_of_regs hr]⟩

/-- Resolving an operand changes no register but the one its mode steps and R7, and nothing else but the device data (R157). -/
theorem resolve_ok {o : Operand} {sz : Size} {s t : State} {l : Loc} (h : resolve o sz s = .ok l t) :
    OperandRun o.steps s t ∧ (∀ n, l = .reg n → o.isMemory = false ∧ n = o.reg) ∧ (o.isMemory = false → l = .reg o.reg) := by
  obtain ⟨mode, r⟩ := o
  have hstep : ∀ v : Word, OperandRun (fun n => decide (r = n)) s (s.setReg r v) := fun v =>
    ⟨Quiet.setReg _ _ _, fun n _ hn => by
      rw [State.reg_setReg, if_neg (by intro e; subst e; simp at hn)]⟩
  cases mode with
  | register =>
    cases h
    exact ⟨⟨Quiet.refl _, fun _ _ _ => rfl⟩, fun n hn => by cases hn; exact ⟨rfl, rfl⟩, fun _ => rfl⟩
  | regDeferred =>
    cases h
    exact ⟨⟨Quiet.refl _, fun _ _ _ => rfl⟩, fun n hn => (by cases hn), fun hm => (by cases hm)⟩
  | autoInc =>
    cases h
    exact ⟨hstep _, fun n hn => (by cases hn), fun hm => (by cases hm)⟩
  | autoDec =>
    cases h
    exact ⟨hstep _, fun n hn => (by cases hn), fun hm => (by cases hm)⟩
  | autoIncDeferred =>
    obtain ⟨a, u, h1, h⟩ := bind_eq_ok.mp h
    cases h1
    obtain ⟨p, u, h2, h⟩ := bind_eq_ok.mp h
    cases h
    exact ⟨(hstep _).ofRead (memRead_ok h2), fun n hn => (by cases hn), fun hm => (by cases hm)⟩
  | autoDecDeferred =>
    obtain ⟨a, u, h1, h⟩ := bind_eq_ok.mp h
    cases h1
    obtain ⟨p, u, h2, h⟩ := bind_eq_ok.mp h
    cases h
    exact ⟨(hstep _).ofRead (memRead_ok h2), fun n hn => (by cases hn), fun hm => (by cases hm)⟩
  | indexed =>
    obtain ⟨a, u, h1, h⟩ := bind_eq_ok.mp h
    cases h
    exact ⟨indexedAddr_ok h1, fun n hn => (by cases hn), fun hm => (by cases hm)⟩
  | indexedDeferred =>
    obtain ⟨a, u, h1, h⟩ := bind_eq_ok.mp h
    obtain ⟨p, u', h2, h⟩ := bind_eq_ok.mp h
    cases h
    exact ⟨(indexedAddr_ok h1).ofRead (memRead_ok h2), fun n hn => (by cases hn), fun hm => (by cases hm)⟩

theorem readLoc_ok {l : Loc} {sz : Size} {s t : State} {w : Word} (h : readLoc l sz s = .ok w t) :
    Quiet s t ∧ t.regs = s.regs := by
  cases l with
  | reg n => cases h; exact ⟨Quiet.refl _, rfl⟩
  | mem a => exact memRead_ok h

theorem sourceValue_ok {src : Operand} {sz : Size} {s t : State} {v : Word} (h : sourceValue src sz s = .ok v t) :
    OperandRun src.steps s t := by
  obtain ⟨l, u, h1, h2⟩ := bind_eq_ok.mp h
  exact (resolve_ok h1).1.ofRead (readLoc_ok h2)

theorem sourceAndDest_ok {src dst : Operand} {sz : Size} {s t : State} {v : Word} {dl : Loc}
    (h : sourceAndDest src dst sz s = .ok (v, dl) t) :
    OperandRun (fun r => src.steps r || dst.steps r) s t ∧ (∀ n, dl = .reg n → dst.isMemory = false ∧ n = dst.reg) ∧
      (dst.isMemory = false → dl = .reg dst.reg) := by
  obtain ⟨a, u, h1, h⟩ := bind_eq_ok.mp h
  obtain ⟨l, u', h2, h⟩ := bind_eq_ok.mp h
  cases h
  exact ⟨(sourceValue_ok h1).trans (resolve_ok h2).1, (resolve_ok h2).2⟩

theorem sourceAndOld_ok {src dst : Operand} {sz : Size} {s t : State} {v d : Word} {dl : Loc}
    (h : sourceAndOld src dst sz s = .ok (v, dl, d) t) :
    OperandRun (fun r => src.steps r || dst.steps r) s t ∧ (∀ n, dl = .reg n → dst.isMemory = false ∧ n = dst.reg) ∧
      (dst.isMemory = false → dl = .reg dst.reg) := by
  obtain ⟨a, u, h1, h⟩ := bind_eq_ok.mp h
  obtain ⟨l, u', h2, h⟩ := bind_eq_ok.mp h
  obtain ⟨w, u'', h3, h⟩ := bind_eq_ok.mp h
  cases h
  exact ⟨((sourceValue_ok h1).trans (resolve_ok h2).1).ofRead (readLoc_ok h3), (resolve_ok h2).2⟩

theorem destAndOld_ok {dst : Operand} {sz : Size} {s t : State} {d : Word} {dl : Loc}
    (h : destAndOld dst sz s = .ok (dl, d) t) :
    OperandRun dst.steps s t ∧ (∀ n, dl = .reg n → dst.isMemory = false ∧ n = dst.reg) ∧
      (dst.isMemory = false → dl = .reg dst.reg) := by
  obtain ⟨l, u', h2, h⟩ := bind_eq_ok.mp h
  obtain ⟨w, u'', h3, h⟩ := bind_eq_ok.mp h
  cases h
  exact ⟨(resolve_ok h2).1.ofRead (readLoc_ok h3), (resolve_ok h2).2⟩

/-! ### No fatal condition arises in operand access -/

theorem NoFatal.indexedAddr (r : Reg) : NoFatal (indexedAddr r) :=
  .bind (.bind (.getReg _) fun _ => .bind (.memRead _ _) fun _ => .bind (.putReg _ _) fun _ => .pure _) fun _ =>
    .bind (.getReg _) fun _ => .pure _

theorem NoFatal.resolve (o : Operand) (sz : Size) : NoFatal (resolve o sz) := by
  obtain ⟨mode, r⟩ := o
  cases mode with
  | register => exact .pure _
  | regDeferred => exact .bind (.getReg _) fun _ => .pure _
  | autoInc => exact .bind (.bind (.getReg _) fun _ => .bind (.putReg _ _) fun _ => .pure _) fun _ => .pure _
  | autoIncDeferred =>
    exact .bind (.bind (.getReg _) fun _ => .bind (.putReg _ _) fun _ => .pure _) fun _ => .bind (.memRead _ _) fun _ => .pure _
  | autoDec => exact .bind (.bind (.getReg _) fun _ => .bind (.putReg _ _) fun _ => .pure _) fun _ => .pure _
  | autoDecDeferred =>
    exact .bind (.bind (.getReg _) fun _ => .bind (.putReg _ _) fun _ => .pure _) fun _ => .bind (.memRead _ _) fun _ => .pure _
  | indexed => exact .bind (.indexedAddr _) fun _ => .pure _
  | indexedDeferred => exact .bind (.indexedAddr _) fun _ => .bind (.memRead _ _) fun _ => .pure _

theorem NoFatal.readLoc (l : Loc) (sz : Size) : NoFatal (readLoc l sz) := by
  cases l with
  | reg n => exact .bind (.getReg _) fun _ => .pure _
  | mem a => exact .memRead _ _

theorem NoFatal.writeLoc (l : Loc) (sz : Size) (v : Word) : NoFatal (writeLoc l sz v) := by
  cases l with
  | reg n =>
    cases sz with
    | word => exact .putReg _ _
    | byte => exact .bind (.getReg _) fun _ => .putReg _ _
  | mem a => exact .memWrite _ _ _

theorem NoFatal.sourceValue (o : Operand) (sz : Size) : NoFatal (sourceValue o sz) :=
  .bind (.resolve _ _) fun _ => .readLoc _ _

theorem NoFatal.sourceAndDest (src dst : Operand) (sz : Size) : NoFatal (sourceAndDest src dst sz) :=
  .bind (.sourceValue _ _) fun _ => .bind (.resolve _ _) fun _ => .pure _

theorem NoFatal.sourceAndOld (src dst : Operand) (sz : Size) : NoFatal (sourceAndOld src dst sz) :=
  .bind (.sourceValue _ _) fun _ => .bind (.resolve _ _) fun _ => .bind (.readLoc _ _) fun _ => .pure _

theorem NoFatal.destAndOld (dst : Operand) (sz : Size) : NoFatal (destAndOld dst sz) :=
  .bind (.resolve _ _) fun _ => .bind (.readLoc _ _) fun _ => .pure _

theorem NoFatal.finishWith (l : Loc) (sz : Size) (out : Word × CC) : NoFatal (finishWith l sz out) :=
  .bind (.putCC _) fun _ => .writeLoc _ _ _

/-! ### What a write through a location can do -/

/-- A write to a register changes that register alone. -/
theorem writeLoc_reg {n : Reg} {sz : Size} {v : Word} {s t : State} (h : writeLoc (.reg n) sz v s = .ok () t) :
    ∃ w, t = s.setReg n w := by
  cases sz with
  | word => cases h; exact ⟨_, rfl⟩
  | byte => cases h; exact ⟨_, rfl⟩

theorem writeLoc_mem {a : Word} {sz : Size} {v : Word} {s t : State} (h : writeLoc (.mem a) sz v s = .ok () t) :
    ∃ pa, translate a s.cm true s = .ok pa (s.marked s.cm a true) ∧ StoreEffect pa sz s t := by
  cases sz <;> exact memWriteAs_ok h

end Sys2Proof.Machine
end

