-- ==== Sys2Proof/Laws/Access.lean ====
section
/-! SUPPORT. Accesses that reach the memory array: what they answer, and that neither the W bit nor a store to the array changes how
later accesses are translated. -/

namespace Sys2Proof.Machine

/-- Setting W changes no violation: it is no part of the access control or the length. -/
theorem violation_pdrModified (d : Word) (b wr) : violation (pdrModified d) b wr = violation d b wr := by
  have h1 : pdrAccess (pdrModified d) = pdrAccess d := by
    unfold pdrAccess pdrModified
    apply BitVec.eq_of_getLsbD_eq; intro i hi
    rw [BitVec.getLsbD_extractLsb', BitVec.getLsbD_extractLsb', BitVec.getLsbD_or]
    have : ∀ i < 2, (0o000100#16).getLsbD (1 + i) = false := by decide
    rw [this i hi]; simp
  have h2 : pdrLength (pdrModified d) = pdrLength d := by
    unfold pdrLength pdrModified
    apply BitVec.eq_of_getLsbD_eq; intro i hi
    rw [BitVec.getLsbD_extractLsb', BitVec.getLsbD_extractLsb', BitVec.getLsbD_or]
    have : ∀ i < 7, (0o000100#16).getLsbD (8 + i) = false := by decide
    rw [this i hi]; simp
  have h3 : pdrDown (pdrModified d) = pdrDown d := by
    unfold pdrDown pdrModified; rw [BitVec.getLsbD_or]; simp
  unfold violation; rw [h1, h2, h3]

/-- What may be written may be read, at the same physical address. -/
theorem State.mapped_read_of_write {s : State} {m va pa} (h : s.mapped m va true = some pa) : s.mapped m va false = some pa := by
  unfold State.mapped at *
  split at h
  · next ho =>
    rw [if_pos ho]
    revert h
    have : ∀ d b, violation d b true = none → violation d b false = none := by
      intro d b; unfold violation; split
      · simp
      · split
        · simp
        · simp
    split
    · simp
    · next hv => rw [this _ _ hv]; simp
  · next ho => rw [if_neg ho]; exact h

/-- The translation depends on the translator's registers alone. -/
theorem State.mapped_congr {s t : State} (h0 : t.sr0 = s.sr0) (h1 : t.kpar = s.kpar) (h2 : t.upar = s.upar) (h3 : t.kpdr = s.kpdr)
    (h4 : t.updr = s.updr) (h5 : t.cfg = s.cfg) (m va wr) : t.mapped m va wr = s.mapped m va wr := by
  have hd : ∀ b i, t.pdr b i = s.pdr b i := by intro b i; cases b <;> simp only [State.pdr, h3, h4]
  have hp : ∀ b i, t.par b i = s.par b i := by intro b i; cases b <;> simp only [State.par, h1, h2]
  have hm : t.mmuOn = s.mmuOn := by unfold State.mmuOn; rw [h0]
  unfold State.mapped; rw [hm, hd, hp, h5]

theorem State.mem_marked (s : State) (m va wr) : (s.marked m va wr).mem = s.mem := by unfold State.marked; split <;> rfl

theorem State.cfg_marked (s : State) (m va wr) : (s.marked m va wr).cfg = s.cfg := by unfold State.marked; split <;> rfl

/-- A translation that sets W changes no later translation. -/
theorem State.mapped_marked (s : State) (m va wr m' va' wr') : (s.marked m va wr).mapped m' va' wr' = s.mapped m' va' wr' := by
  unfold State.marked; split
  · unfold State.mapped
    have e : ∀ b i, violation
        ((s.setPdr (bankOf m) (pageOf va).toFin (pdrModified (s.pdr (bankOf m) (pageOf va).toFin))).pdr b i) (blockOf va') wr' =
        violation (s.pdr b i) (blockOf va') wr' := by
      intro b i; rw [s.pdr_setPdr]; split
      · next h => obtain ⟨rfl, rfl⟩ := h; exact violation_pdrModified _ _ _
      · rfl
    rw [e]; rfl
  · rfl

/-! ### Byte access, synthesized from word access -/

theorem toNat_highByte (w : Word) : (highByte w).toNat = w.toNat / 256 := by
  have := w.isLt
  rw [highByte, BitVec.extractLsb'_toNat, Nat.shiftRight_eq_div_pow]
  omega

theorem toNat_lowByte (w : Word) : (lowByte w).toNat = w.toNat % 256 := by
  rw [lowByte, BitVec.extractLsb'_toNat]
  rfl

/-- The byte selected, as a number (20_memory.md R70, R81). -/
theorem selectByte_eq (pa : Nat) (w : Word) :
    selectByte pa w = BitVec.ofNat 16 (if pa % 2 = 1 then w.toNat / 256 else w.toNat % 256) := by
  unfold selectByte
  have key : ∀ b : Byte, b.zeroExtend 16 = BitVec.ofNat 16 b.toNat := fun b => by
    apply BitVec.eq_of_toNat_eq
    simp [BitVec.zeroExtend]
  split <;> simp only [key, toNat_highByte, toNat_lowByte]

/-- The word merged, as a number (R70, R82). -/
theorem mergeByte_eq (pa : Nat) (w v : Word) :
    mergeByte pa w v = BitVec.ofNat 16
      (if pa % 2 = 1 then v.toNat % 256 * 256 + w.toNat % 256 else w.toNat / 256 * 256 + v.toNat % 256) := by
  have key : ∀ a b : Byte, (a ++ b : Word) = BitVec.ofNat 16 (a.toNat * 256 + b.toNat) := by
    intro a b
    apply BitVec.eq_of_toNat_eq
    have ha := a.isLt
    have hb := b.isLt
    rw [BitVec.toNat_append, ← Nat.shiftLeft_add_eq_or_of_lt hb, Nat.shiftLeft_eq, BitVec.toNat_ofNat]
    omega
  unfold mergeByte
  split <;> rw [key] <;> simp only [toNat_highByte, toNat_lowByte]

/-- A byte read is the router's read of the even address and a selection (R81). -/
theorem memReadAs_byte {s u : State} {m va pa} (h : translate va m false s = .ok pa u) :
    memReadAs m va .byte s = (physRead (evenAddr pa) >>= fun w => pure (selectByte pa w)) u := bind_of_ok h

/-- A byte write is the router's read of the even address, the merge and the router's write (R82). -/
theorem memWriteAs_byte {s u : State} {m va v pa} (h : translate va m true s = .ok pa u) :
    memWriteAs m va .byte v s = (physRead (evenAddr pa) >>= fun w => physWrite (evenAddr pa) (mergeByte pa w v)) u := bind_of_ok h

/-- The fetch, in one step: SR2 noted, then the word at the PC read, then the PC advanced (40_addressing_modes.md R151). -/
theorem fetch_apply (s : State) : fetch s =
    (memReadAs s.cm (s.reg PC) .word >>= fun w => putReg PC (s.reg PC + 2) >>= fun _ => pure w)
      (if s.sr0.extractLsb' 13 3 = 0#3 then s.setSr2 (s.reg PC) else s) := by
  unfold fetch
  rw [bind_of_ok (show noteFetch s = .ok () (if s.noAbort then s.setSr2 (s.reg PC) else s) from rfl), bind_of_ok (getReg_apply _ _)]
  simp only [State.noAbort, decide_eq_true_eq]
  split <;> rfl

/-- A word read that reaches the memory array. -/
theorem memReadAs_word_array {s : State} {m va pa} (h : s.reachesAt m va .word false pa) :
    memReadAs m va .word s = .ok (s.wordAt pa) s := by
  obtain ⟨h1, h2, h3⟩ := h
  unfold memReadAs
  rw [bind_of_ok (translate_ok_iff.mpr ⟨h1, rfl⟩)]
  have : s.marked m va false = s := by simp [State.marked]
  simp only [this]
  show physRead pa s = _
  unfold physRead; rw [if_neg (by rw [h3 rfl]; decide), if_pos h2]

/-- A byte read that reaches the memory array. -/
theorem memReadAs_byte_array {s : State} {m va pa} (h : s.reachesAt m va .byte false pa) :
    memReadAs m va .byte s = .ok ((s.byteAt pa).zeroExtend 16) s := by
  obtain ⟨h1, h2, h3⟩ := h
  unfold memReadAs
  rw [bind_of_ok (translate_ok_iff.mpr ⟨h1, rfl⟩)]
  have : s.marked m va false = s := by simp [State.marked]
  simp only [this]
  have hp : physRead (evenAddr pa) s = .ok (s.wordAt (evenAddr pa)) s := by
    unfold physRead; rw [if_neg (by rw [evenAddr_even]; decide), if_pos (by unfold evenAddr; omega)]
  rw [bind_of_ok hp]
  show EStateM.Result.ok (selectByte pa _) s = _
  congr 1
  unfold selectByte
  have hev : evenAddr pa = pa - pa % 2 := rfl
  by_cases ho : pa % 2 = 1
  · rw [if_pos ho]; unfold State.wordAt Memory.readWord; rw [highByte_append, show evenAddr pa + 1 = pa by omega]; rfl
  · rw [if_neg ho]; unfold State.wordAt Memory.readWord; rw [lowByte_append, show evenAddr pa = pa by omega]; rfl

/-- A word write that reaches the memory array. -/
theorem memWriteAs_word_array {s : State} {m va v pa} (h : s.reachesAt m va .word true pa) :
    memWriteAs m va .word v s = .ok () ((s.marked m va true).setWord pa v) := by
  obtain ⟨h1, h2, h3⟩ := h
  unfold memWriteAs
  rw [bind_of_ok (translate_ok_iff.mpr ⟨h1, rfl⟩)]
  show physWrite pa v _ = _
  unfold physWrite; rw [if_neg (by rw [h3 rfl]; decide), if_pos (by rw [State.cfg_marked]; exact h2)]

/-- A byte write that reaches the memory array: the other byte of the word is written back. -/
theorem memWriteAs_byte_array {s : State} {m va v pa} (h : s.reachesAt m va .byte true pa) :
    memWriteAs m va .byte v s = .ok () ((s.marked m va true).setWord (evenAddr pa)
      (mergeByte pa (s.wordAt (evenAddr pa)) v)) := by
  obtain ⟨h1, h2, h3⟩ := h
  unfold memWriteAs
  rw [bind_of_ok (translate_ok_iff.mpr ⟨h1, rfl⟩)]
  have hl : evenAddr pa < s.cfg.ioBase := by unfold evenAddr; omega
  have hp : physRead (evenAddr pa) (s.marked m va true) = .ok (s.wordAt (evenAddr pa)) (s.marked m va true) := by
    unfold physRead; rw [if_neg (by rw [evenAddr_even]; decide), if_pos (by rw [State.cfg_marked]; exact hl)]
    unfold State.wordAt; rw [State.mem_marked, State.cfg_marked]
  simp only
  rw [bind_of_ok hp]
  unfold physWrite; rw [if_neg (by rw [evenAddr_even]; decide), if_pos (by rw [State.cfg_marked]; exact hl)]

/-- A word read that reaches the memory array, by the word found there. -/
theorem memReadAs_of_reaches {s : State} {m va} (h : s.reaches m va .word false) :
    memReadAs m va .word s = .ok (s.loadWord m va) s := by
  obtain ⟨pa, h⟩ := h
  rw [memReadAs_word_array h]; unfold State.loadWord; rw [h.1]

theorem memRead_of_reaches {s : State} {va} (h : s.reaches s.cm va .word false) :
    memRead va .word s = .ok (s.loadWord s.cm va) s := memReadAs_of_reaches h

@[simp] theorem State.mapped_setReg (s : State) (n v m va wr) : (s.setReg n v).mapped m va wr = s.mapped m va wr := rfl
@[simp] theorem State.loadWord_setReg (s : State) (n v m va) : (s.setReg n v).loadWord m va = s.loadWord m va := rfl
@[simp] theorem State.mapped_setPsw (s : State) (v m va wr) : (s.setPsw v).mapped m va wr = s.mapped m va wr := rfl
@[simp] theorem State.mapped_setWord (s : State) (a v m va wr) : (s.setWord a v).mapped m va wr = s.mapped m va wr := rfl

/-- The fetch of an index word and its sum with the register (40_addressing_modes.md R157). -/
theorem indexedAddr_of_reaches {r : Reg} {s : State} (h : s.reaches s.cm (s.reg PC) .word false) :
    indexedAddr r s =
      .ok (s.loadWord s.cm (s.reg PC) + (s.setReg PC (s.reg PC + 2)).reg r) (s.setReg PC (s.reg PC + 2)) := by
  unfold indexedAddr indexWord
  simp only [bind_apply, getReg_apply, memRead_of_reaches h, putReg_apply, pure_apply]

/-! ### Setting W leaves everything but the descriptors alone -/

theorem State.marked_frame (s : State) (m va wr) :
    ∃ k u, s.marked m va wr = { s with kpdr := k, updr := u } := by
  unfold State.marked
  split
  · exact ⟨_, _, rfl⟩
  · exact ⟨s.kpdr, s.updr, rfl⟩

/-- Setting W sets no bit of a mode 0 access but in the kernel bank. -/
theorem State.updr_marked_kernel (s : State) (va wr) : (s.marked 0#2 va wr).updr = s.updr := by
  unfold State.marked
  split
  · rfl
  · rfl

@[simp] theorem State.reg_marked (s : State) (m va wr) (r : Reg) : (s.marked m va wr).reg r = s.reg r := by
  obtain ⟨k, u, h⟩ := s.marked_frame m va wr; rw [h]; rfl
@[simp] theorem State.psw_marked (s : State) (m va wr) : (s.marked m va wr).psw = s.psw := by
  obtain ⟨k, u, h⟩ := s.marked_frame m va wr; rw [h]
@[simp] theorem State.cm_marked (s : State) (m va wr) : (s.marked m va wr).cm = s.cm := by
  obtain ⟨k, u, h⟩ := s.marked_frame m va wr; rw [h]; rfl
@[simp] theorem State.spOf_marked (s : State) (m va wr k) : (s.marked m va wr).spOf k = s.spOf k := by
  obtain ⟨k, u, h⟩ := s.marked_frame m va wr; rw [h]; rfl

/-! ### The stack in the memory array -/

/-- A push whose slot lies in the memory array (00_scope.md R8). -/
theorem push_of_reaches {s : State} {v : Word} {pa : Nat}
    (h : s.reachesAt s.cm (s.reg SP - 2) .word true pa) :
    push v s = .ok () (((s.setReg SP (s.reg SP - 2)).marked s.cm (s.reg SP - 2) true).setWord pa v) := by
  unfold push
  rw [bind_of_ok (getReg_apply _ _), bind_of_ok (putReg_apply _ _ _)]
  exact memWriteAs_word_array (s := s.setReg SP (s.reg SP - 2)) h

/-- A pop whose word lies in the memory array (00_scope.md R8). -/
theorem pop_of_canPop {s : State} (h : s.canPop) :
    pop s = .ok (s.loadWord s.cm (s.reg SP)) (s.setReg SP (s.reg SP + 2)) := by
  unfold pop
  rw [bind_of_ok (getReg_apply _ _), bind_of_ok (memRead_of_reaches h), bind_of_ok (putReg_apply _ _ _)]
  rfl

end Sys2Proof.Machine
end

