-- ==== Sys2Proof/Laws/Decode.lean ====
section
/-! SUPPORT. The fields of a word built from its parts: what the decoder's field functions read from the words the encoder writes. -/

namespace Sys2Proof

theorem extract_append_low {n m : Nat} (c : BitVec n) (x : BitVec m) (lo k : Nat) (h : lo + k ≤ m) :
    (c ++ x).extractLsb' lo k = x.extractLsb' lo k := by
  apply BitVec.eq_of_getLsbD_eq
  intro i hi
  rw [BitVec.getLsbD_extractLsb', BitVec.getLsbD_extractLsb', BitVec.getLsbD_append, if_pos (by omega)]

theorem extract_append_high {n m : Nat} (c : BitVec n) (x : BitVec m) (lo k : Nat) (h : m ≤ lo) :
    (c ++ x).extractLsb' lo k = c.extractLsb' (lo - m) k := by
  apply BitVec.eq_of_getLsbD_eq
  intro i hi
  rw [BitVec.getLsbD_extractLsb', BitVec.getLsbD_extractLsb', BitVec.getLsbD_append, if_neg (by omega),
      show lo + i - m = lo - m + i by omega]

theorem extract_all {m} (x : BitVec m) : x.extractLsb' 0 m = x := by simp

theorem Operand.bits (o : Operand) : AddrMode.ofBits (o.toBits.extractLsb' 3 3) = o.mode ∧ Reg.ofBits
    (o.toBits.extractLsb' 0 3) = o.reg := by
  obtain ⟨m, r⟩ := o
  cases m <;> revert r <;> decide

theorem Reg.ofBits_toBits (r : Reg) : Reg.ofBits (Reg.toBits r) = r := rfl

theorem dstOf_word_single (c : BitVec 10) (o : Operand) : dstOf (c ++ o.toBits : BitVec 16) = o := by
  have h1 := extract_append_low c o.toBits 3 3 (by decide)
  have h0 := extract_append_low c o.toBits 0 3 (by decide)
  have := Operand.bits o
  unfold dstOf operandAt field
  show (⟨AddrMode.ofBits ((c ++ o.toBits).extractLsb' 3 3), Reg.ofBits ((c ++ o.toBits).extractLsb' 0 3)⟩ : Operand) = o
  rw [h1, h0, this.1, this.2]

theorem field_above_6 (c : BitVec 10) (x : BitVec 6) (lo k : Nat) (h : 6 ≤ lo) : field
    (c ++ x : BitVec 16) lo k = c.extractLsb' (lo - 6) k :=
  extract_append_high c x lo k h

theorem field_above_8 (c : BitVec 8) (x : BitVec 8) (lo k : Nat) (h : 8 ≤ lo) : field
    (c ++ x : BitVec 16) lo k = c.extractLsb' (lo - 8) k :=
  extract_append_high c x lo k h

theorem field_low_8 (c : BitVec 8) (x : BitVec 8) : field (c ++ x : BitVec 16) 0 8 = x :=
  (extract_append_low c x 0 8 (by decide)).trans (extract_all x)

theorem field_above_3 (c : BitVec 13) (x : BitVec 3) (lo k : Nat) (h : 3 ≤ lo) : field
    (c ++ x : BitVec 16) lo k = c.extractLsb' (lo - 3) k :=
  extract_append_high c x lo k h

theorem field_low_3 (c : BitVec 13) (x : BitVec 3) : field (c ++ x : BitVec 16) 0 3 = x :=
  (extract_append_low c x 0 3 (by decide)).trans (extract_all x)

theorem field_above_4 (c : BitVec 12) (x : BitVec 4) (lo k : Nat) (h : 4 ≤ lo) : field
    (c ++ x : BitVec 16) lo k = c.extractLsb' (lo - 4) k :=
  extract_append_high c x lo k h

theorem field_low_4 (c : BitVec 12) (x : BitVec 4) : field (c ++ x : BitVec 16) 0 4 = x :=
  (extract_append_low c x 0 4 (by decide)).trans (extract_all x)

theorem field_low_6 (c : BitVec 10) (x : BitVec 6) : field (c ++ x : BitVec 16) 0 6 = x :=
  (extract_append_low c x 0 6 (by decide)).trans (extract_all x)

theorem field_above_9 (c : BitVec 7) (x : BitVec 9) (lo k : Nat) (h : 9 ≤ lo) : field
    (c ++ x : BitVec 16) lo k = c.extractLsb' (lo - 9) k :=
  extract_append_high c x lo k h

theorem field_above_12 (c : BitVec 4) (x : BitVec 12) (lo k : Nat) (h : 12 ≤ lo) : field
    (c ++ x : BitVec 16) lo k = c.extractLsb' (lo - 12) k :=
  extract_append_high c x lo k h

theorem regOf_word (c : BitVec 7) (r : Reg) (x : BitVec 6) : regOf (c ++ (Reg.toBits r ++ x) : BitVec 16) = r := by
  unfold regOf field
  have : (c ++ (Reg.toBits r ++ x)).extractLsb' 6 3 = Reg.toBits r := by
    rw [extract_append_low _ _ _ _ (by decide), extract_append_high _ _ _ _ (by decide)]; exact extract_all _
  show Reg.ofBits ((c ++ (Reg.toBits r ++ x)).extractLsb' 6 3) = r
  rw [this]; rfl

theorem dstOf_word_reg (c : BitVec 7) (y : BitVec 3) (o : Operand) : dstOf (c ++ (y ++ o.toBits) : BitVec 16) = o := by
  have h1 := (extract_append_low c (y ++ o.toBits) 3 3 (by decide)).trans (extract_append_low y o.toBits 3 3 (by decide))
  have h0 := (extract_append_low c (y ++ o.toBits) 0 3 (by decide)).trans (extract_append_low y o.toBits 0 3 (by decide))
  have := Operand.bits o
  show (⟨AddrMode.ofBits ((c ++ (y ++ o.toBits)).extractLsb' 3 3), Reg.ofBits ((c ++
      (y ++ o.toBits)).extractLsb' 0 3)⟩ : Operand) = o
  rw [h1, h0, this.1, this.2]

theorem field_low_6_reg (c : BitVec 7) (y : BitVec 3) (x : BitVec 6) : field (c ++ (y ++ x) : BitVec 16) 0 6 = x :=
  (extract_append_low c (y ++ x) 0 6 (by decide)).trans ((extract_append_low y x 0 6 (by decide)).trans (extract_all x))

theorem dstOf_word_double (c : BitVec 4) (y : BitVec 6) (o : Operand) : dstOf (c ++ (y ++ o.toBits) : BitVec 16) = o := by
  have h1 := (extract_append_low c (y ++ o.toBits) 3 3 (by decide)).trans (extract_append_low y o.toBits 3 3 (by decide))
  have h0 := (extract_append_low c (y ++ o.toBits) 0 3 (by decide)).trans (extract_append_low y o.toBits 0 3 (by decide))
  have := Operand.bits o
  show (⟨AddrMode.ofBits ((c ++ (y ++ o.toBits)).extractLsb' 3 3), Reg.ofBits ((c ++
      (y ++ o.toBits)).extractLsb' 0 3)⟩ : Operand) = o
  rw [h1, h0, this.1, this.2]

theorem srcOf_word_double (c : BitVec 4) (o : Operand) (y : BitVec 6) : srcOf (c ++ (o.toBits ++ y) : BitVec 16) = o := by
  have h1 := (extract_append_low c (o.toBits ++ y) 9 3 (by decide)).trans (extract_append_high o.toBits y 9 3 (by decide))
  have h0 := (extract_append_low c (o.toBits ++ y) 6 3 (by decide)).trans (extract_append_high o.toBits y 6 3 (by decide))
  have := Operand.bits o
  show (⟨AddrMode.ofBits ((c ++ (o.toBits ++ y)).extractLsb' 9 3), Reg.ofBits ((c ++
      (o.toBits ++ y)).extractLsb' 6 3)⟩ : Operand) = o
  rw [h1, h0, this.1, this.2]

end Sys2Proof
end

