-- ==== Sys2Proof/Laws/Exec.lean ====
section
/-! SUPPORT. exec runs the pseudocode of its instruction: the bridge between the dispatch and the pseudocode table, and the three ways a
pseudocode can end. -/

namespace Sys2Proof.Machine

/-- exec is the run of the instruction's pseudocode (40_addressing_modes.md R150, R152). -/
theorem exec_eq_runBody (i : Instr) (s : State) : exec i s = runBody (bodyOf i) s := by
  cases i <;> rfl

/-- An instruction whose pseudocode ends answers the state it leaves. -/
theorem exec_of_ok {i : Instr} {s t : State} (h : bodyOf i s = .ok () t) : exec i s = .next t := by
  rw [exec_eq_runBody, runBody, h]

/-- An instruction that raises a trap takes it, from the state the raise left (R154, 70_reset_and_hazards.md R388). -/
theorem exec_of_trap {i : Instr} {s t : State} {vec : Word} (h : bodyOf i s = .error (.trap vec) t) :
    exec i s = takeTrap vec t := by
  rw [exec_eq_runBody, runBody, h]

/-- An instruction that raises a fatal condition stops. -/
theorem exec_of_fatal {i : Instr} {s t : State} {r : FatalReason} (h : bodyOf i s = .error (.fatal r) t) :
    exec i s = stopFatal r t := by
  rw [exec_eq_runBody, runBody, h]

end Sys2Proof.Machine
end

