-- ==== Sys2Proof/Laws/Keeps.lean ====
section
/-! SUPPORT. What every shared operation keeps, one lemma for each: the canonical form of memory, the interrupt table, the configuration,
SR2, the coming requests and RUN. -/

namespace Sys2Proof.Machine

/-- What the operations of an instruction keep: memory stays canonical, and the interrupt table, the configuration, SR2, the coming
requests and RUN are as they were. -/
structure CoreKept (s t : State) : Prop where
  mem : s.cfg.ioBase % 2 = 0 → Memory.wf s.cfg.ioBase s.mem = true → Memory.wf s.cfg.ioBase t.mem = true
  itab : t.itab = s.itab
  cfg : t.cfg = s.cfg
  sr2 : t.sr2 = s.sr2
  arrivals : t.arrivals = s.arrivals
  run : t.run = s.run

theorem CoreKept.quiet {s0 s t : State} (h : CoreKept s0 s) (q : Quiet s t) : CoreKept s0 t :=
  ⟨fun e w => by rw [q.mem]; exact h.mem e w, q.itab.trans h.itab, q.cfg.trans h.cfg, q.sr2.trans h.sr2,
      q.arrivals.trans h.arrivals, q.run.trans h.run⟩

theorem CoreKept.upd {s0 s t : State} (h : CoreKept s0 s) (hm : t.mem = s.mem) (h1 : t.itab = s.itab)
    (h2 : t.cfg = s.cfg)
  (h3 : t.sr2 = s.sr2) (h4 : t.arrivals = s.arrivals) (h5 : t.run = s.run) : CoreKept s0 t :=
  ⟨fun e w => by rw [hm]; exact h.mem e w, h1.trans h.itab, h2.trans h.cfg, h3.trans h.sr2, h4.trans h.arrivals,
      h5.trans h.run⟩

theorem kept_physRead (s0) (pa) : Keeps (CoreKept s0) (physRead pa) := by
  intro s hs; constructor
  · intro a t h; exact hs.quiet (physRead_ok h).1
  · intro e t h; rw [(physRead_error h).2]; exact hs

theorem kept_physWrite (s0) (pa w) : Keeps (CoreKept s0) (physWrite pa w) := by
  intro s hs; constructor
  · intro a t h
    obtain ⟨he, ⟨hlt, rfl⟩ | ⟨hge, r, hr, rfl⟩ | ⟨hge, hn, d, _, rfl⟩⟩ := physWrite_ok h
    · exact ⟨fun e w' => Memory.wf_writeWord _ (hs.mem e w') (by
        rw [hs.cfg] at hlt; exact even_below_ioBase e he hlt), hs.itab, hs.cfg, hs.sr2,
        hs.arrivals, hs.run⟩
    · obtain ⟨a,b,c,d,e,f⟩ := s.writeCore_frame r w
      exact hs.upd a c e b f d
    · exact hs.upd rfl rfl rfl rfl rfl rfl
  · intro e t h; rw [(physWrite_error h).2]; exact hs

theorem kept_translate (s0) (va m wr) : Keeps (CoreKept s0) (translate va m wr) := by
  intro s hs; constructor
  · intro a t h
    rw [(translate_ok_iff.mp h).2]; unfold State.marked; split
    · exact hs.upd rfl rfl rfl rfl rfl rfl
    · exact hs
  · intro e t h; obtain ⟨_, v, rfl⟩ := translate_error h; exact hs.upd rfl rfl rfl rfl rfl rfl

theorem kept_memReadAs (s0 m va sz) : Keeps (CoreKept s0) (memReadAs m va sz) := by
  refine .bind (kept_translate _ _ _ _) fun pa => ?_
  cases sz
  · exact .bind (kept_physRead _ _) fun _ => .pure _
  · exact kept_physRead _ _

theorem kept_memWriteAs (s0 m va sz v) : Keeps (CoreKept s0) (memWriteAs m va sz v) := by
  refine .bind (kept_translate _ _ _ _) fun pa => ?_
  cases sz
  · exact .bind (kept_physRead _ _) fun _ => kept_physWrite _ _ _
  · exact kept_physWrite _ _ _

theorem kept_memRead (s0 va sz) : Keeps (CoreKept s0) (memRead va sz) := fun s => kept_memReadAs s0 s.cm va sz s

theorem kept_memWrite (s0 va sz v) : Keeps (CoreKept s0) (memWrite va sz v) := fun s => kept_memWriteAs s0 s.cm va sz v s

theorem kept_getReg (s0 n) : Keeps (CoreKept s0) (getReg n) := .ofUpdate (g := fun s => s.reg n) (f :=
    id) (fun _ => rfl) fun _ h => h

theorem kept_putReg (s0 n v) : Keeps (CoreKept s0) (putReg n v) := .ofUpdate (g := fun _ => ()) (f :=
    fun s => s.setReg n v) (fun _ => rfl) fun _ h => h.upd rfl rfl rfl rfl rfl rfl

theorem kept_getCC (s0) : Keeps (CoreKept s0) getCC := .ofUpdate (g := State.cc) (f := id) (fun _ => rfl) fun _ h => h

theorem kept_putCC (s0 f) : Keeps (CoreKept s0) (putCC f) := .ofUpdate (g := fun _ => ()) (f :=
    fun s => s.setCC f) (fun _ => rfl) fun _ h => h.upd rfl rfl rfl rfl rfl rfl

theorem kept_putPsw (s0 v) : Keeps (CoreKept s0) (putPsw v) := .ofUpdate (g := fun _ => ()) (f :=
    fun s => s.setPsw v) (fun _ => rfl) fun _ h => h.upd rfl rfl rfl rfl rfl rfl

theorem kept_push (s0 v) : Keeps (CoreKept s0) (push v) := .bind (kept_getReg _ _) fun _ =>
    .bind (kept_putReg _ _ _) fun _ => kept_memWrite _ _ _ _

theorem kept_setSpOf {s0 s : State} (h : CoreKept s0 s) (m v) : CoreKept s0 (s.setSpOf m v) := by
  unfold State.setSpOf; split <;> exact h.upd rfl rfl rfl rfl rfl rfl

theorem kept_pushKernel (s0 v) : Keeps (CoreKept s0) (pushKernel v) := fun s h =>
  kept_memWriteAs s0 0#2 (s.spOf 0#2 - 2) .word v _ (kept_setSpOf h _ _)

theorem kept_pop (s0) : Keeps (CoreKept s0) pop := .bind (kept_getReg _ _) fun _ => .bind (kept_memRead _ _ _) fun _ =>
    .bind (kept_putReg _ _ _) fun _ => .pure _

theorem kept_raiseTrap (s0) {α} (v) : Keeps (CoreKept s0) (raiseTrap v : Exec α) := .ofRaise (e := fun _ => .trap v) fun _ => rfl

theorem kept_raiseAt (s0) {α} (v) : Keeps (CoreKept s0) (raiseAt v : Exec α) :=
  .ofRaise (e := fun s => .trap (v s.cfg)) fun _ => rfl

theorem kept_raiseFatal (s0) {α} (v) : Keeps (CoreKept s0) (raiseFatal v : Exec α) := .ofRaise (e := fun _ => .fatal v) fun _ => rfl

theorem kept_trapSequence (s0 v) : Keeps (CoreKept s0) (trapSequence v) :=
  .bind (.ofUpdate (x := getPsw) (g := fun s => s.psw) (f := id) (fun _ => rfl) fun _ h => h) fun _ =>
  .bind (kept_getReg _ _) fun _ => .bind (kept_putPsw _ _) fun _ => .bind (kept_pushKernel _ _) fun _ =>
  .bind (kept_pushKernel _ _) fun _ => .bind (kept_memReadAs _ _ _ _) fun _ => .bind (kept_memReadAs _ _ _ _) fun _ =>
  .bind (kept_putReg _ _ _) fun _ => kept_putPsw _ _

theorem kept_trapAt (s0 v) : Keeps (CoreKept s0) (trapAt v) := by
  intro s hs
  have hk := kept_trapSequence s0 v s hs
  unfold trapAt
  split
  · exact kept_raiseFatal s0 _ s hs
  · unfold doubleFaultOnTrap
    split
    · next a t h => exact ⟨fun b u e => by cases e; exact hk.1 _ _ h, fun e u e' => by cases e'⟩
    · next a t h => exact ⟨fun b u e => (by cases e), fun e u e' => (by cases e'; exact hk.2 _ _ h)⟩
    · next a t h => exact ⟨fun b u e => (by cases e), fun e u e' => (by cases e'; exact hk.2 _ _ h)⟩

theorem kept_indexedAddr (s0 r) : Keeps (CoreKept s0) (indexedAddr r) := .bind (.bind (kept_getReg _ _) fun _ =>
    .bind (kept_memRead _ _ _) fun _ => .bind (kept_putReg _ _ _) fun _ => .pure _) fun _ =>
    .bind (kept_getReg _ _) fun _ => .pure _

theorem kept_resolve (s0 o sz) : Keeps (CoreKept s0) (resolve o sz) := by
  obtain ⟨mode, r⟩ := o
  cases mode with
  | register => exact .pure _
  | regDeferred => exact .bind (kept_getReg _ _) fun _ => .pure _
  | autoInc => exact .bind (.bind (kept_getReg _ _) fun _ => .bind (kept_putReg _ _ _) fun _ => .pure _) fun _ => .pure _
  | autoIncDeferred =>
    exact .bind (.bind (kept_getReg _ _) fun _ => .bind (kept_putReg _ _ _) fun _ => .pure _) fun _ =>
        .bind (kept_memRead _ _ _) fun _ => .pure _
  | autoDec => exact .bind (.bind (kept_getReg _ _) fun _ => .bind (kept_putReg _ _ _) fun _ => .pure _) fun _ => .pure _
  | autoDecDeferred =>
    exact .bind (.bind (kept_getReg _ _) fun _ => .bind (kept_putReg _ _ _) fun _ => .pure _) fun _ =>
        .bind (kept_memRead _ _ _) fun _ => .pure _
  | indexed => exact .bind (kept_indexedAddr _ _) fun _ => .pure _
  | indexedDeferred => exact .bind (kept_indexedAddr _ _) fun _ => .bind (kept_memRead _ _ _) fun _ => .pure _

theorem kept_readLoc (s0 l sz) : Keeps (CoreKept s0) (readLoc l sz) := by
  cases l
  · exact .bind (kept_getReg _ _) fun _ => .pure _
  · exact kept_memRead _ _ _

theorem kept_writeLoc (s0 l sz v) : Keeps (CoreKept s0) (writeLoc l sz v) := by
  cases l with
  | reg n => cases sz
             · exact .bind (kept_getReg _ _) fun _ => kept_putReg _ _ _
             · exact kept_putReg _ _ _
  | mem a => cases sz <;> exact kept_memWrite _ _ _ _

theorem kept_memLoc (s0 l) : Keeps (CoreKept s0) (memLoc l) := by
  cases l
  · exact kept_raiseFatal _ _
  · exact .pure _

theorem kept_sourceValue (s0 o sz) : Keeps (CoreKept s0) (sourceValue o sz) := .bind (kept_resolve _ _ _) fun _ =>
    kept_readLoc _ _ _

theorem kept_sourceAndDest (s0 a b sz) : Keeps (CoreKept s0) (sourceAndDest a b sz) :=
    .bind (kept_sourceValue _ _ _) fun _ => .bind (kept_resolve _ _ _) fun _ => .pure _

theorem kept_sourceAndOld (s0 a b sz) : Keeps (CoreKept s0) (sourceAndOld a b sz) := .bind (kept_sourceValue _ _ _) fun _ =>
    .bind (kept_resolve _ _ _) fun _ => .bind (kept_readLoc _ _ _) fun _ => .pure _

theorem kept_destAndOld (s0 b sz) : Keeps (CoreKept s0) (destAndOld b sz) := .bind (kept_resolve _ _ _) fun _ =>
    .bind (kept_readLoc _ _ _) fun _ => .pure _

theorem kept_finishWith (s0 l sz o) : Keeps (CoreKept s0) (finishWith l sz o) := .bind (kept_putCC _ _) fun _ =>
    kept_writeLoc _ _ _ _

theorem kept_modifyDouble (s0 sz op a b) : Keeps (CoreKept s0) (modifyDouble sz op a b) :=
    .bind (kept_sourceAndOld _ _ _ _) fun _ => .bind (kept_getCC _) fun _ => kept_finishWith _ _ _ _

theorem kept_testDouble (s0 sz op a b) : Keeps (CoreKept s0) (testDouble sz op a b) :=
    .bind (kept_sourceAndOld _ _ _ _) fun _ => .bind (kept_getCC _) fun _ => kept_putCC _ _

theorem kept_modifySingle (s0 sz op b) : Keeps (CoreKept s0) (modifySingle sz op b) := .bind (kept_destAndOld _ _ _) fun _ =>
    .bind (kept_getCC _) fun _ => kept_finishWith _ _ _ _

theorem kept_setSingle (s0 sz op b) : Keeps (CoreKept s0) (setSingle sz op b) := .bind (kept_resolve _ _ _) fun _ =>
    .bind (kept_getCC _) fun _ => kept_finishWith _ _ _ _

theorem kept_testSingle (s0 sz op b) : Keeps (CoreKept s0) (testSingle sz op b) := .bind (kept_destAndOld _ _ _) fun _ =>
    kept_putCC _ _

theorem kept_branchIf (s0 c o) : Keeps (CoreKept s0) (branchIf c o) := by
  refine .bind (kept_getCC _) fun f => ?_
  split
  · exact .bind (kept_getReg _ _) fun _ => kept_putReg _ _ _
  · exact .pure _

theorem kept_ifKernel (s0) {a b} (ha : Keeps (CoreKept s0) a) (hb : Keeps (CoreKept s0) b) :
    Keeps (CoreKept s0) (ifKernel a b) := by
  intro s hs; unfold ifKernel; split
  · exact ha s hs
  · exact hb s hs

theorem kept_returnFromTrap (s0) : Keeps (CoreKept s0) returnFromTrap := .bind (kept_pop _) fun _ =>
    .bind (kept_pop _) fun _ => .bind (kept_putReg _ _ _) fun _ => .bind (.ofUpdate (x := getPsw) (g := fun s => s.psw) (f :=
    id) (fun _ => rfl) fun _ h => h) fun _ => kept_putPsw _ _

theorem kept_previousValue (s0 src) : Keeps (CoreKept s0) (previousValue src) := by
  unfold previousValue; split
  · by_cases hsp : src.reg = SP
    · rw [if_pos hsp]; exact .ofUpdate (x := getPreviousSp) (g := fun s => s.spOf s.pm) (f := id) (fun _ => rfl) fun _ h => h
    · rw [if_neg hsp]; exact kept_raiseFatal _ _
  · exact .bind (kept_resolve _ _ _) fun _ => .bind (kept_memLoc _ _) fun _ => fun s hs => kept_memReadAs _ _ _ _ s hs

theorem kept_putMoveFlags (s0 v) : Keeps (CoreKept s0) (putMoveFlags v) := .bind (kept_getCC _) fun _ => kept_putCC _ _

theorem kept_getPair (s0 r) : Keeps (CoreKept s0) (getPair r) := .bind (kept_getReg _ _) fun _ =>
    .bind (kept_getReg _ _) fun _ => .pure _

theorem kept_putPair (s0 r a b) : Keeps (CoreKept s0) (putPair r a b) := .bind (kept_putReg _ _ _) fun _ => kept_putReg _ _ _

theorem CoreKept.refl (s : State) : CoreKept s s := ⟨fun _ w => w, rfl, rfl, rfl, rfl, rfl⟩

/-- A trap taken keeps memory canonical and leaves the controller and the platform's data of later cycles alone
(60_exceptions.md R322). -/
theorem takeTrap_kept {vec : Word} {s t : State} (h : takeTrap vec s = .next t) : CoreKept s t := by
  unfold takeTrap at h
  split at h
  · next a u hu => cases h; exact (kept_trapAt s vec s (CoreKept.refl s)).1 _ _ hu
  · cases h
  · cases h

end Sys2Proof.Machine
end

