-- ==== Sys2Proof/Laws/PerInstr.lean ====
section
/-! SUPPORT. For each instruction, that its word carries the fixed bits of its row of spec/opcode_table.json (30_encoding.md R126):
under the row's mask it is the row's match. -/

namespace Sys2Proof.Laws.OpcodeBits

/-- The row's `mask`. -/
def mask : Instr → Word
  | .halt => 0o177777#16
  | .wait => 0o177777#16
  | .rti => 0o177777#16
  | .bpt => 0o177777#16
  | .iot => 0o177777#16
  | .reset => 0o177777#16
  | .rtt => 0o177777#16
  | .jmp _ => 0o177700#16
  | .rts _ => 0o177770#16
  | .spl _ => 0o177770#16
  | .ccClear _ => 0o177760#16
  | .ccSet _ => 0o177760#16
  | .swab _ => 0o177700#16
  | .br _ => 0o177400#16
  | .bne _ => 0o177400#16
  | .beq _ => 0o177400#16
  | .bge _ => 0o177400#16
  | .blt _ => 0o177400#16
  | .bgt _ => 0o177400#16
  | .ble _ => 0o177400#16
  | .jsr _ _ => 0o177000#16
  | .clr _ => 0o177700#16
  | .clrb _ => 0o177700#16
  | .com _ => 0o177700#16
  | .comb _ => 0o177700#16
  | .inc _ => 0o177700#16
  | .incb _ => 0o177700#16
  | .dec _ => 0o177700#16
  | .decb _ => 0o177700#16
  | .neg _ => 0o177700#16
  | .negb _ => 0o177700#16
  | .adc _ => 0o177700#16
  | .adcb _ => 0o177700#16
  | .sbc _ => 0o177700#16
  | .sbcb _ => 0o177700#16
  | .tst _ => 0o177700#16
  | .tstb _ => 0o177700#16
  | .ror _ => 0o177700#16
  | .rorb _ => 0o177700#16
  | .rol _ => 0o177700#16
  | .rolb _ => 0o177700#16
  | .asr _ => 0o177700#16
  | .asrb _ => 0o177700#16
  | .asl _ => 0o177700#16
  | .aslb _ => 0o177700#16
  | .mark _ => 0o177700#16
  | .mfpi _ => 0o177700#16
  | .mtpi _ => 0o177700#16
  | .sxt _ => 0o177700#16
  | .mov _ _ => 0o170000#16
  | .movb _ _ => 0o170000#16
  | .cmp _ _ => 0o170000#16
  | .cmpb _ _ => 0o170000#16
  | .bit _ _ => 0o170000#16
  | .bitb _ _ => 0o170000#16
  | .bic _ _ => 0o170000#16
  | .bicb _ _ => 0o170000#16
  | .bis _ _ => 0o170000#16
  | .bisb _ _ => 0o170000#16
  | .add _ _ => 0o170000#16
  | .sub _ _ => 0o170000#16
  | .mul _ _ => 0o177000#16
  | .div _ _ => 0o177000#16
  | .ash _ _ => 0o177000#16
  | .ashc _ _ => 0o177000#16
  | .xor _ _ => 0o177000#16
  | .sob _ _ => 0o177000#16
  | .bpl _ => 0o177400#16
  | .bmi _ => 0o177400#16
  | .bhi _ => 0o177400#16
  | .blos _ => 0o177400#16
  | .bvc _ => 0o177400#16
  | .bvs _ => 0o177400#16
  | .bcc _ => 0o177400#16
  | .bcs _ => 0o177400#16
  | .emt _ => 0o177400#16
  | .trap _ => 0o177400#16

/-- The row's `match`. -/
def pattern : Instr → Word
  | .halt => 0o000000#16
  | .wait => 0o000001#16
  | .rti => 0o000002#16
  | .bpt => 0o000003#16
  | .iot => 0o000004#16
  | .reset => 0o000005#16
  | .rtt => 0o000006#16
  | .jmp _ => 0o000100#16
  | .rts _ => 0o000200#16
  | .spl _ => 0o000230#16
  | .ccClear _ => 0o000240#16
  | .ccSet _ => 0o000260#16
  | .swab _ => 0o000300#16
  | .br _ => 0o000400#16
  | .bne _ => 0o001000#16
  | .beq _ => 0o001400#16
  | .bge _ => 0o002000#16
  | .blt _ => 0o002400#16
  | .bgt _ => 0o003000#16
  | .ble _ => 0o003400#16
  | .jsr _ _ => 0o004000#16
  | .clr _ => 0o005000#16
  | .clrb _ => 0o105000#16
  | .com _ => 0o005100#16
  | .comb _ => 0o105100#16
  | .inc _ => 0o005200#16
  | .incb _ => 0o105200#16
  | .dec _ => 0o005300#16
  | .decb _ => 0o105300#16
  | .neg _ => 0o005400#16
  | .negb _ => 0o105400#16
  | .adc _ => 0o005500#16
  | .adcb _ => 0o105500#16
  | .sbc _ => 0o005600#16
  | .sbcb _ => 0o105600#16
  | .tst _ => 0o005700#16
  | .tstb _ => 0o105700#16
  | .ror _ => 0o006000#16
  | .rorb _ => 0o106000#16
  | .rol _ => 0o006100#16
  | .rolb _ => 0o106100#16
  | .asr _ => 0o006200#16
  | .asrb _ => 0o106200#16
  | .asl _ => 0o006300#16
  | .aslb _ => 0o106300#16
  | .mark _ => 0o006400#16
  | .mfpi _ => 0o006500#16
  | .mtpi _ => 0o006600#16
  | .sxt _ => 0o006700#16
  | .mov _ _ => 0o010000#16
  | .movb _ _ => 0o110000#16
  | .cmp _ _ => 0o020000#16
  | .cmpb _ _ => 0o120000#16
  | .bit _ _ => 0o030000#16
  | .bitb _ _ => 0o130000#16
  | .bic _ _ => 0o040000#16
  | .bicb _ _ => 0o140000#16
  | .bis _ _ => 0o050000#16
  | .bisb _ _ => 0o150000#16
  | .add _ _ => 0o060000#16
  | .sub _ _ => 0o160000#16
  | .mul _ _ => 0o070000#16
  | .div _ _ => 0o071000#16
  | .ash _ _ => 0o072000#16
  | .ashc _ _ => 0o073000#16
  | .xor _ _ => 0o074000#16
  | .sob _ _ => 0o077000#16
  | .bpl _ => 0o100000#16
  | .bmi _ => 0o100400#16
  | .bhi _ => 0o101000#16
  | .blos _ => 0o101400#16
  | .bvc _ => 0o102000#16
  | .bvs _ => 0o102400#16
  | .bcc _ => 0o103000#16
  | .bcs _ => 0o103400#16
  | .emt _ => 0o104000#16
  | .trap _ => 0o104400#16

/-- The word of the instruction, under its row's mask, is its row's match. -/
def Statement (i : Instr) : Prop := encode i &&& mask i = pattern i

/-- A mask of high bits keeps the high part of a word and clears the low part. -/
theorem keep_high {n m : Nat} (c : BitVec n) (x : BitVec m) :
    (c ++ x) &&& (BitVec.allOnes n ++ 0#m) = c ++ 0#m := by
  apply BitVec.eq_of_getLsbD_eq
  intro i hi
  rw [BitVec.getLsbD_and, BitVec.getLsbD_append, BitVec.getLsbD_append, BitVec.getLsbD_append]
  split
  · simp
  · simp [show i - m < n by omega]

theorem halt : Statement .halt := rfl
theorem wait : Statement .wait := rfl
theorem rti : Statement .rti := rfl
theorem bpt : Statement .bpt := rfl
theorem iot : Statement .iot := rfl
theorem reset : Statement .reset := rfl
theorem rtt : Statement .rtt := rfl
theorem jmp (dst : Operand) : Statement (.jmp dst) := keep_high (n := 10) (m := 6) _ _
theorem rts (reg : Reg) : Statement (.rts reg) := keep_high (n := 13) (m := 3) _ _
theorem spl (level : BitVec 3) : Statement (.spl level) := keep_high (n := 13) (m := 3) _ _
theorem ccClear (mask : BitVec 4) : Statement (.ccClear mask) := keep_high (n := 12) (m := 4) _ _
theorem ccSet (mask : BitVec 4) : Statement (.ccSet mask) := keep_high (n := 12) (m := 4) _ _
theorem swab (dst : Operand) : Statement (.swab dst) := keep_high (n := 10) (m := 6) _ _
theorem br (off : BitVec 8) : Statement (.br off) := keep_high (n := 8) (m := 8) _ _
theorem bne (off : BitVec 8) : Statement (.bne off) := keep_high (n := 8) (m := 8) _ _
theorem beq (off : BitVec 8) : Statement (.beq off) := keep_high (n := 8) (m := 8) _ _
theorem bge (off : BitVec 8) : Statement (.bge off) := keep_high (n := 8) (m := 8) _ _
theorem blt (off : BitVec 8) : Statement (.blt off) := keep_high (n := 8) (m := 8) _ _
theorem bgt (off : BitVec 8) : Statement (.bgt off) := keep_high (n := 8) (m := 8) _ _
theorem ble (off : BitVec 8) : Statement (.ble off) := keep_high (n := 8) (m := 8) _ _
theorem jsr (reg : Reg) (dst : Operand) : Statement (.jsr reg dst) := keep_high (n := 7) (m := 9) _ _
theorem clr (dst : Operand) : Statement (.clr dst) := keep_high (n := 10) (m := 6) _ _
theorem clrb (dst : Operand) : Statement (.clrb dst) := keep_high (n := 10) (m := 6) _ _
theorem com (dst : Operand) : Statement (.com dst) := keep_high (n := 10) (m := 6) _ _
theorem comb (dst : Operand) : Statement (.comb dst) := keep_high (n := 10) (m := 6) _ _
theorem inc (dst : Operand) : Statement (.inc dst) := keep_high (n := 10) (m := 6) _ _
theorem incb (dst : Operand) : Statement (.incb dst) := keep_high (n := 10) (m := 6) _ _
theorem dec (dst : Operand) : Statement (.dec dst) := keep_high (n := 10) (m := 6) _ _
theorem decb (dst : Operand) : Statement (.decb dst) := keep_high (n := 10) (m := 6) _ _
theorem neg (dst : Operand) : Statement (.neg dst) := keep_high (n := 10) (m := 6) _ _
theorem negb (dst : Operand) : Statement (.negb dst) := keep_high (n := 10) (m := 6) _ _
theorem adc (dst : Operand) : Statement (.adc dst) := keep_high (n := 10) (m := 6) _ _
theorem adcb (dst : Operand) : Statement (.adcb dst) := keep_high (n := 10) (m := 6) _ _
theorem sbc (dst : Operand) : Statement (.sbc dst) := keep_high (n := 10) (m := 6) _ _
theorem sbcb (dst : Operand) : Statement (.sbcb dst) := keep_high (n := 10) (m := 6) _ _
theorem tst (dst : Operand) : Statement (.tst dst) := keep_high (n := 10) (m := 6) _ _
theorem tstb (dst : Operand) : Statement (.tstb dst) := keep_high (n := 10) (m := 6) _ _
theorem ror (dst : Operand) : Statement (.ror dst) := keep_high (n := 10) (m := 6) _ _
theorem rorb (dst : Operand) : Statement (.rorb dst) := keep_high (n := 10) (m := 6) _ _
theorem rol (dst : Operand) : Statement (.rol dst) := keep_high (n := 10) (m := 6) _ _
theorem rolb (dst : Operand) : Statement (.rolb dst) := keep_high (n := 10) (m := 6) _ _
theorem asr (dst : Operand) : Statement (.asr dst) := keep_high (n := 10) (m := 6) _ _
theorem asrb (dst : Operand) : Statement (.asrb dst) := keep_high (n := 10) (m := 6) _ _
theorem asl (dst : Operand) : Statement (.asl dst) := keep_high (n := 10) (m := 6) _ _
theorem aslb (dst : Operand) : Statement (.aslb dst) := keep_high (n := 10) (m := 6) _ _
theorem mark (nn : BitVec 6) : Statement (.mark nn) := keep_high (n := 10) (m := 6) _ _
theorem mfpi (src : Operand) : Statement (.mfpi src) := keep_high (n := 10) (m := 6) _ _
theorem mtpi (dst : Operand) : Statement (.mtpi dst) := keep_high (n := 10) (m := 6) _ _
theorem sxt (dst : Operand) : Statement (.sxt dst) := keep_high (n := 10) (m := 6) _ _
theorem mov (src : Operand) (dst : Operand) : Statement (.mov src dst) := keep_high (n := 4) (m := 12) _ _
theorem movb (src : Operand) (dst : Operand) : Statement (.movb src dst) := keep_high (n := 4) (m := 12) _ _
theorem cmp (src : Operand) (dst : Operand) : Statement (.cmp src dst) := keep_high (n := 4) (m := 12) _ _
theorem cmpb (src : Operand) (dst : Operand) : Statement (.cmpb src dst) := keep_high (n := 4) (m := 12) _ _
theorem bit (src : Operand) (dst : Operand) : Statement (.bit src dst) := keep_high (n := 4) (m := 12) _ _
theorem bitb (src : Operand) (dst : Operand) : Statement (.bitb src dst) := keep_high (n := 4) (m := 12) _ _
theorem bic (src : Operand) (dst : Operand) : Statement (.bic src dst) := keep_high (n := 4) (m := 12) _ _
theorem bicb (src : Operand) (dst : Operand) : Statement (.bicb src dst) := keep_high (n := 4) (m := 12) _ _
theorem bis (src : Operand) (dst : Operand) : Statement (.bis src dst) := keep_high (n := 4) (m := 12) _ _
theorem bisb (src : Operand) (dst : Operand) : Statement (.bisb src dst) := keep_high (n := 4) (m := 12) _ _
theorem add (src : Operand) (dst : Operand) : Statement (.add src dst) := keep_high (n := 4) (m := 12) _ _
theorem sub (src : Operand) (dst : Operand) : Statement (.sub src dst) := keep_high (n := 4) (m := 12) _ _
theorem mul (reg : Reg) (src : Operand) : Statement (.mul reg src) := keep_high (n := 7) (m := 9) _ _
theorem div (reg : Reg) (src : Operand) : Statement (.div reg src) := keep_high (n := 7) (m := 9) _ _
theorem ash (reg : Reg) (src : Operand) : Statement (.ash reg src) := keep_high (n := 7) (m := 9) _ _
theorem ashc (reg : Reg) (src : Operand) : Statement (.ashc reg src) := keep_high (n := 7) (m := 9) _ _
theorem xor (reg : Reg) (dst : Operand) : Statement (.xor reg dst) := keep_high (n := 7) (m := 9) _ _
theorem sob (reg : Reg) (nn : BitVec 6) : Statement (.sob reg nn) := keep_high (n := 7) (m := 9) _ _
theorem bpl (off : BitVec 8) : Statement (.bpl off) := keep_high (n := 8) (m := 8) _ _
theorem bmi (off : BitVec 8) : Statement (.bmi off) := keep_high (n := 8) (m := 8) _ _
theorem bhi (off : BitVec 8) : Statement (.bhi off) := keep_high (n := 8) (m := 8) _ _
theorem blos (off : BitVec 8) : Statement (.blos off) := keep_high (n := 8) (m := 8) _ _
theorem bvc (off : BitVec 8) : Statement (.bvc off) := keep_high (n := 8) (m := 8) _ _
theorem bvs (off : BitVec 8) : Statement (.bvs off) := keep_high (n := 8) (m := 8) _ _
theorem bcc (off : BitVec 8) : Statement (.bcc off) := keep_high (n := 8) (m := 8) _ _
theorem bcs (off : BitVec 8) : Statement (.bcs off) := keep_high (n := 8) (m := 8) _ _
theorem emt (code : BitVec 8) : Statement (.emt code) := keep_high (n := 8) (m := 8) _ _
theorem trap (code : BitVec 8) : Statement (.trap code) := keep_high (n := 8) (m := 8) _ _

end Sys2Proof.Laws.OpcodeBits
end

