-- ==== Sys2Proof/Laws/Trap.lean ====
section
/-! SUPPORT. The PSW words of the trap sequence and of the return, what a trap taken says of its sequence,
and the order of the interrupt table's entries. -/

namespace Sys2Proof.Machine

/-- The PSW of the trap sequence has the kernel mode (60_exceptions.md R322). -/
theorem cm_kernelPsw (w : Word) : (kernelPsw w).extractLsb' 14 2 = 0#2 := by
  unfold kernelPsw
  apply BitVec.eq_of_getLsbD_eq; intro i hi
  rw [BitVec.getLsbD_extractLsb']
  have : (0#2 ++ (w.extractLsb' 14 2 ++ w.extractLsb' 0 12) : BitVec 16).getLsbD (14+i) = false := by
    refine (BitVec.getLsbD_append (x := 0#2) (y := (w.extractLsb' 14 2 ++ w.extractLsb' 0 12)) (i := 14+i)).trans ?_
    rw [if_neg (by omega)]; simp
  rw [this]; simp

/-- The PSW a trap ends with: bits 15:14 and 11:0 of the vector's word, bits 13:12 the old mode (R322, R324). -/
theorem vectorPsw_bits (n o : Word) : (vectorPsw n o).extractLsb' 14 2 = n.extractLsb' 14 2 ∧
    (vectorPsw n o).extractLsb' 12 2 = o.extractLsb' 14 2 ∧ (vectorPsw n o).extractLsb' 0 12 = n.extractLsb' 0 12 := by
  have key : ∀ i, (vectorPsw n o).getLsbD i = if i < 12 then n.getLsbD i else if i < 14 then o.getLsbD
      (i+2) else if i < 16 then n.getLsbD i else false := by
    intro i
    unfold vectorPsw
    refine (BitVec.getLsbD_append (x := n.extractLsb' 14 2) (y := (o.extractLsb' 14 2 ++ n.extractLsb' 0 12)) (i := i)).trans ?_
    by_cases h : i < 14
    · rw [if_pos (by omega)]
      refine (BitVec.getLsbD_append (x := o.extractLsb' 14 2) (y := n.extractLsb' 0 12) (i := i)).trans ?_
      by_cases h2 : i < 12
      · rw [if_pos h2, if_pos h2]; simp [h2]
      · rw [if_neg h2, if_neg h2, if_pos h]; simp [show i - 12 < 2 by omega, show 14 + (i-12) = i + 2 by omega]
    · rw [if_neg (by omega), if_neg (by omega), if_neg h]
      simp only [BitVec.getLsbD_extractLsb']
      split
      · next h3 => simp [show i - 14 < 2 by omega, show 14 + (i-14) = i by omega]
      · next h3 => simp [show ¬ i - 14 < 2 by omega]
  refine ⟨?_, ?_, ?_⟩ <;> (apply BitVec.eq_of_getLsbD_eq; intro i hi; rw [BitVec.getLsbD_extractLsb',
      BitVec.getLsbD_extractLsb', key])
  · rw [if_neg (by omega), if_neg (by omega), if_pos (by omega)]
  · rw [if_neg (by omega), if_pos (by omega), show 12 + i + 2 = 14 + i by omega]
  · rw [if_pos (by omega)]

/-- A trap taken: its vector is even and its sequence ended (R322, R326). -/
theorem takeTrap_next {vec : Word} {s t : State} (h : takeTrap vec s = .next t) : vec.getLsbD 0 = false ∧
    trapSequence vec s = .ok () t := by
  unfold takeTrap trapAt at h
  by_cases hv : vec.getLsbD 0 = true
  · rw [if_pos hv] at h; cases h
  · rw [if_neg hv] at h
    refine ⟨by simpa using hv, ?_⟩
    unfold doubleFaultOnTrap at h
    cases hs : trapSequence vec s with
    | ok a u => rw [hs] at h; cases h; rfl
    | error e u => rw [hs] at h; cases e <;> cases h

/-- Translation keeps the alignment of an address (20_memory.md R91, R97). -/
theorem State.mapped_mod_two {s : State} (hc : s.cfg.wf = true) {m va wr pa} (h : s.mapped m va wr = some pa) :
    pa % 2 = va.toNat % 2 := by
  obtain ⟨h1, h2⟩ := Config.wf_alignment hc
  have key : ∀ n : Nat, n % 2 ^ s.cfg.paWidth % 2 = n % 2 := fun n => Nat.mod_mod_of_dvd n (Nat.dvd_of_mod_eq_zero h2)
  unfold State.mapped at h
  split at h
  · split at h
    · cases h
    · cases h
      have low : (va.extractLsb' 0 6).toNat = va.toNat % 64 := by simp
      unfold relocate
      rw [key, low]
      omega
  · cases h
    unfold mapDirect
    split
    · rw [key]; omega
    · rfl

/-- The PSW a return loads outside kernel mode, by masks (45_trap_system.md R287). -/
theorem userReturnPsw_eq (p n : Word) : userReturnPsw p n = (p &&& 0o177740#16) ||| (n &&& 0o000037#16) := by
  unfold userReturnPsw
  apply BitVec.eq_of_getLsbD_eq; intro i hi
  rw [BitVec.getLsbD_or, BitVec.getLsbD_and, BitVec.getLsbD_and]
  refine (BitVec.getLsbD_append (x := p.extractLsb' 5 11) (y := n.extractLsb' 0 5) (i := i)).trans ?_
  have t1 : ∀ i < 16, (0o177740#16).getLsbD i = !decide (i < 5) := by decide
  have t2 : ∀ i < 16, (0o000037#16).getLsbD i = decide (i < 5) := by decide
  rw [t1 i hi, t2 i hi]
  split
  · next h => simp [h]
  · next h => simp [h, show i - 5 < 11 by omega, show 5 + (i - 5) = i by omega]

/-- The order of the interrupt table is transitive (60_exceptions.md R330). -/
theorem outranks_trans {a b c : IrqRequest} (h1 : outranks a b = true) (h2 : outranks b c = true) : outranks a c = true := by
  simp only [outranks, Bool.or_eq_true, Bool.and_eq_true, decide_eq_true_eq] at *
  rcases h1 with h1 | ⟨h1, h1'⟩ <;> rcases h2 with h2 | ⟨h2, h2'⟩
  · left; omega
  · left; rw [← h2]; exact h1
  · left; rw [h1]; exact h2
  · right; exact ⟨h1.trans h2, by omega⟩

/-- It is total: of two requests one may stand before the other (R330). -/
theorem outranks_total {a b : IrqRequest} (h : ¬ outranks a b = true) : outranks b a = true := by
  simp only [outranks, Bool.or_eq_true, Bool.and_eq_true, decide_eq_true_eq, not_or, not_and] at *
  by_cases hp : a.priority = b.priority
  · right; exact ⟨hp.symm, by have := h.2 hp; omega⟩
  · left
    have : a.priority.toNat ≠ b.priority.toNat := fun e => hp (BitVec.eq_of_toNat_eq e)
    omega

/-- An insertion adds the request and nothing else (R330). -/
theorem mem_insertIrq {q e : IrqRequest} {t} (h : e ∈ insertIrq q t) : e = q ∨ e ∈ t := by
  induction t with
  | nil => simpa [insertIrq] using h
  | cons a t ih =>
    simp only [insertIrq] at h
    split at h
    · rcases List.mem_cons.mp h with h | h
      · right; simp [h]
      · rcases ih h with h | h <;> simp [h]
    · rcases List.mem_cons.mp h with h | h <;> simp_all

/-- An insertion adds one entry (R330). -/
theorem length_insertIrq (q : IrqRequest) (t) : (insertIrq q t).length = t.length + 1 := by
  induction t with
  | nil => rfl
  | cons a t ih => simp only [insertIrq]; split <;> simp [ih]

end Sys2Proof.Machine
end

