-- ==== Sys2Proof/Tests/Slice0.lean ====
section
/-! SUPPORT. The model's own tests, each about one step or one word on a small state. The expected words come from the encodings of
30_encoding.md R126, the expected results from the examples of files 20 and 41 to 45 and the vectors of 95_test_vectors.md. -/

namespace Sys2Proof.Tests

open Sys2Proof Sys2Proof.Machine

/-! ### Well-formedness: one ill-formed term for each check -/

theorem test_wf_jmp_register : Instr.wf (.jmp ⟨.register, 1⟩) = false := by decide

theorem test_wf_jsr_register : Instr.wf (.jsr 7 ⟨.register, 1⟩) = false := by decide

theorem test_wf_mfpi_register : Instr.wf (.mfpi ⟨.register, 0⟩) = false ∧ Instr.wf (.mfpi ⟨.register, 6⟩) = true := by decide

theorem test_wf_mtpi_register : Instr.wf (.mtpi ⟨.register, 7⟩) = false ∧ Instr.wf (.mtpi ⟨.regDeferred, 7⟩) = true := by decide

/-- A range below the I/O page, an empty range, one beyond the address space, and one that covers the PSW (20_memory.md R67). -/
theorem test_wf_range : Config.default.rangeWf ⟨0o757776, 0o760001, 0⟩ = false ∧ Config.default.rangeWf ⟨0o777566, 0o777560, 0⟩ = false ∧
    Config.default.rangeWf ⟨0o777777, 0o1000001, 0⟩ = false ∧ Config.default.rangeWf ⟨0o777770, 0o777777, 0⟩ = false ∧
    Config.default.rangeWf ⟨0o777560, 0o777567, 0⟩ = true := by decide

theorem test_wf_ranges_overlap :
    DeviceRange.disjoint ⟨0o777560, 0o777567, 0⟩ ⟨0o777566, 0o777571, 1⟩ = false ∧
    Config.default.deviceRangesWf [⟨0o777560, 0o777567, 0⟩, ⟨0o777566, 0o777571, 1⟩] = false ∧
    Config.default.deviceRangesWf [⟨0o777560, 0o777567, 0⟩, ⟨0o777550, 0o777557, 1⟩] = true := by decide

/-- An odd base, an entry not below VA_IO_BASE (70_reset_and_hazards.md R381), a thirtieth word (R380); R6's own values are legal. -/
theorem test_wf_boot : Config.bootWf { Config.default with bootBase := 0o1001 } = false ∧
    Config.bootWf { Config.default with bootEntry := 0o160000#16 } = false ∧
    Config.bootWf { Config.default with bootWords := List.replicate 30 0#16 } = false ∧ Config.default.wf = true := by decide

/-- An odd IO_BASE, one beyond the physical space, an odd IO_OFFSET, one beyond the space, a space smaller than the virtual one. -/
theorem test_wf_map : Config.mapWf { Config.default with ioBase := 0o760001 } = false ∧
    Config.mapWf { Config.default with ioBase := 0o1000002 } = false ∧
    Config.mapWf { Config.default with ioOffset := 0o600001 } = false ∧
    Config.mapWf { Config.default with ioOffset := 0o1000000 } = false ∧
    Config.mapWf { Config.default with paWidth := 15 } = false := by decide

/-- A 22-bit physical space with the I/O page at its top: PA_WIDTH is a parameter (93_implementation_defined.md U14, 92_eei_decisions.md D6). -/
def wide : Config :=
  { Config.default with
    paWidth := 22
    ioBase := 0o17760000
    ioOffset := 0o17600000
    addrPsw := 0o17777776
    addrSr0 := 0o17777572
    addrSr2 := 0o17777576
    addrKpdr := 0o17772300
    addrKpar := 0o17772340
    addrUpdr := 0o17777600
    addrUpar := 0o17777640 }

theorem test_wider_space : wide.wf = true ∧ mapDirect wide 0o177776#16 = wide.addrPsw ∧
    relocate wide 0o7777#16 0o177#16 = 0o1000077 := by decide

/-- An odd register address, one below the I/O page, one beyond the space, two blocks that overlap. -/
theorem test_wf_registers : Config.registersWf { Config.default with addrSr0 := 0o777573 } = false ∧
    Config.registersWf { Config.default with addrSr0 := 0o757776 } = false ∧
    Config.registersWf { Config.default with addrKpar := 0o777762 } = false ∧
    Config.registersWf { Config.default with addrKpar := 0o772316 } = false := by decide

theorem test_wf_vectors : Config.vectorsWf { Config.default with vecMmu := 0o251#16 } = false := by decide

/-- A number the source fixes, changed (00_scope.md R6). -/
theorem test_wf_source : Config.sourceWf { Config.default with xlen := 32 } = false ∧
    Config.sourceWf { Config.default with itabSlots := 16 } = false := by decide

/-- The counts and widths that the source fixes are those of the types (00_scope.md R6, 10_state.md R20, R22, R32, R40). -/
theorem test_widths (c : Config) (h : c.sourceWf = true) : Word = BitVec c.xlen ∧ Word = BitVec c.vaWidth ∧ Reg = Fin c.nreg ∧
    ModeBits = BitVec 2 ∧ 2 ^ 2 = c.nmode ∧ (State.resetOf c).kpar.toList.length = c.npage ∧
    [Bank.kernel, .user].length = c.nbank := by
  simp only [Config.sourceWf, Bool.and_eq_true, decide_eq_true_eq] at h
  obtain ⟨⟨⟨⟨⟨⟨h1, h2⟩, h3⟩, h4⟩, h5⟩, h6⟩, _⟩ := h
  rw [h1, h2, h3, h4, h5, h6]
  exact ⟨rfl, rfl, rfl, rfl, rfl, rfl, rfl⟩

/-! ### Decoding: for every constructor, a word written out from its row of R126 -/

theorem test_decode_system_1 :
    decode 0o000000#16 = .ok (.halt) ∧
    decode 0o000001#16 = .ok (.wait) ∧
    decode 0o000002#16 = .ok (.rti) ∧
    decode 0o000003#16 = .ok (.bpt) ∧
    decode 0o000004#16 = .ok (.iot) ∧
    decode 0o000005#16 = .ok (.reset) ∧
    decode 0o000006#16 = .ok (.rtt) ∧
    decode 0o000236#16 = .ok (.spl 0b110#3) := by decide

theorem test_decode_system_2 :
    decode 0o000252#16 = .ok (.ccClear 0b1010#4) ∧
    decode 0o000272#16 = .ok (.ccSet 0b1010#4) ∧
    decode 0o006572#16 = .ok (.mfpi ⟨.indexedDeferred, 2⟩) ∧
    decode 0o006643#16 = .ok (.mtpi ⟨.autoDec, 3⟩) ∧
    decode 0o104123#16 = .ok (.emt 0b01010011#8) ∧
    decode 0o104523#16 = .ok (.trap 0b01010011#8) := by decide

theorem test_decode_control_1 :
    decode 0o000143#16 = .ok (.jmp ⟨.autoDec, 3⟩) ∧
    decode 0o000205#16 = .ok (.rts 5) ∧
    decode 0o004543#16 = .ok (.jsr 5 ⟨.autoDec, 3⟩) ∧
    decode 0o006435#16 = .ok (.mark 0b011101#6) ∧
    decode 0o077505#16 = .ok (.sob 5 0b000101#6) := by decide

theorem test_decode_single_operand_1 :
    decode 0o000343#16 = .ok (.swab ⟨.autoDec, 3⟩) ∧
    decode 0o005043#16 = .ok (.clr ⟨.autoDec, 3⟩) ∧
    decode 0o105043#16 = .ok (.clrb ⟨.autoDec, 3⟩) ∧
    decode 0o005143#16 = .ok (.com ⟨.autoDec, 3⟩) ∧
    decode 0o105143#16 = .ok (.comb ⟨.autoDec, 3⟩) ∧
    decode 0o005243#16 = .ok (.inc ⟨.autoDec, 3⟩) ∧
    decode 0o105243#16 = .ok (.incb ⟨.autoDec, 3⟩) ∧
    decode 0o005343#16 = .ok (.dec ⟨.autoDec, 3⟩) := by decide

theorem test_decode_single_operand_2 :
    decode 0o105343#16 = .ok (.decb ⟨.autoDec, 3⟩) ∧
    decode 0o005443#16 = .ok (.neg ⟨.autoDec, 3⟩) ∧
    decode 0o105443#16 = .ok (.negb ⟨.autoDec, 3⟩) ∧
    decode 0o005543#16 = .ok (.adc ⟨.autoDec, 3⟩) ∧
    decode 0o105543#16 = .ok (.adcb ⟨.autoDec, 3⟩) ∧
    decode 0o005643#16 = .ok (.sbc ⟨.autoDec, 3⟩) ∧
    decode 0o105643#16 = .ok (.sbcb ⟨.autoDec, 3⟩) ∧
    decode 0o005743#16 = .ok (.tst ⟨.autoDec, 3⟩) := by decide

theorem test_decode_single_operand_3 :
    decode 0o105743#16 = .ok (.tstb ⟨.autoDec, 3⟩) ∧
    decode 0o006043#16 = .ok (.ror ⟨.autoDec, 3⟩) ∧
    decode 0o106043#16 = .ok (.rorb ⟨.autoDec, 3⟩) ∧
    decode 0o006143#16 = .ok (.rol ⟨.autoDec, 3⟩) ∧
    decode 0o106143#16 = .ok (.rolb ⟨.autoDec, 3⟩) ∧
    decode 0o006243#16 = .ok (.asr ⟨.autoDec, 3⟩) ∧
    decode 0o106243#16 = .ok (.asrb ⟨.autoDec, 3⟩) ∧
    decode 0o006343#16 = .ok (.asl ⟨.autoDec, 3⟩) := by decide

theorem test_decode_single_operand_4 :
    decode 0o106343#16 = .ok (.aslb ⟨.autoDec, 3⟩) ∧
    decode 0o006743#16 = .ok (.sxt ⟨.autoDec, 3⟩) := by decide

theorem test_decode_branch_1 :
    decode 0o000605#16 = .ok (.br 0b10000101#8) ∧
    decode 0o001205#16 = .ok (.bne 0b10000101#8) ∧
    decode 0o001605#16 = .ok (.beq 0b10000101#8) ∧
    decode 0o002205#16 = .ok (.bge 0b10000101#8) ∧
    decode 0o002605#16 = .ok (.blt 0b10000101#8) ∧
    decode 0o003205#16 = .ok (.bgt 0b10000101#8) ∧
    decode 0o003605#16 = .ok (.ble 0b10000101#8) ∧
    decode 0o100205#16 = .ok (.bpl 0b10000101#8) := by decide

theorem test_decode_branch_2 :
    decode 0o100605#16 = .ok (.bmi 0b10000101#8) ∧
    decode 0o101205#16 = .ok (.bhi 0b10000101#8) ∧
    decode 0o101605#16 = .ok (.blos 0b10000101#8) ∧
    decode 0o102205#16 = .ok (.bvc 0b10000101#8) ∧
    decode 0o102605#16 = .ok (.bvs 0b10000101#8) ∧
    decode 0o103205#16 = .ok (.bcc 0b10000101#8) ∧
    decode 0o103605#16 = .ok (.bcs 0b10000101#8) := by decide

theorem test_decode_double_operand_1 :
    decode 0o017243#16 = .ok (.mov ⟨.indexedDeferred, 2⟩ ⟨.autoDec, 3⟩) ∧
    decode 0o117243#16 = .ok (.movb ⟨.indexedDeferred, 2⟩ ⟨.autoDec, 3⟩) ∧
    decode 0o027243#16 = .ok (.cmp ⟨.indexedDeferred, 2⟩ ⟨.autoDec, 3⟩) ∧
    decode 0o127243#16 = .ok (.cmpb ⟨.indexedDeferred, 2⟩ ⟨.autoDec, 3⟩) ∧
    decode 0o037243#16 = .ok (.bit ⟨.indexedDeferred, 2⟩ ⟨.autoDec, 3⟩) ∧
    decode 0o137243#16 = .ok (.bitb ⟨.indexedDeferred, 2⟩ ⟨.autoDec, 3⟩) ∧
    decode 0o047243#16 = .ok (.bic ⟨.indexedDeferred, 2⟩ ⟨.autoDec, 3⟩) ∧
    decode 0o147243#16 = .ok (.bicb ⟨.indexedDeferred, 2⟩ ⟨.autoDec, 3⟩) := by decide

theorem test_decode_double_operand_2 :
    decode 0o057243#16 = .ok (.bis ⟨.indexedDeferred, 2⟩ ⟨.autoDec, 3⟩) ∧
    decode 0o157243#16 = .ok (.bisb ⟨.indexedDeferred, 2⟩ ⟨.autoDec, 3⟩) ∧
    decode 0o067243#16 = .ok (.add ⟨.indexedDeferred, 2⟩ ⟨.autoDec, 3⟩) ∧
    decode 0o167243#16 = .ok (.sub ⟨.indexedDeferred, 2⟩ ⟨.autoDec, 3⟩) := by decide

theorem test_decode_register_operand_1 :
    decode 0o070572#16 = .ok (.mul 5 ⟨.indexedDeferred, 2⟩) ∧
    decode 0o071572#16 = .ok (.div 5 ⟨.indexedDeferred, 2⟩) ∧
    decode 0o072572#16 = .ok (.ash 5 ⟨.indexedDeferred, 2⟩) ∧
    decode 0o073572#16 = .ok (.ashc 5 ⟨.indexedDeferred, 2⟩) ∧
    decode 0o074543#16 = .ok (.xor 5 ⟨.autoDec, 3⟩) := by decide

/-- The ends of the six illegal ranges, and the words beside them (R127). -/
theorem test_decode_illegal_ends : ([0o000007#16, 0o000077#16, 0o000210#16, 0o000227#16, 0o007000#16, 0o007777#16, 0o075000#16, 0o076777#16, 0o106400#16, 0o107777#16, 0o170000#16, 0o177777#16].all fun w => match decode w with
    | .ok _ => false
    | .error _ => true) = true := by decide

theorem test_decode_legal_neighbours : ([0o000006#16, 0o000100#16, 0o000207#16, 0o000230#16, 0o006777#16, 0o010000#16, 0o074777#16, 0o077000#16, 0o106377#16, 0o110000#16, 0o167777#16].all fun w => match decode w with
    | .ok _ => true
    | .error _ => false) = true := by decide

/-- Too few bytes, and the low byte first (20_memory.md R70). -/
theorem test_decode_bytes : decodeBytes [] = .error .truncated ∧ decodeBytes [0o5#8] = .error .truncated ∧
    decodeBytes [0o1#8, 0o20#8] = .ok (.mov ⟨.register, 0⟩ ⟨.register, 1⟩, []) := by decide

/-! ### One step of each instruction -/

/-- A machine after reset, no port event recorded, with words in memory and registers and PSW set. -/
def start (psw : Word) (regs : List (Reg × Word)) (mem : List (Nat × Word)) : State :=
  mem.foldl (fun s c => s.setWord c.1 c.2)
    (regs.foldl (fun s c => s.setReg c.1 c.2) { State.reset with psw := psw, ports := [] })

/-- The step from `s` answers a next state with the property. -/
def steps (s : State) (p : State → Bool) : Bool :=
  match step s with
  | .next t => p t
  | .fault _ => false
  | .refused _ => false

/-- Registers, PSW and words of memory that a state should hold. -/
def holds (psw : Word) (regs : List (Reg × Word)) (mem : List (Nat × Word)) (t : State) : Bool :=
  decide (t.psw = psw) && regs.all (fun c => decide (t.reg c.1 = c.2)) && mem.all fun c => decide (t.wordAt c.1 = c.2)

/-- MOV @2000,R2, 95_test_vectors.md. -/
theorem test_mov_1 : steps (start 0o000000#16 [(2, 0o000000#16)]
      [(0o001000, 0o017702#16), (0o001002, 0o000774#16), (0o002000, 0o003000#16), (0o003000, 0o000777#16)])
    (holds 0o000000#16 [(2, 0o000777#16), (7, 0o001004#16)] []) = true := by decide

/-- MOV R1,(R1)+, 95_test_vectors.md. -/
theorem test_mov_2 : steps (start 0o000000#16 [(1, 0o002000#16)]
      [(0o001000, 0o010121#16), (0o002000, 0o000000#16)])
    (holds 0o000000#16 [(1, 0o002002#16), (7, 0o001002#16)] [(0o002000, 0o002000#16)]) = true := by decide

/-- MOVB R0,(R1), 95_test_vectors.md. -/
theorem test_movb_1 : steps (start 0o000000#16 [(0, 0o000201#16), (1, 0o002001#16)]
      [(0o001000, 0o110011#16), (0o002000, 0o052525#16)])
    (holds 0o000010#16 [(0, 0o000201#16), (1, 0o002001#16), (7, 0o001002#16)] [(0o002000, 0o100525#16)]) = true := by decide

/-- MOVB R0,(R1), 95_test_vectors.md. -/
theorem test_movb_2 : steps (start 0o000000#16 [(0, 0o000201#16), (1, 0o002000#16)]
      [(0o001000, 0o110011#16), (0o002000, 0o052525#16)])
    (holds 0o000010#16 [(0, 0o000201#16), (1, 0o002000#16), (7, 0o001002#16)] [(0o002000, 0o052601#16)]) = true := by decide

/-- CMP R0,R1, 95_test_vectors.md. -/
theorem test_cmp_1 : steps (start 0o000000#16 [(0, 0o100000#16), (1, 0o000001#16)]
      [(0o001000, 0o020001#16)])
    (holds 0o000002#16 [(0, 0o100000#16), (1, 0o000001#16), (7, 0o001002#16)] []) = true := by decide

/-- CMP R0,R1, 95_test_vectors.md. -/
theorem test_cmp_2 : steps (start 0o000013#16 [(0, 0o000005#16), (1, 0o000005#16)]
      [(0o001000, 0o020001#16)])
    (holds 0o000004#16 [(0, 0o000005#16), (1, 0o000005#16), (7, 0o001002#16)] []) = true := by decide

/-- CMPB R0,R1, 95_test_vectors.md. -/
theorem test_cmpb_1 : steps (start 0o000000#16 [(0, 0o125001#16), (1, 0o052401#16)]
      [(0o001000, 0o120001#16)])
    (holds 0o000004#16 [(0, 0o125001#16), (1, 0o052401#16), (7, 0o001002#16)] []) = true := by decide

/-- CMPB R0,R1, 95_test_vectors.md. -/
theorem test_cmpb_2 : steps (start 0o000000#16 [(0, 0o000200#16), (1, 0o000001#16)]
      [(0o001000, 0o120001#16)])
    (holds 0o000002#16 [(0, 0o000200#16), (1, 0o000001#16), (7, 0o001002#16)] []) = true := by decide

/-- BIT R0,R1, 95_test_vectors.md. -/
theorem test_bit_1 : steps (start 0o000003#16 [(0, 0o100001#16), (1, 0o100000#16)]
      [(0o001000, 0o030001#16)])
    (holds 0o000011#16 [(0, 0o100001#16), (1, 0o100000#16), (7, 0o001002#16)] []) = true := by decide

/-- BIT R0,R1, 95_test_vectors.md. -/
theorem test_bit_2 : steps (start 0o000002#16 [(0, 0o000007#16), (1, 0o000070#16)]
      [(0o001000, 0o030001#16)])
    (holds 0o000004#16 [(0, 0o000007#16), (1, 0o000070#16), (7, 0o001002#16)] []) = true := by decide

/-- BITB R0,R1, 95_test_vectors.md. -/
theorem test_bitb_1 : steps (start 0o000001#16 [(0, 0o000200#16), (1, 0o177600#16)]
      [(0o001000, 0o130001#16)])
    (holds 0o000011#16 [(0, 0o000200#16), (1, 0o177600#16), (7, 0o001002#16)] []) = true := by decide

/-- BIC R0,R1, 95_test_vectors.md. -/
theorem test_bic_1 : steps (start 0o000003#16 [(0, 0o177400#16), (1, 0o123456#16)]
      [(0o001000, 0o040001#16)])
    (holds 0o000001#16 [(0, 0o177400#16), (1, 0o000056#16), (7, 0o001002#16)] []) = true := by decide

/-- BIC R0,R1, 95_test_vectors.md. -/
theorem test_bic_2 : steps (start 0o000000#16 [(0, 0o177777#16), (1, 0o123456#16)]
      [(0o001000, 0o040001#16)])
    (holds 0o000004#16 [(0, 0o177777#16), (1, 0o000000#16), (7, 0o001002#16)] []) = true := by decide

/-- BICB R0,R1, 95_test_vectors.md. -/
theorem test_bicb_1 : steps (start 0o000000#16 [(0, 0o000017#16), (1, 0o123777#16)]
      [(0o001000, 0o140001#16)])
    (holds 0o000010#16 [(0, 0o000017#16), (1, 0o123760#16), (7, 0o001002#16)] []) = true := by decide

/-- BIS R0,R1, 95_test_vectors.md. -/
theorem test_bis_1 : steps (start 0o000003#16 [(0, 0o100000#16), (1, 0o000001#16)]
      [(0o001000, 0o050001#16)])
    (holds 0o000011#16 [(0, 0o100000#16), (1, 0o100001#16), (7, 0o001002#16)] []) = true := by decide

/-- BIS #340,@#177776, 95_test_vectors.md. -/
theorem test_bis_2 : steps (start 0o000017#16 []
      [(0o001000, 0o052737#16), (0o001002, 0o000340#16), (0o001004, 0o177776#16)])
    (holds 0o000357#16 [(7, 0o001006#16)] []) = true := by decide

/-- BISB R0,R1, 95_test_vectors.md. -/
theorem test_bisb_1 : steps (start 0o000000#16 [(0, 0o000200#16), (1, 0o000001#16)]
      [(0o001000, 0o150001#16)])
    (holds 0o000010#16 [(0, 0o000200#16), (1, 0o000201#16), (7, 0o001002#16)] []) = true := by decide

/-- ADD R0,R1, 95_test_vectors.md. -/
theorem test_add_1 : steps (start 0o000000#16 [(0, 0o077777#16), (1, 0o000001#16)]
      [(0o001000, 0o060001#16)])
    (holds 0o000012#16 [(0, 0o077777#16), (1, 0o100000#16), (7, 0o001002#16)] []) = true := by decide

/-- ADD R0,R1, 95_test_vectors.md. -/
theorem test_add_2 : steps (start 0o000000#16 [(0, 0o177777#16), (1, 0o000001#16)]
      [(0o001000, 0o060001#16)])
    (holds 0o000005#16 [(0, 0o177777#16), (1, 0o000000#16), (7, 0o001002#16)] []) = true := by decide

/-- SUB R0,R1, 95_test_vectors.md. -/
theorem test_sub_1 : steps (start 0o000000#16 [(0, 0o000001#16), (1, 0o000000#16)]
      [(0o001000, 0o160001#16)])
    (holds 0o000011#16 [(0, 0o000001#16), (1, 0o177777#16), (7, 0o001002#16)] []) = true := by decide

/-- SUB R0,R1, 95_test_vectors.md. -/
theorem test_sub_2 : steps (start 0o000000#16 [(0, 0o000001#16), (1, 0o100000#16)]
      [(0o001000, 0o160001#16)])
    (holds 0o000002#16 [(0, 0o000001#16), (1, 0o077777#16), (7, 0o001002#16)] []) = true := by decide

/-- CLR R0, 95_test_vectors.md. -/
theorem test_clr_1 : steps (start 0o000013#16 [(0, 0o123456#16)]
      [(0o001000, 0o005000#16)])
    (holds 0o000004#16 [(0, 0o000000#16), (7, 0o001002#16)] []) = true := by decide

/-- CLRB R0, 95_test_vectors.md. -/
theorem test_clrb_1 : steps (start 0o000013#16 [(0, 0o123456#16)]
      [(0o001000, 0o105000#16)])
    (holds 0o000004#16 [(0, 0o123400#16), (7, 0o001002#16)] []) = true := by decide

/-- CLRB (R1), 95_test_vectors.md. -/
theorem test_clrb_2 : steps (start 0o000000#16 [(1, 0o002001#16)]
      [(0o001000, 0o105011#16), (0o002000, 0o125252#16)])
    (holds 0o000004#16 [(1, 0o002001#16), (7, 0o001002#16)] [(0o002000, 0o000252#16)]) = true := by decide

/-- COM R0, 95_test_vectors.md. -/
theorem test_com_1 : steps (start 0o000000#16 [(0, 0o000000#16)]
      [(0o001000, 0o005100#16)])
    (holds 0o000011#16 [(0, 0o177777#16), (7, 0o001002#16)] []) = true := by decide

/-- COM R0, 95_test_vectors.md. -/
theorem test_com_2 : steps (start 0o000012#16 [(0, 0o177777#16)]
      [(0o001000, 0o005100#16)])
    (holds 0o000005#16 [(0, 0o000000#16), (7, 0o001002#16)] []) = true := by decide

/-- COMB R0, 95_test_vectors.md. -/
theorem test_comb_1 : steps (start 0o000000#16 [(0, 0o123400#16)]
      [(0o001000, 0o105100#16)])
    (holds 0o000011#16 [(0, 0o123777#16), (7, 0o001002#16)] []) = true := by decide

/-- INC R0, 95_test_vectors.md. -/
theorem test_inc_1 : steps (start 0o000001#16 [(0, 0o077777#16)]
      [(0o001000, 0o005200#16)])
    (holds 0o000013#16 [(0, 0o100000#16), (7, 0o001002#16)] []) = true := by decide

/-- INC (R1)+, 95_test_vectors.md. -/
theorem test_inc_2 : steps (start 0o000000#16 [(1, 0o002000#16)]
      [(0o001000, 0o005221#16), (0o002000, 0o000007#16)])
    (holds 0o000000#16 [(1, 0o002002#16), (7, 0o001002#16)] [(0o002000, 0o000010#16)]) = true := by decide

/-- INCB R0, 95_test_vectors.md. -/
theorem test_incb_1 : steps (start 0o000000#16 [(0, 0o000177#16)]
      [(0o001000, 0o105200#16)])
    (holds 0o000012#16 [(0, 0o000200#16), (7, 0o001002#16)] []) = true := by decide

/-- INCB (R1)+, 95_test_vectors.md. -/
theorem test_incb_2 : steps (start 0o000000#16 [(1, 0o002001#16)]
      [(0o001000, 0o105221#16), (0o002000, 0o177400#16)])
    (holds 0o000004#16 [(1, 0o002002#16), (7, 0o001002#16)] [(0o002000, 0o000000#16)]) = true := by decide

/-- DEC R0, 95_test_vectors.md. -/
theorem test_dec_1 : steps (start 0o000001#16 [(0, 0o100000#16)]
      [(0o001000, 0o005300#16)])
    (holds 0o000003#16 [(0, 0o077777#16), (7, 0o001002#16)] []) = true := by decide

/-- DEC R0, 95_test_vectors.md. -/
theorem test_dec_2 : steps (start 0o000000#16 [(0, 0o000001#16)]
      [(0o001000, 0o005300#16)])
    (holds 0o000004#16 [(0, 0o000000#16), (7, 0o001002#16)] []) = true := by decide

/-- DECB R0, 95_test_vectors.md. -/
theorem test_decb_1 : steps (start 0o000000#16 [(0, 0o000200#16)]
      [(0o001000, 0o105300#16)])
    (holds 0o000002#16 [(0, 0o000177#16), (7, 0o001002#16)] []) = true := by decide

/-- NEG R0, 95_test_vectors.md. -/
theorem test_neg_1 : steps (start 0o000000#16 [(0, 0o000001#16)]
      [(0o001000, 0o005400#16)])
    (holds 0o000011#16 [(0, 0o177777#16), (7, 0o001002#16)] []) = true := by decide

/-- NEG R0, 95_test_vectors.md. -/
theorem test_neg_2 : steps (start 0o000000#16 [(0, 0o100000#16)]
      [(0o001000, 0o005400#16)])
    (holds 0o000013#16 [(0, 0o100000#16), (7, 0o001002#16)] []) = true := by decide

/-- NEGB R0, 95_test_vectors.md. -/
theorem test_negb_1 : steps (start 0o000000#16 [(0, 0o000200#16)]
      [(0o001000, 0o105400#16)])
    (holds 0o000013#16 [(0, 0o000200#16), (7, 0o001002#16)] []) = true := by decide

/-- ADC R0, 95_test_vectors.md. -/
theorem test_adc_1 : steps (start 0o000001#16 [(0, 0o077777#16)]
      [(0o001000, 0o005500#16)])
    (holds 0o000012#16 [(0, 0o100000#16), (7, 0o001002#16)] []) = true := by decide

/-- ADC R0, 95_test_vectors.md. -/
theorem test_adc_2 : steps (start 0o000001#16 [(0, 0o177777#16)]
      [(0o001000, 0o005500#16)])
    (holds 0o000005#16 [(0, 0o000000#16), (7, 0o001002#16)] []) = true := by decide

/-- ADCB R0, 95_test_vectors.md. -/
theorem test_adcb_1 : steps (start 0o000001#16 [(0, 0o000377#16)]
      [(0o001000, 0o105500#16)])
    (holds 0o000005#16 [(0, 0o000000#16), (7, 0o001002#16)] []) = true := by decide

/-- SBC R0, 95_test_vectors.md. -/
theorem test_sbc_1 : steps (start 0o000001#16 [(0, 0o100000#16)]
      [(0o001000, 0o005600#16)])
    (holds 0o000002#16 [(0, 0o077777#16), (7, 0o001002#16)] []) = true := by decide

/-- SBC R0, 95_test_vectors.md. -/
theorem test_sbc_2 : steps (start 0o000001#16 [(0, 0o000000#16)]
      [(0o001000, 0o005600#16)])
    (holds 0o000011#16 [(0, 0o177777#16), (7, 0o001002#16)] []) = true := by decide

/-- SBCB R0, 95_test_vectors.md. -/
theorem test_sbcb_1 : steps (start 0o000001#16 [(0, 0o000000#16)]
      [(0o001000, 0o105600#16)])
    (holds 0o000011#16 [(0, 0o000377#16), (7, 0o001002#16)] []) = true := by decide

/-- TST R0, 95_test_vectors.md. -/
theorem test_tst_1 : steps (start 0o000003#16 [(0, 0o100000#16)]
      [(0o001000, 0o005700#16)])
    (holds 0o000010#16 [(0, 0o100000#16), (7, 0o001002#16)] []) = true := by decide

/-- TST (SP)+, 95_test_vectors.md. -/
theorem test_tst_2 : steps (start 0o000000#16 [(6, 0o002000#16)]
      [(0o001000, 0o005726#16), (0o002000, 0o100000#16)])
    (holds 0o000010#16 [(6, 0o002002#16), (7, 0o001002#16)] []) = true := by decide

/-- TSTB R0, 95_test_vectors.md. -/
theorem test_tstb_1 : steps (start 0o000003#16 [(0, 0o177400#16)]
      [(0o001000, 0o105700#16)])
    (holds 0o000004#16 [(0, 0o177400#16), (7, 0o001002#16)] []) = true := by decide

/-- ROR R0, 95_test_vectors.md. -/
theorem test_ror_1 : steps (start 0o000000#16 [(0, 0o000001#16)]
      [(0o001000, 0o006000#16)])
    (holds 0o000007#16 [(0, 0o000000#16), (7, 0o001002#16)] []) = true := by decide

/-- ROR R0, 95_test_vectors.md. -/
theorem test_ror_2 : steps (start 0o000001#16 [(0, 0o000000#16)]
      [(0o001000, 0o006000#16)])
    (holds 0o000012#16 [(0, 0o100000#16), (7, 0o001002#16)] []) = true := by decide

/-- RORB R0, 95_test_vectors.md. -/
theorem test_rorb_1 : steps (start 0o000001#16 [(0, 0o000401#16)]
      [(0o001000, 0o106000#16)])
    (holds 0o000011#16 [(0, 0o000600#16), (7, 0o001002#16)] []) = true := by decide

/-- ROL R0, 95_test_vectors.md. -/
theorem test_rol_1 : steps (start 0o000000#16 [(0, 0o100000#16)]
      [(0o001000, 0o006100#16)])
    (holds 0o000007#16 [(0, 0o000000#16), (7, 0o001002#16)] []) = true := by decide

/-- ROL R0, 95_test_vectors.md. -/
theorem test_rol_2 : steps (start 0o000001#16 [(0, 0o040000#16)]
      [(0o001000, 0o006100#16)])
    (holds 0o000012#16 [(0, 0o100001#16), (7, 0o001002#16)] []) = true := by decide

/-- ROLB R0, 95_test_vectors.md. -/
theorem test_rolb_1 : steps (start 0o000001#16 [(0, 0o000200#16)]
      [(0o001000, 0o106100#16)])
    (holds 0o000003#16 [(0, 0o000001#16), (7, 0o001002#16)] []) = true := by decide

/-- ASR R0, 95_test_vectors.md. -/
theorem test_asr_1 : steps (start 0o000000#16 [(0, 0o100001#16)]
      [(0o001000, 0o006200#16)])
    (holds 0o000011#16 [(0, 0o140000#16), (7, 0o001002#16)] []) = true := by decide

/-- ASR R0, 95_test_vectors.md. -/
theorem test_asr_2 : steps (start 0o000001#16 [(0, 0o000002#16)]
      [(0o001000, 0o006200#16)])
    (holds 0o000000#16 [(0, 0o000001#16), (7, 0o001002#16)] []) = true := by decide

/-- ASRB R0, 95_test_vectors.md. -/
theorem test_asrb_1 : steps (start 0o000000#16 [(0, 0o000201#16)]
      [(0o001000, 0o106200#16)])
    (holds 0o000011#16 [(0, 0o000300#16), (7, 0o001002#16)] []) = true := by decide

/-- ASL R0, 95_test_vectors.md. -/
theorem test_asl_1 : steps (start 0o000000#16 [(0, 0o040000#16)]
      [(0o001000, 0o006300#16)])
    (holds 0o000012#16 [(0, 0o100000#16), (7, 0o001002#16)] []) = true := by decide

/-- ASL R0, 95_test_vectors.md. -/
theorem test_asl_2 : steps (start 0o000000#16 [(0, 0o100000#16)]
      [(0o001000, 0o006300#16)])
    (holds 0o000007#16 [(0, 0o000000#16), (7, 0o001002#16)] []) = true := by decide

/-- ASLB R0, 95_test_vectors.md. -/
theorem test_aslb_1 : steps (start 0o000000#16 [(0, 0o000100#16)]
      [(0o001000, 0o106300#16)])
    (holds 0o000012#16 [(0, 0o000200#16), (7, 0o001002#16)] []) = true := by decide

/-- SXT R0, 95_test_vectors.md. -/
theorem test_sxt_1 : steps (start 0o000012#16 [(0, 0o123456#16)]
      [(0o001000, 0o006700#16)])
    (holds 0o000010#16 [(0, 0o177777#16), (7, 0o001002#16)] []) = true := by decide

/-- SXT R0, 95_test_vectors.md. -/
theorem test_sxt_2 : steps (start 0o000007#16 [(0, 0o123456#16)]
      [(0o001000, 0o006700#16)])
    (holds 0o000005#16 [(0, 0o000000#16), (7, 0o001002#16)] []) = true := by decide

/-- SWAB R0, 95_test_vectors.md. -/
theorem test_swab_1 : steps (start 0o000003#16 [(0, 0o000377#16)]
      [(0o001000, 0o000300#16)])
    (holds 0o000004#16 [(0, 0o177400#16), (7, 0o001002#16)] []) = true := by decide

/-- SWAB R0, 95_test_vectors.md. -/
theorem test_swab_2 : steps (start 0o000003#16 [(0, 0o177400#16)]
      [(0o001000, 0o000300#16)])
    (holds 0o000010#16 [(0, 0o000377#16), (7, 0o001002#16)] []) = true := by decide

/-- MUL R1,R0, 95_test_vectors.md. -/
theorem test_mul_1 : steps (start 0o000017#16 [(0, 0o000003#16), (1, 0o000005#16)]
      [(0o001000, 0o070001#16)])
    (holds 0o000000#16 [(0, 0o000000#16), (1, 0o000017#16), (7, 0o001002#16)] []) = true := by decide

/-- MUL R1,R0, 95_test_vectors.md. -/
theorem test_mul_2 : steps (start 0o000000#16 [(0, 0o177777#16), (1, 0o000001#16)]
      [(0o001000, 0o070001#16)])
    (holds 0o000010#16 [(0, 0o177777#16), (1, 0o177777#16), (7, 0o001002#16)] []) = true := by decide

/-- DIV R2,R0, 95_test_vectors.md. -/
theorem test_div_1 : steps (start 0o000017#16 [(0, 0o000000#16), (1, 0o000021#16), (2, 0o000005#16)]
      [(0o001000, 0o071002#16)])
    (holds 0o000000#16 [(0, 0o000003#16), (1, 0o000002#16), (2, 0o000005#16), (7, 0o001002#16)] []) = true := by decide

/-- DIV R2,R0, 95_test_vectors.md. -/
theorem test_div_2 : steps (start 0o000000#16 [(0, 0o177777#16), (1, 0o177757#16), (2, 0o000005#16)]
      [(0o001000, 0o071002#16)])
    (holds 0o000010#16 [(0, 0o177775#16), (1, 0o177776#16), (2, 0o000005#16), (7, 0o001002#16)] []) = true := by decide

/-- ASH R1,R0, 95_test_vectors.md. -/
theorem test_ash_1 : steps (start 0o000003#16 [(0, 0o000001#16), (1, 0o000004#16)]
      [(0o001000, 0o072001#16)])
    (holds 0o000000#16 [(0, 0o000020#16), (1, 0o000004#16), (7, 0o001002#16)] []) = true := by decide

/-- ASH R1,R0, 95_test_vectors.md. -/
theorem test_ash_2 : steps (start 0o000000#16 [(0, 0o100000#16), (1, 0o000077#16)]
      [(0o001000, 0o072001#16)])
    (holds 0o000010#16 [(0, 0o140000#16), (1, 0o000077#16), (7, 0o001002#16)] []) = true := by decide

/-- ASHC R2,R0, 95_test_vectors.md. -/
theorem test_ashc_1 : steps (start 0o000000#16 [(0, 0o000000#16), (1, 0o100000#16), (2, 0o000001#16)]
      [(0o001000, 0o073002#16)])
    (holds 0o000000#16 [(0, 0o000001#16), (1, 0o000000#16), (2, 0o000001#16), (7, 0o001002#16)] []) = true := by decide

/-- ASHC R2,R0, 95_test_vectors.md. -/
theorem test_ashc_2 : steps (start 0o000000#16 [(0, 0o000001#16), (1, 0o000000#16), (2, 0o000077#16)]
      [(0o001000, 0o073002#16)])
    (holds 0o000000#16 [(0, 0o000000#16), (1, 0o100000#16), (2, 0o000077#16), (7, 0o001002#16)] []) = true := by decide

/-- XOR R0,R1, 95_test_vectors.md. -/
theorem test_xor_1 : steps (start 0o000003#16 [(0, 0o125252#16), (1, 0o177777#16)]
      [(0o001000, 0o074001#16)])
    (holds 0o000001#16 [(0, 0o125252#16), (1, 0o052525#16), (7, 0o001002#16)] []) = true := by decide

/-- XOR R0,(R1)+, 95_test_vectors.md. -/
theorem test_xor_2 : steps (start 0o000000#16 [(0, 0o100000#16), (1, 0o002000#16)]
      [(0o001000, 0o074021#16), (0o002000, 0o000001#16)])
    (holds 0o000010#16 [(0, 0o100000#16), (1, 0o002002#16), (7, 0o001002#16)] [(0o002000, 0o100001#16)]) = true := by decide

/-- JMP (R1), 95_test_vectors.md. -/
theorem test_jmp_1 : steps (start 0o000000#16 [(1, 0o002000#16)]
      [(0o001000, 0o000111#16)])
    (holds 0o000000#16 [(1, 0o002000#16), (7, 0o002000#16)] []) = true := by decide

/-- JSR PC,@#3000, 95_test_vectors.md. -/
theorem test_jsr_1 : steps (start 0o000000#16 [(6, 0o002000#16)]
      [(0o001000, 0o004737#16), (0o001002, 0o003000#16), (0o001776, 0o000000#16)])
    (holds 0o000000#16 [(6, 0o001776#16), (7, 0o003000#16)] [(0o001776, 0o001004#16)]) = true := by decide

/-- JSR R5,@#3000, 95_test_vectors.md. -/
theorem test_jsr_2 : steps (start 0o000000#16 [(5, 0o000055#16), (6, 0o002000#16)]
      [(0o001000, 0o004537#16), (0o001002, 0o003000#16), (0o001776, 0o000000#16)])
    (holds 0o000000#16 [(5, 0o001004#16), (6, 0o001776#16), (7, 0o003000#16)] [(0o001776, 0o000055#16)]) = true := by decide

/-- RTS PC, 95_test_vectors.md. -/
theorem test_rts_1 : steps (start 0o000000#16 [(6, 0o001776#16)]
      [(0o001000, 0o000207#16), (0o001776, 0o001234#16)])
    (holds 0o000000#16 [(6, 0o002000#16), (7, 0o001234#16)] []) = true := by decide

/-- RTS R5, 95_test_vectors.md. -/
theorem test_rts_2 : steps (start 0o000000#16 [(5, 0o003000#16), (6, 0o001776#16)]
      [(0o001000, 0o000205#16), (0o001776, 0o000055#16)])
    (holds 0o000000#16 [(5, 0o000055#16), (6, 0o002000#16), (7, 0o003000#16)] []) = true := by decide

/-- MARK 2, 95_test_vectors.md. -/
theorem test_mark_1 : steps (start 0o000000#16 [(5, 0o003000#16), (6, 0o000700#16)]
      [(0o001000, 0o006402#16), (0o001006, 0o000111#16)])
    (holds 0o000000#16 [(5, 0o000111#16), (6, 0o001010#16), (7, 0o003000#16)] []) = true := by decide

/-- SOB R0,.-2 (nn=2), 95_test_vectors.md. -/
theorem test_sob_1 : steps (start 0o000000#16 [(0, 0o000002#16)]
      [(0o001000, 0o077002#16)])
    (holds 0o000000#16 [(0, 0o000001#16), (7, 0o000776#16)] []) = true := by decide

/-- SOB R0 nn=2, 95_test_vectors.md. -/
theorem test_sob_2 : steps (start 0o000000#16 [(0, 0o000001#16)]
      [(0o001000, 0o077002#16)])
    (holds 0o000000#16 [(0, 0o000000#16), (7, 0o001002#16)] []) = true := by decide

/-- SPL 7, 95_test_vectors.md. -/
theorem test_spl_1 : steps (start 0o000000#16 []
      [(0o001000, 0o000237#16)])
    (holds 0o000340#16 [(7, 0o001002#16)] []) = true := by decide

/-- SPL 0, 95_test_vectors.md. -/
theorem test_spl_2 : steps (start 0o000357#16 []
      [(0o001000, 0o000230#16)])
    (holds 0o000017#16 [(7, 0o001002#16)] []) = true := by decide

/-- CLC+CLZ (245), 95_test_vectors.md. -/
theorem test_cc_clear_1 : steps (start 0o000017#16 []
      [(0o001000, 0o000245#16)])
    (holds 0o000012#16 [(7, 0o001002#16)] []) = true := by decide

/-- SEV, 95_test_vectors.md. -/
theorem test_cc_set_1 : steps (start 0o000000#16 []
      [(0o001000, 0o000262#16)])
    (holds 0o000002#16 [(7, 0o001002#16)] []) = true := by decide

/-! ### The fifteen branches: a taken and a not taken case each (95_test_vectors.md, V-B; the word has offset 3) -/

theorem test_br : steps (start 0b0000#16 [] [(0o001000, 0o000403#16)]) (holds 0b0000#16 [(7, 0o001010#16)] []) = true := by decide

theorem test_bne : steps (start 0b1011#16 [] [(0o001000, 0o001003#16)]) (holds 0b1011#16 [(7, 0o001010#16)] []) = true ∧
    steps (start 0b0100#16 [] [(0o001000, 0o001003#16)]) (holds 0b0100#16 [(7, 0o001002#16)] []) = true := by decide

theorem test_beq : steps (start 0b0100#16 [] [(0o001000, 0o001403#16)]) (holds 0b0100#16 [(7, 0o001010#16)] []) = true ∧
    steps (start 0b1011#16 [] [(0o001000, 0o001403#16)]) (holds 0b1011#16 [(7, 0o001002#16)] []) = true := by decide

theorem test_bge : steps (start 0b1010#16 [] [(0o001000, 0o002003#16)]) (holds 0b1010#16 [(7, 0o001010#16)] []) = true ∧
    steps (start 0b1000#16 [] [(0o001000, 0o002003#16)]) (holds 0b1000#16 [(7, 0o001002#16)] []) = true := by decide

theorem test_blt : steps (start 0b0010#16 [] [(0o001000, 0o002403#16)]) (holds 0b0010#16 [(7, 0o001010#16)] []) = true ∧
    steps (start 0b1010#16 [] [(0o001000, 0o002403#16)]) (holds 0b1010#16 [(7, 0o001002#16)] []) = true := by decide

theorem test_bgt : steps (start 0b1011#16 [] [(0o001000, 0o003003#16)]) (holds 0b1011#16 [(7, 0o001010#16)] []) = true ∧
    steps (start 0b0100#16 [] [(0o001000, 0o003003#16)]) (holds 0b0100#16 [(7, 0o001002#16)] []) = true := by decide

theorem test_ble : steps (start 0b1110#16 [] [(0o001000, 0o003403#16)]) (holds 0b1110#16 [(7, 0o001010#16)] []) = true ∧
    steps (start 0b1010#16 [] [(0o001000, 0o003403#16)]) (holds 0b1010#16 [(7, 0o001002#16)] []) = true := by decide

theorem test_bpl : steps (start 0b0111#16 [] [(0o001000, 0o100003#16)]) (holds 0b0111#16 [(7, 0o001010#16)] []) = true ∧
    steps (start 0b1000#16 [] [(0o001000, 0o100003#16)]) (holds 0b1000#16 [(7, 0o001002#16)] []) = true := by decide

theorem test_bmi : steps (start 0b1000#16 [] [(0o001000, 0o100403#16)]) (holds 0b1000#16 [(7, 0o001010#16)] []) = true ∧
    steps (start 0b0111#16 [] [(0o001000, 0o100403#16)]) (holds 0b0111#16 [(7, 0o001002#16)] []) = true := by decide

theorem test_bhi : steps (start 0b1010#16 [] [(0o001000, 0o101003#16)]) (holds 0b1010#16 [(7, 0o001010#16)] []) = true ∧
    steps (start 0b0001#16 [] [(0o001000, 0o101003#16)]) (holds 0b0001#16 [(7, 0o001002#16)] []) = true := by decide

theorem test_blos : steps (start 0b0100#16 [] [(0o001000, 0o101403#16)]) (holds 0b0100#16 [(7, 0o001010#16)] []) = true ∧
    steps (start 0b1010#16 [] [(0o001000, 0o101403#16)]) (holds 0b1010#16 [(7, 0o001002#16)] []) = true := by decide

theorem test_bvc : steps (start 0b1101#16 [] [(0o001000, 0o102003#16)]) (holds 0b1101#16 [(7, 0o001010#16)] []) = true ∧
    steps (start 0b0010#16 [] [(0o001000, 0o102003#16)]) (holds 0b0010#16 [(7, 0o001002#16)] []) = true := by decide

theorem test_bvs : steps (start 0b0010#16 [] [(0o001000, 0o102403#16)]) (holds 0b0010#16 [(7, 0o001010#16)] []) = true ∧
    steps (start 0b1101#16 [] [(0o001000, 0o102403#16)]) (holds 0b1101#16 [(7, 0o001002#16)] []) = true := by decide

theorem test_bcc : steps (start 0b1110#16 [] [(0o001000, 0o103003#16)]) (holds 0b1110#16 [(7, 0o001010#16)] []) = true ∧
    steps (start 0b0001#16 [] [(0o001000, 0o103003#16)]) (holds 0b0001#16 [(7, 0o001002#16)] []) = true := by decide

theorem test_bcs : steps (start 0b0001#16 [] [(0o001000, 0o103403#16)]) (holds 0b0001#16 [(7, 0o001010#16)] []) = true ∧
    steps (start 0b1110#16 [] [(0o001000, 0o103403#16)]) (holds 0b1110#16 [(7, 0o001002#16)] []) = true := by decide

/-! ### System instructions (95_test_vectors.md, V-P) -/

/-- The vectors of V-P. -/
def vectors : List (Nat × Word) :=
  [(0o10, 0o4010#16), (0o12, 0o341#16), (0o14, 0o4020#16), (0o16, 0o342#16), (0o20, 0o4030#16), (0o22, 0o343#16),
    (0o30, 0o4040#16), (0o32, 0o344#16), (0o34, 0o4050#16), (0o36, 0o345#16)]

theorem test_emt : steps (start 0o000017#16 [(6, 0o001000#16)] ((0o001000, 0o104123#16) :: vectors))
    (holds 0o000344#16 [(6, 0o000774#16), (7, 0o004040#16)] [(0o000776, 0o000017#16), (0o000774, 0o001002#16)]) = true := by decide

theorem test_trap_kernel : steps (start 0o000000#16 [(6, 0o001000#16)] ((0o001000, 0o104777#16) :: vectors))
    (holds 0o000345#16 [(6, 0o000774#16), (7, 0o004050#16)] [(0o000776, 0o000000#16), (0o000774, 0o001002#16)]) = true := by decide

theorem test_trap_user : steps (State.setSp (start 0o140011#16 [(6, 0o040000#16)] ((0o001000, 0o104400#16) :: vectors)) 0#2 0o001000#16)
    (fun t => holds 0o030345#16 [(6, 0o000774#16), (7, 0o004050#16)] [(0o000776, 0o140011#16), (0o000774, 0o001002#16)] t && decide (t.sp 3#2 = 0o040000#16)) = true := by decide

theorem test_bpt : steps (start 0o000005#16 [(6, 0o001000#16)] ((0o001000, 0o000003#16) :: vectors))
    (holds 0o000342#16 [(6, 0o000774#16), (7, 0o004020#16)] [(0o000776, 0o000005#16), (0o000774, 0o001002#16)]) = true := by decide

theorem test_iot : steps (start 0o000340#16 [(6, 0o001000#16)] ((0o001000, 0o000004#16) :: vectors))
    (holds 0o000343#16 [(6, 0o000774#16), (7, 0o004030#16)] [(0o000776, 0o000340#16), (0o000774, 0o001002#16)]) = true := by decide

theorem test_illegal_user : steps (State.setSp (start 0o140000#16 [(6, 0o040000#16)] ((0o001000, 0o170011#16) :: vectors)) 0#2 0o001000#16)
    (holds 0o030341#16 [(6, 0o000774#16), (7, 0o004010#16)] [(0o000776, 0o140000#16), (0o000774, 0o001002#16)]) = true := by decide

theorem test_rti_to_user : steps (State.setSp (start 0o000000#16 [(6, 0o000774#16)] ((0o001000, 0o000002#16) :: (0o000774, 0o002000#16) :: (0o000776, 0o140017#16) :: vectors)) 3#2 0o040000#16)
    (fun t => holds 0o140017#16 [(6, 0o040000#16), (7, 0o002000#16)] [] t && decide (t.sp 0#2 = 0o001000#16)) = true := by decide

/-- 45_trap_system.md R287, the example in user mode. -/
theorem test_rti_in_user : steps (start 0o140000#16 [(6, 0o020000#16)] ((0o001000, 0o000002#16) :: (0o020000, 0o004000#16) :: (0o020002, 0o000357#16) :: vectors))
    (holds 0o140017#16 [(6, 0o020004#16), (7, 0o004000#16)] []) = true := by decide

theorem test_rtt : steps (start 0o000000#16 [(6, 0o000774#16)] ((0o001000, 0o000006#16) :: (0o000774, 0o002000#16) :: (0o000776, 0o000357#16) :: vectors))
    (holds 0o000357#16 [(6, 0o001000#16), (7, 0o002000#16)] []) = true := by decide

theorem test_halt : steps (start 0o000000#16 [(6, 0o001000#16)] ((0o001000, 0o000000#16) :: vectors))
    (fun t => holds 0o000000#16 [(6, 0o001000#16), (7, 0o001002#16)] [] t && decide (t.run = .halted ∧ t.sr2 = 0o001000#16)) = true := by decide

/-- 45_trap_system.md R289, the example in user mode, with the vector of V-P. -/
theorem test_halt_user : steps (State.setSp (start 0o140005#16 [(6, 0o040000#16)] ((0o001000, 0o000000#16) :: vectors)) 0#2 0o001000#16)
    (holds 0o030341#16 [(6, 0o000774#16), (7, 0o004010#16)] [(0o000776, 0o140005#16), (0o000774, 0o001002#16)]) = true := by decide

theorem test_wait : steps (start 0o000000#16 [(6, 0o001000#16)] ((0o001000, 0o000001#16) :: vectors))
    (fun t => holds 0o000000#16 [(6, 0o001000#16), (7, 0o001002#16)] [] t && decide (t.run = .waiting)) = true := by decide

theorem test_wait_user : steps (State.setSp (start 0o140000#16 [(6, 0o040000#16)] ((0o001000, 0o000001#16) :: vectors)) 0#2 0o001000#16)
    (holds 0o030341#16 [(6, 0o000774#16), (7, 0o004010#16)] [(0o000776, 0o140000#16), (0o000774, 0o001002#16)]) = true := by decide

theorem test_reset : steps (start 0o000017#16 [(6, 0o001000#16)] ((0o001000, 0o000005#16) :: vectors))
    (fun t => holds 0o000017#16 [(6, 0o001000#16), (7, 0o001002#16)] [] t && decide (t.ports = [.devReset])) = true := by decide

theorem test_reset_user : steps (start 0o140005#16 [(6, 0o040000#16)] ((0o001000, 0o000005#16) :: vectors))
    (fun t => holds 0o140005#16 [(6, 0o040000#16), (7, 0o001002#16)] [] t && decide (t.ports = [])) = true := by decide

theorem test_mfpi_memory : steps (start 0o030001#16 [(6, 0o001000#16), (1, 0o002000#16)] ((0o001000, 0o006521#16) :: (0o002000, 0o000123#16) :: vectors))
    (holds 0o030001#16 [(1, 0o002002#16), (6, 0o000776#16)] [(0o000776, 0o000123#16)]) = true := by decide

theorem test_mfpi_sp : steps (State.setSp (start 0o030000#16 [(6, 0o001000#16)] ((0o001000, 0o006506#16) :: vectors)) 3#2 0o044444#16)
    (holds 0o030000#16 [(6, 0o000776#16)] [(0o000776, 0o044444#16)]) = true := by decide

theorem test_mtpi_memory : steps (start 0o030011#16 [(6, 0o000774#16)] ((0o001000, 0o006637#16) :: (0o001002, 0o002000#16) :: (0o000774, 0o000000#16) :: (0o002000, 0o000007#16) :: vectors))
    (holds 0o030005#16 [(6, 0o000776#16), (7, 0o001004#16)] [(0o002000, 0o000000#16)]) = true := by decide

theorem test_mtpi_sp : steps (start 0o030000#16 [(6, 0o000774#16)] ((0o001000, 0o006606#16) :: (0o000774, 0o055550#16) :: vectors))
    (fun t => holds 0o030000#16 [(6, 0o000776#16)] [] t && decide (t.sp 3#2 = 0o055550#16)) = true := by decide

/-- JMP to a register is FATAL(REG_OPERAND) with the PC after the instruction (44_branch_control.md R256). -/
theorem test_jmp_register : (match step (start 0#16 [(1, 0o2000#16)] [(0o1000, 0o000101#16)]) with
    | .fault (.fatal r t) => decide (r = .regOperand ∧ t.reg 7 = 0o1002#16)
    | _ => false) = true := by decide

/-! ### The router, the core registers, the translator and the interrupt table (95_test_vectors.md, V-R, T3, T4) -/

/-- `MOVB #300, @#177777`: the high byte of the PSW is written, the stack pointers are switched. -/
theorem test_psw_byte_store : steps ((start 0o5#16 [(6, 0o1000#16)]
      [(0o1000, 0o112737#16), (0o1002, 0o000300#16), (0o1004, 0o177777#16)]).setSp 3#2 0o40000#16)
    (fun t => holds 0o140011#16 [(6, 0o40000#16), (7, 0o1006#16)] [] t && decide (t.sp 0#2 = 0o1000#16)) = true := by decide

/-- `MOV #1, @#177574`: no device range there, a bus error through 004. -/
theorem test_bus_error : steps (start 0#16 [(6, 0o1000#16)]
      [(0o1000, 0o012737#16), (0o1002, 0o000001#16), (0o1004, 0o177574#16), (0o4, 0o4000#16), (0o6, 0o340#16)])
    (holds 0o340#16 [(6, 0o774#16), (7, 0o4000#16)] [(0o776, 0#16), (0o774, 0o1006#16)]) = true := by decide

/-- `MOVB #101, @#177566` on a device that answers 000200: a read event, then a write event. -/
theorem test_device_byte_store : steps { start 0#16 [(6, 0o1000#16)]
      [(0o1000, 0o112737#16), (0o1002, 0o000101#16), (0o1004, 0o177566#16)] with
      cfg := { Config.default with devRanges := [⟨0o777560, 0o777567, 1⟩] }, devIn := [0o200#16] }
    (fun t => decide (t.ports = [.write 1 0o777566 0o101#16, .read 1 0o777566 0o200#16])) = true := by decide

/-- SR2 is not written and the fetch address is kept (10_state.md R38). -/
theorem test_sr2_read_only : steps (start 0#16 [] [(0o1000, 0o012737#16), (0o1002, 0o001234#16), (0o1004, 0o177576#16)])
    (fun t => decide (t.sr2 = 0o1000#16)) = true := by decide

/-- A translation with one descriptor and one address register set, in T3's terms: what it answers, and the descriptor and SR0 after. -/
def translates (b : Bank) (p : Fin 8) (par pdr : Word) (m : ModeBits) (va : Word) (wr : Bool) : Option Nat × Word × Word :=
  match translate va m wr (((State.reset.setPar b p par).setPdr b p pdr).setSr0 1#16) with
  | .ok pa t => (some pa, t.pdr b p, t.sr0)
  | .error _ t => (none, t.pdr b p, t.sr0)

/-- Rows 3, 8, 10, 14, 15 of T3. -/
theorem test_translate_1 :
    translates .kernel 0 0o007777#16 0o077406#16 0#2 0o017777#16 true = (some 0o017677, 0o077506#16, 0o000001#16) ∧
    translates .user 1 0o000200#16 0o001006#16 3#2 0o020200#16 true = (some 0o020200, 0o001106#16, 0o000001#16) ∧
    translates .user 1 0o000200#16 0o001006#16 3#2 0o020300#16 false = (none, 0o001006#16, 0o040143#16) ∧
    translates .user 6 0o000300#16 0o077016#16 3#2 0o157677#16 true = (some 0o047677, 0o077116#16, 0o000001#16) ∧
    translates .user 6 0o000300#16 0o077016#16 3#2 0o157577#16 false = (none, 0o077016#16, 0o040155#16) := by decide

/-- Rows 19, 20, 17, 22, 25 of T3. -/
theorem test_translate_2 :
    translates .user 2 0o000300#16 0o077402#16 3#2 0o040000#16 false = (some 0o030000, 0o077402#16, 0o000001#16) ∧
    translates .user 2 0o000300#16 0o077402#16 3#2 0o040000#16 true = (none, 0o077402#16, 0o020145#16) ∧
    translates .user 2 0o000300#16 0o077400#16 3#2 0o040000#16 false = (none, 0o077400#16, 0o100145#16) ∧
    translates .user 2 0o000300#16 0o000002#16 3#2 0o040100#16 true = (none, 0o000002#16, 0o020145#16) ∧
    translates .kernel 2 0o000300#16 0o077400#16 2#2 0o040000#16 true = (none, 0o077400#16, 0o100105#16) := by decide

/-- The insertions of T4. -/
theorem test_interrupt_order :
    insertIrq ⟨0o104, 1⟩ (insertIrq ⟨0o64, 6⟩ (insertIrq ⟨0o120, 6⟩ (insertIrq ⟨0o70, 3⟩ []))) =
      [⟨0o64, 6⟩, ⟨0o120, 6⟩, ⟨0o70, 3⟩, ⟨0o104, 1⟩] := by decide

/-- Cycle 1 of program P5: the WAIT, two requests arrive, the higher is delivered at once. -/
theorem test_wait_delivery : steps { start 0#16 [(6, 0o1000#16), (7, 0o1004#16)]
      [(0o1004, 0o000001#16), (0o60, 0o2100#16), (0o62, 0o200#16), (0o100, 0o2000#16), (0o102, 0o300#16)] with
      arrivals := [[⟨0o60, 4⟩, ⟨0o100, 6⟩]] }
    (fun t => holds 0o300#16 [(6, 0o774#16), (7, 0o2000#16)] [(0o776, 0#16), (0o774, 0o1006#16)] t &&
      decide (t.itab = [⟨0o60, 4⟩] ∧ t.run = .running)) = true := by decide

/-- A configuration that names a bootstrap and a word of memory: from reset, the first step runs the first bootstrap word (R380), here
`MOV @#2000, R1`. -/
def booted : State := State.resetOf { Config.default with
  bootWords := [0o013701#16, 0o002000#16]
  memInit := [(0o2000, 0o123456#16)] }

theorem test_bootstrap : booted.cfg.wf = true ∧
    steps booted (holds 0o10#16 [(1, 0o123456#16), (7, 0o1004#16)] [(0o1000, 0o013701#16), (0o2000, 0o123456#16)]) = true := by decide

/-- The host's placing of a word: the next step fetches it. -/
theorem test_with_fetch_word : steps (State.reset.withFetchWord 16 0o005200) (fun t => decide (t.reg 0 = 1#16 ∧ t.reg 7 = 0o1002#16)) = true ∧
    decodeTableWord 16 0o005200 = some (.inc ⟨.register, 0⟩) := by decide

/-! ### Witnesses: for every statement with hypotheses, a state and operands that meet all of them -/

/-- Kernel mode, translation off, SP = 001000, R1 = 002000, PC = 001002, the words named set. -/
def plain (mem : List (Nat × Word)) : State := start 0#16 [(1, 0o2000#16), (6, 0o1000#16), (7, 0o1002#16)] mem

/-- User mode with translation on: user pages 0 and 7 and kernel page 0 are 128 blocks, read-write; user page 0 lies at 07400 blocks,
so that virtual 017776 is the last word of the array. -/
def mapped : State :=
  (((((start 0o140000#16 [(6, 0o1000#16), (7, 0o1002#16)] []).setPdr .user 0 0o77406#16).setPar .user 0 0o7400#16).setPdr
    .kernel 0 0o77406#16).setPdr .user 7 0o77406#16).setSr0 1#16

/-- A state whose trap sequence pushes to ADDR_PSW first: user mode, kernel stack pointer 0, translation off, so that the push to
177776 restores the user PSW, and the second push goes to a device. The vector is still read in mode 0. -/
def pswFrame : State :=
  { start 0o140005#16 [(6, 0o40000#16), (7, 0o1002#16)] [(0o14, 0o2000#16), (0o16, 0o340#16)] with
    cfg := { Config.default with devRanges := [⟨0o777774, 0o777775, 1⟩] } }

theorem witness_EncodeOfDecode : decode 0o010001#16 = .ok (.mov ⟨.register, 0⟩ ⟨.register, 1⟩) := by decide

theorem witness_StepRuns_decoded : ∃ t, (plain [(0o1002, 0o005200#16)]).run = .running ∧
    fetch (plain [(0o1002, 0o005200#16)]) = .ok 0o005200#16 t ∧ decode 0o005200#16 = .ok (.inc ⟨.register, 0⟩) :=
  ⟨_, rfl, rfl, rfl⟩

theorem witness_StepRuns_illegal : ∃ t, (plain [(0o1002, 0o000007#16)]).run = .running ∧
    fetch (plain [(0o1002, 0o000007#16)]) = .ok 0o000007#16 t ∧ decode 0o000007#16 = .error .literalGroup :=
  ⟨_, rfl, rfl, rfl⟩

theorem witness_StepRuns_oddPc : ∃ t, ((plain []).setReg 7 1#16).run = .running ∧
    fetch ((plain []).setReg 7 1#16) = .error (.trap 0o004#16) t := ⟨_, rfl, rfl⟩

theorem witness_StepRuns_boundary : ((plain []).run = .running ∧ (plain []).arrivals = []) ∧
    ∃ v, acceptAll [⟨0o60#8, 4#3⟩] { { plain [] with arrivals := [[⟨0o60#8, 4#3⟩]], run := .waiting } with arrivals := [] } =
      .next v := ⟨⟨rfl, rfl⟩, _, rfl⟩

/-- A turn whose second request is fatal, and one whose request is refused: the boundary answers it (log 10). -/
theorem witness_StepRuns_badRequest :
    (∃ f, acceptAll [⟨0o60#8, 4#3⟩, ⟨0o61#8, 4#3⟩] (plain []) = .fault f ∧
      boundary { plain [] with arrivals := [[⟨0o60#8, 4#3⟩, ⟨0o61#8, 4#3⟩]] } = .fault f) ∧
    acceptAll [⟨0#8, 4#3⟩] (plain []) = .refused .vectorZeroRequest ∧
    boundary { plain [] with arrivals := [[⟨0#8, 4#3⟩]] } = .refused .vectorZeroRequest := ⟨⟨_, rfl, rfl⟩, rfl, rfl⟩

theorem witness_Fetch : (plain []).reaches (plain []).cm ((plain []).reg PC) .word false ∧
    ∃ t, fetch ((plain []).setReg 7 1#16) = .error (.trap 0o004#16) t :=
  ⟨⟨0o1002, by decide, by decide, by decide⟩, _, rfl⟩

/-- A fetch whose translation faults: R7 is kept and SR2 takes it, SR0 records the fault (60_exceptions.md R355, scenarios 3 and 7). -/
theorem witness_Fetch_fault : ∃ t, fetch (mapped.setReg 7 0o20000#16) = .error (.trap 0o250#16) t ∧ t.reg 7 = 0o20000#16 ∧
    t.sr2 = 0o20000#16 ∧ t.sr0 = 0o100143#16 := ⟨_, rfl, by decide, by decide, by decide⟩

theorem witness_Stopped : ({ plain [] with run := .halted } : State).run = .halted ∧
    ({ plain [] with run := .fatal .doubleFault } : State).run = .fatal .doubleFault ∧
    ({ plain [] with run := .waiting } : State).run = .waiting := ⟨rfl, rfl, rfl⟩

/-- A waiting machine that goes on waiting, and one to which a request is delivered. -/
theorem witness_Wait : (∃ t, step { plain [] with run := .waiting } = .next t ∧ t.run = .waiting) ∧
    ∃ t, step { plain [(0o60, 0o2100#16), (0o62, 0o200#16)] with run := .waiting, arrivals := [[⟨0o60#8, 4#3⟩]] } = .next t ∧
      t.run = .running := ⟨⟨_, rfl, rfl⟩, _, rfl, rfl⟩

/-- A state that keeps the invariant and takes a step: the reset state with one instruction placed. -/
theorem witness_StepKeepsInvariant : State.Inv (State.reset.withFetchWord 16 0o005200) ∧
    ∃ t, step (State.reset.withFetchWord 16 0o005200) = .next t :=
  ⟨⟨by decide, by decide, .nil, (fun e h => by cases h), by decide⟩, _, rfl⟩

/-- A legal configuration; the first and the last bootstrap word, and the addresses beside the region. -/
theorem witness_ResetValues : Config.default.wf = true ∧ 0 < 29 ∧ 28 < 29 ∧ 0o776 % 2 = 0 ∧ 0o776 < Config.default.bootBase ∧
    0o1072 % 2 = 0 ∧ Config.default.bootBase + 58 ≤ 0o1072 := by decide

/-- Another legal configuration, with a device range and its own boot address and vector, for the statements over configurations. -/
theorem witness_config : Config.wf { Config.default with
      devRanges := [⟨0o777560, 0o777567, 1⟩]
      bootBase := 0
      bootEntry := 0o40#16
      vecBpt := 0o24#16 } = true ∧ (plain []).cfg.wf = true := by decide

theorem witness_RegisterOperandStops : (⟨.register, 1⟩ : Operand).mode = .register ∧ (⟨.register, 1⟩ : Operand).reg ≠ SP ∧
    ∃ v t, pop (plain [(0o1000, 0o5#16)]) = .ok v t := ⟨rfl, by decide, _, _, rfl⟩

/-- Each addressing mode, its pointer and its index word at an even address of the array. -/
theorem witness_AddressingModes : (⟨.register, 1⟩ : Operand).reachable (plain []) ∧ (⟨.regDeferred, 1⟩ : Operand).reachable (plain []) ∧
    (⟨.autoInc, 1⟩ : Operand).reachable (plain []) ∧ (⟨.autoDec, 1⟩ : Operand).reachable (plain []) ∧
    (⟨.autoIncDeferred, 1⟩ : Operand).reachable (plain []) ∧ (⟨.autoDecDeferred, 1⟩ : Operand).reachable (plain []) ∧
    (⟨.indexed, 1⟩ : Operand).reachable (plain [(0o1002, 0o10#16)]) ∧
    (⟨.indexedDeferred, 1⟩ : Operand).reachable (plain [(0o1002, 0o10#16)]) :=
  ⟨trivial, trivial, trivial, trivial, ⟨0o2000, by decide, by decide, by decide⟩, ⟨0o1776, by decide, by decide, by decide⟩,
    ⟨0o1002, by decide, by decide, by decide⟩, ⟨0o1002, by decide, by decide, by decide⟩,
    ⟨0o2010, by decide, by decide, by decide⟩⟩

/-- The first word and the last byte of the array, read and written, with translation off and on. -/
theorem witness_MemoryArrayAccess : (plain []).reachesAt 0#2 0#16 .word false 0 ∧ (plain []).reachesAt 0#2 1#16 .byte false 1 ∧
    (plain []).reachesAt 0#2 0#16 .word true 0 ∧ (plain []).reachesAt 0#2 0#16 .byte true 0 ∧
    mapped.reachesAt 3#2 0o17776#16 .word false 0o757776 ∧ mapped.reachesAt 3#2 0o17777#16 .byte false 0o757777 ∧
    mapped.reachesAt 3#2 0o17776#16 .word true 0o757776 ∧ mapped.reachesAt 3#2 0o17777#16 .byte true 0o757777 := by
  refine ⟨⟨?_, ?_, ?_⟩, ⟨?_, ?_, ?_⟩, ⟨?_, ?_, ?_⟩, ⟨?_, ?_, ?_⟩, ⟨?_, ?_, ?_⟩, ⟨?_, ?_, ?_⟩, ⟨?_, ?_, ?_⟩, ⟨?_, ?_, ?_⟩⟩ <;> decide

/-- The clauses beyond the array: a read and a write that the translator refuses (user page 1 has no access), a word write at an odd
address with W set, a byte read and a byte write of an odd and an even address, of the PSW and of a device. -/
theorem witness_MemoryAccess_elsewhere :
    (∃ e t, translate 0o20000#16 3#2 false mapped = .error e t) ∧ (∃ e t, translate 0o20000#16 3#2 true mapped = .error e t) ∧
    (∃ u, translate 1#16 3#2 true mapped = .ok 0o740001 u ∧ u.pdr .user 0 = 0o77506#16) ∧
    translate 1#16 0#2 false (plain []) = .ok 1 (plain []) ∧ translate 0o177777#16 0#2 true (plain []) = .ok 0o777777 (plain []) ∧
    physRead 0o777776 (plain []) = .ok 0#16 (plain []) ∧ coreRegAt (plain []).cfg 0o777776 = some .psw ∧
    translate 0o177774#16 0#2 true pswFrame = .ok 0o777774 pswFrame ∧ coreRegAt pswFrame.cfg 0o777774 = none ∧
    deviceAt pswFrame.cfg.devRanges 0o777774 = some ⟨0o777774, 0o777775, 1⟩ ∧
    physRead 0o760000 (plain []) = .error (.trap 0o004#16) (plain []) :=
  ⟨⟨_, _, rfl⟩, ⟨_, _, rfl⟩, ⟨_, rfl, by decide⟩, rfl, rfl, rfl, by decide, rfl, by decide, by decide, rfl⟩

theorem witness_WriteThenRead : (plain []).writable (.reg 0) .byte ∧ (∃ t, writeLoc (.reg 0) .byte 0o300#16 (plain []) = .ok () t) ∧
    (plain []).writable (.mem 0o2001#16) .byte ∧
    ∃ t, writeLoc (.mem 0o2001#16) .byte 0o300#16 (plain [(0o2000, 0#16)]) = .ok () t :=
  ⟨trivial, ⟨_, rfl⟩, ⟨0o2001, by decide, by decide, by decide⟩, _, rfl⟩

/-- Each clause of the router at the ends of its range: the ends of the array, a core register, both ends of a device's range, and an
address that nothing answers. -/
theorem witness_Router : 1 % 2 = 1 ∧ 0o777777 % 2 = 1 ∧
    (0 % 2 = 0 ∧ 0 < Config.default.ioBase) ∧
    (0o757776 % 2 = 0 ∧ 0o757776 < Config.default.ioBase) ∧
    (Config.default.ioBase ≤ 0o777776 ∧ coreRegAt Config.default 0o777776 = some .psw) ∧
    (Config.default.ioBase ≤ 0o777560 ∧ coreRegAt Config.default 0o777560 = none ∧
      0o777560 ≤ 0o777560 ∧ 0o777566 ≤ 0o777567 ∧ coreRegAt Config.default 0o777566 = none) ∧
    (Config.default.ioBase ≤ 0o760000 ∧ coreRegAt Config.default 0o760000 = none ∧ ¬ 0o777560 ≤ 0o760000) := by
  decide

/-- The first and the last register of each block, the single registers, and the addresses just outside. -/
theorem witness_CoreRegisterMap : Config.default.wf = true ∧
    [0o772300, 0o772316, 0o772340, 0o772356, 0o777600, 0o777656, 0o777572, 0o777576, 0o777776, 0o772320,
      0o777574, 0o777660].map (coreRegAt Config.default) =
    [some (.pdr .kernel 0), some (.pdr .kernel 7), some (.par .kernel 0), some (.par .kernel 7), some (.pdr .user 0),
      some (.par .user 7), some .sr0, some .sr2, some .psw, none, none, none] := by decide

theorem witness_TranslationDisabled : (plain []).sr0.getLsbD 0 = false ∧ (plain []).cfg = Config.default := by decide

/-- Upward at equality, downward at equality, read of a read-only page (rows 8, 14 and 19 of T3). -/
theorem witness_TranslationSucceeds : mapped.sr0.getLsbD 0 = true ∧ (0 : Nat) = (0o017777#16).toNat / 8192 ∧
    ((0o001006#16 : Word).toNat / 2 % 4 = 3 ∧ (0o001006#16 : Word).getLsbD 3 = false ∧
      (0o020200#16).toNat / 64 % 128 ≤ (0o001006#16 : Word).toNat / 256 % 128) ∧
    ((0o077016#16 : Word).toNat / 2 % 4 = 3 ∧ (0o077016#16 : Word).getLsbD 3 = true ∧
      (0o077016#16 : Word).toNat / 256 % 128 ≤ (0o157677#16).toNat / 64 % 128) ∧
    ((0o077402#16 : Word).toNat / 2 % 4 = 1 ∧ (0o040000#16).toNat / 64 % 128 ≤ (0o077402#16 : Word).toNat / 256 % 128) := by decide

/-- No access, both codes; a write to a read-only page; a length violation upward and downward (rows 17, 18, 20, 10 and 15). -/
theorem witness_TranslationFaults : mapped.sr0.getLsbD 0 = true ∧ (0o077400#16 : Word).toNat / 2 % 4 = 0 ∧
    (0o077404#16 : Word).toNat / 2 % 4 = 2 ∧ (0o077402#16 : Word).toNat / 2 % 4 = 1 ∧
    ((0o001006#16 : Word).toNat / 2 % 4 = 3 ∧ (0o001006#16 : Word).getLsbD 3 = false ∧
      (0o001006#16 : Word).toNat / 256 % 128 < (0o020300#16).toNat / 64 % 128) ∧
    ((0o077016#16 : Word).toNat / 2 % 4 = 3 ∧ (0o077016#16 : Word).getLsbD 3 = true ∧
      (0o157577#16).toNat / 64 % 128 < (0o077016#16 : Word).toNat / 256 % 128) := by decide

theorem witness_SetPsw : (0o000017#16 : Word).extractLsb' 14 2 = (plain []).cm ∧ (0o140000#16 : Word).extractLsb' 14 2 ≠ (plain []).cm := by
  decide

/-- The frame and the vector of the breakpoint trap: from kernel mode, and from user mode with translation on. -/
theorem witness_TrapSequence : (0o14#16 : Word).getLsbD 0 = false ∧
    (plain []).reachesAt 0#2 ((plain []).spOf 0#2 - 2) .word true 0o776 ∧
    (plain []).reachesAt 0#2 ((plain []).spOf 0#2 - 4) .word true 0o774 ∧
    (plain []).reachesAt 0#2 0o14#16 .word false 0o14 ∧ (plain []).reachesAt 0#2 (0o14#16 + 2) .word false 0o16 := by
  refine ⟨by decide, ⟨?_, ?_, ?_⟩, ⟨?_, ?_, ?_⟩, ⟨?_, ?_, ?_⟩, ⟨?_, ?_, ?_⟩⟩ <;> decide

/-- The four accesses of a sequence whose first push lands on ADDR_PSW. -/
theorem witness_TrapSequence_atPsw : ∃ a b c d,
    memWriteAs 0#2 (pswFrame.spOf 0#2 - 2) .word pswFrame.psw
      ((pswFrame.setPsw ((pswFrame.psw &&& 0o007777#16) ||| (pswFrame.cm.zeroExtend 16 <<< 12))).setReg SP
        (pswFrame.spOf 0#2 - 2)) = .ok () a ∧ a.cm = 3#2 ∧
    memWriteAs 0#2 (pswFrame.spOf 0#2 - 4) .word (pswFrame.reg PC) (a.setSp 0#2 (pswFrame.spOf 0#2 - 4)) = .ok () b ∧
    memReadAs 0#2 0o14#16 .word b = .ok 0o2000#16 c ∧ memReadAs 0#2 (0o14#16 + 2) .word c = .ok 0o340#16 d :=
  ⟨_, _, _, _, rfl, by decide, rfl, rfl, rfl⟩

theorem witness_ProgrammedTraps :
    mapped.cfg.wf = true ∧ (Instr.trap 1#8, 0o034#16) ∈ [(Instr.emt 1#8, mapped.cfg.vecEmt), (.trap 1#8, mapped.cfg.vecTrap),
      (.bpt, mapped.cfg.vecBpt), (.iot, mapped.cfg.vecIot)] ∧
    (mapped.setSp 0#2 0o1000#16).reachesAt 0#2 ((mapped.setSp 0#2 0o1000#16).spOf 0#2 - 2) .word true 0o776 ∧
    (mapped.setSp 0#2 0o1000#16).reachesAt 0#2 ((mapped.setSp 0#2 0o1000#16).spOf 0#2 - 4) .word true 0o774 ∧
    (mapped.setSp 0#2 0o1000#16).reachesAt 0#2 0o34#16 .word false 0o34 ∧
    (mapped.setSp 0#2 0o1000#16).reachesAt 0#2 (0o34#16 + 2) .word false 0o36 := by
  refine ⟨by decide, by decide, ⟨?_, ?_, ?_⟩, ⟨?_, ?_, ?_⟩, ⟨?_, ?_, ?_⟩, ⟨?_, ?_, ?_⟩⟩ <;> decide

/-- Memory with the words of one trap and its return. -/
def trapState : State := start 0o140005#16 [(6, 0o40000#16), (7, 0o1002#16)] [(0o34, 0o2000#16), (0o36, 0o340#16)] |>.setSp 0#2 0o1000#16

theorem witness_TrapRecordsPreviousMode : ∃ t, takeTrap 0o34#16 trapState = .next t ∧ t.pm = 3#2 ∧
    trapState.reachesAt 0#2 (trapState.spOf 0#2 - 2) .word true 0o776 ∧
    trapState.reachesAt 0#2 (trapState.spOf 0#2 - 4) .word true 0o774 ∧
    trapState.reachesAt 0#2 0o34#16 .word false 0o34 ∧ trapState.reachesAt 0#2 (0o34#16 + 2) .word false 0o36 := by
  refine ⟨_, rfl, by decide, ⟨?_, ?_, ?_⟩, ⟨?_, ?_, ?_⟩, ⟨?_, ?_, ?_⟩, ⟨?_, ?_, ?_⟩⟩ <;> decide

theorem witness_TrapOnOddStack : (0o34#16 : Word).getLsbD 0 = false ∧ ((plain []).setReg 6 0o1001#16 |>.spOf 0#2).getLsbD 0 = true ∧
    (0o35#16 : Word).getLsbD 0 = true := by decide

/-- A return in kernel mode and one in user mode. -/
theorem witness_ReturnRestores : (plain []).canPop ∧ ((plain []).setReg SP ((plain []).reg SP + 2)).canPop ∧ (plain []).cm = 0#2 ∧
    mapped.canPop ∧ (mapped.setReg SP (mapped.reg SP + 2)).canPop ∧ mapped.cm ≠ 0#2 :=
  ⟨⟨0o1000, by decide, by decide, by decide⟩, ⟨0o1002, by decide, by decide, by decide⟩, by decide,
    ⟨0o741000, by decide, by decide, by decide⟩, ⟨0o741002, by decide, by decide, by decide⟩, by decide⟩

theorem witness_ReturnReverses : trapState.reachesAt 0#2 (trapState.spOf 0#2 - 2) .word true 0o776 ∧
    trapState.reachesAt 0#2 (trapState.spOf 0#2 - 4) .word true 0o774 ∧ (0o776 : Nat) ≠ 0o774 ∧
    trapState.trapReady 0o34#16 ∧ ∃ t, takeTrap 0o34#16 trapState = .next t ∧ t.cm = 0#2 :=
  ⟨⟨by decide, by decide, by decide⟩, ⟨by decide, by decide, by decide⟩, by decide,
    ⟨⟨0o776, by decide, by decide, by decide⟩, ⟨0o774, by decide, by decide, by decide⟩,
      ⟨0o34, by decide, by decide, by decide⟩, ⟨0o36, by decide, by decide, by decide⟩⟩, _, rfl, by decide⟩

/-- The two sides of the step size: R5 and R6 with a byte operand, R5 with a word operand. -/
theorem witness_StepSize : (if Size.byte = .byte ∧ (5 : Reg).val < 6 then 1#16 else 2#16) = 1#16 ∧
    (if Size.byte = .byte ∧ (6 : Reg).val < 6 then 1#16 else 2#16) = 2#16 ∧
    (if Size.word = .byte ∧ (5 : Reg).val < 6 then 1#16 else 2#16) = 2#16 := by decide

theorem witness_Privileged : mapped.cm ≠ 0#2 ∧ (plain []).cm = 0#2 := by decide

/-- An ordered table into which a request of equal priority goes between two others. -/
theorem witness_RequestInsertion : [(⟨0o64#8, 6#3⟩ : IrqRequest), ⟨0o120#8, 6#3⟩].Pairwise (fun e f => outranks e f = true) := by decide

/-- Each clause of the acceptance: an odd vector, a ninth request, the eighth, and vector 0. -/
theorem witness_RequestAcceptance : (0o61#8 : Byte).getLsbD 0 = true ∧ ((0o60#8 : Byte).getLsbD 0 = false ∧ (0o60#8 : Byte) ≠ 0#8) ∧
    (plain []).cfg.itabSlots ≤ ({ plain [] with itab := List.replicate 8 ⟨0o60#8, 4#3⟩ } : State).itab.length ∧
    ({ plain [] with itab := List.replicate 7 ⟨0o60#8, 4#3⟩ } : State).itab.length < (plain []).cfg.itabSlots := by decide

/-- An empty table, a turn of the environment, a request of the current priority, and one above it that is delivered. -/
theorem witness_Delivery : (plain []).itab = [] ∧ (plain []).run = .running ∧ (∃ t, environmentTurn (plain []) = .next t) ∧
    (∃ e, ({ plain [] with itab := [⟨0o60#8, 0#3⟩] } : State).itab = e :: [] ∧ e.priority.toNat ≤ ((plain []).psw.extractLsb' 5 3).toNat) ∧
    ∃ t, (0o60#8 : Byte) ≠ 0#8 ∧ ((plain []).psw.extractLsb' 5 3).toNat < (1#3).toNat ∧
      takeTrap ((0o60#8 : Byte).zeroExtend 16)
        { plain [(0o60, 0o2100#16), (0o62, 0o200#16)] with itab := [⟨0o60#8, 1#3⟩] } = .next t :=
  ⟨rfl, rfl, ⟨_, rfl⟩, ⟨_, rfl, by decide⟩, _, by decide, by decide, rfl⟩

/-- A delivery whose trap sequence faults: an odd kernel stack pointer. -/
theorem witness_Delivery_fault : ∃ f, takeTrap ((0o60#8 : Byte).zeroExtend 16)
    { (plain []).setReg SP 0o1001#16 with itab := [⟨0o60#8, 1#3⟩] } = .fault f := ⟨_, rfl⟩

/-- A word in memory at 002000, where R1 points. -/
def data : State := plain [(0o2000, 0o123456#16)]

theorem witness_MoveResults :
    (∃ u t v dl, sourceAndDest ⟨.register, 1⟩ ⟨.regDeferred, 1⟩ .word data = .ok (v, dl) u ∧
      writeLoc dl .word v (u.setCC (moveFlags .word v data.cc.c)) = .ok () t) ∧
    (∃ u v, sourceAndDest ⟨.regDeferred, 1⟩ ⟨.register, 2⟩ .byte data = .ok (v, .reg 2) u) ∧
    ∃ u t v a, sourceAndDest ⟨.register, 1⟩ ⟨.autoInc, 1⟩ .byte data = .ok (v, .mem a) u ∧
      memWriteAs u.cm a .byte v (u.setCC (moveFlags .byte v data.cc.c)) = .ok () t :=
  ⟨⟨_, _, _, _, rfl, rfl⟩, ⟨_, _, rfl⟩, _, _, _, _, rfl, rfl⟩

theorem witness_CompareAndTest : (∃ u a dl b, sourceAndOld ⟨.register, 1⟩ ⟨.regDeferred, 1⟩ .byte data = .ok (a, dl, b) u) ∧
    ∃ u dl b, destAndOld ⟨.autoInc, 1⟩ .word data = .ok (dl, b) u := ⟨⟨_, _, _, _, rfl⟩, _, _, _, rfl⟩

theorem witness_LogicResults : (∃ u t a dl b, sourceAndOld ⟨.register, 1⟩ ⟨.regDeferred, 1⟩ .byte data = .ok (a, dl, b) u ∧
      writeLoc dl .byte (b &&& ~~~a) (u.setCC (moveFlags .byte (b &&& ~~~a) data.cc.c)) = .ok () t) ∧
    (∃ u t a dl b, sourceAndOld ⟨.register, 1⟩ ⟨.register, 2⟩ .word data = .ok (a, dl, b) u ∧
      writeLoc dl .word (b ||| a) (u.setCC (moveFlags .word (b ||| a) data.cc.c)) = .ok () t) ∧
    ∃ u t dl b, destAndOld ⟨.autoInc, 1⟩ .word data = .ok (dl, b) u ∧
      writeLoc dl .word (b ^^^ u.reg 1) (u.setCC (moveFlags .word (b ^^^ u.reg 1) data.cc.c)) = .ok () t :=
  ⟨⟨_, _, _, _, _, rfl, rfl⟩, ⟨_, _, _, _, _, rfl, rfl⟩, _, _, _, _, rfl, rfl⟩

theorem witness_AddAndSubtract : (∃ u t a dl b, sourceAndOld ⟨.regDeferred, 1⟩ ⟨.register, 2⟩ .word data = .ok (a, dl, b) u ∧
      writeLoc dl .word (BitVec.ofInt 16 (a.toInt + b.toInt))
        (u.setCC (exactFlags .word (a.toInt + b.toInt) (decide (65536 ≤ a.toNat + b.toNat)))) = .ok () t) ∧
    ∃ u t a dl b, sourceAndOld ⟨.register, 1⟩ ⟨.regDeferred, 1⟩ .word data = .ok (a, dl, b) u ∧
      writeLoc dl .word (BitVec.ofInt 16 (b.toInt - a.toInt))
        (u.setCC (exactFlags .word (b.toInt - a.toInt) (decide (b.toNat < a.toNat)))) = .ok () t :=
  ⟨⟨_, _, _, _, _, rfl, rfl⟩, _, _, _, _, _, rfl, rfl⟩

/-- The old value, and a store of the narrowed result; every clause differs only in the exact result. -/
theorem witness_SingleOperand : (∃ u d dl, destAndOld ⟨.regDeferred, 1⟩ .byte data = .ok (dl, d) u ∧
      ∀ (e : Int) (f : CC), ∃ t, writeLoc (.reg 0) .byte (carried .byte e) (u.setCC f) = .ok () t) ∧
    ∃ u d dl t, destAndOld ⟨.autoInc, 1⟩ .word data = .ok (dl, d) u ∧
      writeLoc dl .word (carried .word (signedOf .word d + 1)) (u.setCC (exactFlags .word (signedOf .word d + 1) false)) = .ok () t :=
  ⟨⟨_, _, _, rfl, fun _ _ => ⟨_, rfl⟩⟩, _, _, _, _, rfl, rfl⟩

theorem witness_RotateAndShift : ∃ u d dl t, destAndOld ⟨.regDeferred, 1⟩ .byte data = .ok (dl, d) u ∧
    writeLoc dl .byte (carried .byte (2 * signedOf .byte d)) (u.setCC (rotateFlags .byte (carried .byte (2 * signedOf .byte d)) true)) =
      .ok () t := ⟨_, _, _, _, rfl, rfl⟩

theorem witness_ClearExtendSwap : (∃ u t dl, resolve ⟨.regDeferred, 1⟩ .byte data = .ok dl u ∧
      writeLoc dl .byte 0#16 (u.setCC ⟨false, true, false, false⟩) = .ok () t) ∧
    (∃ u t dl, resolve ⟨.register, 1⟩ .word data = .ok dl u ∧ writeLoc dl .word 0#16 (u.setCC ⟨false, true, false, false⟩) = .ok () t) ∧
    ∃ u t dl d, destAndOld ⟨.autoInc, 1⟩ .word data = .ok (dl, d) u ∧
      writeLoc dl .word (BitVec.ofNat 16 (d.toNat % 256 * 256 + d.toNat / 256))
        (u.setCC ⟨decide (0o200 ≤ d.toNat / 256), decide (d.toNat / 256 = 0), false, false⟩) = .ok () t :=
  ⟨⟨_, _, _, rfl, rfl⟩, ⟨_, _, _, rfl, rfl⟩, _, _, _, _, rfl, rfl⟩

/-- A source value, an even register with its odd partner, an odd register. -/
theorem witness_Multiply : (∃ u v, sourceValue ⟨.regDeferred, 1⟩ .word data = .ok v u) ∧ (3 : Reg).val % 2 = 1 ∧
    (2 : Reg).val % 2 = 0 ∧ (3 : Reg).val = (2 : Reg).val + 1 := ⟨⟨_, _, rfl⟩, by decide⟩

/-- A zero divisor, a quotient at each end of the range, and one beyond each end. -/
theorem witness_Divide : (∃ u, sourceValue ⟨.register, 0⟩ .word data = .ok 0#16 u) ∧ (3 : Reg).val = (2 : Reg).val / 2 * 2 + 1 ∧
    ((65535 : Int) = 32767 * 2 + 1 ∧ (1 : Int).natAbs < (2 : Int).natAbs ∧ (0 : Int) ≤ 1 * 65535) ∧
    ((-32768 : Int) = -32768 * 1 + 0 ∧ (0 : Int).natAbs < (1 : Int).natAbs ∧ (0 : Int) ≤ 0 * -32768) ∧
    ((65536 : Int) = 65536 * 1 + 0 ∧ (32767 : Int) < 65536) ∧ ((65536 : Int) = -65536 * -1 + 0 ∧ (-65536 : Int) < -32768) :=
  ⟨⟨_, rfl⟩, by decide⟩

/-- Counts 0, 31, -1 and -32. -/
theorem witness_Shift : (∃ u v, sourceValue ⟨.regDeferred, 1⟩ .word data = .ok v u) ∧ (0o177700#16 : Word).toNat % 64 = 0 ∧
    (0o37#16 : Word).toNat % 64 = 31 ∧ (0o77#16 : Word).toNat % 64 + 1 = 64 ∧ (0o40#16 : Word).toNat % 64 + 32 = 64 ∧
    (3 : Reg).val = (3 : Reg).val / 2 * 2 + 1 := ⟨⟨_, _, rfl⟩, by decide⟩

theorem witness_LoopAndJump : ∃ u a, resolve ⟨.regDeferred, 1⟩ .word data = .ok (.mem a) u := ⟨_, _, rfl⟩

theorem witness_SubroutineLinkage : (∃ u t a, resolve ⟨.regDeferred, 1⟩ .word data = .ok (.mem a) u ∧
      memWriteAs u.cm (u.reg SP - 2) .word (u.reg 5) (u.setReg SP (u.reg SP - 2)) = .ok () t) ∧
    (∃ u w, memReadAs data.cm (data.reg SP) .word (data.setReg PC (data.reg 5)) = .ok w u) ∧
    ∃ u w, memReadAs data.cm (data.reg PC + 4) .word ((data.setReg SP (data.reg PC + 4)).setReg PC (data.reg 5)) = .ok w u :=
  ⟨⟨_, _, _, rfl, rfl⟩, ⟨_, _, rfl⟩, _, _, rfl⟩

theorem witness_MoveFromPrevious : (∃ t, memWriteAs data.cm (data.reg SP - 2) .word (data.reg SP)
      ((data.setCC (moveFlags .word (data.reg SP) data.cc.c)).setReg SP (data.reg SP - 2)) = .ok () t) ∧
    ∃ u u' t a v, resolve ⟨.regDeferred, 1⟩ .word data = .ok (.mem a) u ∧ memReadAs data.pm a .word u = .ok v u' ∧
      memWriteAs u'.cm (u'.reg SP - 2) .word v ((u'.setCC (moveFlags .word v data.cc.c)).setReg SP (u'.reg SP - 2)) = .ok () t :=
  ⟨⟨_, rfl⟩, _, _, _, _, _, rfl, rfl, rfl⟩

theorem witness_MoveToPrevious : ∃ p u t v a, pop data = .ok v p ∧ resolve ⟨.regDeferred, 1⟩ .word p = .ok (.mem a) u ∧
    memWriteAs data.pm a .word v (u.setCC (moveFlags .word v data.cc.c)) = .ok () t := ⟨_, _, _, _, _, rfl, rfl, rfl⟩

/-! ### Every instruction is ready somewhere -/

theorem plain_reaches (va : Word) (sz : Size) (wr : Bool) (pa : Nat) (h : (plain []).mapped 0#2 va wr = some pa)
    (h1 : pa < (plain []).cfg.ioBase) (h2 : pa % 2 = 0) : (plain []).reaches 0#2 va sz wr := ⟨pa, h, h1, fun _ => h2⟩

/-- R0 and (R1), the operands of the forms below. -/
abbrev r0 : Operand := ⟨.register, 0⟩

abbrev at1 : Operand := ⟨.regDeferred, 1⟩

theorem at1_reachable (s : State) : at1.reachable s := trivial

theorem at1_reaches (sz : Size) (wr : Bool) : (plain []).reaches 0#2 0o2000#16 sz wr := by
  cases wr <;> exact plain_reaches _ _ _ 0o2000 (by decide) (by decide) (by decide)

theorem at1_readable (sz : Size) : at1.readableIn sz (plain []) := ⟨trivial, at1_reaches sz false⟩

theorem at1_writable (sz : Size) : at1.writableIn sz (plain []) := ⟨trivial, at1_reaches sz true⟩

theorem r0_readable (sz : Size) (s : State) : r0.readableIn sz s := ⟨trivial, trivial⟩

theorem r0_writable (sz : Size) (s : State) : r0.writableIn sz s := ⟨trivial, trivial⟩

theorem witness_ready_double : ∀ i ∈ [Instr.mov r0 at1, .movb r0 at1, .cmp r0 at1, .cmpb r0 at1, .bit r0 at1, .bitb r0 at1, .bic r0 at1,
    .bicb r0 at1, .bis r0 at1, .bisb r0 at1, .add r0 at1, .sub r0 at1], i.ready (plain []) := by
  simp only [List.forall_mem_cons, List.not_mem_nil, false_implies, implies_true, and_true]
  have b : ∀ sz, bothReadable r0 at1 sz (plain []) := fun sz => ⟨r0_readable sz _, at1_readable sz⟩
  have w : ∀ sz, thenWritable r0 at1 sz (plain []) := fun sz => ⟨r0_readable sz _, at1_writable sz⟩
  exact ⟨w _, w _, b _, b _, b _, b _, ⟨b _, w _⟩, ⟨b _, w _⟩, ⟨b _, w _⟩, ⟨b _, w _⟩, ⟨b _, w _⟩, ⟨b _, w _⟩⟩

theorem witness_ready_single : ∀ i ∈ [Instr.com at1, .comb at1, .inc at1, .incb at1, .dec at1, .decb at1, .neg at1, .negb at1, .adc at1,
    .adcb at1, .sbc at1, .sbcb at1, .ror at1, .rorb at1, .rol at1, .rolb at1, .asr at1, .asrb at1, .asl at1, .aslb at1, .swab at1,
    .xor 3 at1], i.ready (plain []) := by
  simp only [List.forall_mem_cons, List.not_mem_nil, false_implies, implies_true, and_true]
  have b : ∀ sz, at1.readableIn sz (plain []) ∧ at1.writableIn sz (plain []) := fun sz => ⟨at1_readable sz, at1_writable sz⟩
  exact ⟨b _, b _, b _, b _, b _, b _, b _, b _, b _, b _, b _, b _, b _, b _, b _, b _, b _, b _, b _, b _, b _, b _⟩

theorem witness_ready_rest : ∀ i ∈ [Instr.clr at1, .clrb at1, .sxt at1, .tst at1, .tstb at1, .mul 2 at1, .div 2 at1, .ash 2 at1, .ashc 2 at1],
    i.ready (plain []) := by
  simp only [List.forall_mem_cons, List.not_mem_nil, false_implies, implies_true, and_true]
  exact ⟨at1_writable _, at1_writable _, at1_writable _, at1_readable _, at1_readable _, at1_readable _, at1_readable _,
    at1_readable _, at1_readable _⟩

theorem witness_ready_branch : ∀ i ∈ [Instr.br 3#8, .bne 3#8, .beq 3#8, .bge 3#8, .blt 3#8, .bgt 3#8, .ble 3#8, .bpl 3#8, .bmi 3#8,
    .bhi 3#8, .blos 3#8, .bvc 3#8, .bvs 3#8, .bcc 3#8, .bcs 3#8, .sob 0 2#6, .ccClear 5#4, .ccSet 2#4, .reset, .spl 3#3],
    i.ready (plain []) := by
  simp only [List.forall_mem_cons, List.not_mem_nil, false_implies, implies_true, and_true, Instr.ready]

theorem plain_stack (va : Word) (wr : Bool) (h : va = 0o776#16 ∨ va = 0o774#16 ∨ va = 0o1000#16 ∨ va = 0o1002#16 ∨ va = 0o1006#16) :
    (plain []).reaches 0#2 va .word wr := by
  rcases h with rfl | rfl | rfl | rfl | rfl <;> cases wr <;>
    exact ⟨_, rfl, by decide, fun _ => by decide⟩

theorem witness_ready_control : (Instr.jmp at1).ready (plain []) ∧ (Instr.jsr 5 at1).ready (plain []) ∧
    (Instr.rts 5).ready (plain []) ∧ (Instr.mark 2#6).ready (plain []) ∧ Instr.halt.ready (plain []) ∧ Instr.wait.ready (plain []) ∧
    Instr.rti.ready (plain []) ∧ Instr.rtt.ready (plain []) := by
  have pop : (plain []).canPop := plain_stack _ _ (by decide)
  have pop2 : ((plain []).setReg SP ((plain []).reg SP + 2)).canPop := plain_stack 0o1002#16 false (by decide)
  have push : (at1.after .word (plain [])).canPush := plain_stack 0o776#16 true (by decide)
  have mark : (plain []).reaches (plain []).cm ((plain []).reg PC + countBytes 2#6) .word false :=
    plain_stack 0o1006#16 false (by decide)
  exact ⟨⟨rfl, trivial⟩, ⟨rfl, trivial, push⟩, pop, mark, (by show (plain []).cm = 0#2; decide), (by show (plain []).cm = 0#2; decide), ⟨pop, pop2⟩, ⟨pop, pop2⟩⟩

theorem witness_ready_previous : (Instr.mfpi ⟨.register, 6⟩).ready (plain []) ∧ (Instr.mfpi at1).ready (plain []) ∧
    (Instr.mtpi ⟨.register, 6⟩).ready (plain []) ∧ (Instr.mtpi at1).ready (plain []) := by
  have pop : (plain []).canPop := plain_stack _ _ (by decide)
  have push : (plain []).canPush := plain_stack 0o776#16 true (by decide)
  refine ⟨.inl ⟨rfl, rfl, push⟩, .inr ⟨rfl, trivial, ?_, push⟩, ⟨pop, .inl ⟨rfl, rfl⟩⟩, ⟨pop, .inr ⟨rfl, trivial, ?_⟩⟩⟩
  · intro a h; cases h; exact at1_reaches .word false
  · intro a h; cases h; exact at1_reaches .word true

theorem witness_ready_traps : ∀ i ∈ [Instr.emt 1#8, .trap 1#8, .bpt, .iot], i.ready (plain []) := by
  simp only [List.forall_mem_cons, List.not_mem_nil, false_implies, implies_true, and_true]
  have k : ∀ v : Word, v ∈ [0o14#16, 0o20#16, 0o30#16, 0o34#16] → (plain []).trapReady v := by
    intro v hv
    refine ⟨plain_stack 0o776#16 true (by decide), plain_stack 0o774#16 true (by decide), ?_, ?_⟩ <;>
      (simp only [List.mem_cons, List.not_mem_nil, or_false] at hv
       rcases hv with rfl | rfl | rfl | rfl <;> exact ⟨_, rfl, by decide, fun _ => by decide⟩)
  refine ⟨?_, ?_, ?_, ?_⟩ <;> (intro v h; cases h; exact k _ (by decide))

/-- Runs that end: a form that stores and one that does not, in kernel mode and in user mode. -/
theorem witness_Frames : (∃ t, bodyOf (.mov r0 at1) data = .ok () t) ∧ (∃ t, bodyOf (.add at1 r0) data = .ok () t) ∧
    Instr.neverStores (.add at1 r0) = true ∧ Instr.mayWriteReg (.add at1 r0) 5 = false ∧ Instr.isReturn (.add at1 r0) = false ∧
    ¬ storesByte (.mov r0 at1) data 0o2002 ∧ (mapped.cm ≠ 0#2 ∧ ∃ t, bodyOf (.inc r0) mapped = .ok () t) ∧
    storeTarget (.inc r0) mapped = none ∧ storeTarget (.mov r0 at1) data = some (0o2000, .word) :=
  ⟨⟨_, rfl⟩, ⟨_, rfl⟩, rfl, by decide, rfl, (by show ¬ (_ = _ ∨ _ = _); decide), ⟨by decide, _, rfl⟩, rfl, rfl⟩

/-- A trap raised by an instruction, a fatal condition, and a run that ends. -/
theorem witness_Raised : (∃ v u, bodyOf .bpt data = .error (.trap v) u) ∧ (∃ u, bodyOf (.jmp r0) data = .error (.fatal .regOperand) u) ∧
    ∃ u, bodyOf (.inc r0) data = .ok () u := ⟨⟨_, _, rfl⟩, ⟨_, rfl⟩, _, rfl⟩

theorem witness_ControllerFrame : ∃ t, exec (.inc r0) data = .next t := ⟨_, rfl⟩

end Sys2Proof.Tests
end

section
/-! A step of a running machine (00_scope.md R15, 40_addressing_modes.md R150): the fetch, the decoded instruction, the boundary. -/

namespace Sys2Proof.Machine

/-- One part of a machine cycle after another: a fault or a refusal of the first ends the cycle (00_scope.md R15). -/
def andThen (o : Host.Outcome State Fault Refusal) (f : State → Host.Outcome State Fault Refusal) :
    Host.Outcome State Fault Refusal :=
  match o with
  | .next t => f t
  | .fault e => .fault e
  | .refused r => .refused r

theorem step_of_running {s : State} (h : s.run = .running) : step s = andThen (engineStep s) boundary := by
  unfold step machineCycle
  rw [h]
  rfl

theorem engineStep_of_fetch_ok {s t : State} {w : Word} (h : fetch s = .ok w t) : engineStep s = execWord w t := by
  rw [engineStep, h]

theorem engineStep_of_fetch_trap {s t : State} {vec : Word} (h : fetch s = .error (.trap vec) t) :
    engineStep s = takeTrap vec t := by
  rw [engineStep, h]

theorem execWord_of_decode_ok {w : Word} {i : Instr} (h : decode w = .ok i) (s : State) : execWord w s = exec i s := by
  rw [execWord, h]

theorem execWord_of_decode_error {w : Word} {e : Illegal} (h : decode w = .error e) (s : State) :
    execWord w s = takeTrap s.cfg.vecIll s := by
  rw [execWord, h]

theorem boundary_of_active {s : State} (h : s.run = .running ∨ s.run = .waiting) :
    boundary s = andThen (environmentTurn s) poll := by
  unfold boundary
  rcases h with h | h <;> rw [h] <;> rfl

theorem environmentTurn_of_nil {s : State} (h : s.arrivals = []) : environmentTurn s = .next s := by
  rw [environmentTurn, h]

theorem environmentTurn_of_cons {s : State} {turn : List IrqRequest} {later : List (List IrqRequest)}
    (h : s.arrivals = turn :: later) : environmentTurn s = acceptAll turn { s with arrivals := later } := by
  rw [environmentTurn, h]

/-- Settles O5: a running step is the engine's step and then the boundary, and each of the two is named by what the fetch, the decoder
and the schedule answer. -/
theorem stepRunsTheDecodedInstruction : Obligations.StepRunsTheDecodedInstruction := by
  refine ⟨fun s t w i hrun hfetch hdec => ?_, fun s t w e hrun hfetch hdec => ?_, fun s t vec hrun hfetch => ?_,
    fun u hrun => ⟨fun hnil => ?_, fun turn later hcons => ?_⟩, fun s => rfl, fun q later s => rfl⟩
  · rw [step_of_running hrun, engineStep_of_fetch_ok hfetch, execWord_of_decode_ok hdec]; rfl
  · rw [step_of_running hrun, engineStep_of_fetch_ok hfetch, execWord_of_decode_error hdec]; rfl
  · rw [step_of_running hrun, engineStep_of_fetch_trap hfetch]; rfl
  · rw [boundary_of_active hrun, environmentTurn_of_nil hnil]; rfl
  · rw [boundary_of_active hrun, environmentTurn_of_cons hcons]; rfl

end Sys2Proof.Machine
end

section
/-! What an instruction's pseudocode can raise (00_scope.md R8, R9): a trap at a vector of the configuration, or REG_OPERAND for a
register operand where memory is required (40_addressing_modes.md R161); and how the trap sequence can end (60_exceptions.md R326). -/

namespace Sys2Proof

theorem Operand.isMemory_eq_false_iff {o : Operand} : o.isMemory = false ↔ o.mode = .register := by
  simp [Operand.isMemory]

/-- What MFPI and MTPI do not accept is a register other than R6 (R161, 45_trap_system.md R294, R295). -/
theorem Operand.isMemoryOrSP_eq_false_iff {o : Operand} : o.isMemoryOrSP = false ↔ o.mode = .register ∧ o.reg ≠ SP := by
  simp [Operand.isMemoryOrSP, Operand.isMemory_eq_false_iff]

end Sys2Proof

namespace Sys2Proof.Machine

/-! ### The trap sequence -/

/-- The trap sequence raises no fatal condition itself: a trap of one of its accesses becomes one only in TrapAt (R326). -/
theorem NoFatal.trapSequence (vec : Word) : NoFatal (trapSequence vec) :=
  .bind (.ofUpdate (x := getPsw) (g := State.psw) (f := id) fun _ => rfl) fun _ => .bind (.getReg _) fun _ =>
  .bind (.putPsw _) fun _ => .bind (.pushKernel _) fun _ => .bind (.pushKernel _) fun _ =>
  .bind (.memReadAs _ _ _) fun _ => .bind (.memReadAs _ _ _) fun _ => .bind (.putReg _ _) fun _ => .putPsw _

/-- A trap at an even vector is taken, or an access of its sequence raised and the machine stops in FATAL(DOUBLE_FAULT) (R322, R326). -/
theorem takeTrap_of_even {vec : Word} (hv : vec.getLsbD 0 = false) (s : State) :
    (∃ t, takeTrap vec s = .next t) ∨ ∃ t, takeTrap vec s = stopFatal .doubleFault t := by
  unfold takeTrap trapAt
  rw [hv, if_neg Bool.false_ne_true, doubleFaultOnTrap]
  cases h : trapSequence vec s with
  | ok a t => exact .inl ⟨t, rfl⟩
  | error e t =>
    cases e with
    | trap v => exact .inr ⟨t, rfl⟩
    | fatal r => exact absurd h (NoFatal.trapSequence vec s r t)

/-! ### What a statement may raise -/

/-- The vectors of a configuration, all of them (60_exceptions.md R321). -/
def vectorsOf (c : Config) : List Word := [c.vecBus, c.vecIll, c.vecBpt, c.vecIot, c.vecEmt, c.vecTrap, c.vecMmu]

/-- What may be raised under configuration `c`: a trap at one of its vectors, and FATAL(REG_OPERAND) where `stop` admits it. -/
def Raise.Admitted (stop : Prop) (c : Config) : Raise → Prop
  | .trap vec => vec ∈ vectorsOf c
  | .fatal r => r = .regOperand ∧ stop

/-- `x` leaves the configuration as it is and raises only what is admitted under it. -/
structure RaisesOnly {α : Type} (stop : Prop) (x : Exec α) : Prop where
  cfg : ∀ c, Keeps (fun s => s.cfg = c) x
  raises : ∀ s e t, x s = .error e t → e.Admitted stop s.cfg

variable {α β : Type} {stop : Prop}

/-- What keeps the core's state keeps the configuration. -/
theorem Keeps.cfg {x : Exec α} (h : ∀ s0, Keeps (CoreKept s0) x) (c : Config) : Keeps (fun s => s.cfg = c) x := by
  intro s hs
  obtain ⟨hok, herr⟩ := h s s (CoreKept.refl s)
  exact ⟨fun a t ht => (hok a t ht).cfg.trans hs, fun e t ht => (herr e t ht).cfg.trans hs⟩

namespace RaisesOnly

/-- A sequence, where the second part need only be judged on what the first can answer. -/
theorem bindOn {x : Exec α} {f : α → Exec β} (hx : RaisesOnly stop x)
    (hf : ∀ s a t, x s = .ok a t → RaisesOnly stop (f a)) : RaisesOnly stop (x >>= f) where
  cfg c s hs := by
    obtain ⟨hok, herr⟩ := hx.cfg c s hs
    refine ⟨fun b t h => ?_, fun e t h => ?_⟩
    · obtain ⟨a, u, h1, h2⟩ := bind_eq_ok.mp h
      exact ((hf s a u h1).cfg c u (hok a u h1)).1 b t h2
    · rcases bind_eq_error.mp h with h1 | ⟨a, u, h1, h2⟩
      · exact herr e t h1
      · exact ((hf s a u h1).cfg c u (hok a u h1)).2 e t h2
  raises s e t h := by
    rcases bind_eq_error.mp h with h1 | ⟨a, u, h1, h2⟩
    · exact hx.raises s e t h1
    · have hu : u.cfg = s.cfg := (hx.cfg s.cfg s rfl).1 a u h1
      exact hu ▸ (hf s a u h1).raises u e t h2

theorem bind {x : Exec α} {f : α → Exec β} (hx : RaisesOnly stop x) (hf : ∀ a, RaisesOnly stop (f a)) :
    RaisesOnly stop (x >>= f) :=
  bindOn hx fun _ a _ _ => hf a

/-- A statement that always ends raises nothing. -/
theorem ofUpdate {x : Exec α} {g : State → α} {f : State → State} (hx : ∀ s, x s = .ok (g s) (f s))
    (hf : ∀ s, (f s).cfg = s.cfg) : RaisesOnly stop x where
  cfg _ := .ofUpdate hx fun s hs => (hf s).trans hs
  raises s e t h := by rw [hx] at h; cases h

theorem pure (a : α) : RaisesOnly stop (pure a : Exec α) := .ofUpdate (g := fun _ => a) (f := id) (fun _ => rfl) fun _ => rfl

theorem raiseAt {vec : Config → Word} (hv : ∀ c, vec c ∈ vectorsOf c) : RaisesOnly stop (raiseAt vec : Exec α) where
  cfg := Keeps.cfg fun _ => kept_raiseAt _ _
  raises s e t h := by cases h; exact hv _

theorem raiseRegOperand (h : stop) : RaisesOnly stop (raiseFatal .regOperand : Exec α) where
  cfg := Keeps.cfg fun _ => kept_raiseFatal _ _
  raises s e t he := by cases he; exact ⟨rfl, h⟩

/-- A statement of whichever kind the mode selects (60_exceptions.md R345). -/
theorem ifKernel {x y : Exec Unit} (hx : RaisesOnly stop x) (hy : RaisesOnly stop y) : RaisesOnly stop (ifKernel x y) := by
  constructor
  · intro c s
    unfold Machine.ifKernel
    split
    · exact hx.cfg c s
    · exact hy.cfg c s
  · intro s
    unfold Machine.ifKernel
    split
    · exact hx.raises s
    · exact hy.raises s

/-! ### Registers, the PSW and the ports: these raise nothing -/

theorem getReg (n : Reg) : RaisesOnly stop (getReg n) := .ofUpdate (g := fun s => s.reg n) (f := id) (fun _ => rfl) fun _ => rfl
theorem putReg (n : Reg) (v : Word) : RaisesOnly stop (putReg n v) :=
  .ofUpdate (g := fun _ => ()) (f := fun s => s.setReg n v) (fun _ => rfl) fun _ => rfl
theorem getCC : RaisesOnly stop getCC := .ofUpdate (g := State.cc) (f := id) (fun _ => rfl) fun _ => rfl
theorem putCC (f : CC) : RaisesOnly stop (putCC f) :=
  .ofUpdate (g := fun _ => ()) (f := fun s => s.setCC f) (fun _ => rfl) fun _ => rfl
theorem getPsw : RaisesOnly stop getPsw := .ofUpdate (g := State.psw) (f := id) (fun _ => rfl) fun _ => rfl
theorem putPsw (v : Word) : RaisesOnly stop (putPsw v) :=
  .ofUpdate (g := fun _ => ()) (f := fun s => s.setPsw v) (fun _ => rfl) fun _ => rfl
theorem putRun (r : RunState) : RaisesOnly stop (putRun r) :=
  .ofUpdate (g := fun _ => ()) (f := fun s => { s with run := r }) (fun _ => rfl) fun _ => rfl
theorem devReset : RaisesOnly stop devReset :=
  .ofUpdate (g := fun _ => ()) (f := fun s => s.logPort .devReset) (fun _ => rfl) fun _ => rfl
theorem putPri (n : BitVec 3) : RaisesOnly stop (putPri n) :=
  .ofUpdate (g := fun _ => ()) (f := fun s => s.setPri n) (fun _ => rfl) fun _ => rfl
theorem ccClearBody (mask : BitVec 4) : RaisesOnly stop (ccClearBody mask) :=
  .ofUpdate (g := fun _ => ()) (f := fun s => s.setLow (s.psw.extractLsb' 0 4 &&& ~~~mask)) (fun _ => rfl) fun _ => rfl
theorem ccSetBody (mask : BitVec 4) : RaisesOnly stop (ccSetBody mask) :=
  .ofUpdate (g := fun _ => ()) (f := fun s => s.setLow (s.psw.extractLsb' 0 4 ||| mask)) (fun _ => rfl) fun _ => rfl
theorem getPreviousSp : RaisesOnly stop getPreviousSp :=
  .ofUpdate (g := fun s => s.spOf s.pm) (f := id) (fun _ => rfl) fun _ => rfl
theorem putPreviousSp (v : Word) : RaisesOnly stop (putPreviousSp v) := by
  refine .ofUpdate (g := fun _ => ()) (f := fun s => s.setSpOf s.pm v) (fun _ => rfl) fun s => ?_
  exact (kept_setSpOf (CoreKept.refl s) s.pm v).cfg
theorem getPair (r : Reg) : RaisesOnly stop (getPair r) := .bind (.getReg _) fun _ => .bind (.getReg _) fun _ => .pure _
theorem putPair (r : Reg) (hi lo : Word) : RaisesOnly stop (putPair r hi lo) := .bind (.putReg _ _) fun _ => .putReg _ _
theorem putMoveFlags (v : Word) : RaisesOnly stop (putMoveFlags v) := .bind .getCC fun _ => .putCC _

theorem branchIf (cond : CC → Bool) (off : BitVec 8) : RaisesOnly stop (branchIf cond off) := by
  refine .bind .getCC fun f => ?_
  split
  · exact .bind (.getReg _) fun _ => .putReg _ _
  · exact .pure _

/-! ### Memory: a fault of the translator at VEC_MMU, a bus error at VEC_BUS (20_memory.md R63, R95) -/

theorem translate (va : Word) (m : ModeBits) (wr : Bool) : RaisesOnly stop (translate va m wr) where
  cfg := Keeps.cfg fun _ => kept_translate _ _ _ _
  raises s e t h := by rw [(translate_error h).1]; simp [Raise.Admitted, vectorsOf]

theorem physRead (pa : Nat) : RaisesOnly stop (physRead pa) where
  cfg := Keeps.cfg fun _ => kept_physRead _ _
  raises s e t h := by rw [(physRead_error h).1]; simp [Raise.Admitted, vectorsOf]

theorem physWrite (pa : Nat) (w : Word) : RaisesOnly stop (physWrite pa w) where
  cfg := Keeps.cfg fun _ => kept_physWrite _ _ _
  raises s e t h := by rw [(physWrite_error h).1]; simp [Raise.Admitted, vectorsOf]

theorem memReadAs (m : ModeBits) (va : Word) (sz : Size) : RaisesOnly stop (memReadAs m va sz) := by
  refine .bind (.translate _ _ _) fun pa => ?_
  cases sz with
  | word => exact .physRead pa
  | byte => exact .bind (.physRead _) fun _ => .pure _

theorem memWriteAs (m : ModeBits) (va : Word) (sz : Size) (v : Word) : RaisesOnly stop (memWriteAs m va sz v) := by
  refine .bind (.translate _ _ _) fun pa => ?_
  cases sz with
  | word => exact .physWrite pa v
  | byte => exact .bind (.physRead _) fun _ => .physWrite _ _

/-- An access made in a mode the state names is judged in every mode. -/
theorem ofMode {x : ModeBits → Exec α} (hx : ∀ m, RaisesOnly stop (x m)) (mode : State → ModeBits) :
    RaisesOnly stop (fun s => x (mode s) s) where
  cfg c s := (hx (mode s)).cfg c s
  raises s := (hx (mode s)).raises s

theorem memRead (va : Word) (sz : Size) : RaisesOnly stop (memRead va sz) := ofMode (fun m => .memReadAs m va sz) State.cm
theorem memWrite (va : Word) (sz : Size) (v : Word) : RaisesOnly stop (memWrite va sz v) :=
  ofMode (fun m => .memWriteAs m va sz v) State.cm
theorem readPrevious (a : Word) : RaisesOnly stop (readPrevious a) := ofMode (fun m => .memReadAs m a .word) State.pm
theorem writePrevious (a v : Word) : RaisesOnly stop (writePrevious a v) :=
  ofMode (fun m => .memWriteAs m a .word v) State.pm

theorem push (v : Word) : RaisesOnly stop (push v) := .bind (.getReg _) fun _ => .bind (.putReg _ _) fun _ => .memWrite _ _ _
theorem pop : RaisesOnly stop pop :=
  .bind (.getReg _) fun _ => .bind (.memRead _ _) fun _ => .bind (.putReg _ _) fun _ => .pure _
theorem returnFromTrap : RaisesOnly stop returnFromTrap :=
  .bind .pop fun _ => .bind .pop fun _ => .bind (.putReg _ _) fun _ => .bind .getPsw fun _ => .putPsw _

/-! ### Operands and the shared shapes (40_addressing_modes.md R156 to R161) -/

theorem indexedAddr (r : Reg) : RaisesOnly stop (indexedAddr r) :=
  .bind (.bind (.getReg _) fun _ => .bind (.memRead _ _) fun _ => .bind (.putReg _ _) fun _ => .pure _) fun _ =>
    .bind (.getReg _) fun _ => .pure _

theorem postAdd (r : Reg) (k : Word) : RaisesOnly stop (postAdd r k) :=
  .bind (.getReg _) fun _ => .bind (.putReg _ _) fun _ => .pure _

theorem preSub (r : Reg) (k : Word) : RaisesOnly stop (preSub r k) :=
  .bind (.getReg _) fun _ => .bind (.putReg _ _) fun _ => .pure _

theorem resolve (o : Operand) (sz : Size) : RaisesOnly stop (resolve o sz) := by
  obtain ⟨mode, r⟩ := o
  cases mode with
  | register => exact .pure _
  | regDeferred => exact .bind (.getReg _) fun _ => .pure _
  | autoInc => exact .bind (.postAdd _ _) fun _ => .pure _
  | autoIncDeferred => exact .bind (.postAdd _ _) fun _ => .bind (.memRead _ _) fun _ => .pure _
  | autoDec => exact .bind (.preSub _ _) fun _ => .pure _
  | autoDecDeferred => exact .bind (.preSub _ _) fun _ => .bind (.memRead _ _) fun _ => .pure _
  | indexed => exact .bind (.indexedAddr _) fun _ => .pure _
  | indexedDeferred => exact .bind (.indexedAddr _) fun _ => .bind (.memRead _ _) fun _ => .pure _

/-- The address of an operand that must be memory: FATAL(REG_OPERAND) is raised only for a register operand (R161). -/
theorem resolveMemory {o : Operand} {f : Word → Exec β} (ho : o.isMemory = false → stop) (hf : ∀ a, RaisesOnly stop (f a)) :
    RaisesOnly stop (Machine.resolve o .word >>= fun l => memLoc l >>= f) := by
  refine .bindOn (.resolve _ _) fun s l t h => .bind ?_ hf
  cases l with
  | reg n =>
    obtain ⟨-, hreg, -⟩ := resolve_ok h
    exact .raiseRegOperand (ho (hreg n rfl).1)
  | mem a => exact .pure a

theorem readLoc (l : Loc) (sz : Size) : RaisesOnly stop (readLoc l sz) := by
  cases l with
  | reg n => exact .bind (.getReg _) fun _ => .pure _
  | mem a => exact .memRead _ _

theorem writeLoc (l : Loc) (sz : Size) (v : Word) : RaisesOnly stop (writeLoc l sz v) := by
  cases l with
  | reg n =>
    cases sz with
    | word => exact .putReg _ _
    | byte => exact .bind (.getReg _) fun _ => .putReg _ _
  | mem a => exact .memWrite _ _ _

theorem sourceValue (o : Operand) (sz : Size) : RaisesOnly stop (sourceValue o sz) := .bind (.resolve _ _) fun _ => .readLoc _ _
theorem sourceAndDest (src dst : Operand) (sz : Size) : RaisesOnly stop (sourceAndDest src dst sz) :=
  .bind (.sourceValue _ _) fun _ => .bind (.resolve _ _) fun _ => .pure _
theorem sourceAndOld (src dst : Operand) (sz : Size) : RaisesOnly stop (sourceAndOld src dst sz) :=
  .bind (.sourceValue _ _) fun _ => .bind (.resolve _ _) fun _ => .bind (.readLoc _ _) fun _ => .pure _
theorem destAndOld (dst : Operand) (sz : Size) : RaisesOnly stop (destAndOld dst sz) :=
  .bind (.resolve _ _) fun _ => .bind (.readLoc _ _) fun _ => .pure _
theorem finishWith (l : Loc) (sz : Size) (out : Word × CC) : RaisesOnly stop (finishWith l sz out) :=
  .bind (.putCC _) fun _ => .writeLoc _ _ _

theorem modifyDouble (sz : Size) (op : CC → Word → Word → Word × CC) (src dst : Operand) :
    RaisesOnly stop (modifyDouble sz op src dst) :=
  .bind (.sourceAndOld _ _ _) fun _ => .bind .getCC fun _ => .finishWith _ _ _
theorem testDouble (sz : Size) (op : CC → Word → Word → CC) (src dst : Operand) :
    RaisesOnly stop (testDouble sz op src dst) :=
  .bind (.sourceAndOld _ _ _) fun _ => .bind .getCC fun _ => .putCC _
theorem modifySingle (sz : Size) (op : CC → Word → Word × CC) (dst : Operand) : RaisesOnly stop (modifySingle sz op dst) :=
  .bind (.destAndOld _ _) fun _ => .bind .getCC fun _ => .finishWith _ _ _
theorem setSingle (sz : Size) (op : CC → Word × CC) (dst : Operand) : RaisesOnly stop (setSingle sz op dst) :=
  .bind (.resolve _ _) fun _ => .bind .getCC fun _ => .finishWith _ _ _
theorem testSingle (sz : Size) (op : Word → CC) (dst : Operand) : RaisesOnly stop (testSingle sz op dst) :=
  .bind (.destAndOld _ _) fun _ => .putCC _

/-! ### The instructions with a pseudocode of their own -/

theorem movBody (src dst : Operand) : RaisesOnly stop (movBody src dst) :=
  .bind (.sourceAndDest _ _ _) fun _ => .bind .getCC fun _ => .finishWith _ _ _

theorem movbBody (src dst : Operand) : RaisesOnly stop (movbBody src dst) := by
  refine .bind (.sourceAndDest _ _ _) fun ⟨v, dl⟩ => .bind .getCC fun _ => .bind (.putCC _) fun _ => ?_
  cases dl with
  | reg n => exact .putReg _ _
  | mem a => exact .memWrite _ _ _

theorem mulBody (reg : Reg) (src : Operand) : RaisesOnly stop (mulBody reg src) :=
  .bind (.sourceValue _ _) fun _ => .bind (.getReg _) fun _ => .bind (.putCC _) fun _ => .putPair _ _ _

theorem divBody (reg : Reg) (src : Operand) : RaisesOnly stop (divBody reg src) := by
  refine .bind (.sourceValue _ _) fun v => .bind (.getPair _) fun dd => .bind (.putCC _) fun _ => ?_
  cases (divOp dd v).2 with
  | none => exact .pure _
  | some qr => exact .putPair _ _ _

theorem ashBody (reg : Reg) (src : Operand) : RaisesOnly stop (ashBody reg src) :=
  .bind (.sourceValue _ _) fun _ => .bind (.getReg _) fun _ => .bind (.putCC _) fun _ => .putReg _ _

theorem ashcBody (reg : Reg) (src : Operand) : RaisesOnly stop (ashcBody reg src) :=
  .bind (.sourceValue _ _) fun _ => .bind (.getPair _) fun _ => .bind (.putCC _) fun _ => .putPair _ _ _

theorem xorBody (reg : Reg) (dst : Operand) : RaisesOnly stop (xorBody reg dst) :=
  .bind (.destAndOld _ _) fun _ => .bind (.getReg _) fun _ => .bind .getCC fun _ => .finishWith _ _ _

theorem rtsBody (reg : Reg) : RaisesOnly stop (rtsBody reg) :=
  .bind (.getReg _) fun _ => .bind (.putReg _ _) fun _ => .bind .pop fun _ => .putReg _ _

theorem markBody (nn : BitVec 6) : RaisesOnly stop (markBody nn) :=
  .bind (.getReg _) fun _ => .bind (.putReg _ _) fun _ => .bind (.getReg _) fun _ => .bind (.putReg _ _) fun _ =>
    .bind .pop fun _ => .putReg _ _

theorem sobBody (reg : Reg) (nn : BitVec 6) : RaisesOnly stop (sobBody reg nn) := by
  refine .bind (.getReg _) fun _ => .bind (.putReg _ _) fun _ => .bind (.getReg _) fun w => ?_
  split
  · exact .pure _
  · exact .bind (.getReg _) fun _ => .putReg _ _

theorem jmpBody (dst : Operand) : RaisesOnly (dst.isMemory = false) (jmpBody dst) :=
  resolveMemory id fun _ => .putReg _ _

theorem jsrBody (reg : Reg) (dst : Operand) : RaisesOnly (dst.isMemory = false) (jsrBody reg dst) :=
  resolveMemory id fun _ => .bind (.getReg _) fun _ => .bind (.push _) fun _ => .bind (.getReg _) fun _ =>
    .bind (.putReg _ _) fun _ => .putReg _ _

theorem previousValue (src : Operand) : RaisesOnly (src.isMemoryOrSP = false) (previousValue src) := by
  unfold Machine.previousValue
  split
  · next hm =>
    split
    · exact .getPreviousSp
    · next hr => exact .raiseRegOperand (Operand.isMemoryOrSP_eq_false_iff.mpr ⟨hm, hr⟩)
  · next hm => exact resolveMemory (fun h => absurd (Operand.isMemory_eq_false_iff.mp h) hm) fun _ => .readPrevious _

theorem mfpiBody (src : Operand) : RaisesOnly (src.isMemoryOrSP = false) (mfpiBody src) :=
  .bind (.previousValue _) fun _ => .bind (.putMoveFlags _) fun _ => .push _

theorem mtpiBody (dst : Operand) : RaisesOnly (dst.isMemoryOrSP = false) (mtpiBody dst) := by
  refine .bind .pop fun v => ?_
  split
  · next hm =>
    split
    · exact .bind (.putMoveFlags _) fun _ => .putPreviousSp _
    · next hr => exact .raiseRegOperand (Operand.isMemoryOrSP_eq_false_iff.mpr ⟨hm, hr⟩)
  · next hm =>
    refine resolveMemory (fun h => absurd (Operand.isMemory_eq_false_iff.mp h) hm) fun _ => ?_
    exact .bind (.putMoveFlags _) fun _ => .writePrevious _ _

/-- Every instruction raises only traps at the configuration's vectors, and FATAL(REG_OPERAND) only if it is not well formed. -/
theorem bodyOf (i : Instr) : RaisesOnly (i.wf = false) (bodyOf i) := by
  cases i with
  | halt => exact .ifKernel (.putRun _) (.raiseAt (by simp [vectorsOf]))
  | wait => exact .ifKernel (.putRun _) (.raiseAt (by simp [vectorsOf]))
  | rti | rtt => exact .returnFromTrap
  | bpt | iot | emt | trap => exact .raiseAt (by simp [vectorsOf])
  | reset => exact .ifKernel .devReset (.pure _)
  | spl level => exact .ifKernel (.putPri _) (.pure _)
  | jmp dst => exact .jmpBody dst
  | jsr reg dst => exact .jsrBody reg dst
  | rts reg => exact .rtsBody reg
  | mark nn => exact .markBody nn
  | sob reg nn => exact .sobBody reg nn
  | mfpi src => exact .mfpiBody src
  | mtpi dst => exact .mtpiBody dst
  | ccClear mask => exact .ccClearBody mask
  | ccSet mask => exact .ccSetBody mask
  | br | bne | beq | bge | blt | bgt | ble | bpl | bmi | bhi | blos | bvc | bvs | bcc | bcs => exact .branchIf _ _
  | clr | clrb | sxt => exact .setSingle _ _ _
  | tst | tstb => exact .testSingle _ _ _
  | swab | com | comb | inc | incb | dec | decb | neg | negb | adc | adcb | sbc | sbcb | ror | rorb | rol | rolb | asr | asrb
  | asl | aslb => exact .modifySingle _ _ _
  | mov src dst => exact .movBody src dst
  | movb src dst => exact .movbBody src dst
  | cmp | cmpb | bit | bitb => exact .testDouble _ _ _ _
  | bic | bicb | bis | bisb | add | sub => exact .modifyDouble _ _ _ _
  | mul reg src => exact .mulBody reg src
  | div reg src => exact .divBody reg src
  | ash reg src => exact .ashBody reg src
  | ashc reg src => exact .ashcBody reg src
  | xor reg dst => exact .xorBody reg dst

end RaisesOnly

end Sys2Proof.Machine
end

section
/-! How executing an instruction can end (00_scope.md R9, 60_exceptions.md R340). -/

namespace Sys2Proof.Machine

/-- Settles O12: what the pseudocode raises is admitted, so a trap is at an even vector and its sequence ends or is a double fault, and a
fatal condition is REG_OPERAND. -/
theorem execOutcomes : Obligations.ExecOutcomes := by
  intro i s hwf
  cases h : bodyOf i s with
  | ok a t => exact .inl ⟨t, exec_of_ok h⟩
  | error e t =>
    have hadm := (RaisesOnly.bodyOf i).raises s e t h
    cases e with
    | trap vec =>
      rw [exec_of_trap h]
      rcases takeTrap_of_even (Config.wf_vectors hwf vec hadm) t with hnext | ⟨u, hu⟩
      · exact .inl hnext
      · exact .inr (.inl ⟨_, rfl, hu⟩)
    | fatal r =>
      obtain ⟨rfl, hill⟩ := hadm
      exact .inr (.inr ⟨hill, _, rfl, exec_of_fatal h⟩)

end Sys2Proof.Machine
end

section
/-! What executing an instruction keeps, its own trap included: memory stays canonical, and the controller, the configuration and the coming
requests are as they were (10_state.md R38, R40, R332); RUN too, but for HALT and WAIT (R42). -/

namespace Sys2Proof.Machine

theorem CoreKept.trans {s t u : State} (h : CoreKept s t) (k : CoreKept t u) : CoreKept s u where
  mem hev hwf := by
    have := k.mem (by rw [h.cfg]; exact hev) (by rw [h.cfg]; exact h.mem hev hwf)
    rwa [h.cfg] at this
  itab := k.itab.trans h.itab
  cfg := k.cfg.trans h.cfg
  sr2 := k.sr2.trans h.sr2
  arrivals := k.arrivals.trans h.arrivals
  run := k.run.trans h.run

/-! ### The instructions with a pseudocode of their own -/

theorem kept_movBody (s0 src dst) : Keeps (CoreKept s0) (movBody src dst) :=
  .bind (kept_sourceAndDest _ _ _ _) fun _ => .bind (kept_getCC _) fun _ => kept_finishWith _ _ _ _

theorem kept_movbBody (s0 src dst) : Keeps (CoreKept s0) (movbBody src dst) := by
  refine .bind (kept_sourceAndDest _ _ _ _) fun ⟨v, dl⟩ => .bind (kept_getCC _) fun _ => .bind (kept_putCC _ _) fun _ => ?_
  cases dl with
  | reg n => exact kept_putReg _ _ _
  | mem a => exact kept_memWrite _ _ _ _

theorem kept_mulBody (s0 reg src) : Keeps (CoreKept s0) (mulBody reg src) :=
  .bind (kept_sourceValue _ _ _) fun _ => .bind (kept_getReg _ _) fun _ => .bind (kept_putCC _ _) fun _ => kept_putPair _ _ _ _

theorem kept_divBody (s0 reg src) : Keeps (CoreKept s0) (divBody reg src) := by
  refine .bind (kept_sourceValue _ _ _) fun v => .bind (kept_getPair _ _) fun dd => .bind (kept_putCC _ _) fun _ => ?_
  cases (divOp dd v).2 with
  | none => exact .pure _
  | some qr => exact kept_putPair _ _ _ _

theorem kept_ashBody (s0 reg src) : Keeps (CoreKept s0) (ashBody reg src) :=
  .bind (kept_sourceValue _ _ _) fun _ => .bind (kept_getReg _ _) fun _ => .bind (kept_putCC _ _) fun _ => kept_putReg _ _ _

theorem kept_ashcBody (s0 reg src) : Keeps (CoreKept s0) (ashcBody reg src) :=
  .bind (kept_sourceValue _ _ _) fun _ => .bind (kept_getPair _ _) fun _ => .bind (kept_putCC _ _) fun _ => kept_putPair _ _ _ _

theorem kept_xorBody (s0 reg dst) : Keeps (CoreKept s0) (xorBody reg dst) :=
  .bind (kept_destAndOld _ _ _) fun _ => .bind (kept_getReg _ _) fun _ => .bind (kept_getCC _) fun _ => kept_finishWith _ _ _ _

theorem kept_rtsBody (s0 reg) : Keeps (CoreKept s0) (rtsBody reg) :=
  .bind (kept_getReg _ _) fun _ => .bind (kept_putReg _ _ _) fun _ => .bind (kept_pop _) fun _ => kept_putReg _ _ _

theorem kept_markBody (s0 nn) : Keeps (CoreKept s0) (markBody nn) :=
  .bind (kept_getReg _ _) fun _ => .bind (kept_putReg _ _ _) fun _ => .bind (kept_getReg _ _) fun _ =>
    .bind (kept_putReg _ _ _) fun _ => .bind (kept_pop _) fun _ => kept_putReg _ _ _

theorem kept_sobBody (s0 reg nn) : Keeps (CoreKept s0) (sobBody reg nn) := by
  refine .bind (kept_getReg _ _) fun _ => .bind (kept_putReg _ _ _) fun _ => .bind (kept_getReg _ _) fun w => ?_
  split
  · exact .pure _
  · exact .bind (kept_getReg _ _) fun _ => kept_putReg _ _ _

theorem kept_jmpBody (s0 dst) : Keeps (CoreKept s0) (jmpBody dst) :=
  .bind (kept_resolve _ _ _) fun _ => .bind (kept_memLoc _ _) fun _ => kept_putReg _ _ _

theorem kept_jsrBody (s0 reg dst) : Keeps (CoreKept s0) (jsrBody reg dst) :=
  .bind (kept_resolve _ _ _) fun _ => .bind (kept_memLoc _ _) fun _ => .bind (kept_getReg _ _) fun _ =>
    .bind (kept_push _ _) fun _ => .bind (kept_getReg _ _) fun _ => .bind (kept_putReg _ _ _) fun _ => kept_putReg _ _ _

theorem kept_mfpiBody (s0 src) : Keeps (CoreKept s0) (mfpiBody src) :=
  .bind (kept_previousValue _ _) fun _ => .bind (kept_putMoveFlags _ _) fun _ => kept_push _ _

theorem kept_mtpiBody (s0 dst) : Keeps (CoreKept s0) (mtpiBody dst) := by
  refine .bind (kept_pop _) fun v => ?_
  split
  · split
    · refine .bind (kept_putMoveFlags _ _) fun _ => ?_
      exact .ofUpdate (g := fun _ => ()) (f := fun s => s.setSpOf s.pm v) (fun _ => rfl) fun _ h => kept_setSpOf h _ _
    · exact kept_raiseFatal _ _
  · refine .bind (kept_resolve _ _ _) fun _ => .bind (kept_memLoc _ _) fun a => .bind (kept_putMoveFlags _ _) fun _ => ?_
    exact fun s => kept_memWriteAs s0 s.pm a .word v s

theorem kept_setLow (s0) (f : State → BitVec 4) : Keeps (CoreKept s0) (fun s => .ok () (s.setLow (f s))) :=
  .ofUpdate (g := fun _ => ()) (f := fun s => s.setLow (f s)) (fun _ => rfl) fun _ h => h.upd rfl rfl rfl rfl rfl rfl

theorem kept_putPri (s0 n) : Keeps (CoreKept s0) (putPri n) :=
  .ofUpdate (g := fun _ => ()) (f := fun s => s.setPri n) (fun _ => rfl) fun _ h => h.upd rfl rfl rfl rfl rfl rfl

theorem kept_devReset (s0) : Keeps (CoreKept s0) devReset :=
  .ofUpdate (g := fun _ => ()) (f := fun s => s.logPort .devReset) (fun _ => rfl) fun _ h => h.upd rfl rfl rfl rfl rfl rfl

/-- Every instruction but HALT and WAIT, which set RUN (R42). -/
theorem kept_bodyOf (s0) {i : Instr} (hh : i ≠ .halt) (hw : i ≠ .wait) : Keeps (CoreKept s0) (bodyOf i) := by
  cases i with
  | halt => exact absurd rfl hh
  | wait => exact absurd rfl hw
  | rti | rtt => exact kept_returnFromTrap _
  | bpt | iot | emt | trap => exact kept_raiseAt _ _
  | reset => exact kept_ifKernel _ (kept_devReset _) (.pure _)
  | spl level => exact kept_ifKernel _ (kept_putPri _ _) (.pure _)
  | jmp dst => exact kept_jmpBody _ _
  | jsr reg dst => exact kept_jsrBody _ _ _
  | rts reg => exact kept_rtsBody _ _
  | mark nn => exact kept_markBody _ _
  | sob reg nn => exact kept_sobBody _ _ _
  | mfpi src => exact kept_mfpiBody _ _
  | mtpi dst => exact kept_mtpiBody _ _
  | ccClear | ccSet => exact kept_setLow _ _
  | br | bne | beq | bge | blt | bgt | ble | bpl | bmi | bhi | blos | bvc | bvs | bcc | bcs => exact kept_branchIf _ _ _
  | clr | clrb | sxt => exact kept_setSingle _ _ _ _
  | tst | tstb => exact kept_testSingle _ _ _ _
  | swab | com | comb | inc | incb | dec | decb | neg | negb | adc | adcb | sbc | sbcb | ror | rorb | rol | rolb | asr | asrb
  | asl | aslb => exact kept_modifySingle _ _ _ _
  | mov src dst => exact kept_movBody _ _ _
  | movb src dst => exact kept_movbBody _ _ _
  | cmp | cmpb | bit | bitb => exact kept_testDouble _ _ _ _ _
  | bic | bicb | bis | bisb | add | sub => exact kept_modifyDouble _ _ _ _ _
  | mul reg src => exact kept_mulBody _ _ _
  | div reg src => exact kept_divBody _ _ _
  | ash reg src => exact kept_ashBody _ _ _
  | ashc reg src => exact kept_ashcBody _ _ _
  | xor reg dst => exact kept_xorBody _ _ _

/-! ### The outcome of an instruction -/

/-- A pseudocode run to its outcome, the trap it may raise taken, keeps what the pseudocode keeps (40_addressing_modes.md R150, R154). -/
theorem runBody_kept {x : Exec Unit} (hx : ∀ s0, Keeps (CoreKept s0) x) {s t : State} (h : runBody x s = .next t) :
    CoreKept s t := by
  obtain ⟨hok, herr⟩ := hx s s (CoreKept.refl s)
  unfold runBody at h
  split at h
  · next u hu => cases h; exact hok _ _ hu
  · next vec u hu => exact (herr _ _ hu).trans (takeTrap_kept h)
  · cases h

/-- HALT and WAIT set RUN in kernel mode and trap in the other modes (45_trap_system.md R289, R290). -/
theorem runBody_ifKernel_putRun {r : RunState} {vec : Config → Word} {s t : State}
    (h : runBody (ifKernel (putRun r) (raiseAt vec)) s = .next t) : t = { s with run := r } ∨ CoreKept s t := by
  unfold runBody ifKernel at h
  by_cases hk : s.cm = 0#2
  · rw [if_pos hk] at h; cases h; exact .inl rfl
  · rw [if_neg hk] at h; exact .inr (takeTrap_kept h)

/-- An instruction keeps memory canonical, the interrupt table, the configuration, SR2, the coming requests and, unless it is HALT or
WAIT, RUN, whether it ends or takes a trap. -/
theorem exec_kept {i : Instr} {s t : State} (h : exec i s = .next t) :
    CoreKept s { t with run := s.run } ∧ (i ≠ .halt → i ≠ .wait → t.run = s.run) := by
  have dropRun : ∀ {r}, t = { s with run := r } ∨ CoreKept s t → CoreKept s { t with run := s.run } := by
    rintro r (rfl | k)
    · exact CoreKept.refl s
    · exact ⟨k.mem, k.itab, k.cfg, k.sr2, k.arrivals, rfl⟩
  rw [exec_eq_runBody] at h
  by_cases hh : i = .halt
  · subst hh; exact ⟨dropRun (runBody_ifKernel_putRun h), fun hne => absurd rfl hne⟩
  by_cases hw : i = .wait
  · subst hw; exact ⟨dropRun (runBody_ifKernel_putRun h), fun _ hne => absurd rfl hne⟩
  have k := runBody_kept (fun s0 => kept_bodyOf s0 hh hw) h
  exact ⟨dropRun (r := s.run) (.inr k), fun _ _ => k.run⟩

/-- Settles O60: what an executed instruction keeps, read off for SR2, the table, the configuration, the schedule and RUN. -/
theorem controllerFrame : Obligations.ControllerFrame := by
  intro i s t h
  obtain ⟨hkept, hrun⟩ := exec_kept h
  exact ⟨hkept.sr2, hkept.itab, hkept.cfg, hkept.arrivals, hrun⟩

end Sys2Proof.Machine
end

section
/-! The invariant (10_state.md R40, R41, 60_exceptions.md R330, R331): every part of a machine cycle keeps it, so the cycle does. -/

namespace Sys2Proof.Machine

/-- What keeps memory canonical, the table and the configuration keeps the invariant. -/
theorem CoreKept.inv {s t : State} (h : CoreKept s t) (hs : s.Inv) : t.Inv where
  memory := by rw [h.cfg]; exact h.mem (Config.wf_ioBase hs.config) hs.memory
  tableLength := by rw [h.itab, h.cfg]; exact hs.tableLength
  tableOrder := by rw [h.itab]; exact hs.tableOrder
  tableLegal := by rw [h.itab]; exact hs.tableLegal
  config := by rw [h.cfg]; exact hs.config

/-- `f` takes a state that meets the invariant to states that meet it, of the same configuration. -/
def KeepsInv (f : State → Host.Outcome State Fault Refusal) : Prop :=
  ∀ s t, s.Inv → f s = .next t → t.Inv ∧ t.cfg = s.cfg

theorem KeepsInv.next : KeepsInv .next := by
  intro s t hs h; cases h; exact ⟨hs, rfl⟩

theorem andThen_eq_next {o : Host.Outcome State Fault Refusal} {f : State → Host.Outcome State Fault Refusal} {t : State} :
    andThen o f = .next t ↔ ∃ u, o = .next u ∧ f u = .next t := by
  cases o <;> simp [andThen]

theorem KeepsInv.andThen {f g : State → Host.Outcome State Fault Refusal} (hf : KeepsInv f) (hg : KeepsInv g) :
    KeepsInv fun s => andThen (f s) g := by
  intro s t hs h
  obtain ⟨u, hu, ht⟩ := andThen_eq_next.mp h
  obtain ⟨hui, huc⟩ := hf s u hs hu
  obtain ⟨hti, htc⟩ := hg u t hui ht
  exact ⟨hti, htc.trans huc⟩

/-! ### The engine step -/

theorem keepsInv_takeTrap (vec : Word) : KeepsInv (takeTrap vec) := fun _ _ hs h =>
  ⟨(takeTrap_kept h).inv hs, (takeTrap_kept h).cfg⟩

/-- RUN is no part of the invariant. -/
theorem State.Inv.setRun {s : State} (hs : s.Inv) (r : RunState) : State.Inv { s with run := r } :=
  ⟨hs.memory, hs.tableLength, hs.tableOrder, hs.tableLegal, hs.config⟩

theorem keepsInv_exec (i : Instr) : KeepsInv (exec i) := by
  intro s t hs h
  obtain ⟨hkept, -⟩ := exec_kept h
  exact ⟨(hkept.inv hs).setRun t.run, hkept.cfg⟩

theorem keepsInv_execWord (w : Word) : KeepsInv (execWord w) := by
  intro s t hs h
  cases hd : decode w with
  | ok i => rw [execWord_of_decode_ok hd] at h; exact keepsInv_exec i s t hs h
  | error e => rw [execWord_of_decode_error hd] at h; exact keepsInv_takeTrap _ s t hs h

/-- A fetch, ended or not, keeps the invariant: it notes the PC in SR2, reads, and advances the PC (40_addressing_modes.md R151). -/
theorem keeps_fetch (c : Config) : Keeps (fun s => s.Inv ∧ s.cfg = c) fetch := by
  have lift : ∀ {α : Type} {x : Exec α}, (∀ s0, Keeps (CoreKept s0) x) → Keeps (fun s => s.Inv ∧ s.cfg = c) x := by
    intro α x hx s ⟨hs, hc⟩
    obtain ⟨hok, herr⟩ := hx s s (CoreKept.refl s)
    exact ⟨fun a t h => ⟨(hok a t h).inv hs, (hok a t h).cfg.trans hc⟩,
      fun e t h => ⟨(herr e t h).inv hs, (herr e t h).cfg.trans hc⟩⟩
  have note : Keeps (fun s => s.Inv ∧ s.cfg = c) noteFetch := by
    refine .ofUpdate (g := fun _ => ()) (f := fun s => if s.noAbort then s.setSr2 (s.reg PC) else s) (fun _ => rfl) ?_
    rintro s ⟨hs, hc⟩
    split
    · exact ⟨⟨hs.memory, hs.tableLength, hs.tableOrder, hs.tableLegal, hs.config⟩, hc⟩
    · exact ⟨hs, hc⟩
  exact .bind note fun _ => .bind (lift fun _ => kept_getReg _ _) fun _ => .bind (lift fun _ => kept_memRead _ _ _) fun _ =>
    .bind (lift fun _ => kept_putReg _ _ _) fun _ => .pure _

theorem keepsInv_engineStep : KeepsInv engineStep := by
  intro s t hs h
  obtain ⟨hok, herr⟩ := keeps_fetch s.cfg s ⟨hs, rfl⟩
  unfold engineStep at h
  split at h
  · next w u hu =>
    obtain ⟨hui, huc⟩ := hok _ _ hu
    obtain ⟨hti, htc⟩ := keepsInv_execWord w u t hui h
    exact ⟨hti, htc.trans huc⟩
  · next vec u hu =>
    obtain ⟨hui, huc⟩ := herr _ _ hu
    obtain ⟨hti, htc⟩ := keepsInv_takeTrap vec u t hui h
    exact ⟨hti, htc.trans huc⟩
  · cases h

/-! ### The environment's turn (60_exceptions.md R330) -/

/-- A request accepted: its vector is legal, there is a free slot, and it is inserted. -/
theorem acceptIrq_eq_next {q : IrqRequest} {s t : State} (h : acceptIrq q s = .next t) :
    q.vector.getLsbD 0 = false ∧ q.vector ≠ 0#8 ∧ s.itab.length < s.cfg.itabSlots ∧
      t = { s with itab := insertIrq q s.itab } := by
  unfold acceptIrq at h
  split at h
  · cases h
  · next hodd =>
    split at h
    · cases h
    · next hzero =>
      split at h
      · cases h
      · next hfull => cases h; exact ⟨by simpa using hodd, hzero, by omega, rfl⟩

/-- An insertion keeps the order of the table (R330, R331). -/
theorem pairwise_insertIrq (q : IrqRequest) {l : List IrqRequest} (h : l.Pairwise fun e f => outranks e f = true) :
    (insertIrq q l).Pairwise fun e f => outranks e f = true := by
  induction l with
  | nil => simp [insertIrq]
  | cons e l ih =>
    obtain ⟨he, hl⟩ := List.pairwise_cons.mp h
    simp only [insertIrq]
    by_cases hq : outranks e q = true
    · rw [if_pos hq, List.pairwise_cons]
      refine ⟨fun f hf => ?_, ih hl⟩
      rcases mem_insertIrq hf with rfl | hf
      · exact hq
      · exact he f hf
    · rw [if_neg hq, List.pairwise_cons]
      refine ⟨fun f hf => ?_, h⟩
      rcases List.mem_cons.mp hf with rfl | hf
      · exact outranks_total hq
      · exact outranks_trans (outranks_total hq) (he f hf)

theorem keepsInv_acceptIrq (q : IrqRequest) : KeepsInv (acceptIrq q) := by
  intro s t hs h
  obtain ⟨heven, hnonzero, hfree, rfl⟩ := acceptIrq_eq_next h
  refine ⟨⟨hs.memory, ?_, pairwise_insertIrq q hs.tableOrder, fun e he => ?_, hs.config⟩, rfl⟩
  · exact (length_insertIrq q s.itab).trans_le hfree
  · rcases mem_insertIrq he with rfl | he
    · exact ⟨heven, hnonzero⟩
    · exact hs.tableLegal e he

theorem acceptAll_cons (q : IrqRequest) (qs : List IrqRequest) (s : State) :
    acceptAll (q :: qs) s = andThen (acceptIrq q s) (acceptAll qs) := rfl

theorem keepsInv_acceptAll (qs : List IrqRequest) : KeepsInv (acceptAll qs) := by
  induction qs with
  | nil => exact KeepsInv.next
  | cons q qs ih => exact (keepsInv_acceptIrq q).andThen ih

theorem keepsInv_environmentTurn : KeepsInv environmentTurn := by
  intro s t hs h
  cases ha : s.arrivals with
  | nil => rw [environmentTurn_of_nil ha] at h; exact KeepsInv.next s t hs h
  | cons turn later =>
    rw [environmentTurn_of_cons ha] at h
    exact keepsInv_acceptAll turn { s with arrivals := later } t
      ⟨hs.memory, hs.tableLength, hs.tableOrder, hs.tableLegal, hs.config⟩ h

/-! ### The delivery decision (60_exceptions.md R332, R333) -/

/-- A delivery decision that ends: nothing is delivered and nothing changes, or the head of the table is delivered by the trap sequence,
its entry removed and RUN = RUNNING. -/
theorem poll_eq_next {s t : State} (h : poll s = .next t) :
    (eligible s = none ∧ t = s) ∨
      ∃ e v, eligible s = some e ∧ takeTrap (e.vector.zeroExtend 16) s = .next v ∧
        t = { v with itab := s.itab.tail, run := .running } := by
  unfold poll at h
  split at h
  · next hnone => cases h; exact .inl ⟨hnone, rfl⟩
  · next e hsome =>
    split at h
    · next v hv => cases h; exact .inr ⟨e, v, hsome, hv, by rw [popIrq, (takeTrap_kept hv).itab]⟩
    · cases h
    · cases h

theorem keepsInv_poll : KeepsInv poll := by
  intro s t hs h
  rcases poll_eq_next h with ⟨-, rfl⟩ | ⟨e, v, -, hv, rfl⟩
  · exact ⟨hs, rfl⟩
  · have hk := takeTrap_kept hv
    have hvi := hk.inv hs
    refine ⟨⟨hvi.memory, ?_, hs.tableOrder.tail, fun f hf => hs.tableLegal f (List.mem_of_mem_tail hf), hvi.config⟩, hk.cfg⟩
    calc s.itab.tail.length ≤ s.itab.length := by rw [List.length_tail]; exact Nat.sub_le _ _
      _ ≤ s.cfg.itabSlots := hs.tableLength
      _ = v.cfg.itabSlots := by rw [hk.cfg]

/-! ### The machine cycle -/

theorem keepsInv_boundary : KeepsInv boundary := by
  intro s t hs h
  cases hr : s.run with
  | halted => rw [boundary, hr] at h; exact KeepsInv.next s t hs h
  | fatal r => rw [boundary, hr] at h; cases h
  | running =>
    rw [boundary_of_active (.inl hr)] at h
    exact keepsInv_environmentTurn.andThen keepsInv_poll s t hs h
  | waiting =>
    rw [boundary_of_active (.inr hr)] at h
    exact keepsInv_environmentTurn.andThen keepsInv_poll s t hs h

theorem step_of_halted {s : State} (h : s.run = .halted) : step s = .next s := by
  rw [step, machineCycle, h]

theorem step_of_fatal {s : State} {r : FatalReason} (h : s.run = .fatal r) : step s = stopFatal r s := by
  rw [step, machineCycle, h]

theorem step_of_waiting {s : State} (h : s.run = .waiting) : step s = boundary s := by
  rw [step, machineCycle, h]

/-- Settles O10: the engine step, the environment's turn and the delivery decision each keep the invariant, and a step is made of them. -/
theorem stepKeepsInvariant : Obligations.StepKeepsInvariant := by
  intro s t hs h
  cases hr : s.run with
  | halted => rw [step_of_halted hr] at h; exact KeepsInv.next s t hs h
  | fatal r => rw [step_of_fatal hr] at h; cases h
  | waiting => rw [step_of_waiting hr] at h; exact keepsInv_boundary s t hs h
  | running => rw [step_of_running hr] at h; exact keepsInv_engineStep.andThen keepsInv_boundary s t hs h

end Sys2Proof.Machine
end

section
/-! Halted, fatal and waiting machines (10_state.md R42, 45_trap_system.md R290). -/

namespace Sys2Proof.Machine

/-- Settles O7: RUN selects what a machine cycle does, and a fatal state already has the RUN that the fault leaves. -/
theorem stoppedStatesDoNotRun : Obligations.StoppedStatesDoNotRun := by
  refine fun s => ⟨step_of_halted, fun r hr => ?_, step_of_waiting⟩
  rw [step_of_fatal hr, stopFatal, ← hr]

/-- The requests of a turn change nothing but the interrupt table (60_exceptions.md R330). -/
theorem acceptAll_frame {qs : List IrqRequest} {s t : State} (h : acceptAll qs s = .next t) :
    { t with itab := s.itab } = s := by
  induction qs generalizing s with
  | nil => cases h; rfl
  | cons q qs ih =>
    rw [acceptAll_cons] at h
    obtain ⟨u, hu, ht⟩ := andThen_eq_next.mp h
    obtain ⟨-, -, -, rfl⟩ := acceptIrq_eq_next hu
    exact congrArg (fun r : State => { r with itab := s.itab }) (ih ht)

/-- The environment's turn changes nothing but the interrupt table and the schedule (00_scope.md R14, R15). -/
theorem environmentTurn_frame {s t : State} (h : environmentTurn s = .next t) :
    { t with itab := s.itab, arrivals := s.arrivals } = s := by
  cases ha : s.arrivals with
  | nil => rw [environmentTurn_of_nil ha] at h; cases h; rw [← ha]
  | cons turn later =>
    rw [environmentTurn_of_cons ha] at h
    rw [← ha]
    exact congrArg (fun r : State => { r with arrivals := s.arrivals }) (acceptAll_frame h)

/-- The request that may be delivered is the head of the table, no sentinel and of a priority above PSW[7:5] (R333). -/
theorem eligible_eq_some {s : State} {e : IrqRequest} (h : eligible s = some e) :
    s.itab.head? = some e ∧ e.vector ≠ 0#8 ∧ s.pri.toNat < e.priority.toNat := by
  unfold eligible at h
  split at h
  · cases h
  · next hd tl hcons =>
    split at h
    · next hc => cases h; exact ⟨by rw [hcons]; rfl, hc⟩
    · cases h

/-- Where none may be delivered, the head of the table is the sentinel or of no priority above PSW[7:5] (R333). -/
theorem eligible_eq_none {s : State} (h : eligible s = none) {e : IrqRequest} (he : s.itab.head? = some e) :
    e.vector = 0#8 ∨ e.priority.toNat ≤ s.pri.toNat := by
  unfold eligible at h
  split at h
  · next hnil => rw [hnil] at he; cases he
  · next hd tl hcons =>
    rw [hcons] at he
    cases he
    split at h
    · cases h
    · next hc => simpa only [ne_eq, not_and_or, not_not, not_lt] using hc

/-- Settles O8: a waiting machine's step is the environment's turn, which changes only the table and the schedule, and then the delivery
decision, which changes nothing or delivers the head of the table. -/
theorem waitEndsOnlyByDelivery : Obligations.WaitEndsOnlyByDelivery := by
  intro s t hrun h
  rw [step_of_waiting hrun, boundary_of_active (.inr hrun)] at h
  obtain ⟨u, hu, ht⟩ := andThen_eq_next.mp h
  rcases poll_eq_next ht with ⟨hnone, rfl⟩ | ⟨e, v, hsome, hv, rfl⟩
  · have hframe := environmentTurn_frame hu
    exact .inl ⟨(congrArg State.run hframe).trans hrun, hu, hframe, fun e he => eligible_eq_none hnone he⟩
  · obtain ⟨hhead, hvec, hpri⟩ := eligible_eq_some hsome
    exact .inr ⟨u, e, v, hu, hhead, hvec, hpri, hv, rfl⟩

end Sys2Proof.Machine
end

section
/-! The state after reset (10_state.md R46, 70_reset_and_hazards.md R380, R381). -/

namespace Sys2Proof.Machine

/-- The reset state of a legal configuration meets the invariant: it lists no byte of memory and holds no request. -/
theorem inv_resetOf {c : Config} (hc : c.wf = true) : (State.resetOf c).Inv :=
  ⟨Memory.wf_reset c, Nat.zero_le _, .nil, fun _ he => absurd he List.not_mem_nil, hc⟩

/-- Settles O9: the default configuration is legal. -/
theorem resetMeetsInvariant : Obligations.ResetMeetsInvariant :=
  ⟨inv_resetOf (by decide), fun _ hc => inv_resetOf hc⟩

/-- The word at an even address of reset memory: its two bytes are the halves of one word (20_memory.md R70). -/
theorem wordAt_resetOf {c : Config} {a : Nat} {w : Word} (h : ∀ b, b = a ∨ b = a + 1 →
    Memory.unlisted c b = if b % 2 = 0 then lowByte w else highByte w) (ha : a % 2 = 0) : (State.resetOf c).wordAt a = w := by
  show Memory.unlisted c (a + 1) ++ Memory.unlisted c a = w
  rw [h a (.inl rfl), h (a + 1) (.inr rfl), if_pos ha, if_neg (by omega), high_append_low]

/-- The bootstrap region holds BOOT_WORDS at reset (R380). -/
theorem wordAt_resetOf_boot {c : Config} (hc : c.bootBase % 2 = 0) {k : Nat} (hk : k < 29) :
    (State.resetOf c).wordAt (c.bootBase + 2 * k) = Memory.bootWord c k := by
  refine wordAt_resetOf (fun b hb => ?_) (by omega)
  have hin : c.bootBase ≤ b ∧ b < c.bootBase + 2 * Config.bootLength := by
    unfold Config.bootLength; omega
  rw [Memory.unlisted, if_pos hin, show (b - c.bootBase) / 2 = k by omega]

/-- Outside it memory holds MEM_INIT at reset (R46). -/
theorem wordAt_resetOf_init {c : Config} (hc : c.bootBase % 2 = 0) {a : Nat} (ha : a % 2 = 0)
    (hout : a < c.bootBase ∨ c.bootBase + 58 ≤ a) : (State.resetOf c).wordAt a = Memory.initWord c a := by
  refine wordAt_resetOf (fun b hb => ?_) ha
  have hnot : ¬(c.bootBase ≤ b ∧ b < c.bootBase + 2 * Config.bootLength) := by
    unfold Config.bootLength; omega
  rw [Memory.unlisted, if_neg hnot, show b - b % 2 = a by omega]

theorem Config.wf_bootBase {c : Config} (h : c.wf = true) : c.bootBase % 2 = 0 := by
  simp only [Config.wf, Config.bootWf, Bool.and_eq_true, decide_eq_true_eq] at h
  obtain ⟨⟨-, hboot⟩, -⟩ := h
  obtain ⟨⟨⟨⟨⟨heven, -⟩, -⟩, -⟩, -⟩, -⟩ := hboot
  exact heven

/-- Settles O11: the fields of the reset state, and its memory, which lists no byte. -/
theorem resetValues : Obligations.ResetValues := by
  refine ⟨fun c hc => ?_, rfl, ?_⟩
  · have hboot := Config.wf_bootBase hc
    refine ⟨?_, rfl, ?_, rfl, ?_, rfl, rfl, fun j => by cases j <;> rfl, rfl, rfl, rfl,
      fun k hk => wordAt_resetOf_boot hboot hk, fun a ha hout => wordAt_resetOf_init hboot ha hout⟩
    · intro r hr
      match r with
      | 0 | 1 | 2 | 3 | 4 | 5 | 6 => rfl
      | 7 => exact absurd rfl hr
    · intro m
      have : ∀ i : Fin 4, (State.resetOf c).spbank.get i = 0#16 := by intro i; fin_cases i <;> rfl
      exact this m.toFin
    · intro b i
      cases b <;> fin_cases i <;> exact ⟨rfl, rfl⟩
  · decide

end Sys2Proof.Machine
end

section
/-! A load of the PSW (10_state.md R22, R30). -/

namespace Sys2Proof.Machine

/-- Settles O23: the laws of setPsw for the registers, the bank and the stack pointers, and the other fields, which it does not touch. -/
theorem setPswSwitchesTheStack : Obligations.SetPswSwitchesTheStack := by
  refine fun s v => ⟨rfl, fun h => ?_, fun h => ⟨s.reg_setPsw_switch v h, fun m => ?_⟩, rfl, s.spOf_setPsw v⟩
  · unfold State.setPsw
    rw [if_pos h, if_pos h]
    exact ⟨rfl, rfl⟩
  · rw [s.sp_setPsw, if_neg h]

end Sys2Proof.Machine
end

section
/-! What an instruction that runs to its end can do, said once for all 77: it ends without a store, or with one store at `storeTarget`
(70_reset_and_hazards.md R389), or it is one of those that write the PSW's priority, the whole PSW, or another mode's stack pointer. -/

namespace Sys2Proof.Machine

/-! ### The PSW above the condition codes -/

theorem getLsbD_of_high {p q : Word} (h : p.extractLsb' 4 12 = q.extractLsb' 4 12) {i : Nat} (hi : 4 ≤ i) :
    p.getLsbD i = q.getLsbD i := by
  by_cases hlt : i < 16
  · have hbit := congrArg (fun x : BitVec 12 => x.getLsbD (i - 4)) h
    simpa [BitVec.getLsbD_extractLsb', show i - 4 < 12 by omega, show 4 + (i - 4) = i by omega] using hbit
  · rw [BitVec.getLsbD_of_ge p i (by omega), BitVec.getLsbD_of_ge q i (by omega)]

theorem extract_of_high {p q : Word} (h : p.extractLsb' 4 12 = q.extractLsb' 4 12) {lo n : Nat} (hlo : 4 ≤ lo) :
    p.extractLsb' lo n = q.extractLsb' lo n := by
  apply BitVec.eq_of_getLsbD_eq
  intro i hi
  rw [BitVec.getLsbD_extractLsb', BitVec.getLsbD_extractLsb', getLsbD_of_high h (by omega)]

/-- A register other than R6 is no stack pointer, and R6 is that of the current mode alone (10_state.md R22). -/
theorem State.spOf_setReg {s : State} {n : Reg} {m : ModeBits} (v : Word) (h : n ≠ SP ∨ m ≠ s.cm) :
    (s.setReg n v).spOf m = s.spOf m := by
  by_cases hm : m = s.cm
  · have hn : n ≠ SP := h.resolve_right (not_not_intro hm)
    simp [State.spOf, Ne.symm hn]
  · simp [State.spOf, hm]

/-! ### Running without a store -/

/-- `t` is reached from `s` without a store: what may differ is RUN, the device data, R7, the registers of `writes` and, where `flags`,
the condition codes. -/
structure LocalRun (writes : Reg → Bool) (flags : Bool) (s t : State) : Prop where
  spbank : t.spbank = s.spbank
  mem : t.mem = s.mem
  cfg : t.cfg = s.cfg
  sr0 : t.sr0 = s.sr0
  par : ∀ b i, t.par b i = s.par b i
  pdr : ∀ b i, t.pdr b i = s.pdr b i
  high : t.psw.extractLsb' 4 12 = s.psw.extractLsb' 4 12
  cc : flags = false → t.cc = s.cc
  regs : ∀ r, r ≠ PC → writes r = false → t.reg r = s.reg r

namespace LocalRun

variable {writes : Reg → Bool} {flags : Bool} {s t u : State}

theorem refl (s : State) : LocalRun writes flags s s :=
  ⟨rfl, rfl, rfl, rfl, fun _ _ => rfl, fun _ _ => rfl, rfl, fun _ => rfl, fun _ _ _ => rfl⟩

theorem cm (h : LocalRun writes flags s t) : t.cm = s.cm := extract_of_high h.high (by decide)
theorem pm (h : LocalRun writes flags s t) : t.pm = s.pm := extract_of_high h.high (by decide)
theorem pri (h : LocalRun writes flags s t) : t.pri = s.pri := extract_of_high h.high (by decide)

theorem byteAt (h : LocalRun writes flags s t) (x : Nat) : t.byteAt x = s.byteAt x := by
  rw [State.byteAt, h.mem, h.cfg, State.byteAt]

/-- The stack pointers of the other modes are in the bank (10_state.md R22). -/
theorem spOf (h : LocalRun writes flags s t) {m : ModeBits} (hm : m ≠ s.cm) : t.spOf m = s.spOf m := by
  simp only [State.spOf, h.cm, if_neg hm, State.sp, h.spbank]

theorem quiet (h : LocalRun writes flags s t) (q : Quiet t u)
    (hr : ∀ r, r ≠ PC → writes r = false → u.reg r = t.reg r) : LocalRun writes flags s u where
  spbank := q.spbank.trans h.spbank
  mem := q.mem.trans h.mem
  cfg := q.cfg.trans h.cfg
  sr0 := q.sr0.trans h.sr0
  par b i := (by cases b <;> simp only [State.par, q.kpar, q.upar] : u.par b i = t.par b i).trans (h.par b i)
  pdr b i := (by cases b <;> simp only [State.pdr, q.kpdr, q.updr] : u.pdr b i = t.pdr b i).trans (h.pdr b i)
  high := by rw [q.psw]; exact h.high
  cc hf := q.cc.trans (h.cc hf)
  regs r hp hw := (hr r hp hw).trans (h.regs r hp hw)

theorem setReg (h : LocalRun writes flags s t) {n : Reg} (hn : n = PC ∨ writes n = true) (v : Word) :
    LocalRun writes flags s (t.setReg n v) := by
  refine h.quiet (Quiet.setReg t n v) fun r hp hw => ?_
  rw [State.reg_setReg, if_neg]
  rintro rfl
  rcases hn with hn | hn
  · exact hp hn
  · rw [hn] at hw; cases hw

theorem setLow (h : LocalRun writes true s t) (b : BitVec 4) : LocalRun writes true s (t.setLow b) :=
  ⟨h.spbank, h.mem, h.cfg, h.sr0, h.par, h.pdr, (t.high_setLow b).trans h.high, fun hf => (by cases hf), h.regs⟩

end LocalRun

/-- If `x` ends, `I` still holds. Of a raise nothing is said, unlike in `Keeps`: a fault writes SR0 (20_memory.md R95). -/
def EndsIn {α : Type} (I : State → Prop) (x : Exec α) : Prop := ∀ s a t, I s → x s = .ok a t → I t

namespace EndsIn

variable {α β : Type} {I : State → Prop} {writes : Reg → Bool} {flags : Bool} {s0 : State}

theorem pure (a : α) : EndsIn I (pure a : Exec α) := by intro s b t hs h; cases h; exact hs

theorem bind {x : Exec α} {f : α → Exec β} (hx : EndsIn I x) (hf : ∀ a, EndsIn I (f a)) : EndsIn I (x >>= f) := by
  intro s b t hs h
  obtain ⟨a, u, h1, h2⟩ := bind_eq_ok.mp h
  exact hf a u b t (hx s a u hs h1) h2

theorem ofUpdate {x : Exec α} {g : State → α} {f : State → State} (hx : ∀ s, x s = .ok (g s) (f s))
    (hf : ∀ s, I s → I (f s)) : EndsIn I x := by
  intro s a t hs h; rw [hx] at h; cases h; exact hf s hs

/-- A statement that raises at once never ends. -/
theorem ofRaise {x : Exec α} {e : State → Raise} (hx : ∀ s, x s = .error (e s) s) : EndsIn I x := by
  intro s a t _ h; rw [hx] at h; cases h

theorem raiseAt (vec : Config → Word) : EndsIn I (raiseAt vec : Exec α) := ofRaise (e := fun s => .trap (vec s.cfg)) fun _ => rfl
theorem raiseFatal (r : FatalReason) : EndsIn I (raiseFatal r : Exec α) := ofRaise (e := fun _ => .fatal r) fun _ => rfl

theorem ifKernel {x y : Exec Unit} (hx : EndsIn I x) (hy : EndsIn I y) : EndsIn I (ifKernel x y) := by
  intro s a t hs h
  unfold Machine.ifKernel at h
  split at h
  · exact hx s a t hs h
  · exact hy s a t hs h

theorem getReg (n : Reg) : EndsIn I (getReg n) := .ofUpdate (g := fun s => s.reg n) (f := id) (fun _ => rfl) fun _ h => h
theorem getCC : EndsIn I getCC := .ofUpdate (g := State.cc) (f := id) (fun _ => rfl) fun _ h => h

theorem memLoc (l : Loc) : EndsIn I (memLoc l) := by
  cases l with
  | reg n => exact .raiseFatal _
  | mem a => exact .pure a

theorem putReg {n : Reg} (hn : n = PC ∨ writes n = true) (v : Word) : EndsIn (LocalRun writes flags s0) (putReg n v) :=
  .ofUpdate (g := fun _ => ()) (f := fun s => s.setReg n v) (fun _ => rfl) fun _ h => h.setReg hn v

theorem putCC (f : CC) : EndsIn (LocalRun writes true s0) (putCC f) :=
  .ofUpdate (g := fun _ => ()) (f := fun s => s.setCC f) (fun _ => rfl) fun _ h => h.setLow _

theorem putRun (r : RunState) : EndsIn (LocalRun writes flags s0) (putRun r) :=
  .ofUpdate (g := fun _ => ()) (f := fun s => { s with run := r }) (fun _ => rfl)
    fun _ h => ⟨h.spbank, h.mem, h.cfg, h.sr0, h.par, h.pdr, h.high, h.cc, h.regs⟩

theorem devReset : EndsIn (LocalRun writes flags s0) devReset :=
  .ofUpdate (g := fun _ => ()) (f := fun s => s.logPort .devReset) (fun _ => rfl)
    fun _ h => ⟨h.spbank, h.mem, h.cfg, h.sr0, h.par, h.pdr, h.high, h.cc, h.regs⟩

theorem read {x : Exec α} (hx : ∀ s a t, x s = .ok a t → Quiet s t ∧ t.regs = s.regs) :
    EndsIn (LocalRun writes flags s0) x := by
  intro s a t hs h
  obtain ⟨hq, hr⟩ := hx s a t h
  exact hs.quiet hq fun r _ _ => reg_of_regs hr r

/-- Operand access, where every register the operand's mode steps is one of `writes`. -/
theorem operands {x : Exec α} {steps : Reg → Bool} (hx : ∀ s a t, x s = .ok a t → OperandRun steps s t)
    (hw : ∀ r, writes r = false → steps r = false) : EndsIn (LocalRun writes flags s0) x := by
  intro s a t hs h
  exact hs.quiet (hx s a t h).quiet fun r hp hr => (hx s a t h).regs r hp (hw r hr)

theorem sourceValue {o : Operand} {sz : Size} (hw : ∀ r, writes r = false → o.steps r = false) :
    EndsIn (LocalRun writes flags s0) (sourceValue o sz) := operands (fun _ _ _ => sourceValue_ok) hw

theorem resolve {o : Operand} {sz : Size} (hw : ∀ r, writes r = false → o.steps r = false) :
    EndsIn (LocalRun writes flags s0) (resolve o sz) := operands (fun _ _ _ h => (resolve_ok h).1) hw

theorem pop (hsp : writes SP = true) : EndsIn (LocalRun writes flags s0) pop :=
  .bind (.getReg _) fun _ => .bind (.read fun _ _ _ => memRead_ok) fun _ => .bind (.putReg (.inr hsp) _) fun _ => .pure _

theorem putPair {r : Reg} (h : writes r = true) (hp : writes (partner r) = true) (hi lo : Word) :
    EndsIn (LocalRun writes flags s0) (putPair r hi lo) := .bind (.putReg (.inr h) _) fun _ => .putReg (.inr hp) _

theorem getPair (r : Reg) : EndsIn I (getPair r) := .bind (.getReg _) fun _ => .bind (.getReg _) fun _ => .pure _

theorem putMoveFlags (v : Word) : EndsIn (LocalRun writes true s0) (putMoveFlags v) := .bind .getCC fun _ => .putCC _

theorem branchIf (cond : CC → Bool) (off : BitVec 8) : EndsIn (LocalRun writes flags s0) (branchIf cond off) := by
  refine .bind .getCC fun f => ?_
  split
  · exact .bind (.getReg _) fun _ => .putReg (.inl rfl) _
  · exact .pure _

theorem testDouble {sz : Size} {op : CC → Word → Word → CC} {src dst : Operand}
    (hw : ∀ r, writes r = false → (src.steps r || dst.steps r) = false) :
    EndsIn (LocalRun writes true s0) (testDouble sz op src dst) :=
  .bind (operands (fun _ _ _ h => (sourceAndOld_ok h).1) hw) fun _ => .bind .getCC fun _ => .putCC _

theorem testSingle {sz : Size} {op : Word → CC} {dst : Operand} (hw : ∀ r, writes r = false → dst.steps r = false) :
    EndsIn (LocalRun writes true s0) (testSingle sz op dst) :=
  .bind (operands (fun _ _ _ h => (destAndOld_ok h).1) hw) fun _ => .putCC _

theorem mulBody (reg : Reg) (src : Operand) : EndsIn (LocalRun (Instr.mul reg src).mayWriteReg true s0) (mulBody reg src) :=
  .bind (.sourceValue (by simp +contextual [Instr.mayWriteReg])) fun _ => .bind (.getReg _) fun _ => .bind (.putCC _) fun _ =>
    .putPair (by simp [Instr.mayWriteReg]) (by simp [Instr.mayWriteReg]) _ _

theorem divBody (reg : Reg) (src : Operand) : EndsIn (LocalRun (Instr.div reg src).mayWriteReg true s0) (divBody reg src) := by
  refine .bind (.sourceValue (by simp +contextual [Instr.mayWriteReg])) fun v => .bind (.getPair _) fun dd =>
    .bind (.putCC _) fun _ => ?_
  cases (divOp dd v).2 with
  | none => exact .pure _
  | some qr => exact .putPair (by simp [Instr.mayWriteReg]) (by simp [Instr.mayWriteReg]) _ _

theorem ashBody (reg : Reg) (src : Operand) : EndsIn (LocalRun (Instr.ash reg src).mayWriteReg true s0) (ashBody reg src) :=
  .bind (.sourceValue (by simp +contextual [Instr.mayWriteReg])) fun _ => .bind (.getReg _) fun _ => .bind (.putCC _) fun _ =>
    .putReg (.inr (by simp [Instr.mayWriteReg])) _

theorem ashcBody (reg : Reg) (src : Operand) : EndsIn (LocalRun (Instr.ashc reg src).mayWriteReg true s0) (ashcBody reg src) :=
  .bind (.sourceValue (by simp +contextual [Instr.mayWriteReg])) fun _ => .bind (.getPair _) fun _ => .bind (.putCC _) fun _ =>
    .putPair (by simp [Instr.mayWriteReg]) (by simp [Instr.mayWriteReg]) _ _

theorem rtsBody (reg : Reg) : EndsIn (LocalRun (Instr.rts reg).mayWriteReg flags s0) (rtsBody reg) :=
  .bind (.getReg _) fun _ => .bind (.putReg (.inl rfl) _) fun _ => .bind (.pop (by simp [Instr.mayWriteReg])) fun _ =>
    .putReg (.inr (by simp [Instr.mayWriteReg])) _

theorem markBody (nn : BitVec 6) : EndsIn (LocalRun (Instr.mark nn).mayWriteReg flags s0) (markBody nn) :=
  .bind (.getReg _) fun _ => .bind (.putReg (.inr rfl) _) fun _ => .bind (.getReg _) fun _ => .bind (.putReg (.inl rfl) _) fun _ =>
    .bind (.pop rfl) fun _ => .putReg (.inr rfl) _

theorem sobBody (reg : Reg) (nn : BitVec 6) : EndsIn (LocalRun (Instr.sob reg nn).mayWriteReg flags s0) (sobBody reg nn) := by
  refine .bind (.getReg _) fun _ => .bind (.putReg (.inr (by simp [Instr.mayWriteReg])) _) fun _ => .bind (.getReg _) fun w => ?_
  split
  · exact .pure _
  · exact .bind (.getReg _) fun _ => .putReg (.inl rfl) _

theorem jmpBody (dst : Operand) : EndsIn (LocalRun (Instr.jmp dst).mayWriteReg flags s0) (jmpBody dst) :=
  .bind (.resolve fun _ h => h) fun _ => .bind (.memLoc _) fun _ => .putReg (.inl rfl) _

theorem previousValue {src : Operand} (hw : ∀ r, writes r = false → src.steps r = false) :
    EndsIn (LocalRun writes flags s0) (previousValue src) := by
  unfold Machine.previousValue
  split
  · split
    · exact .ofUpdate (x := getPreviousSp) (g := fun s => s.spOf s.pm) (f := id) (fun _ => rfl) fun _ h => h
    · exact .raiseFatal _
  · exact .bind (.resolve hw) fun _ => .bind (.memLoc _) fun _ => .read fun _ _ _ => memReadAs_ok

theorem setLow (f : State → BitVec 4) : EndsIn (LocalRun writes true s0) (fun s => .ok () (s.setLow (f s))) :=
  .ofUpdate (g := fun _ => ()) (f := fun s => s.setLow (f s)) (fun _ => rfl) fun _ h => h.setLow _

end EndsIn

/-! ### Running with a store -/

/-- The instruction `i` run from `s`, up to state `v`, and its store there, at the address and length `storeTarget` gives. -/
structure Stored (i : Instr) (s v t : State) (pa : Nat) (sz : Size) : Prop where
  mayStore : i.neverStores = false
  before : LocalRun i.mayWriteReg i.setsFlags s v
  target : storeTarget i s = some (pa, sz)
  effect : StoreEffect pa sz v t

/-- What an instruction that runs from `s` to its end in `t` has done. -/
inductive Completed (i : Instr) (s t : State) : Prop where
  /-- It ended without a store. -/
  | unstored (run : LocalRun i.mayWriteReg i.setsFlags s t)
  /-- Its store was the last it did. -/
  | stored {v : State} {pa : Nat} {sz : Size} (store : Stored i s v t pa sz)
  /-- JSR: after the push, the link register and R7 (44_branch_control.md R257). -/
  | linked {v w : State} {pa : Nat} {reg : Reg} {dst : Operand} {a b : Word} (instr : i = .jsr reg dst)
      (store : Stored i s v w pa .word) (last : t = (w.setReg reg a).setReg PC b)
  /-- SPL in kernel mode (45_trap_system.md R292). -/
  | priority {n : BitVec 3} (instr : i = .spl n) (last : t = s.setPri n)
  /-- RTI and RTT (R287, R288). -/
  | returned {v : State} {w : Word} (instr : i.isReturn = true) (run : LocalRun i.mayWriteReg i.setsFlags s v) (last : t = v.setPsw w)
  /-- MTPI of R6 (R295). -/
  | previousStack {v : State} {dst : Operand} {w : Word} (instr : i = .mtpi dst) (isReg : dst.isMemory = false)
      (run : LocalRun i.mayWriteReg i.setsFlags s v) (last : t = v.setSpOf v.pm w)

theorem Completed.ofEndsIn {i : Instr} {x : Exec Unit} {s t : State} (hx : EndsIn (LocalRun i.mayWriteReg i.setsFlags s) x)
    (h : x s = .ok () t) : Completed i s t := .unstored (hx s () t (.refl s) h)

theorem storeTarget_of_site {i : Instr} {s u v : State} {m : ModeBits} {a : Word} {sz : Size} {pa : Nat}
    (hsite : storeSite i s = .ok (some (m, a, sz)) u) (h : translate a m true u = .ok pa v) : storeTarget i s = some (pa, sz) := by
  rw [storeTarget, hsite]
  simp only
  rw [h]

theorem State.mapped_setCC (s : State) (f : CC) (m va wr) : (s.setCC f).mapped m va wr = s.mapped m va wr := rfl

/-- The store's address is that of `storeTarget`: from the state `u` where its site is named to the state `v` where it is made,
no translation changes. -/
theorem Stored.ofEffect {i : Instr} {s u v v' t : State} {m : ModeBits} {a : Word} {sz : Size} {pa : Nat}
    (hmay : i.neverStores = false) (hv : LocalRun i.mayWriteReg i.setsFlags s v)
    (hsite : storeSite i s = .ok (some (m, a, sz)) u) (hmap : v.mapped m a true = u.mapped m a true)
    (ht : translate a m true v = .ok pa v') (he : StoreEffect pa sz v t) : Stored i s v t pa sz :=
  ⟨hmay, hv, storeTarget_of_site hsite (translate_ok_iff.mpr ⟨hmap ▸ (translate_ok_iff.mp ht).1, rfl⟩), he⟩

/-! ### The shapes of an instruction with a destination -/

/-- An instruction that writes condition codes and then its destination, after its operands have stepped `steps`. -/
structure WritesDest (i : Instr) (dst : Operand) (steps : Reg → Bool) : Prop where
  flags : i.setsFlags = true
  never : i.neverStores = !dst.isMemory
  writes : ∀ r, i.mayWriteReg r = (steps r || dst.isReg r)

/-- The location an operand resolves to: its register in register mode, an address in the others (R157). -/
theorem loc_cases {o : Operand} {l : Loc}
    (h : (∀ n, l = .reg n → o.isMemory = false ∧ n = o.reg) ∧ (o.isMemory = false → l = .reg o.reg)) :
    (l = .reg o.reg ∧ o.isMemory = false) ∨ ∃ a, l = .mem a ∧ o.isMemory = true := by
  obtain ⟨hreg, hloc⟩ := h
  cases l with
  | reg n => obtain ⟨hm, rfl⟩ := hreg n rfl; exact .inl ⟨rfl, hm⟩
  | mem a =>
    refine .inr ⟨a, rfl, ?_⟩
    cases hm : o.isMemory with
    | true => rfl
    | false => cases hloc hm

section
variable {i : Instr} {src dst : Operand} {sz : Size} {steps : Reg → Bool} {s u t : State} {l : Loc} {a : Word}

theorem WritesDest.run (hi : WritesDest i dst steps) (h : OperandRun steps s u) : LocalRun i.mayWriteReg i.setsFlags s u := by
  refine (LocalRun.refl s).quiet h.quiet fun r hp hw => h.regs r hp ?_
  rw [hi.writes, Bool.or_eq_false_iff] at hw
  exact hw.1

theorem WritesDest.writesReg (hi : WritesDest i dst steps) (hm : dst.isMemory = false) : i.mayWriteReg dst.reg = true := by
  simp [hi.writes, Operand.isReg, hm]

theorem WritesDest.setCC (hi : WritesDest i dst steps) (h : OperandRun steps s u) (f : CC) :
    LocalRun i.mayWriteReg i.setsFlags s (u.setCC f) := by
  have hu := hi.run h
  rw [hi.flags] at hu ⊢
  exact hu.setLow _

/-- The destination is memory: the flags, then the store. -/
theorem WritesDest.completed_mem {f : CC} {v : Word} (hi : WritesDest i dst steps) (h : OperandRun steps s u)
    (hm : dst.isMemory = true) (hsite : storeSite i s = .ok (some (u.cm, a, sz)) u)
    (hw : memWrite a sz v (u.setCC f) = .ok () t) : Completed i s t := by
  obtain ⟨pa, ht, he⟩ := memWriteAs_ok hw
  rw [State.cm_setCC] at ht
  exact .stored (.ofEffect (by rw [hi.never, hm]; rfl) (hi.setCC h f) hsite (u.mapped_setCC f _ _ _) ht he)

/-- The flags, then the destination (70_reset_and_hazards.md R389). -/
theorem WritesDest.completed_finishWith {out : Word × CC} (hi : WritesDest i dst steps) (h : OperandRun steps s u)
    (hl : (∀ n, l = .reg n → dst.isMemory = false ∧ n = dst.reg) ∧ (dst.isMemory = false → l = .reg dst.reg))
    (hsite : ∀ a, l = .mem a → storeSite i s = .ok (some (u.cm, a, sz)) u) (hf : finishWith l sz out u = .ok () t) :
    Completed i s t := by
  rw [finishWith, bind_of_ok (putCC_apply _ _)] at hf
  rcases loc_cases hl with ⟨rfl, hm⟩ | ⟨a, rfl, hm⟩
  · obtain ⟨w, rfl⟩ := writeLoc_reg hf
    exact .unstored ((hi.setCC h _).setReg (.inr (hi.writesReg hm)) w)
  · have hw : memWrite a sz out.1 (u.setCC out.2) = .ok () t := by cases sz <;> exact hf
    exact hi.completed_mem h hm (hsite a rfl) hw

theorem completed_modifyDouble {op : CC → Word → Word → Word × CC}
    (hi : WritesDest i dst fun r => src.steps r || dst.steps r)
    (hsite : storeSite i = (sourceAndOld src dst sz >>= fun p => siteOf p.2.1 sz))
    (h : modifyDouble sz op src dst s = .ok () t) : Completed i s t := by
  obtain ⟨⟨v, l, d⟩, u, hr, h⟩ := bind_eq_ok.mp h
  obtain ⟨hrun, hl⟩ := sourceAndOld_ok hr
  dsimp only at h
  rw [bind_of_ok (getCC_apply _)] at h
  exact hi.completed_finishWith hrun hl (fun a ha => by rw [hsite, bind_of_ok hr, ha]; rfl) h

theorem completed_modifySingle {op : CC → Word → Word × CC} (hi : WritesDest i dst dst.steps)
    (hsite : storeSite i = (destAndOld dst sz >>= fun p => siteOf p.1 sz))
    (h : modifySingle sz op dst s = .ok () t) : Completed i s t := by
  obtain ⟨⟨l, d⟩, u, hr, h⟩ := bind_eq_ok.mp h
  obtain ⟨hrun, hl⟩ := destAndOld_ok hr
  dsimp only at h
  rw [bind_of_ok (getCC_apply _)] at h
  exact hi.completed_finishWith hrun hl (fun a ha => by rw [hsite, bind_of_ok hr, ha]; rfl) h

theorem completed_setSingle {op : CC → Word × CC} (hi : WritesDest i dst dst.steps)
    (hsite : storeSite i = (resolve dst sz >>= fun l => siteOf l sz))
    (h : setSingle sz op dst s = .ok () t) : Completed i s t := by
  obtain ⟨l, u, hr, h⟩ := bind_eq_ok.mp h
  obtain ⟨hrun, hl⟩ := resolve_ok hr
  rw [bind_of_ok (getCC_apply _)] at h
  exact hi.completed_finishWith hrun hl (fun a ha => by rw [hsite, bind_of_ok hr, ha]; rfl) h

end

/-! ### The other instructions that store -/

theorem completed_xor {reg : Reg} {dst : Operand} {s t : State} (h : xorBody reg dst s = .ok () t) :
    Completed (.xor reg dst) s t := by
  obtain ⟨⟨l, d⟩, u, hr, h⟩ := bind_eq_ok.mp h
  obtain ⟨hrun, hl⟩ := destAndOld_ok hr
  dsimp only at h
  rw [bind_of_ok (getReg_apply _ _), bind_of_ok (getCC_apply _)] at h
  have hi : WritesDest (.xor reg dst) dst dst.steps := ⟨rfl, rfl, fun _ => rfl⟩
  exact hi.completed_finishWith hrun hl (fun a ha => (bind_of_ok hr).trans (by rw [ha]; rfl)) h

theorem completed_mov {src dst : Operand} {s t : State} (h : movBody src dst s = .ok () t) : Completed (.mov src dst) s t := by
  obtain ⟨⟨v, l⟩, u, hr, h⟩ := bind_eq_ok.mp h
  obtain ⟨hrun, hl⟩ := sourceAndDest_ok hr
  dsimp only at h
  rw [bind_of_ok (getCC_apply _)] at h
  have hi : WritesDest (.mov src dst) dst fun r => src.steps r || dst.steps r := ⟨rfl, rfl, fun _ => rfl⟩
  exact hi.completed_finishWith hrun hl (fun a ha => (bind_of_ok hr).trans (by rw [ha]; rfl)) h

theorem completed_movb {src dst : Operand} {s t : State} (h : movbBody src dst s = .ok () t) : Completed (.movb src dst) s t := by
  obtain ⟨⟨v, l⟩, u, hr, h⟩ := bind_eq_ok.mp h
  obtain ⟨hrun, hl⟩ := sourceAndDest_ok hr
  dsimp only at h
  rw [bind_of_ok (getCC_apply _), bind_of_ok (putCC_apply _ _)] at h
  have hi : WritesDest (.movb src dst) dst fun r => src.steps r || dst.steps r := ⟨rfl, rfl, fun _ => rfl⟩
  rcases loc_cases hl with ⟨rfl, hm⟩ | ⟨a, rfl, hm⟩
  · cases h; exact .unstored ((hi.setCC hrun _).setReg (.inr (hi.writesReg hm)) _)
  · exact hi.completed_mem hrun hm (bind_of_ok hr) h

theorem completed_jsr {reg : Reg} {dst : Operand} {s t : State} (h : jsrBody reg dst s = .ok () t) :
    Completed (.jsr reg dst) s t := by
  obtain ⟨l, u, hr, h⟩ := bind_eq_ok.mp h
  obtain ⟨a, u', hl, h⟩ := bind_eq_ok.mp h
  rw [bind_of_ok (getReg_apply _ _)] at h
  obtain ⟨⟨⟩, w, hpush, h⟩ := bind_eq_ok.mp h
  cases h
  cases l with
  | reg n => cases hl
  | mem a' =>
    cases hl
    obtain ⟨pa, v', ht, he⟩ := push_ok hpush
    have hu : LocalRun (Instr.jsr reg dst).mayWriteReg false s u :=
      EndsIn.resolve (by simp +contextual [Instr.mayWriteReg]) s _ u (.refl s) hr
    have hsite : storeSite (.jsr reg dst) s = .ok (some (u.cm, u.reg SP - 2, .word)) u := bind_of_ok hr
    exact .linked rfl (.ofEffect rfl (hu.setReg (.inr (by simp [Instr.mayWriteReg])) _) hsite rfl ht he) rfl

theorem putMoveFlags_apply (v : Word) (s : State) : putMoveFlags v s = .ok () (s.setCC (logicFlags .word s.cc v)) := rfl

theorem completed_mfpi {src : Operand} {s t : State} (h : mfpiBody src s = .ok () t) : Completed (.mfpi src) s t := by
  obtain ⟨v, u, hr, h⟩ := bind_eq_ok.mp h
  rw [bind_of_ok (putMoveFlags_apply _ _)] at h
  obtain ⟨pa, v', ht, he⟩ := push_ok h
  rw [State.cm_setCC] at ht
  have hu : LocalRun (Instr.mfpi src).mayWriteReg true s u :=
    EndsIn.previousValue (by simp +contextual [Instr.mayWriteReg]) s v u (.refl s) hr
  have hsite : storeSite (.mfpi src) s = .ok (some (u.cm, u.reg SP - 2, .word)) u := bind_of_ok hr
  exact .stored (.ofEffect rfl ((hu.setLow _).setReg (.inr (by simp [Instr.mayWriteReg])) _) hsite rfl ht he)

theorem completed_mtpi {dst : Operand} {s t : State} (h : mtpiBody dst s = .ok () t) : Completed (.mtpi dst) s t := by
  obtain ⟨v, p, hpop, h⟩ := bind_eq_ok.mp h
  have hp : LocalRun (Instr.mtpi dst).mayWriteReg true s p := EndsIn.pop (by simp [Instr.mayWriteReg]) s v p (.refl s) hpop
  by_cases hm : dst.mode = .register
  · rw [if_pos hm] at h
    by_cases hsp : dst.reg = SP
    · rw [if_pos hsp, bind_of_ok (putMoveFlags_apply _ _)] at h
      cases h
      exact .previousStack rfl (Operand.isMemory_eq_false_iff.mpr hm) (hp.setLow _) rfl
    · rw [if_neg hsp] at h; cases h
  · rw [if_neg hm] at h
    obtain ⟨l, u, hr, h⟩ := bind_eq_ok.mp h
    obtain ⟨a, u', hl, h⟩ := bind_eq_ok.mp h
    rw [bind_of_ok (putMoveFlags_apply _ _)] at h
    cases l with
    | reg n => cases hl
    | mem a' =>
      cases hl
      obtain ⟨pa, ht, he⟩ := memWriteAs_ok h
      rw [State.pm_setCC] at ht
      have hu : LocalRun (Instr.mtpi dst).mayWriteReg true s u :=
        EndsIn.resolve (by simp +contextual [Instr.mayWriteReg]) p _ u hp hr
      have hsite : storeSite (.mtpi dst) s = .ok (some (u.pm, a, .word)) u := (bind_of_ok hpop).trans (bind_of_ok hr)
      have hmem : dst.isMemory = true := by simpa [Operand.isMemory] using hm
      exact .stored (.ofEffect (by simp [Instr.neverStores, hmem]) (hu.setLow _) hsite (u.mapped_setCC _ _ _ _) ht he)

/-! ### Returns and SPL -/

theorem completed_return {i : Instr} (hret : i.isReturn = true) (hsp : i.mayWriteReg SP = true) {s t : State}
    (h : returnFromTrap s = .ok () t) : Completed i s t := by
  obtain ⟨npc, u, hpc, h⟩ := bind_eq_ok.mp h
  obtain ⟨npsw, v, hpsw, h⟩ := bind_eq_ok.mp h
  cases h
  have hv : LocalRun i.mayWriteReg i.setsFlags s v := EndsIn.pop hsp u _ v (EndsIn.pop hsp s _ u (.refl s) hpc) hpsw
  exact .returned hret (hv.setReg (.inl rfl) npc) rfl

theorem completed_spl {n : BitVec 3} {s t : State} (h : splBody n s = .ok () t) : Completed (.spl n) s t := by
  unfold splBody ifKernel at h
  split at h
  · cases h; exact .priority rfl rfl
  · cases h; exact .unstored (.refl s)

/-! ### Every instruction -/

/-- An instruction that runs to its end has done one of the things `Completed` lists. -/
theorem completed {i : Instr} {s t : State} (h : bodyOf i s = .ok () t) : Completed i s t := by
  cases i with
  | halt | wait => exact .ofEndsIn (.ifKernel (.putRun _) (.raiseAt _)) h
  | rti | rtt => exact completed_return rfl rfl h
  | bpt | iot | emt | trap => cases h
  | reset => exact .ofEndsIn (.ifKernel .devReset (.pure _)) h
  | spl level => exact completed_spl h
  | jmp dst => exact .ofEndsIn (.jmpBody _) h
  | jsr reg dst => exact completed_jsr h
  | rts reg => exact .ofEndsIn (.rtsBody _) h
  | mark nn => exact .ofEndsIn (.markBody _) h
  | sob reg nn => exact .ofEndsIn (.sobBody _ _) h
  | mfpi src => exact completed_mfpi h
  | mtpi dst => exact completed_mtpi h
  | ccClear mask => exact .ofEndsIn (x := ccClearBody mask) (.setLow _) h
  | ccSet mask => exact .ofEndsIn (x := ccSetBody mask) (.setLow _) h
  | br | bne | beq | bge | blt | bgt | ble | bpl | bmi | bhi | blos | bvc | bvs | bcc | bcs =>
    exact .ofEndsIn (.branchIf _ _) h
  | clr | clrb | sxt => exact completed_setSingle ⟨rfl, rfl, fun _ => rfl⟩ rfl h
  | tst | tstb => exact .ofEndsIn (.testSingle fun _ hw => hw) h
  | swab | com | comb | inc | incb | dec | decb | neg | negb | adc | adcb | sbc | sbcb | ror | rorb | rol | rolb | asr | asrb
  | asl | aslb => exact completed_modifySingle ⟨rfl, rfl, fun _ => rfl⟩ rfl h
  | mov src dst => exact completed_mov h
  | movb src dst => exact completed_movb h
  | cmp | cmpb | bit | bitb => exact .ofEndsIn (.testDouble fun _ hw => hw) h
  | bic | bicb | bis | bisb | add | sub => exact completed_modifyDouble ⟨rfl, rfl, fun _ => rfl⟩ rfl h
  | mul reg src => exact .ofEndsIn (.mulBody _ _) h
  | div reg src => exact .ofEndsIn (.divBody _ _) h
  | ash reg src => exact .ofEndsIn (.ashBody _ _) h
  | ashc reg src => exact .ofEndsIn (.ashcBody _ _) h
  | xor reg dst => exact completed_xor h

end Sys2Proof.Machine
end

section
/-! The frames of an instruction that runs to its end: memory, the registers, the PSW, the translator's registers and the stack pointers of
the other modes (10_state.md R21, R22, R26 to R37, 20_memory.md R96). Each is read off the cases of `Completed`. -/

namespace Sys2Proof.Machine

/-! ### What a store and the writes after it leave alone -/

section
variable {i : Instr} {s v w : State} {pa : Nat} {sz : Size}

/-- A core register the instruction does not store to is not the one at its store's word address (20_memory.md R65). -/
theorem Stored.not_coreRegAt (h : Stored i s v w pa sz) {r : CoreReg} (hr : ¬ storesCoreReg i s r) :
    ¬(v.cfg.ioBase ≤ evenAddr pa ∧ coreRegAt v.cfg (evenAddr pa) = some r) := by
  rw [h.before.cfg]
  exact fun hat => hr ⟨pa, sz, h.target, hat⟩

/-- A store elsewhere than to ADDR_PSW changes neither the PSW nor a register. -/
theorem Stored.psw (h : Stored i s v w pa sz) (hr : ¬ storesCoreReg i s .psw) :
    w.psw = v.psw ∧ w.regs = v.regs ∧ w.spbank = v.spbank := h.effect.psw (h.not_coreRegAt hr)

/-- A register that the instruction may not write survives up to the store and through it; R6 where the mode does not change. -/
theorem Stored.reg (h : Stored i s v w pa sz) {r : Reg} (hpc : r ≠ PC) (hw : i.mayWriteReg r = false) (hsp : r = SP → w.cm = s.cm) :
    w.reg r = s.reg r := by
  refine Eq.trans ?_ (h.before.regs r hpc hw)
  by_cases hr : r = SP
  · subst hr; exact h.effect.sp ((hsp rfl).trans h.before.cm.symm)
  · exact h.effect.regs r hr

/-- A store changes no stack pointer of a mode (10_state.md R22). -/
theorem Stored.spOf (h : Stored i s v w pa sz) {m : ModeBits} (hm : m ≠ s.cm) : w.spOf m = s.spOf m :=
  (h.effect.stackPtr m).trans (h.before.spOf hm)

theorem Stored.sr0 (h : Stored i s v w pa sz) (hr : ¬ storesCoreReg i s .sr0) : w.sr0 = s.sr0 :=
  (h.effect.sr0 (h.not_coreRegAt hr)).trans h.before.sr0

theorem Stored.par (h : Stored i s v w pa sz) {b : Bank} {k : Fin 8} (hr : ¬ storesCoreReg i s (.par b k)) :
    w.par b k = s.par b k :=
  (h.effect.par b k (h.not_coreRegAt hr)).trans (h.before.par b k)

theorem Stored.pdr (h : Stored i s v w pa sz) {b : Bank} {k : Fin 8} (hr : ¬ storesCoreReg i s (.pdr b k)) :
    w.pdr b k = s.pdr b k ∨ (i.neverStores = false ∧ w.pdr b k = (s.pdr b k ||| 0o100#16)) := by
  rw [← h.before.pdr b k]
  exact (h.effect.pdr b k (h.not_coreRegAt hr)).imp_right fun hw => ⟨h.mayStore, hw⟩

end

/-- A write of a stack pointer changes only the registers and the bank. -/
theorem State.setSpOf_translator (s : State) (m : ModeBits) (v : Word) :
    (s.setSpOf m v).mem = s.mem ∧ (s.setSpOf m v).cfg = s.cfg ∧ (s.setSpOf m v).sr0 = s.sr0 ∧
      (∀ b k, (s.setSpOf m v).par b k = s.par b k) ∧ ∀ b k, (s.setSpOf m v).pdr b k = s.pdr b k := by
  unfold State.setSpOf
  split <;> exact ⟨rfl, rfl, rfl, fun _ _ => rfl, fun _ _ => rfl⟩

/-! ### Memory -/

/-- Settles O54: none of the ways to complete without a store touches memory. -/
theorem nonStoringFormsKeepMemory : Obligations.NonStoringFormsKeepMemory := by
  intro i s t hnever h
  refine ⟨exec_of_ok h, fun x => ?_⟩
  cases completed h with
  | unstored run => exact run.byteAt x
  | stored store => rw [store.mayStore] at hnever; cases hnever
  | linked instr store last => rw [store.mayStore] at hnever; cases hnever
  | priority instr last => rw [last]; rfl
  | returned instr run last => rw [last]; exact run.byteAt x
  | @previousStack v dst w instr isReg run last =>
    obtain ⟨hmem, hcfg, -⟩ := v.setSpOf_translator v.pm w
    rw [last, State.byteAt, hmem, hcfg]
    exact run.byteAt x

/-! ### Registers -/

/-- Settles O56: up to a store only the registers of `mayWriteReg` and R7 are written, and a store or a load of the PSW changes R6 only with
the mode. -/
theorem onlyNamedRegistersChange : Obligations.OnlyNamedRegistersChange := by
  intro i s t r h hpc hw hsp
  refine ⟨exec_of_ok h, ?_⟩
  cases completed h with
  | unstored run => exact run.regs r hpc hw
  | stored store => exact store.reg hpc hw hsp
  | @linked v u pa reg dst a b instr store last =>
    subst instr last
    have hne : r ≠ reg := by
      rintro rfl
      simp [Instr.mayWriteReg] at hw
    rw [State.reg_setReg, if_neg hpc, State.reg_setReg, if_neg hne]
    exact store.reg hpc hw hsp
  | priority instr last => rw [last]; rfl
  | @returned v w instr run last =>
    subst last
    refine Eq.trans ?_ (run.regs r hpc hw)
    by_cases hr : r = SP
    · exact v.reg_setPsw_same w ((hsp hr).trans run.cm.symm) r
    · exact v.reg_setPsw_ne w r hr
  | @previousStack v dst w instr isReg run last =>
    have hne : r ≠ SP := by
      rintro rfl
      simp [instr, Instr.mayWriteReg] at hw
    obtain ⟨-, -, hreg⟩ := v.setSpOf_frame v.pm w
    rw [last, hreg r hne]
    exact run.regs r hpc hw

/-! ### The PSW -/

/-- What PswFrame says of an instruction that is no return, of the PSW `q` it leaves where it found `p`. -/
def pswKept (i : Instr) (p q : Word) : Prop :=
  q.extractLsb' 8 8 = p.extractLsb' 8 8 ∧ q.getLsbD 4 = p.getLsbD 4 ∧
    ((∀ n, i ≠ .spl n) → q.extractLsb' 5 3 = p.extractLsb' 5 3) ∧ (i.setsFlags = false → CC.ofPsw q = CC.ofPsw p)

theorem LocalRun.pswKept {i : Instr} {writes : Reg → Bool} {s t : State} (h : LocalRun writes i.setsFlags s t) :
    pswKept i s.psw t.psw :=
  ⟨extract_of_high h.high (by decide), getLsbD_of_high h.high (by decide), fun _ => h.pri, h.cc⟩

/-- A change of the priority leaves the rest of the PSW (10_state.md R27, R30). -/
theorem pswKept_setPri (s : State) (n : BitVec 3) : pswKept (.spl n) s.psw (s.setPri n).psw :=
  ⟨s.extract_setPri n 8 8 (by decide) (by decide), s.bit_setPri n 4 (by decide) (by decide), fun hne => absurd rfl (hne n),
    fun _ => s.cc_setPri n⟩

/-- Settles O57: the PSW is that of the state before the store, in which only SPL wrote the priority and only `setsFlags` the flags. -/
theorem pswFrame : Obligations.PswFrame := by
  intro i s t h hret hpsw
  show pswKept i s.psw t.psw
  cases completed h with
  | unstored run => exact run.pswKept
  | stored store => rw [(store.psw hpsw).1]; exact store.before.pswKept
  | linked instr store last =>
    rw [last, State.psw_setReg, State.psw_setReg, (store.psw hpsw).1]
    exact store.before.pswKept
  | priority instr last => rw [last, instr]; exact pswKept_setPri s _
  | returned instr run last => rw [instr] at hret; cases hret
  | @previousStack v dst w instr isReg run last =>
    obtain ⟨hkept, -⟩ := v.setSpOf_frame v.pm w
    rw [last, hkept]
    exact run.pswKept

/-! ### The translator's registers and the other modes' stack pointers -/

/-- After JSR's push, the link register: R6 is written as a link register only where the push kept the mode. -/
theorem Stored.spOf_link {s v w : State} {pa : Nat} {reg : Reg} {dst : Operand} (h : Stored (.jsr reg dst) s v w pa .word) (a b : Word)
    {m : ModeBits} (hm : m ≠ s.cm) (hpsw : reg = SP → ¬ storesCoreReg (.jsr reg dst) s .psw) :
    ((w.setReg reg a).setReg PC b).spOf m = s.spOf m := by
  rw [State.spOf_setReg b (.inl (by decide)), State.spOf_setReg a, h.spOf hm]
  by_cases hreg : reg = SP
  · refine .inr ?_
    obtain ⟨hsame, -⟩ := h.psw (hpsw hreg)
    rwa [State.cm, hsame, ← State.cm, h.before.cm]
  · exact .inl hreg

/-- Settles O59: up to a store no translator register and no other mode's stack pointer is written; a store changes the one it addresses
and may set W; MTPI of R6 and a link to R6 in another mode are the exceptions for the stack pointers. -/
theorem translatorAndBankFrame : Obligations.TranslatorAndBankFrame := by
  intro i s t h
  cases completed h with
  | unstored run => exact ⟨fun _ => run.sr0, fun b k _ => run.par b k, fun b k _ => .inl (run.pdr b k), fun m hm _ _ => run.spOf hm⟩
  | stored store =>
    exact ⟨store.sr0, fun _ _ hr => store.par hr, fun _ _ hr => store.pdr hr, fun m hm _ _ => store.spOf hm⟩
  | linked instr store last =>
    subst instr last
    exact ⟨store.sr0, fun _ _ hr => store.par hr, fun _ _ hr => store.pdr hr,
      fun m hm _ hjsr => store.spOf_link _ _ hm fun hreg => hjsr _ (by rw [hreg])⟩
  | priority instr last =>
    subst last
    exact ⟨fun _ => rfl, fun _ _ _ => rfl, fun _ _ _ => .inl rfl, fun m _ _ _ => by simp [State.spOf]⟩
  | @returned v w instr run last =>
    subst last
    exact ⟨fun _ => run.sr0, fun b k _ => run.par b k, fun b k _ => .inl (run.pdr b k),
      fun m hm _ _ => (v.spOf_setPsw w m).trans (run.spOf hm)⟩
  | @previousStack v dst w instr isReg run last =>
    subst last
    obtain ⟨-, -, hsr0, hpar, hpdr⟩ := v.setSpOf_translator v.pm w
    refine ⟨fun _ => hsr0.trans run.sr0, fun b k _ => (hpar b k).trans (run.par b k),
      fun b k _ => .inl ((hpdr b k).trans (run.pdr b k)), fun m hm hmtpi _ => ?_⟩
    have hne : m ≠ v.pm := by
      rw [run.pm]
      exact (hmtpi dst instr).resolve_left (by simp [isReg])
    rw [State.spOf_setSpOf, if_neg hne, run.spOf hm]

end Sys2Proof.Machine
end

section
/-! The router (20_memory.md R61 to R63, R67), one rule for each kind of physical address, and the core registers behind it (R65). -/

namespace Sys2Proof.Machine

/-! ### Which device holds an address -/

/-- The device of an address is that of the first range lo..hi which holds it (R67). -/
theorem deviceAt_of_first {before after : List DeviceRange} {d : DeviceRange} {pa : Nat}
    (hbefore : ∀ e ∈ before, ¬(e.lo ≤ pa ∧ pa ≤ e.hi)) (hd : d.lo ≤ pa ∧ pa ≤ d.hi) :
    deviceAt (before ++ d :: after) pa = some d :=
  List.find?_eq_some_iff_append.mpr ⟨by simpa using hd, before, after, rfl, by simpa [imp_iff_not_or] using hbefore⟩

theorem deviceAt_of_none {ranges : List DeviceRange} {pa : Nat} (h : ∀ e ∈ ranges, ¬(e.lo ≤ pa ∧ pa ≤ e.hi)) :
    deviceAt ranges pa = none :=
  List.find?_eq_none.mpr (by simpa using h)

/-- A device read ends; it adds its event to the port record and takes one of the environment's answers, and nothing else changes
(00_scope.md R12). -/
theorem devRead_logged (port pa : Nat) (s : State) :
    ∃ a t, devRead port pa s = .ok a t ∧ t.ports = .read port pa a :: s.ports ∧
      { t with ports := s.ports, devIn := s.devIn, draws := s.draws } = s := by
  unfold devRead
  split <;> exact ⟨_, _, rfl, rfl, rfl⟩

/-! ### One rule for each kind of address -/

section
variable {pa : Nat} {s : State}

theorem physRead_odd (h : pa % 2 = 1) : physRead pa s = .error (.trap s.cfg.vecBus) s := by
  rw [physRead, if_pos h, busError_apply]

theorem physWrite_odd (h : pa % 2 = 1) (w : Word) : physWrite pa w s = .error (.trap s.cfg.vecBus) s := by
  rw [physWrite, if_pos h, busError_apply]

theorem physRead_array (heven : pa % 2 = 0) (h : pa < s.cfg.ioBase) : physRead pa s = .ok (s.wordAt pa) s := by
  rw [physRead, if_neg (by omega), if_pos h]

theorem physWrite_array (heven : pa % 2 = 0) (h : pa < s.cfg.ioBase) (w : Word) : physWrite pa w s = .ok () (s.setWord pa w) := by
  rw [physWrite, if_neg (by omega), if_pos h]

variable (heven : pa % 2 = 0) (hio : s.cfg.ioBase ≤ pa)
include heven hio

theorem physRead_core {r : CoreReg} (hr : coreRegAt s.cfg pa = some r) : physRead pa s = .ok (s.readCore r) s := by
  rw [physRead, if_neg (by omega), if_neg (by omega), hr]

theorem physWrite_core {r : CoreReg} (hr : coreRegAt s.cfg pa = some r) (w : Word) :
    physWrite pa w s = .ok () (s.writeCore r w) := by
  rw [physWrite, if_neg (by omega), if_neg (by omega), hr]

variable (hcore : coreRegAt s.cfg pa = none)
include hcore

theorem physRead_device {d : DeviceRange} (hd : deviceAt s.cfg.devRanges pa = some d) : physRead pa s = devRead d.port pa s := by
  rw [physRead, if_neg (by omega), if_neg (by omega), hcore, hd]

theorem physWrite_device {d : DeviceRange} (hd : deviceAt s.cfg.devRanges pa = some d) (w : Word) :
    physWrite pa w s = .ok () (s.logPort (.write d.port pa w)) := by
  rw [physWrite, if_neg (by omega), if_neg (by omega), hcore, hd]
  rfl

theorem physRead_unbound (hd : deviceAt s.cfg.devRanges pa = none) : physRead pa s = .error (.trap s.cfg.vecBus) s := by
  rw [physRead, if_neg (by omega), if_neg (by omega), hcore, hd, busError_apply]

theorem physWrite_unbound (hd : deviceAt s.cfg.devRanges pa = none) (w : Word) :
    physWrite pa w s = .error (.trap s.cfg.vecBus) s := by
  rw [physWrite, if_neg (by omega), if_neg (by omega), hcore, hd, busError_apply]

end

/-- Settles O18: each clause is the router's rule for one kind of address. -/
theorem routerDecodesPhysicalAddresses : Obligations.RouterDecodesPhysicalAddresses := by
  intro pa w s
  refine ⟨fun hodd => ⟨physRead_odd hodd, physWrite_odd hodd w⟩,
    fun heven harray => ⟨physRead_array heven harray, physWrite_array heven harray w⟩,
    fun heven hio => ⟨fun r hr => ⟨physRead_core heven hio hr, physWrite_core heven hio hr w⟩,
      fun before d after hcore hranges hbefore hd => ?_, fun hcore hnone => ?_⟩⟩
  · have hdev : deviceAt s.cfg.devRanges pa = some d := hranges ▸ deviceAt_of_first hbefore hd
    rw [physRead_device heven hio hcore hdev]
    exact ⟨devRead_logged d.port pa s, physWrite_device heven hio hcore hdev w⟩
  · have hdev : deviceAt s.cfg.devRanges pa = none := deviceAt_of_none hnone
    exact ⟨physRead_unbound heven hio hcore hdev, physWrite_unbound heven hio hcore hdev w⟩

/-! ### The core registers -/

/-- The byte address of a core register (R65). -/
def regAddr (c : Config) : CoreReg → Nat
  | .pdr .kernel i => c.addrKpdr + 2 * i.val
  | .par .kernel i => c.addrKpar + 2 * i.val
  | .sr0 => c.addrSr0
  | .sr2 => c.addrSr2
  | .pdr .user i => c.addrUpdr + 2 * i.val
  | .par .user i => c.addrUpar + 2 * i.val
  | .psw => c.addrPsw

theorem inBlock_iff {base pa : Nat} : inBlock base pa = true ↔ base ≤ pa ∧ pa < base + 16 := by
  simp [inBlock]

theorem blockIndex_add (base : Nat) (i : Fin 8) : blockIndex base (base + 2 * i.val) = i := by
  apply Fin.ext
  simp only [blockIndex, Fin.ofNat]
  omega

/-- An even address in a block is that of the register its index names. -/
theorem add_blockIndex {base pa : Nat} (hbase : base % 2 = 0) (heven : pa % 2 = 0) (h : inBlock base pa = true) :
    pa = base + 2 * (blockIndex base pa).val := by
  obtain ⟨hlo, hhi⟩ := inBlock_iff.mp h
  simp only [blockIndex, Fin.ofNat]
  omega

/-- In a legal configuration the registers' blocks start at even addresses (R65). -/
theorem Config.wf_coreBlocks_even {c : Config} (h : c.wf = true) : ∀ b ∈ c.coreBlocks, b.1 % 2 = 0 := by
  simp only [Config.wf, Config.registersWf, Bool.and_eq_true, List.all_eq_true, decide_eq_true_eq] at h
  obtain ⟨⟨⟨⟨-, hblocks, -⟩, -⟩, -⟩, -⟩ := h
  exact fun b hb => (hblocks b hb).1.1

/-- In a legal configuration no two of the registers' blocks share an address (R65). -/
theorem Config.wf_coreBlocks_apart {c : Config} (h : c.wf = true) :
    c.coreBlocks.Pairwise fun a b => a.1 + a.2 ≤ b.1 ∨ b.1 + b.2 ≤ a.1 := by
  simp only [Config.wf, Config.registersWf, Config.apart, Bool.and_eq_true, Bool.or_eq_true, decide_eq_true_eq] at h
  obtain ⟨⟨⟨⟨-, -, hapart⟩, -⟩, -⟩, -⟩ := h
  exact hapart

/-- An address of one block lies in no block of eight words apart from it. -/
theorem inBlock_of_apart {a b n pa : Nat} (h : a + 16 ≤ b ∨ b + n ≤ a) (hpa : b ≤ pa ∧ pa < b + n) : inBlock a pa = false := by
  rw [Bool.eq_false_iff, ne_eq, inBlock_iff]
  omega

/-- An address of one block is not that of a register apart from it. -/
theorem ne_of_apart {a b n pa : Nat} (h : a + 2 ≤ b ∨ b + n ≤ a) (hpa : b ≤ pa ∧ pa < b + n) : pa ≠ a := by omega

/-- In a legal configuration the register at the address of `r` is `r`: the blocks tried before that of `r` do not hold the address. -/
theorem coreRegAt_regAddr {c : Config} (h : c.wf = true) (r : CoreReg) : coreRegAt c (regAddr c r) = some r := by
  have hapart := Config.wf_coreBlocks_apart h
  simp only [Config.coreBlocks, List.pairwise_cons, List.mem_cons, List.not_mem_nil, or_false, forall_eq_or_imp, forall_eq] at hapart
  obtain ⟨⟨kpdr_kpar, kpdr_sr0, kpdr_sr2, kpdr_updr, kpdr_upar, kpdr_psw⟩, ⟨kpar_sr0, kpar_sr2, kpar_updr, kpar_upar, kpar_psw⟩,
    ⟨sr0_sr2, sr0_updr, sr0_upar, sr0_psw⟩, ⟨sr2_updr, sr2_upar, sr2_psw⟩, ⟨updr_upar, updr_psw⟩, upar_psw, -⟩ := hapart
  have hword : ∀ a : Nat, a ≤ a ∧ a < a + 2 := fun a => by omega
  have hblock : ∀ (a : Nat) (i : Fin 8), a ≤ a + 2 * i.val ∧ a + 2 * i.val < a + 16 := fun a i => by omega
  have hin : ∀ (a : Nat) (i : Fin 8), inBlock a (a + 2 * i.val) = true := fun a i => inBlock_iff.mpr (hblock a i)
  match r with
  | .pdr .kernel i => simp [coreRegAt, regAddr, hin, blockIndex_add]
  | .par .kernel i => simp [coreRegAt, regAddr, hin, blockIndex_add, inBlock_of_apart kpdr_kpar (hblock _ i)]
  | .sr0 => simp [coreRegAt, regAddr, inBlock_of_apart kpdr_sr0 (hword _), inBlock_of_apart kpar_sr0 (hword _)]
  | .sr2 =>
    simp [coreRegAt, regAddr, inBlock_of_apart kpdr_sr2 (hword _), inBlock_of_apart kpar_sr2 (hword _), ne_of_apart sr0_sr2 (hword _)]
  | .pdr .user i =>
    simp [coreRegAt, regAddr, hin, blockIndex_add, inBlock_of_apart kpdr_updr (hblock _ i), inBlock_of_apart kpar_updr (hblock _ i),
      ne_of_apart sr0_updr (hblock _ i), ne_of_apart sr2_updr (hblock _ i)]
  | .par .user i =>
    simp [coreRegAt, regAddr, hin, blockIndex_add, inBlock_of_apart kpdr_upar (hblock _ i), inBlock_of_apart kpar_upar (hblock _ i),
      ne_of_apart sr0_upar (hblock _ i), ne_of_apart sr2_upar (hblock _ i), inBlock_of_apart updr_upar (hblock _ i)]
  | .psw =>
    simp [coreRegAt, regAddr, inBlock_of_apart kpdr_psw (hword _), inBlock_of_apart kpar_psw (hword _), ne_of_apart sr0_psw (hword _),
      ne_of_apart sr2_psw (hword _), inBlock_of_apart updr_psw (hword _), inBlock_of_apart upar_psw (hword _)]

/-- In a legal configuration the core register found at an even address is one at its own address. -/
theorem regAddr_of_coreRegAt {c : Config} (h : c.wf = true) {pa : Nat} (heven : pa % 2 = 0) {r : CoreReg}
    (hr : coreRegAt c pa = some r) : pa = regAddr c r := by
  have hbases := Config.wf_coreBlocks_even h
  simp only [Config.coreBlocks, List.mem_cons, List.not_mem_nil, or_false, forall_eq_or_imp, forall_eq] at hbases
  obtain ⟨hkpdr, hkpar, -, -, hupdr, hupar, -⟩ := hbases
  unfold coreRegAt at hr
  split at hr
  · next hb => cases hr; exact add_blockIndex hkpdr heven hb
  split at hr
  · next hb => cases hr; exact add_blockIndex hkpar heven hb
  split at hr
  · next hb => cases hr; exact hb
  split at hr
  · next hb => cases hr; exact hb
  split at hr
  · next hb => cases hr; exact add_blockIndex hupdr heven hb
  split at hr
  · next hb => cases hr; exact add_blockIndex hupar heven hb
  split at hr
  · next hb => cases hr; exact hb
  · cases hr

theorem coreRegAt_eq_some_iff {c : Config} (h : c.wf = true) {pa : Nat} (heven : pa % 2 = 0) {r : CoreReg} :
    coreRegAt c pa = some r ↔ pa = regAddr c r :=
  ⟨regAddr_of_coreRegAt h heven, fun e => e ▸ coreRegAt_regAddr h r⟩

/-- Settles O19: the register map is the table of `regAddr`, the default configuration is legal, and the reads and writes are the fields. -/
theorem coreRegisterMap : Obligations.CoreRegisterMap := by
  refine ⟨fun c pa r hc heven => ?_, fun pa r heven => ?_, fun s w b i => ?_⟩
  · rw [coreRegAt_eq_some_iff hc heven]
    rcases r with ⟨_ | _, i⟩ | ⟨_ | _, i⟩ | _ | _ | _ <;> rfl
  · rw [coreRegAt_eq_some_iff (by decide) heven]
    rcases r with ⟨_ | _, i⟩ | ⟨_ | _, i⟩ | _ | _ | _ <;> rfl
  · exact ⟨rfl, rfl, rfl, rfl, rfl, rfl, rfl, rfl, rfl, fun j => ⟨rfl, rfl, rfl, rfl⟩, rfl, rfl, rfl⟩

end Sys2Proof.Machine
end

section
/-! The translator (20_memory.md R91 to R97): the address it answers, the W bit it sets and the fault it records, in arithmetic. -/

namespace Sys2Proof.Machine

/-! ### The fields of a virtual address, a descriptor and a fault record, as numbers (R92, R95, 10_state.md R34) -/

/-- The page of an address is bits 15:13, given as a number (R92). -/
theorem pageOf_toFin {va : Word} {p : Fin 8} (hp : p.val = va.toNat / 8192) : (pageOf va).toFin = p := by
  apply Fin.ext
  rw [hp, BitVec.val_toFin, pageOf, BitVec.extractLsb'_toNat, Nat.shiftRight_eq_div_pow]
  omega

theorem toNat_blockOf (va : Word) : (blockOf va).toNat = va.toNat / 64 % 128 := by
  rw [blockOf, BitVec.extractLsb'_toNat, Nat.shiftRight_eq_div_pow]

theorem toNat_pdrLength (d : Word) : (pdrLength d).toNat = d.toNat / 256 % 128 := by
  rw [pdrLength, BitVec.extractLsb'_toNat, Nat.shiftRight_eq_div_pow]

theorem pdrAccess_eq_iff {d : Word} {a : BitVec 2} : pdrAccess d = a ↔ d.toNat / 2 % 4 = a.toNat := by
  rw [← BitVec.toNat_inj, pdrAccess, BitVec.extractLsb'_toNat, Nat.shiftRight_eq_div_pow]

theorem relocate_eq (c : Config) (par va : Word) :
    relocate c par va = ((par.toNat % 4096 + va.toNat / 64 % 128) * 64 + va.toNat % 64) % 2 ^ c.paWidth := by
  rw [relocate, toNat_blockOf, BitVec.extractLsb'_toNat, BitVec.extractLsb'_toNat]
  rfl

/-- The fault record as a number: the abort bit, the mode in 6:5, the page in 3:1 and EN (R95). -/
theorem faultRecord_eq (kind : MmuFaultKind) (m : ModeBits) (page : BitVec 3) : faultRecord kind m page =
    BitVec.ofNat 16 (kind.abortBits.toNat * 0o020000 + m.toNat * 32 + page.toNat * 2 + 1) := by
  revert m page
  cases kind <;> decide

/-! ### The violation, by the access field and the length (R93, R94) -/

section
variable {d : Word} {block : BitVec 7} {wr : Bool}

theorem violation_of_noAccess (h : d.toNat / 2 % 4 = 0 ∨ d.toNat / 2 % 4 = 2) : violation d block wr = some .noAccess :=
  if_pos (h.imp pdrAccess_eq_iff.mpr pdrAccess_eq_iff.mpr)

theorem violation_of_readOnly (h : d.toNat / 2 % 4 = 1) : violation d block true = some .readOnly := by
  simp [violation, pdrAccess_eq_iff, h]

/-- Where the access field allows the access, the length decides, in the direction the page grows (R94). -/
theorem violation_of_allowed (h : d.toNat / 2 % 4 = 3 ∨ (d.toNat / 2 % 4 = 1 ∧ wr = false)) :
    violation d block wr =
      if (d.getLsbD 3 = true ∧ block.toNat < d.toNat / 256 % 128) ∨ (d.getLsbD 3 = false ∧ d.toNat / 256 % 128 < block.toNat)
      then some .length else none := by
  have hkind : ¬(pdrAccess d = 0#2 ∨ pdrAccess d = 2#2) ∧ ¬(pdrAccess d = 1#2 ∧ wr = true) := by
    simp only [pdrAccess_eq_iff, BitVec.reduceToNat]
    rcases h with h | ⟨h, rfl⟩ <;> simp [h]
  rw [violation, if_neg hkind.1, if_neg hkind.2, toNat_pdrLength, pdrDown]
  cases d.getLsbD 3 <;> simp

end

/-! ### The translator's answer, translation on -/

section
variable {s : State} {va : Word} {m : ModeBits} {wr : Bool} (hon : s.mmuOn = true)
include hon

/-- A violation is recorded in SR0 and raised at VEC_MMU (R95). -/
theorem translate_of_violation {kind : MmuFaultKind}
    (h : violation (s.pdr (bankOf m) (pageOf va).toFin) (blockOf va) wr = some kind) :
    translate va m wr s = .error (.trap s.cfg.vecMmu) (s.setSr0 (faultRecord kind m (pageOf va))) := by
  simp only [translate, hon, if_true, h]
  rfl

/-- Without one, the address is the page's and a write sets W of its descriptor (R96, R97). -/
theorem translate_of_no_violation (h : violation (s.pdr (bankOf m) (pageOf va).toFin) (blockOf va) wr = none) :
    translate va m wr s = .ok (relocate s.cfg (s.par (bankOf m) (pageOf va).toFin) va) (s.marked m va wr) :=
  translate_ok_iff.mpr ⟨by simp only [State.mapped, hon, if_true, h], rfl⟩

end

theorem State.marked_of_on {s : State} (hon : s.mmuOn = true) (m va wr) : s.marked m va wr =
    if wr then s.setPdr (bankOf m) (pageOf va).toFin (s.pdr (bankOf m) (pageOf va).toFin ||| 0o100#16) else s := by
  simp [State.marked, hon, pdrModified]

/-- The direct map answers, and nothing changes (R91). -/
theorem translate_of_off {s : State} (hoff : s.mmuOn = false) (va : Word) (m : ModeBits) (wr : Bool) :
    translate va m wr s = .ok (mapDirect s.cfg va) s := by
  simp [translate, hoff]

theorem State.marked_of_off {s : State} (hoff : s.mmuOn = false) (m va wr) : s.marked m va wr = s := by
  simp [State.marked, hoff]

/-- Settles O20: the direct map, which stays below 2^16 or is reduced modulo 2^PA_WIDTH, and does not overflow at the default numbers. -/
theorem translationDisabled : Obligations.TranslationDisabled := by
  intro va m wr s hoff
  refine ⟨mapDirect s.cfg va, translate_of_off hoff va m wr, rfl, fun hc => ?_, fun hc => ?_⟩
  · have hva : va.toNat < 2 ^ s.cfg.paWidth := va.isLt.trans_le (Nat.pow_le_pow_right (by decide) (Config.wf_paWidth hc))
    unfold mapDirect
    split
    · exact Nat.mod_lt _ (by positivity)
    · exact hva
  · have hva := va.isLt
    simp only [hc, mapDirect, Config.default]
    split <;> omega

/-- Settles O21: access and length allow it, so there is no violation; the rest is the translator's answer in arithmetic. -/
theorem translationSucceeds : Obligations.TranslationSucceeds := by
  intro va m wr s b p hon hb hp
  obtain rfl := hb
  obtain rfl := pageOf_toFin hp
  intro d block access length haccess hdown hup
  have hviolation : violation d (blockOf va) wr = none := by
    rw [violation_of_allowed haccess, toNat_blockOf, if_neg]
    rintro (⟨h, hlt⟩ | ⟨h, hlt⟩)
    · exact absurd (hdown h) (Nat.not_le.mpr hlt)
    · exact absurd (hup h) (Nat.not_le.mpr hlt)
  refine ⟨_, (translate_of_no_violation hon hviolation).trans ?_, relocate_eq s.cfg _ va⟩
  rw [State.marked_of_on hon]
  rfl

/-- Settles O22: each clause is one violation, recorded and raised. -/
theorem translationFaults : Obligations.TranslationFaults := by
  intro va m wr s b p hon hb hp
  obtain rfl := hb
  obtain rfl := pageOf_toFin hp
  intro d block access length faults
  have raised : ∀ kind, violation d (blockOf va) wr = some kind → faults (kind.abortBits.toNat * 0o020000) := by
    intro kind hv
    show translate va m wr s = _
    rw [translate_of_violation hon hv, faultRecord_eq]
    rfl
  refine ⟨fun h => raised .noAccess (violation_of_noAccess h), fun h hwr => raised .readOnly ?_, fun h hlen => raised .length ?_⟩
  · rw [hwr]
    exact violation_of_readOnly h
  · rw [violation_of_allowed h, toNat_blockOf]
    exact if_pos hlen

end Sys2Proof.Machine
end

section
/-! Memory accesses (20_memory.md R64, R70 to R82, R96): the bytes a store to the array changes, and elsewhere the router's accesses of the
translated address. -/

namespace Sys2Proof.Machine

/-! ### The bytes a store to the memory array changes (R64, R70) -/

theorem State.byteAt_setWord (s : State) (a : Nat) (w : Word) (x : Nat) :
    (s.setWord a w).byteAt x = if x = a + 1 then highByte w else if x = a then lowByte w else s.byteAt x :=
  Memory.readByte_writeWord s.cfg s.mem a w x

/-- The word at the even address below `pa`, with the byte named by `pa` replaced, changes that byte alone (R82). -/
theorem State.byteAt_setWord_mergeByte (s : State) (pa : Nat) (v : Word) (x : Nat) :
    (s.setWord (evenAddr pa) (mergeByte pa (s.wordAt (evenAddr pa)) v)).byteAt x = if x = pa then lowByte v else s.byteAt x := by
  have hword : s.wordAt (evenAddr pa) = s.byteAt (evenAddr pa + 1) ++ s.byteAt (evenAddr pa) := rfl
  have heven : evenAddr pa = pa - pa % 2 := rfl
  rw [State.byteAt_setWord, mergeByte, hword, highByte_append, lowByte_append]
  by_cases hodd : pa % 2 = 1
  · have hpa : evenAddr pa + 1 = pa := by omega
    rw [if_pos hodd, highByte_append, lowByte_append, hpa]
    split
    · rfl
    · split
      · next hx => rw [hx]
      · rfl
  · have hpa : evenAddr pa = pa := by omega
    rw [if_neg hodd, highByte_append, lowByte_append, hpa]
    split
    · next hx => rw [if_neg (by omega), hx]
    · rfl

theorem State.byteAt_marked (s : State) (m va wr) (x : Nat) : (s.marked m va wr).byteAt x = s.byteAt x := by
  rw [State.byteAt, State.mem_marked, State.cfg_marked, State.byteAt]

theorem State.wordAt_marked (s : State) (m va wr) (a : Nat) : (s.marked m va wr).wordAt a = s.wordAt a := by
  rw [State.wordAt, State.mem_marked, State.cfg_marked, State.wordAt]

/-! ### Accesses through the router (R73, R76, R80 to R82) -/

section
variable {s u : State} {m : ModeBits} {va v : Word} {pa : Nat}

theorem memReadAs_of_fault {e : Raise} (h : translate va m false s = .error e u) (sz : Size) :
    memReadAs m va sz s = .error e u := bind_of_error h

theorem memWriteAs_of_fault {e : Raise} (h : translate va m true s = .error e u) (sz : Size) (v : Word) :
    memWriteAs m va sz v s = .error e u := bind_of_error h

/-- A word read is the router's read of the translated address (R81). -/
theorem memReadAs_word (h : translate va m false s = .ok pa u) : memReadAs m va .word s = physRead pa u := bind_of_ok h

variable (h : translate va m true s = .ok pa u)
include h

/-- A word write is the router's write at the translated address (R82). -/
theorem memWriteAs_word : memWriteAs m va .word v s = physWrite pa v u := bind_of_ok h

/-- A byte write whose read ends: the merged word is written in the state the read leaves (R82). -/
theorem memWriteAs_byte_of_read {w : Word} {t : State} (hr : physRead (evenAddr pa) u = .ok w t) :
    memWriteAs m va .byte v s = physWrite (evenAddr pa) (mergeByte pa w v) t :=
  (memWriteAs_byte h).trans (bind_of_ok hr)

theorem memWriteAs_byte_core {r : CoreReg} (hio : u.cfg.ioBase ≤ evenAddr pa) (hr : coreRegAt u.cfg (evenAddr pa) = some r) :
    memWriteAs m va .byte v s = .ok () (u.writeCore r (mergeByte pa (u.readCore r) v)) := by
  rw [memWriteAs_byte_of_read h (physRead_core (evenAddr_even pa) hio hr), physWrite_core (evenAddr_even pa) hio hr]

/-- A byte write to a device: one read and then one write (R82, R86). -/
theorem memWriteAs_byte_device {d : DeviceRange} (hio : u.cfg.ioBase ≤ evenAddr pa) (hcore : coreRegAt u.cfg (evenAddr pa) = none)
    (hd : deviceAt u.cfg.devRanges (evenAddr pa) = some d) :
    ∃ w t, devRead d.port (evenAddr pa) u = .ok w t ∧ t.ports = .read d.port (evenAddr pa) w :: u.ports ∧
      memWriteAs m va .byte v s = .ok () (t.logPort (.write d.port (evenAddr pa) (mergeByte pa w v))) := by
  obtain ⟨w, t, hr, hports, hrest⟩ := devRead_logged d.port (evenAddr pa) u
  have hread := (physRead_device (evenAddr_even pa) hio hcore hd).trans hr
  have hcfg : t.cfg = u.cfg := by rw [← hrest]
  rw [← hcfg] at hio hcore hd
  refine ⟨w, t, hr, hports, ?_⟩
  rw [memWriteAs_byte_of_read h hread, physWrite_device (evenAddr_even pa) hio hcore hd]

end

/-- W is set, by a write while translation is on, in the descriptor of the mode's bank and the address's page (R96, R98). -/
theorem State.marked_write_of_on {s : State} (hon : s.mmuOn = true) {m : ModeBits} {va : Word} {b : Bank} {p : Fin 8}
    (hb : b = bankOf m) (hp : p.val = va.toNat / 8192) : s.marked m va true = s.setPdr b p (s.pdr b p ||| 0o100#16) := by
  rw [hb, ← pageOf_toFin hp, State.marked_of_on hon, if_pos rfl]

/-- Settles O16: the laws of the accesses to the array, and elsewhere the router's accesses of the translated address. -/
theorem memoryArrayAccess : Obligations.MemoryArrayAccess := by
  intro s m va v pa
  refine ⟨memReadAs_word_array, memReadAs_byte_array, fun h => ⟨_, memWriteAs_word_array h, fun x => ?_, rfl⟩,
    fun h => ⟨_, memWriteAs_byte_array h, fun x => ?_, rfl⟩,
    fun sz e t => ⟨fun h => memReadAs_of_fault h sz, fun h => memWriteAs_of_fault h sz v⟩, ?_,
    fun sz => ⟨rfl, rfl, rfl, rfl⟩⟩
  · rw [State.byteAt_setWord, State.byteAt_marked]
    by_cases hx : x = pa
    · rw [if_neg (by omega), if_pos hx, if_pos hx]; rfl
    · rw [if_neg hx, if_neg hx]; rfl
  · rw [← s.wordAt_marked m va true, State.byteAt_setWord_mergeByte, State.byteAt_marked]; rfl
  · intro even half merged
    have hhalf : ∀ w, half w = selectByte pa w := fun w => (selectByte_eq pa w).symm
    have hmerged : ∀ w, merged w = mergeByte pa w v := fun w => (mergeByte_eq pa w v).symm
    simp only [hhalf, hmerged]
    refine ⟨fun u h => ?_, fun u h => ?_⟩
    · obtain rfl := translate_read_ok h
      exact ⟨rfl, fun hodd => (memReadAs_word h).trans (physRead_odd hodd), fun _ => memReadAs_word h,
        fun w t hr => (memReadAs_byte h).trans (bind_of_ok hr), fun e t hr => (memReadAs_byte h).trans (bind_of_error hr)⟩
    · have hu : u = s.marked m va true := (translate_ok_iff.mp h).2
      have hcfg : u.cfg = s.cfg := hu ▸ s.cfg_marked m va true
      refine ⟨fun hoff => hu.trans (State.marked_of_off hoff m va true),
        fun b p hon hb hp => hu.trans (State.marked_write_of_on hon hb hp),
        fun hodd => ?_, fun _ => memWriteAs_word h, fun w t hr => memWriteAs_byte_of_read h hr,
        fun e t hr => (memWriteAs_byte h).trans (bind_of_error hr), fun hio => ⟨fun r hr => ?_, fun d hcore hd => ?_⟩⟩
      · rw [memWriteAs_word h, physWrite_odd hodd, hcfg]
      · rw [← hcfg] at hio hr
        exact memWriteAs_byte_core h hio hr
      · rw [← hcfg] at hio hcore hd
        exact memWriteAs_byte_device h hio hcore hd

end Sys2Proof.Machine
end

section
/-! The bytes of memory an instruction that stores may change (20_memory.md R62, R82). -/

namespace Sys2Proof.Machine

theorem storesByte_of_target {i : Instr} {s : State} {pa : Nat} {sz : Size} (h : storeTarget i s = some (pa, sz)) {x : Nat}
    (hx : ¬ storesByte i s x) : x ≠ pa ∧ (sz = .word → x ≠ pa + 1) := by
  unfold storesByte at hx
  rw [h] at hx
  cases sz with
  | word => simpa [not_or] using hx
  | byte => exact ⟨hx, fun h => by cases h⟩

/-- A byte that is not one of the store's survives up to the store and through it. -/
theorem Stored.byteAt {i : Instr} {s v w : State} {pa : Nat} {sz : Size} (h : Stored i s v w pa sz) {x : Nat}
    (hx : ¬ storesByte i s x) : w.byteAt x = s.byteAt x :=
  (h.effect.bytes x (storesByte_of_target h.target hx)).trans (h.before.byteAt x)

theorem Instr.neverStores_of_isReturn {i : Instr} (h : i.isReturn = true) : i.neverStores = true := by
  unfold Instr.isReturn at h
  split at h
  · rfl
  · rfl
  · cases h

/-- Settles O55: a form that stores nothing keeps memory, and the others end without their store or change its bytes alone. -/
theorem storingFormsChangeOnlyTheirBytes : Obligations.StoringFormsChangeOnlyTheirBytes := by
  intro i s t h
  refine ⟨exec_of_ok h, fun x hx => ?_⟩
  have keeps : i.neverStores = true → t.byteAt x = s.byteAt x := fun hnever => (nonStoringFormsKeepMemory i s t hnever h).2 x
  cases completed h with
  | unstored run => exact run.byteAt x
  | stored store => exact store.byteAt hx
  | linked instr store last => rw [last]; exact store.byteAt hx
  | priority instr last => exact keeps (by rw [instr]; rfl)
  | returned instr run last => exact keeps (Instr.neverStores_of_isReturn instr)
  | previousStack instr isReg run last => exact keeps (by rw [instr, Instr.neverStores, isReg]; rfl)

end Sys2Proof.Machine
end

section
/-! The decoder undoes the encoder (30_encoding.md R122, R123, R126). -/

namespace Sys2Proof

theorem toNat_field (w : Word) (lo n : Nat) : (field w lo n).toNat = w.toNat / 2 ^ lo % 2 ^ n := by
  rw [field, BitVec.extractLsb'_toNat, Nat.shiftRight_eq_div_pow]

theorem opcode_word_double (c : BitVec 4) (x y : BitVec 6) : field (c ++ (x ++ y) : BitVec 16) 12 4 = c :=
  (field_above_12 c (x ++ y) 12 4 (by decide)).trans (extract_all c)

theorem opcode_word_reg (c : BitVec 7) (r : BitVec 3) (x : BitVec 6) :
    field (c ++ (r ++ x) : BitVec 16) 12 4 = c.extractLsb' 3 4 ∧ field (c ++ (r ++ x) : BitVec 16) 9 3 = c.extractLsb' 0 3 :=
  ⟨field_above_9 c (r ++ x) 12 4 (by decide), field_above_9 c (r ++ x) 9 3 (by decide)⟩

/-- JSR's register field reaches into bit 8, so its opcode takes two of the sixteen rows of bits 11:8. -/
theorem decodeLow_jsr {w : Word} (h : field w 9 3 = 0b100#3) : decodeLow w = .ok (.jsr (regOf w) (dstOf w)) := by
  have opcode : w.toNat / 2 ^ 9 % 2 ^ 3 = 4 := by rw [← toNat_field, h]; rfl
  have rows : (field w 8 4).toNat = 8 ∨ (field w 8 4).toNat = 9 := by rw [toNat_field]; omega
  rcases rows with row | row <;> simp only [decodeLow, row]

/-- Settles O1, format by format: the opcode bits lead to the instruction's row, and each field is read back from the place it was
written to. -/
theorem decodeOfEncode : Obligations.DecodeOfEncode := by
  intro i
  cases i with
  | halt | wait | rti | bpt | iot | reset | rtt => rfl
  | jmp dst | swab dst =>
    simp [encode, decode, decodeLow, decodeSystem, field_above_6, dstOf_word_single]
  | rts reg | spl level =>
    simp [encode, decode, decodeLow, decodeSystem, decodeReturn, field_above_3, field_low_3, Reg.ofBits_toBits]
  | ccClear mask | ccSet mask =>
    revert mask
    decide
  | br off | bne off | beq off | bge off | blt off | bgt off | ble off =>
    simp [encode, decode, decodeLow, field_above_8, field_low_8]
  | bpl off | bmi off | bhi off | blos off | bvc off | bvs off | bcc off | bcs off | emt off | trap off =>
    simp [encode, decode, decodeHigh, field_above_8, field_low_8]
  | jsr reg dst =>
    simp [-Nat.reduceAdd, encode, decode, decodeLow_jsr, opcode_word_reg, regOf_word, dstOf_word_reg]
  | clr dst | com dst | inc dst | dec dst | neg dst | adc dst | sbc dst | tst dst | ror dst | rol dst | asr dst | asl dst
  | mfpi dst | mtpi dst | sxt dst =>
    simp [encode, decode, decodeLow, decodeSingle, field_above_6, dstOf_word_single]
  | mark nn =>
    simp [encode, decode, decodeLow, decodeSingle, field_above_6, field_low_6]
  | clrb dst | comb dst | incb dst | decb dst | negb dst | adcb dst | sbcb dst | tstb dst | rorb dst | rolb dst | asrb dst
  | aslb dst =>
    simp [encode, decode, decodeHigh, decodeSingleByte, field_above_6, dstOf_word_single]
  | mov src dst | movb src dst | cmp src dst | cmpb src dst | bit src dst | bitb src dst | bic src dst | bicb src dst
  | bis src dst | bisb src dst | add src dst | sub src dst =>
    simp [-Nat.reduceAdd, encode, decode, opcode_word_double, srcOf_word_double, dstOf_word_double]
  | mul reg src | div reg src | ash reg src | ashc reg src | xor reg src =>
    simp [-Nat.reduceAdd, encode, decode, decodeRegister, opcode_word_reg, regOf_word, dstOf_word_reg]
  | sob reg nn =>
    simp [-Nat.reduceAdd, encode, decode, decodeRegister, opcode_word_reg, regOf_word, field_low_6_reg]

/-- Settles O4: each word is the encoding of its instruction. -/
theorem specWordsDecode : Obligations.SpecWordsDecode :=
  ⟨decodeOfEncode (.mov ⟨.register, 0⟩ ⟨.register, 1⟩),
    decodeOfEncode (.movb ⟨.autoIncDeferred, 1⟩ ⟨.register, 0⟩),
    decodeOfEncode (.inc ⟨.autoIncDeferred, 7⟩), decodeOfEncode (.div 2 ⟨.register, 1⟩), decodeOfEncode (.bne 3#8),
    decodeOfEncode (.jsr 5 ⟨.regDeferred, 1⟩), decodeOfEncode (.sob 0 2#6), decodeOfEncode (.spl 3#3),
    decodeOfEncode (.ccClear 5#4), decodeOfEncode (.emt 0o123#8)⟩

end Sys2Proof
end

section
/-! What the decoder answers for every word: an instruction whose encoding the word is, or a refusal for the words of R127's six
ranges (30_encoding.md R125 to R128). -/

namespace Sys2Proof

/-- The word lies in one of R127's ranges. -/
def InIllegalRange (w : Word) : Prop :=
  (0o000007 ≤ w.toNat ∧ w.toNat ≤ 0o000077) ∨ (0o000210 ≤ w.toNat ∧ w.toNat ≤ 0o000227) ∨
    (0o007000 ≤ w.toNat ∧ w.toNat ≤ 0o007777) ∨ (0o075000 ≤ w.toNat ∧ w.toNat ≤ 0o076777) ∨
    (0o106400 ≤ w.toNat ∧ w.toNat ≤ 0o107777) ∨ (0o170000 ≤ w.toNat ∧ w.toNat ≤ 0o177777)

/-- The right answer for the word: an instruction whose encoding it is, outside R127's ranges, or a refusal inside them. -/
def Answers (w : Word) : Except Illegal Instr → Prop
  | .ok i => encode i = w ∧ ¬ InIllegalRange w
  | .error _ => InIllegalRange w

theorem AddrMode.toBits_ofBits (b : BitVec 3) : (AddrMode.ofBits b).toBits = b := by
  revert b
  decide

/-- Two neighbouring fields of a word are one field. -/
theorem field_append_field (w : Word) (lo n m : Nat) : field w (lo + n) m ++ field w lo n = field w lo (m + n) :=
  BitVec.extractLsb'_append_extractLsb'_eq_extractLsb' rfl

theorem Reg.toBits_ofBits (b : BitVec 3) : Reg.toBits (Reg.ofBits b) = b := rfl

theorem Operand.toBits_operandAt (w : Word) (lo : Nat) : (operandAt w lo).toBits = field w lo 6 := by
  rw [Operand.toBits, operandAt, AddrMode.toBits_ofBits]
  exact field_append_field w lo 3 3

theorem Operand.toBits_dstOf (w : Word) : (dstOf w).toBits = field w 0 6 := Operand.toBits_operandAt w 0

theorem srcOf_append_dstOf (w : Word) : (srcOf w).toBits ++ (dstOf w).toBits = field w 0 12 := by
  rw [srcOf, Operand.toBits_operandAt, Operand.toBits_dstOf]
  exact field_append_field w 0 6 6

theorem regOf_append_low (w : Word) : Reg.toBits (regOf w) ++ field w 0 6 = field w 0 9 := field_append_field w 0 6 3

/-- A word is its high bits and its low field. -/
theorem toNat_append_field {n m k : Nat} {w : Word} (width : n + m = 16) (high : w.toNat / 2 ^ m = k) :
    (BitVec.ofNat n k ++ field w 0 m).toNat = w.toNat := by
  have fits : k < 2 ^ n := by
    rw [← high]
    exact Nat.div_lt_of_lt_mul (by rw [← Nat.pow_add, Nat.add_comm, width]; exact w.isLt)
  calc (BitVec.ofNat n k ++ field w 0 m).toNat
      = k * 2 ^ m + (field w 0 m).toNat := by
        rw [BitVec.toNat_append, ← Nat.shiftLeft_add_eq_or_of_lt (field w 0 m).isLt, Nat.shiftLeft_eq, BitVec.toNat_ofNat,
          Nat.mod_eq_of_lt fits]
    _ = w.toNat / 2 ^ m * 2 ^ m + w.toNat % 2 ^ m := by rw [toNat_field, high, Nat.pow_zero, Nat.div_one]
    _ = w.toNat := Nat.div_add_mod' _ _

/-! Each part of the decoder answers rightly on the words `decode` sends to it. In every row the word's range and the bits matched fix
the word's high bits, which are the encoding's opcode. -/

theorem answers_decodeLiteral {w : Word} (range : w.toNat < 0o100) : Answers w (decodeLiteral w) := by
  unfold decodeLiteral
  simp only [toNat_field, Nat.reducePow]
  split
  case h_8 => simp only [Answers, InIllegalRange, imp_false] at *; omega
  all_goals
    exact ⟨BitVec.eq_of_toNat_eq (by simp only [encode, BitVec.toNat_ofNat]; omega), by unfold InIllegalRange; omega⟩

theorem answers_decodeReturn {w : Word} (range : w.toNat / 0o100 = 2) : Answers w (decodeReturn w) := by
  unfold decodeReturn
  simp only [toNat_field, Nat.reducePow]
  split
  case h_7 => simp only [Answers, InIllegalRange, imp_false] at *; omega
  all_goals
    simp only [Answers, encode, Reg.toBits_ofBits]
    exact ⟨BitVec.eq_of_toNat_eq (toNat_append_field rfl (by omega)), by unfold InIllegalRange; omega⟩

theorem answers_decodeSystem {w : Word} (range : w.toNat < 0o400) : Answers w (decodeSystem w) := by
  unfold decodeSystem
  simp only [toNat_field, Nat.reducePow]
  split
  case h_1 => exact answers_decodeLiteral (by omega)
  case h_3 => exact answers_decodeReturn (by omega)
  all_goals
    simp only [Answers, encode, Operand.toBits_dstOf, imp_false] at *
    exact ⟨BitVec.eq_of_toNat_eq (toNat_append_field rfl (by omega)), by unfold InIllegalRange; omega⟩

theorem answers_decodeSingle {w : Word} (range : 0o005000 ≤ w.toNat ∧ w.toNat < 0o007000) : Answers w (decodeSingle w) := by
  unfold decodeSingle
  simp only [toNat_field, Nat.reducePow]
  split
  case h_17 => simp only [Answers, InIllegalRange, imp_false] at *; omega
  all_goals
    simp only [Answers, encode, Operand.toBits_dstOf]
    exact ⟨BitVec.eq_of_toNat_eq (toNat_append_field rfl (by omega)), by unfold InIllegalRange; omega⟩

theorem answers_decodeSingleByte {w : Word} (range : 0o105000 ≤ w.toNat ∧ w.toNat < 0o106400) :
    Answers w (decodeSingleByte w) := by
  unfold decodeSingleByte
  simp only [toNat_field, Nat.reducePow]
  split
  case h_13 => simp only [Answers, InIllegalRange, imp_false] at *; omega
  all_goals
    simp only [Answers, encode, Operand.toBits_dstOf]
    exact ⟨BitVec.eq_of_toNat_eq (toNat_append_field rfl (by omega)), by unfold InIllegalRange; omega⟩

theorem answers_decodeLow {w : Word} (range : w.toNat < 0o010000) : Answers w (decodeLow w) := by
  unfold decodeLow
  simp only [toNat_field, Nat.reducePow]
  split
  case h_11 | h_12 => simp only [Answers, InIllegalRange] at *; omega
  case h_1 => exact answers_decodeSystem (by omega)
  case h_13 => simp only [imp_false] at *; exact answers_decodeSingle (by omega)
  all_goals
    simp only [Answers, encode, Operand.toBits_dstOf, regOf_append_low]
    exact ⟨BitVec.eq_of_toNat_eq (toNat_append_field rfl (by omega)), by unfold InIllegalRange; omega⟩

theorem answers_decodeHigh {w : Word} (range : w.toNat / 0o010000 = 8) : Answers w (decodeHigh w) := by
  unfold decodeHigh
  simp only [toNat_field, Nat.reducePow]
  split
  case h_11 | h_12 | h_13 => simp only [Answers, InIllegalRange] at *; omega
  case h_14 => simp only [imp_false] at *; exact answers_decodeSingleByte (by omega)
  all_goals
    simp only [Answers, encode]
    exact ⟨BitVec.eq_of_toNat_eq (toNat_append_field rfl (by omega)), by unfold InIllegalRange; omega⟩

theorem answers_decodeRegister {w : Word} (range : w.toNat / 0o010000 = 7) : Answers w (decodeRegister w) := by
  unfold decodeRegister
  simp only [toNat_field, Nat.reducePow]
  split
  case h_7 => simp only [Answers, InIllegalRange, imp_false] at *; omega
  all_goals
    simp only [Answers, encode, Operand.toBits_dstOf, regOf_append_low]
    exact ⟨BitVec.eq_of_toNat_eq (toNat_append_field rfl (by omega)), by unfold InIllegalRange; omega⟩

/-- The decoder's answer is right for every word. -/
theorem answers_decode (w : Word) : Answers w (decode w) := by
  have range := w.isLt
  unfold decode
  simp only [toNat_field, Nat.reducePow] at *
  split
  case h_1 => exact answers_decodeLow (by omega)
  case h_8 => exact answers_decodeRegister (by omega)
  case h_9 => exact answers_decodeHigh (by omega)
  case h_16 => simp only [Answers, InIllegalRange, imp_false] at *; omega
  all_goals
    simp only [Answers, encode, srcOf_append_dstOf]
    exact ⟨BitVec.eq_of_toNat_eq (toNat_append_field rfl (by omega)), by unfold InIllegalRange; omega⟩

/-- Settles O2: an answer that is an instruction is one the word encodes. -/
theorem encodeOfDecode : Obligations.EncodeOfDecode := by
  intro w i h
  have answer : Answers w (.ok i) := h ▸ answers_decode w
  exact answer.1

/-- Settles O3: an instruction is the answer outside the six ranges only, and a refusal inside them only. -/
theorem illegalWordsAreSixRanges : Obligations.IllegalWordsAreSixRanges := by
  intro w
  have answer := answers_decode w
  cases h : decode w with
  | ok i =>
    rw [h] at answer
    exact iff_of_false (fun ⟨_, he⟩ => nomatch he) answer.2
  | error e =>
    rw [h] at answer
    exact iff_of_true ⟨e, rfl⟩ answer

end Sys2Proof
end

section
/-! Operands (40_addressing_modes.md R156 to R161, R167): what the addressing modes give and leave, and what a location reads as before and
after a write. -/

namespace Sys2Proof.Machine

/-! ### The addressing modes (R157, R158) -/

/-- The step of modes 2 and 4, by the length and the register's number (R158). -/
theorem stepSize_eq (sz : Size) (r : Reg) : stepSize sz r = if sz = .byte ∧ r.val < 6 then 1#16 else 2#16 := by
  cases sz with
  | word => rfl
  | byte => by_cases h : 6 ≤ r.val <;> simp [stepSize, h]

/-- The pointer of modes 3, 5 and 7 is read after the register has stepped, which changes no translation. -/
theorem memRead_setReg_of_reaches {s : State} {va : Word} (h : s.reaches s.cm va .word false) (n : Reg) (v : Word) :
    memRead va .word (s.setReg n v) = .ok (s.loadWord s.cm va) (s.setReg n v) :=
  memRead_of_reaches (s := s.setReg n v) h

/-- A reachable operand resolves to its location, and only its register, or R7 past the index word, steps (R157). -/
theorem resolve_of_reachable {o : Operand} {s : State} (sz : Size) (h : o.reachable s) :
    resolve o sz s = .ok (o.locIn sz s) (o.after sz s) := by
  obtain ⟨mode, r⟩ := o
  cases mode with
  | register | regDeferred | autoInc | autoDec => rfl
  | autoIncDeferred => exact (bind_of_ok rfl).trans (bind_of_ok (memRead_setReg_of_reaches h r _))
  | autoDecDeferred => exact (bind_of_ok rfl).trans (bind_of_ok (memRead_setReg_of_reaches h r _))
  | indexed => exact bind_of_ok (indexedAddr_of_reaches h)
  | indexedDeferred =>
    obtain ⟨hindex, hpointer⟩ := h
    exact (bind_of_ok (indexedAddr_of_reaches hindex)).trans (bind_of_ok (memRead_setReg_of_reaches hpointer PC _))

/-- Settles O14: the resolution of a reachable operand, its step being that of R158. -/
theorem addressingModesResolve : Obligations.AddressingModesResolve := by
  intro o sz s step hstep hreach
  rw [← stepSize_eq] at hstep
  rw [hstep]
  exact resolve_of_reachable sz hreach

/-! ### Reading and writing a location (R159, R160) -/

theorem toNat_maskOf (sz : Size) : (maskOf sz).toNat = 2 ^ widthOf sz - 1 := by
  cases sz <;> rfl

/-- Masking to an operand length is the remainder modulo 2^(8*len) (00_scope.md R8). -/
theorem and_maskOf (sz : Size) (v : Word) : v &&& maskOf sz = BitVec.ofNat 16 (v.toNat % 2 ^ widthOf sz) := by
  apply BitVec.eq_of_toNat_eq
  rw [BitVec.toNat_and, toNat_maskOf, Nat.and_two_pow_sub_one_eq_mod, BitVec.toNat_ofNat,
    Nat.mod_eq_of_lt ((Nat.mod_le _ _).trans_lt v.isLt)]

theorem readLoc_reg (n : Reg) (sz : Size) (s : State) :
    readLoc (.reg n) sz s = .ok (BitVec.ofNat 16 ((s.reg n).toNat % 2 ^ widthOf sz)) s := by
  rw [← and_maskOf]
  rfl

theorem writeLoc_mem_apply (a : Word) (sz : Size) (v : Word) (s : State) :
    writeLoc (.mem a) sz v s = memWriteAs s.cm a sz v s := by
  cases sz <;> rfl

/-- Settles O15: a register is read under the mask of the length, and a byte written to it is merged as at an even address. -/
theorem locationReadsAndWrites : Obligations.LocationReadsAndWrites := by
  intro n a v sz s
  refine ⟨(readLoc_reg n .word s).trans ?_, readLoc_reg n .byte s, rfl, rfl, ?_, writeLoc_mem_apply a sz v s⟩
  · rw [widthOf, Nat.mod_eq_of_lt (s.reg n).isLt, BitVec.ofNat_toNat, BitVec.setWidth_eq]
  · have hmerge := mergeByte_eq 0 (s.reg n) v
    rw [if_neg (by decide)] at hmerge
    rw [← hmerge]
    rfl

/-! ### A read after a write (R167) -/

/-- A store to the memory array leaves its own place reached by a read: W and the array's bytes are no part of a translation. -/
theorem State.reachesAt_read_after_store {s : State} {m : ModeBits} {va : Word} {sz : Size} {pa : Nat}
    (h : s.reachesAt m va sz true pa) (a : Nat) (w : Word) :
    ((s.marked m va true).setWord a w).reachesAt m va sz false pa := by
  obtain ⟨hmap, harray⟩ := h
  rw [State.reachesAt, State.mapped_setWord, State.mapped_marked, State.cfg_setWord, State.cfg_marked]
  exact ⟨State.mapped_read_of_write hmap, harray⟩

section
variable {m : ModeBits} {va v : Word} {s t : State}

theorem memReadAs_word_of_written (h : s.reaches m va .word true) (hw : memWriteAs m va .word v s = .ok () t) :
    t.cm = s.cm ∧ memReadAs m va .word t = .ok v t := by
  obtain ⟨pa, hpa⟩ := h
  rw [memWriteAs_word_array hpa] at hw
  cases hw
  refine ⟨by simp, (memReadAs_word_array (State.reachesAt_read_after_store hpa pa v)).trans ?_⟩
  rw [State.wordAt, State.setWord, Memory.readWord_writeWord]

theorem memReadAs_byte_of_written (h : s.reaches m va .byte true) (hw : memWriteAs m va .byte v s = .ok () t) :
    t.cm = s.cm ∧ memReadAs m va .byte t = .ok ((lowByte v).zeroExtend 16) t := by
  obtain ⟨pa, hpa⟩ := h
  rw [memWriteAs_byte_array hpa] at hw
  cases hw
  refine ⟨by simp, (memReadAs_byte_array (State.reachesAt_read_after_store hpa _ _)).trans ?_⟩
  rw [← s.wordAt_marked m va true, State.byteAt_setWord_mergeByte, if_pos rfl]

end

/-- What was written to a place in the memory array reads back, under the mask of the length. -/
theorem memReadAs_of_written {m : ModeBits} {va v : Word} {sz : Size} {s t : State} (h : s.reaches m va sz true)
    (hw : memWriteAs m va sz v s = .ok () t) :
    t.cm = s.cm ∧ memReadAs m va sz t = .ok (BitVec.ofNat 16 (v.toNat % 2 ^ widthOf sz)) t := by
  cases sz with
  | word =>
    rw [widthOf, Nat.mod_eq_of_lt v.isLt, BitVec.ofNat_toNat, BitVec.setWidth_eq]
    exact memReadAs_word_of_written h hw
  | byte =>
    have hlow : (lowByte v).zeroExtend 16 = BitVec.ofNat 16 (v.toNat % 256) := selectByte_eq 0 v
    rw [widthOf, show 2 ^ 8 = 256 from rfl, ← hlow]
    exact memReadAs_byte_of_written h hw

/-- Settles O17: a register holds the value written, or its low byte, and so does the place in the memory array. -/
theorem writeThenReadRoundTrip : Obligations.WriteThenReadRoundTrip := by
  intro l sz v s t hwritable hw
  cases l with
  | reg n =>
    rw [readLoc_reg]
    cases sz with
    | word =>
      cases hw
      rw [State.reg_setReg, if_pos rfl]
    | byte =>
      cases hw
      have hlow : (highByte (s.reg n) ++ lowByte v : Word).toNat % 256 = v.toNat % 256 := by
        rw [← toNat_lowByte, lowByte_append, toNat_lowByte]
      rw [State.reg_setReg, if_pos rfl, widthOf, show 2 ^ 8 = 256 from rfl, hlow]
  | mem a =>
    rw [writeLoc_mem_apply] at hw
    obtain ⟨hmode, hread⟩ := memReadAs_of_written hwritable hw
    rw [← hmode] at hread
    exact hread

end Sys2Proof.Machine
end

section
/-! The fetch (40_addressing_modes.md R150, R151). -/

namespace Sys2Proof.Machine

/-- A memory read that raises leaves the registers and SR2: a fault of the translator is recorded in SR0 alone (20_memory.md R63, R95). -/
theorem memReadAs_error {m : ModeBits} {va : Word} {sz : Size} {s t : State} {e : Raise}
    (h : memReadAs m va sz s = .error e t) : t.regs = s.regs ∧ t.sr2 = s.sr2 := by
  rcases bind_eq_error.mp h with htrans | ⟨pa, u, htrans, hread⟩
  · obtain ⟨-, v, rfl⟩ := translate_error htrans
    exact ⟨rfl, rfl⟩
  · obtain rfl := translate_read_ok htrans
    cases sz with
    | word => obtain ⟨-, rfl⟩ := physRead_error hread; exact ⟨rfl, rfl⟩
    | byte =>
      rcases bind_eq_error.mp hread with hread | ⟨w, v, -, hpure⟩
      · obtain ⟨-, rfl⟩ := physRead_error hread; exact ⟨rfl, rfl⟩
      · cases hpure

/-- The state from which a fetch reads: SR2 has taken the PC, unless an abort is recorded (10_state.md R38). -/
def State.fetchNoted (s : State) : State := if s.sr0.extractLsb' 13 3 = 0#3 then s.setSr2 (s.reg PC) else s

theorem State.regs_fetchNoted (s : State) : s.fetchNoted.regs = s.regs := by
  unfold State.fetchNoted
  split <;> rfl

theorem State.reaches_fetchNoted {s : State} {m : ModeBits} {va : Word} {sz : Size} {wr : Bool} (h : s.reaches m va sz wr) :
    s.fetchNoted.reaches m va sz wr := by
  unfold State.fetchNoted
  split
  · exact h
  · exact h

theorem State.loadWord_fetchNoted (s : State) (m : ModeBits) (va : Word) : s.fetchNoted.loadWord m va = s.loadWord m va := by
  unfold State.fetchNoted
  split <;> rfl

theorem fetch_of_read {s u : State} {w : Word} (h : memReadAs s.cm (s.reg PC) .word s.fetchNoted = .ok w u) :
    fetch s = .ok w (u.setReg PC (s.reg PC + 2)) := by
  rw [fetch_apply]
  exact bind_of_ok h

/-- After the read nothing of a fetch raises. -/
theorem fetch_eq_error_iff {s u : State} {e : Raise} :
    fetch s = .error e u ↔ memReadAs s.cm (s.reg PC) .word s.fetchNoted = .error e u := by
  rw [fetch_apply, bind_eq_error]
  exact or_iff_left (by rintro ⟨w, v, -, hlast⟩; cases hlast)

/-- Settles O6: the fetch is the read at the PC from the state with SR2 noted, and then the step of the PC. -/
theorem fetchReadsTheWordAtThePc : Obligations.FetchReadsTheWordAtThePc := by
  refine ⟨fun s hreach => fetch_of_read ?_, fun s => ⟨fun w u => fetch_of_read, fun e u => fetch_eq_error_iff, fun e u h => ?_⟩⟩
  · rw [← s.loadWord_fetchNoted]
    exact memReadAs_of_reaches (State.reaches_fetchNoted hreach)
  · obtain ⟨hregs, hsr2⟩ := memReadAs_error (fetch_eq_error_iff.mp h)
    exact ⟨hregs.trans s.regs_fetchNoted, hsr2⟩

end Sys2Proof.Machine
end

section
/-! Instructions that raise (40_addressing_modes.md R154, R161, 70_reset_and_hazards.md R388). -/

namespace Sys2Proof.Machine

/-- Settles O53: the three ways a pseudocode ends, each with the state it left. -/
theorem raisedTrapKeepsEarlierEffects : Obligations.RaisedTrapKeepsEarlierEffects :=
  fun _ _ _ => ⟨fun _ => exec_of_trap, fun _ => exec_of_fatal, exec_of_ok⟩

section
variable {o : Operand} (hm : o.mode = .register)
include hm

theorem resolve_of_register (sz : Size) (s : State) : resolve o sz s = .ok (.reg o.reg) s := by
  rw [resolve, hm]
  rfl

/-- A register operand where an address in memory is required: nothing has changed yet (R161). -/
theorem resolve_memLoc_of_register {α : Type} (f : Word → Exec α) (s : State) :
    (resolve o .word >>= fun l => memLoc l >>= f) s = .error (.fatal .regOperand) s :=
  (bind_of_ok (resolve_of_register hm .word s)).trans rfl

variable (hsp : o.reg ≠ SP)
include hsp

theorem mfpiBody_of_register (s : State) : mfpiBody o s = .error (.fatal .regOperand) s := by
  refine bind_of_error ?_
  rw [previousValue, if_pos hm, if_neg hsp]
  rfl

theorem mtpiBody_of_register {s t : State} {v : Word} (hpop : pop s = .ok v t) :
    mtpiBody o s = .error (.fatal .regOperand) t := by
  refine (bind_of_ok hpop).trans ?_
  rw [if_pos hm, if_neg hsp]
  rfl

end

/-- Settles O13: the four pseudocodes raise REG_OPERAND, MTPI's after its pop. -/
theorem registerOperandStops : Obligations.RegisterOperandStops := by
  intro r o s hm
  refine ⟨exec_of_fatal (i := .jmp o) (resolve_memLoc_of_register hm _ s),
    exec_of_fatal (i := .jsr r o) (resolve_memLoc_of_register hm _ s),
    fun hsp => exec_of_fatal (i := .mfpi o) (mfpiBody_of_register hm hsp s),
    fun hsp v t hpop => exec_of_fatal (i := .mtpi o) (mtpiBody_of_register hm hsp hpop)⟩

end Sys2Proof.Machine
end

section
/-! Every instruction completes where it is ready (40_addressing_modes.md R150, R152): its pseudocode is run statement by statement, each
access of the memory array by its law, and no statement before an access changes what the access reaches. -/

namespace Sys2Proof.Machine

/-- `x`, run from `s`, ends without a raise. -/
def Ends (x : Exec Unit) (s : State) : Prop := ∃ t, x s = .ok () t

/-- A statement that ends, and then the rest from the state it leaves. -/
theorem Ends.bind {α : Type} {x : Exec α} {f : α → Exec Unit} {s u : State} {a : α} (hx : x s = .ok a u) (hf : Ends (f a) u) :
    Ends (x >>= f) s := by
  obtain ⟨t, ht⟩ := hf
  exact ⟨t, (bind_of_ok hx).trans ht⟩

theorem Ends.of_ok {x : Exec Unit} {s t : State} (h : x s = .ok () t) : Ends x s := ⟨t, h⟩

/-! ### What is readable, writable or pushable is no matter of registers and condition codes -/

/-- The resolution of an operand changes nothing but registers. -/
theorem after_frame (o : Operand) (sz : Size) (s : State) : ∃ r, o.after sz s = { s with regs := r } := by
  obtain ⟨mode, n⟩ := o
  cases mode <;> exact ⟨_, rfl⟩

theorem State.readable_after {o : Operand} {sz sz' : Size} {s : State} {l : Loc} (h : s.readable l sz') :
    (o.after sz s).readable l sz' := by
  obtain ⟨r, hr⟩ := after_frame o sz s
  rw [hr]
  cases l <;> exact h

theorem State.writable_after {o : Operand} {sz sz' : Size} {s : State} {l : Loc} (h : s.writable l sz') :
    (o.after sz s).writable l sz' := by
  obtain ⟨r, hr⟩ := after_frame o sz s
  rw [hr]
  cases l <;> exact h

theorem State.reaches_after {o : Operand} {sz sz' : Size} {s : State} {m : ModeBits} {va : Word} {wr : Bool}
    (h : s.reaches m va sz' wr) : (o.after sz s).reaches m va sz' wr := by
  obtain ⟨r, hr⟩ := after_frame o sz s
  rw [hr]
  exact h

theorem State.pm_after (o : Operand) (sz : Size) (s : State) : (o.after sz s).pm = s.pm := by
  obtain ⟨r, hr⟩ := after_frame o sz s
  rw [hr]
  rfl

theorem State.writable_setCC {s : State} {l : Loc} {sz : Size} (h : s.writable l sz) (f : CC) : (s.setCC f).writable l sz := by
  cases l with
  | reg n => trivial
  | mem a =>
    show (s.setCC f).reaches (s.setCC f).cm a sz true
    rw [State.cm_setCC]
    exact h

theorem State.canPush_setCC {s : State} (h : s.canPush) (f : CC) : (s.setCC f).canPush := by
  rw [State.canPush, State.cm_setCC]
  exact h

theorem State.canPop_setReg_ne {s : State} {n : Reg} (h : s.canPop) (hn : SP ≠ n) (v : Word) : (s.setReg n v).canPop := by
  rw [State.canPop, State.reg_setReg, if_neg hn]
  exact h

theorem State.canPop_setReg_sp {s : State} {v : Word} (h : s.reaches s.cm v .word false) : (s.setReg SP v).canPop := by
  rw [State.canPop, State.reg_setReg, if_pos rfl]
  exact h

/-! ### Locations -/

section
variable {l : Loc} {sz : Size} {s : State}

/-- A read that reaches the memory array, or of a register, changes nothing. -/
theorem readLoc_of_readable (h : s.readable l sz) : ∃ v, readLoc l sz s = .ok v s := by
  cases l with
  | reg n => exact ⟨_, readLoc_reg n sz s⟩
  | mem a =>
    obtain ⟨pa, hpa⟩ := h
    cases sz with
    | word => exact ⟨_, memReadAs_word_array hpa⟩
    | byte => exact ⟨_, memReadAs_byte_array hpa⟩

theorem memWriteAs_ends {m : ModeBits} {a : Word} (h : s.reaches m a sz true) (v : Word) : Ends (memWriteAs m a sz v) s := by
  obtain ⟨pa, hpa⟩ := h
  cases sz with
  | word => exact .of_ok (memWriteAs_word_array hpa)
  | byte => exact .of_ok (memWriteAs_byte_array hpa)

theorem memWrite_ends {a : Word} (h : s.reaches s.cm a sz true) (v : Word) : Ends (memWrite a sz v) s := by
  obtain ⟨t, ht⟩ := memWriteAs_ends h v
  exact ⟨t, ht⟩

theorem writePrevious_ends {a : Word} (h : s.reaches s.pm a .word true) (v : Word) : Ends (writePrevious a v) s := by
  obtain ⟨t, ht⟩ := memWriteAs_ends h v
  exact ⟨t, ht⟩

theorem writeLoc_ends (h : s.writable l sz) (v : Word) : Ends (writeLoc l sz v) s := by
  cases l with
  | reg n => cases sz <;> exact .of_ok rfl
  | mem a =>
    obtain ⟨t, ht⟩ := memWriteAs_ends h v
    exact ⟨t, (writeLoc_mem_apply a sz v s).trans ht⟩

/-- The flags, then the destination (70_reset_and_hazards.md R389). -/
theorem finishWith_ends (h : s.writable l sz) (out : Word × CC) : Ends (finishWith l sz out) s :=
  .bind (putCC_apply _ _) (writeLoc_ends (State.writable_setCC h _) _)

end

/-! ### The starts of the instructions (41_double_operand.md R180, 42_single_operand.md R200, 43_eis_register.md R230) -/

section
variable {src dst : Operand} {sz : Size} {s : State}

theorem sourceValue_of_readable (h : src.readableIn sz s) : ∃ v, sourceValue src sz s = .ok v (src.after sz s) := by
  obtain ⟨hreach, hread⟩ := h
  obtain ⟨v, hv⟩ := readLoc_of_readable (State.readable_after (o := src) (sz := sz) hread)
  exact ⟨v, (bind_of_ok (resolve_of_reachable sz hreach)).trans hv⟩

theorem destAndOld_of_readable (h : dst.readableIn sz s) :
    ∃ d, destAndOld dst sz s = .ok (dst.locIn sz s, d) (dst.after sz s) := by
  obtain ⟨hreach, hread⟩ := h
  obtain ⟨d, hd⟩ := readLoc_of_readable (State.readable_after (o := dst) (sz := sz) hread)
  exact ⟨d, (bind_of_ok (resolve_of_reachable sz hreach)).trans (bind_of_ok hd)⟩

theorem sourceAndDest_of_reachable (hs : src.readableIn sz s) (hd : dst.reachable (src.after sz s)) :
    ∃ v, sourceAndDest src dst sz s = .ok (v, dst.locIn sz (src.after sz s)) (dst.after sz (src.after sz s)) := by
  obtain ⟨v, hv⟩ := sourceValue_of_readable hs
  exact ⟨v, (bind_of_ok hv).trans (bind_of_ok (resolve_of_reachable sz hd))⟩

theorem sourceAndOld_of_readable (h : bothReadable src dst sz s) :
    ∃ v d, sourceAndOld src dst sz s = .ok (v, dst.locIn sz (src.after sz s), d) (dst.after sz (src.after sz s)) := by
  obtain ⟨hs, hreach, hread⟩ := h
  obtain ⟨v, hv⟩ := sourceValue_of_readable hs
  obtain ⟨d, hd⟩ := readLoc_of_readable (State.readable_after (o := dst) (sz := sz) hread)
  exact ⟨v, d, (bind_of_ok hv).trans ((bind_of_ok (resolve_of_reachable sz hreach)).trans (bind_of_ok hd))⟩

/-! ### The shared shapes -/

theorem modifyDouble_ends {op : CC → Word → Word → Word × CC} (h : bothReadable src dst sz s ∧ thenWritable src dst sz s) :
    Ends (modifyDouble sz op src dst) s := by
  obtain ⟨hread, -, -, hwrite⟩ := h
  obtain ⟨v, d, hstart⟩ := sourceAndOld_of_readable hread
  exact .bind hstart (.bind (getCC_apply _) (finishWith_ends (State.writable_after hwrite) _))

theorem testDouble_ends {op : CC → Word → Word → CC} (h : bothReadable src dst sz s) : Ends (testDouble sz op src dst) s := by
  obtain ⟨v, d, hstart⟩ := sourceAndOld_of_readable h
  exact .bind hstart (.bind (getCC_apply _) (.of_ok (putCC_apply _ _)))

theorem modifySingle_ends {op : CC → Word → Word × CC} (h : dst.readableIn sz s ∧ dst.writableIn sz s) :
    Ends (modifySingle sz op dst) s := by
  obtain ⟨hread, -, hwrite⟩ := h
  obtain ⟨d, hstart⟩ := destAndOld_of_readable hread
  exact .bind hstart (.bind (getCC_apply _) (finishWith_ends (State.writable_after hwrite) _))

theorem setSingle_ends {op : CC → Word × CC} (h : dst.writableIn sz s) : Ends (setSingle sz op dst) s := by
  obtain ⟨hreach, hwrite⟩ := h
  exact .bind (resolve_of_reachable sz hreach) (.bind (getCC_apply _) (finishWith_ends (State.writable_after hwrite) _))

theorem testSingle_ends {op : Word → CC} (h : dst.readableIn sz s) : Ends (testSingle sz op dst) s := by
  obtain ⟨d, hstart⟩ := destAndOld_of_readable h
  exact .bind hstart (.of_ok (putCC_apply _ _))

end

/-! ### The instructions with a pseudocode of their own -/

section
variable {src dst : Operand} {s : State}

theorem movBody_ends (h : thenWritable src dst .word s) : Ends (movBody src dst) s := by
  obtain ⟨hs, hreach, hwrite⟩ := h
  obtain ⟨v, hstart⟩ := sourceAndDest_of_reachable hs hreach
  exact .bind hstart (.bind (getCC_apply _) (finishWith_ends (State.writable_after hwrite) _))

/-- A byte moved to a register is extended, and one moved to memory is stored (41_double_operand.md R182). -/
theorem movbBody_ends (h : thenWritable src dst .byte s) : Ends (movbBody src dst) s := by
  obtain ⟨hs, hreach, hwrite⟩ := h
  obtain ⟨v, hstart⟩ := sourceAndDest_of_reachable hs hreach
  refine .bind hstart (.bind (getCC_apply _) (.bind (putCC_apply _ _) ?_))
  cases hl : dst.locIn .byte (src.after .byte s) with
  | reg n => exact .of_ok rfl
  | mem a =>
    rw [hl] at hwrite
    exact memWrite_ends (State.writable_setCC (l := .mem a) (State.writable_after (o := dst) (sz := .byte) hwrite) _) v

theorem xorBody_ends {reg : Reg} (h : dst.readableIn .word s ∧ dst.writableIn .word s) : Ends (xorBody reg dst) s := by
  obtain ⟨hread, -, hwrite⟩ := h
  obtain ⟨d, hstart⟩ := destAndOld_of_readable hread
  exact .bind hstart (.bind (getReg_apply _ _) (.bind (getCC_apply _) (finishWith_ends (State.writable_after hwrite) _)))

/-- Once its source is read, a register-and-operand instruction touches registers and flags alone (43_eis_register.md R230). -/
theorem sourceValue_ends {f : Word → Exec Unit} (h : src.readableIn .word s) (hf : ∀ v t, Ends (f v) t) :
    Ends (sourceValue src .word >>= f) s := by
  obtain ⟨v, hv⟩ := sourceValue_of_readable h
  exact .bind hv (hf v _)

theorem getPair_apply (r : Reg) (s : State) : getPair r s = .ok (s.reg r ++ s.reg (partner r)) s := rfl

theorem putPair_apply (r : Reg) (hi lo : Word) (s : State) :
    putPair r hi lo s = .ok () ((s.setReg r hi).setReg (partner r) lo) := rfl

theorem divBody_ends {reg : Reg} (h : src.readableIn .word s) : Ends (divBody reg src) s := by
  refine sourceValue_ends h fun v t => .bind (getPair_apply reg t) ?_
  dsimp only
  refine .bind (putCC_apply _ _) ?_
  cases (divOp (t.reg reg ++ t.reg (partner reg)) v).2 with
  | none => exact .of_ok (pure_apply _ _)
  | some qr => exact .of_ok (putPair_apply _ _ _ _)

theorem branchIf_ends (cond : CC → Bool) (off : BitVec 8) (s : State) : Ends (branchIf cond off) s := by
  refine .bind (getCC_apply s) ?_
  split
  · exact .of_ok rfl
  · exact .of_ok rfl

theorem sobBody_ends (reg : Reg) (nn : BitVec 6) (s : State) : Ends (sobBody reg nn) s := by
  refine .bind (getReg_apply _ _) (.bind (putReg_apply _ _ _) (.bind (getReg_apply _ _) ?_))
  split
  · exact .of_ok rfl
  · exact .of_ok rfl

/-- What takes effect in kernel mode alone, and is nothing in the other modes (45_trap_system.md R291, R292). -/
theorem ifKernel_ends {x y : Exec Unit} (hx : Ends x s) (hy : Ends y s) : Ends (ifKernel x y) s := by
  rw [Ends, ifKernel]
  split
  · exact hx
  · exact hy

/-- A privileged statement in kernel mode (R289, R290). -/
theorem ifKernel_ends_of_kernel {x y : Exec Unit} (hx : Ends x s) (h : s.cm = 0#2) : Ends (ifKernel x y) s := by
  rw [Ends, ifKernel, if_pos h]
  exact hx

end

/-! ### Jumps, linkage and returns (44_branch_control.md R256 to R259, 45_trap_system.md R287, R288) -/

section
variable {o : Operand} {s : State}

/-- An operand that is no register resolves to an address in memory (R161). -/
theorem locIn_of_isMemory (h : o.isMemory = true) (sz : Size) (s : State) : ∃ a, o.locIn sz s = .mem a := by
  obtain ⟨mode, r⟩ := o
  cases mode with
  | register => cases h
  | _ => exact ⟨_, rfl⟩

theorem memLoc_mem_apply (a : Word) (s : State) : memLoc (.mem a) s = .ok a s := rfl

theorem push_ends (h : s.canPush) (v : Word) : Ends (push v) s := by
  obtain ⟨pa, hpa⟩ := h
  exact .of_ok (push_of_reaches hpa)

theorem jmpBody_ends (h : o.isMemory = true ∧ o.reachable s) : Ends (jmpBody o) s := by
  obtain ⟨hm, hreach⟩ := h
  obtain ⟨a, ha⟩ := locIn_of_isMemory hm .word s
  refine .bind (resolve_of_reachable .word hreach) ?_
  rw [ha]
  exact .bind (memLoc_mem_apply a _) (.of_ok (putReg_apply _ _ _))

theorem jsrBody_ends {reg : Reg} (h : o.isMemory = true ∧ o.reachable s ∧ (o.after .word s).canPush) : Ends (jsrBody reg o) s := by
  obtain ⟨hm, hreach, hpush⟩ := h
  obtain ⟨a, ha⟩ := locIn_of_isMemory hm .word s
  obtain ⟨t, ht⟩ := push_ends hpush ((o.after .word s).reg reg)
  refine .bind (resolve_of_reachable .word hreach) ?_
  rw [ha]
  exact .bind (memLoc_mem_apply a _) (.bind (getReg_apply _ _) (.bind ht (.of_ok rfl)))

theorem rtsBody_ends {reg : Reg} (h : s.canPop) : Ends (rtsBody reg) s :=
  .bind (getReg_apply _ _) (.bind (putReg_apply _ _ _)
    (.bind (pop_of_canPop (State.canPop_setReg_ne h (by decide) _)) (.of_ok (putReg_apply _ _ _))))

theorem markBody_ends {nn : BitVec 6} (h : s.reaches s.cm (s.reg PC + countBytes nn) .word false) : Ends (markBody nn) s :=
  .bind (getReg_apply _ _) (.bind (putReg_apply _ _ _) (.bind (getReg_apply _ _) (.bind (putReg_apply _ _ _)
    (.bind (pop_of_canPop (State.canPop_setReg_ne (State.canPop_setReg_sp h) (by decide) _)) (.of_ok (putReg_apply _ _ _))))))

theorem returnFromTrap_ends (h : s.canPop ∧ (s.setReg SP (s.reg SP + 2)).canPop) : Ends returnFromTrap s := by
  obtain ⟨hpc, hpsw⟩ := h
  exact .bind (pop_of_canPop hpc) (.bind (pop_of_canPop hpsw) (.of_ok rfl))

/-! ### Moves between spaces (45_trap_system.md R294, R295) -/

/-- The value MFPI moves is found without a change but for its operand's step. -/
theorem previousValue_of_memory (hm : o.isMemory = true) (hreach : o.reachable s)
    (hread : ∀ a, o.locIn .word s = .mem a → s.reaches s.pm a .word false) :
    ∃ v, previousValue o s = .ok v (o.after .word s) := by
  obtain ⟨a, ha⟩ := locIn_of_isMemory hm .word s
  have hmode : o.mode ≠ .register := by simpa [Operand.isMemory] using hm
  have hresolve := resolve_of_reachable .word hreach
  rw [ha] at hresolve
  have hprev : (o.after .word s).reaches (o.after .word s).pm a .word false := by
    rw [State.pm_after]
    exact State.reaches_after (hread a ha)
  rw [previousValue, if_neg hmode]
  exact ⟨_, (bind_of_ok hresolve).trans (memReadAs_of_reaches hprev)⟩

theorem mfpiBody_ends (h : (Instr.mfpi o).ready s) : Ends (mfpiBody o) s := by
  have finish : ∀ {v u}, previousValue o s = .ok v u → u.canPush → Ends (mfpiBody o) s := fun hv hpush =>
    .bind hv (.bind (putMoveFlags_apply _ _) (push_ends (State.canPush_setCC hpush _) _))
  rcases h with ⟨hm, hsp, hpush⟩ | ⟨hm, hreach, hread, hpush⟩
  · refine finish (v := s.spOf s.pm) ?_ hpush
    rw [previousValue, if_pos (Operand.isMemory_eq_false_iff.mp hm), if_pos hsp]
    rfl
  · obtain ⟨v, hv⟩ := previousValue_of_memory hm hreach hread
    exact finish hv hpush

theorem mtpiBody_ends (h : (Instr.mtpi o).ready s) : Ends (mtpiBody o) s := by
  obtain ⟨hpop, hdest⟩ := h
  refine .bind (pop_of_canPop hpop) ?_
  rcases hdest with ⟨hm, hsp⟩ | ⟨hm, hreach, hwrite⟩
  · rw [if_pos (Operand.isMemory_eq_false_iff.mp hm), if_pos hsp]
    exact .of_ok rfl
  · obtain ⟨a, ha⟩ := locIn_of_isMemory hm .word (s.setReg SP (s.reg SP + 2))
    have hmode : o.mode ≠ .register := by simpa [Operand.isMemory] using hm
    rw [if_neg hmode]
    have hreaches := State.reaches_after (s := s.setReg SP (s.reg SP + 2)) (o := o) (sz := .word) (hwrite a ha)
    refine .bind (resolve_of_reachable .word hreach) ?_
    rw [ha]
    refine .bind (memLoc_mem_apply a _) (.bind (putMoveFlags_apply _ _) (writePrevious_ends ?_ _))
    rw [State.pm_setCC, State.pm_after]
    exact hreaches

end

/-! ### Every instruction but the programmed traps -/

/-- A ready instruction that is no programmed trap runs to its end. -/
theorem bodyOf_ends {i : Instr} {s : State} (hready : i.ready s) (hnone : i.trapVector = none) : Ends (bodyOf i) s := by
  cases i with
  | halt | wait => exact ifKernel_ends_of_kernel (.of_ok rfl) hready
  | rti | rtt => exact returnFromTrap_ends hready
  | bpt | iot | emt | trap => cases hnone
  | reset | spl level => exact ifKernel_ends (.of_ok rfl) (.of_ok rfl)
  | jmp dst => exact jmpBody_ends hready
  | jsr reg dst => exact jsrBody_ends hready
  | rts reg => exact rtsBody_ends hready
  | mark nn => exact markBody_ends hready
  | sob reg nn => exact sobBody_ends reg nn s
  | mfpi src => exact mfpiBody_ends hready
  | mtpi dst => exact mtpiBody_ends hready
  | ccClear | ccSet => exact .of_ok rfl
  | br | bne | beq | bge | blt | bgt | ble | bpl | bmi | bhi | blos | bvc | bvs | bcc | bcs => exact branchIf_ends _ _ s
  | clr | clrb | sxt => exact setSingle_ends hready
  | tst | tstb => exact testSingle_ends hready
  | swab | com | comb | inc | incb | dec | decb | neg | negb | adc | adcb | sbc | sbcb | ror | rorb | rol | rolb | asr | asrb
  | asl | aslb => exact modifySingle_ends hready
  | mov src dst => exact movBody_ends hready
  | movb src dst => exact movbBody_ends hready
  | cmp | cmpb | bit | bitb => exact testDouble_ends hready
  | bic | bicb | bis | bisb | add | sub => exact modifyDouble_ends hready
  | mul | ash | ashc => exact sourceValue_ends hready fun _ _ => .of_ok rfl
  | div reg src => exact divBody_ends hready
  | xor reg dst => exact xorBody_ends hready

end Sys2Proof.Machine
end

section
/-! The trap sequence where it reaches the memory array (60_exceptions.md R322, R323), and the programmed traps (45_trap_system.md R280 to
R284). -/

namespace Sys2Proof.Machine

theorem State.mapped_setSpOf (s : State) (k : ModeBits) (v : Word) (m va wr) : (s.setSpOf k v).mapped m va wr = s.mapped m va wr := by
  unfold State.setSpOf
  split <;> rfl

theorem State.cfg_setSpOf (s : State) (k : ModeBits) (v : Word) : (s.setSpOf k v).cfg = s.cfg := by
  obtain ⟨-, hcfg, -⟩ := s.setSpOf_translator k v
  exact hcfg

/-- The state after a push of the trap sequence at physical address `pa`. -/
def State.kernelPushed (s : State) (pa : Nat) (v : Word) : State :=
  ((s.setSpOf 0#2 (s.spOf 0#2 - 2)).marked 0#2 (s.spOf 0#2 - 2) true).setWord pa v

theorem State.reachesAt_kernelPushed {s : State} {a : Nat} {v : Word} {m va sz wr pa} :
    (s.kernelPushed a v).reachesAt m va sz wr pa ↔ s.reachesAt m va sz wr pa := by
  rw [State.reachesAt, State.kernelPushed, State.mapped_setWord, State.mapped_marked, State.mapped_setSpOf, State.cfg_setWord,
    State.cfg_marked, State.cfg_setSpOf, State.reachesAt]

theorem State.spOf_kernelPushed (s : State) (pa : Nat) (v : Word) : (s.kernelPushed pa v).spOf 0#2 = s.spOf 0#2 - 2 := by
  show ((s.setSpOf 0#2 (s.spOf 0#2 - 2)).marked 0#2 (s.spOf 0#2 - 2) true).spOf 0#2 = _
  rw [State.spOf_marked, State.spOf_setSpOf, if_pos rfl]

/-- A push of the trap sequence whose slot lies in the memory array (20_memory.md R98, 60_exceptions.md R323). -/
theorem pushKernel_of_reachesAt {s : State} {v : Word} {pa : Nat} (h : s.reachesAt 0#2 (s.spOf 0#2 - 2) .word true pa) :
    pushKernel v s = .ok () (s.kernelPushed pa v) := by
  refine memWriteAs_word_array ?_
  rw [State.reachesAt, State.mapped_setSpOf, State.cfg_setSpOf]
  exact h

/-- Where the frame and the vector lie in the memory array the trap sequence ends (R322). -/
theorem trapSequence_ends {vec : Word} {s : State} (h : s.trapReady vec) : Ends (trapSequence vec) s := by
  obtain ⟨⟨p1, hpsw⟩, ⟨p2, hpc⟩, ⟨v1, hnewPc⟩, ⟨v2, hnewPsw⟩⟩ := h
  have hsp : s.spOf 0#2 - 4 = s.spOf 0#2 - 2 - 2 := by rw [BitVec.sub_sub]; rfl
  set k := s.setPsw (kernelPsw s.psw) with hk
  have hpush1 : k.reachesAt 0#2 (k.spOf 0#2 - 2) .word true p1 := by
    rw [hk, State.spOf_setPsw]
    exact hpsw
  have hpush2 : (k.kernelPushed p1 s.psw).reachesAt 0#2 ((k.kernelPushed p1 s.psw).spOf 0#2 - 2) .word true p2 := by
    rw [State.reachesAt_kernelPushed, State.spOf_kernelPushed, hk, State.spOf_setPsw, ← hsp]
    exact hpc
  have hread : ∀ {va pa}, s.reachesAt 0#2 va .word false pa →
      ((k.kernelPushed p1 s.psw).kernelPushed p2 (s.reg PC)).reaches 0#2 va .word false := fun hva =>
    ⟨_, State.reachesAt_kernelPushed.mpr (State.reachesAt_kernelPushed.mpr hva)⟩
  exact .bind (u := s) (a := s.psw) rfl (.bind (getReg_apply _ _) (.bind (putPsw_apply _ _)
    (.bind (pushKernel_of_reachesAt hpush1) (.bind (pushKernel_of_reachesAt hpush2)
      (.bind (memReadAs_of_reaches (hread hnewPc)) (.bind (memReadAs_of_reaches (hread hnewPsw)) (.of_ok rfl)))))))

/-- A trap at an even vector whose sequence ends is taken (R322, R326). -/
theorem takeTrap_of_ends {vec : Word} {s : State} (hv : vec.getLsbD 0 = false) (h : Ends (trapSequence vec) s) :
    ∃ t, takeTrap vec s = .next t := by
  obtain ⟨t, ht⟩ := h
  exact ⟨t, by rw [takeTrap, trapAt, hv, if_neg Bool.false_ne_true, doubleFaultOnTrap, ht]⟩

/-- A programmed trap raises at its vector at once, and is ready where its trap is. -/
theorem bodyOf_of_trapVector {i : Instr} {vec : Config → Word} (h : i.trapVector = some vec) (s : State) :
    bodyOf i s = .error (.trap (vec s.cfg)) s ∧ (i.ready s → s.trapReady (vec s.cfg)) := by
  cases i with
  | bpt | iot | emt | trap => cases h; exact ⟨rfl, fun hready => hready _ rfl⟩
  | _ => cases h

/-- Settles O52: a programmed trap is taken, its vector being even, and every other instruction runs to its end. -/
theorem everyInstructionCompletes : Obligations.EveryInstructionCompletes := by
  intro i s hwf hready
  cases hvec : i.trapVector with
  | none =>
    obtain ⟨t, ht⟩ := bodyOf_ends hready hvec
    exact ⟨t, exec_of_ok ht, fun _ => ht⟩
  | some vec =>
    obtain ⟨hbody, htrap⟩ := bodyOf_of_trapVector hvec s
    have heven := Config.wf_vectors hwf _ ((RaisesOnly.bodyOf i).raises s _ s hbody)
    obtain ⟨t, ht⟩ := takeTrap_of_ends heven (trapSequence_ends (htrap hready))
    exact ⟨t, (exec_of_trap hbody).trans ht, fun h => nomatch h⟩

end Sys2Proof.Machine
end

section
/-! Exact results and their flags (10_state.md R26): a value of an operand length as a two's-complement number, the word that carries an
exact result, and the model's flag formulas as the flags of that result. -/

namespace Sys2Proof.Machine

/-! ### The signed value of a word, and its sign bit (00_scope.md R8) -/

theorem signedOf_eq_bmod (sz : Size) (x : Word) : signedOf sz x = (x.toNat : Int).bmod (2 ^ widthOf sz) := by
  cases sz with
  | word => exact x.toInt_eq_toNat_bmod
  | byte =>
    rw [signedOf, BitVec.toInt_eq_toNat_bmod, toNat_lowByte, Int.natCast_emod]
    exact Int.emod_bmod _ _

theorem signedOf_emod (sz : Size) (x : Word) : signedOf sz x % (2 ^ widthOf sz : Nat) = (x.toNat : Int) % (2 ^ widthOf sz : Nat) := by
  rw [signedOf_eq_bmod, Int.bmod_emod]

theorem narrowed_signedOf (sz : Size) (x : Word) : narrowed sz (signedOf sz x) = signedOf sz x := by
  rw [signedOf_eq_bmod, narrowed, Int.bmod_bmod]

theorem signBit_eq_neg (sz : Size) (x : Word) : signBit sz x = decide (signedOf sz x < 0) := by
  cases sz with
  | word => exact (BitVec.msb_eq_getLsbD_last x).symm.trans BitVec.msb_eq_toInt
  | byte =>
    have hbit : x.getLsbD 7 = (lowByte x).msb := by
      rw [BitVec.msb_eq_getLsbD_last, lowByte, BitVec.getLsbD_extractLsb']
      rfl
    exact hbit.trans BitVec.msb_eq_toInt

theorem signBit_and (sz : Size) (x y : Word) : signBit sz (x &&& y) = (signBit sz x && signBit sz y) := by
  cases sz <;> exact BitVec.getLsbD_and

theorem signBit_xor (sz : Size) (x y : Word) : signBit sz (x ^^^ y) = Bool.xor (signBit sz x) (signBit sz y) := by
  cases sz <;> exact BitVec.getLsbD_xor

/-! ### The word that carries an exact result (R26) -/

theorem carried_word (e : Int) : carried .word e = BitVec.ofInt 16 e := by
  apply BitVec.eq_of_toNat_eq
  rw [carried, BitVec.toNat_ofInt, BitVec.toNat_ofInt]
  exact congrArg Int.toNat (Int.emod_emod_of_dvd e (dvd_refl _))

/-- A word congruent to an exact result carries it, once masked to the length. -/
theorem and_maskOf_eq_carried {sz : Size} {x : Word} {e : Int}
    (h : (x.toNat : Int) % (2 ^ widthOf sz : Nat) = e % (2 ^ widthOf sz : Nat)) : x &&& maskOf sz = carried sz e := by
  rw [and_maskOf, carried, ← BitVec.ofInt_natCast, Int.natCast_emod, h, Nat.cast_pow, Nat.cast_ofNat]

theorem carried_signedOf {sz : Size} {x : Word} (h : x.toNat < 2 ^ widthOf sz) : carried sz (signedOf sz x) = x := by
  rw [← and_maskOf_eq_carried (signedOf_emod sz x).symm, and_maskOf, Nat.mod_eq_of_lt h, BitVec.ofNat_toNat, BitVec.setWidth_eq]

theorem toNat_carried (sz : Size) (e : Int) : ((carried sz e).toNat : Int) = e % (2 ^ widthOf sz : Nat) := by
  rw [carried, BitVec.toNat_ofInt]
  cases sz <;> simp only [widthOf] <;> omega

theorem signedOf_carried (sz : Size) (e : Int) : signedOf sz (carried sz e) = narrowed sz e := by
  rw [signedOf_eq_bmod, toNat_carried, Int.emod_bmod, narrowed]

theorem isZero_carried (sz : Size) (e : Int) : isZero (carried sz e) = decide (narrowed sz e = 0) := by
  have hword : carried sz e = 0#16 ↔ e % (2 ^ widthOf sz : Nat) = 0 := by
    rw [← toNat_carried, ← BitVec.toNat_inj, Int.natCast_eq_zero]
    rfl
  have hnumber : narrowed sz e = 0 ↔ e % (2 ^ widthOf sz : Nat) = 0 := by
    rw [narrowed, ← Int.dvd_iff_bmod_eq_zero, Int.dvd_iff_emod_eq_zero]
  exact decide_eq_decide.mpr (hword.trans hnumber.symm)

/-- N and Z of the carrying word, with V where the exact result does not fit, are the flags of the exact result. -/
theorem flags_eq_exactFlags {sz : Size} {e : Int} {v : Bool} (hv : v = decide (narrowed sz e ≠ e)) (c : Bool) :
    (⟨signBit sz (carried sz e), isZero (carried sz e), v, c⟩ : CC) = exactFlags sz e c := by
  rw [signBit_eq_neg, signedOf_carried, isZero_carried, hv, exactFlags]

/-! ### When a sum or a difference does not fit (R26) -/

section
variable {sz : Size} {x y : Int} (hx : narrowed sz x = x) (hy : narrowed sz y = y)
include hx hy

/-- A difference fits unless the operands' signs differ and the result does not have the first one's. -/
theorem narrowed_sub_ne_iff : narrowed sz (x - y) ≠ x - y ↔ ¬ (x < 0 ↔ y < 0) ∧ ¬ (x < 0 ↔ narrowed sz (x - y) < 0) := by
  cases sz <;> simp only [narrowed, widthOf, Int.bmod_def] at * <;> omega

/-- A sum fits unless the result has neither operand's sign. -/
theorem narrowed_add_ne_iff :
    narrowed sz (x + y) ≠ x + y ↔ ¬ (x < 0 ↔ narrowed sz (x + y) < 0) ∧ ¬ (y < 0 ↔ narrowed sz (x + y) < 0) := by
  cases sz <;> simp only [narrowed, widthOf, Int.bmod_def] at * <;> omega

end

/-- The model's V is a test of four sign bits. -/
theorem signBit_overflow (sz : Size) (p q r t : Word) : signBit sz ((p ^^^ q) &&& (r ^^^ t)) =
    decide (¬ (signedOf sz p < 0 ↔ signedOf sz q < 0) ∧ ¬ (signedOf sz r < 0 ↔ signedOf sz t < 0)) := by
  rw [signBit_and, signBit_xor, signBit_xor, Bool.eq_iff_iff, Bool.and_eq_true, Bool.xor_iff_ne, Bool.xor_iff_ne]
  simp only [signBit_eq_neg, ne_eq, decide_eq_decide, decide_eq_true_eq]

theorem signBit_overflow_sub (sz : Size) (a b : Word) :
    let e := signedOf sz a - signedOf sz b
    signBit sz ((a ^^^ b) &&& (a ^^^ carried sz e)) = decide (narrowed sz e ≠ e) := by
  intro e
  rw [signBit_overflow, signedOf_carried]
  exact decide_eq_decide.mpr (narrowed_sub_ne_iff (narrowed_signedOf sz a) (narrowed_signedOf sz b)).symm

theorem signBit_overflow_add (sz : Size) (a b : Word) :
    let e := signedOf sz a + signedOf sz b
    signBit sz ((a ^^^ carried sz e) &&& (b ^^^ carried sz e)) = decide (narrowed sz e ≠ e) := by
  intro e
  rw [signBit_overflow, signedOf_carried]
  exact decide_eq_decide.mpr (narrowed_add_ne_iff (narrowed_signedOf sz a) (narrowed_signedOf sz b)).symm

/-! ### The flags of the double-operand instructions and of TST -/

theorem logicFlags_eq_moveFlags (sz : Size) (f : CC) (v : Word) : logicFlags sz f v = moveFlags sz v f.c := by
  rw [logicFlags, signBit_eq_neg]
  rfl

theorem cmpFlags_eq_exactFlags (sz : Size) (a b : Word) :
    cmpFlags sz a b = exactFlags sz (signedOf sz a - signedOf sz b) (decide (a.toNat < b.toNat)) := by
  have hres : (a - b) &&& maskOf sz = carried sz (signedOf sz a - signedOf sz b) := by
    apply and_maskOf_eq_carried
    rw [Int.sub_emod, signedOf_emod, signedOf_emod, ← Int.sub_emod, BitVec.toNat_sub]
    cases sz <;> simp only [widthOf] <;> omega
  rw [cmpFlags, hres]
  exact flags_eq_exactFlags (signBit_overflow_sub sz a b) _

theorem addOp_eq (f : CC) (a b : Word) : addOp f a b =
    (BitVec.ofInt 16 (a.toInt + b.toInt), exactFlags .word (a.toInt + b.toInt) (decide (65536 ≤ a.toNat + b.toNat))) := by
  have hres : BitVec.ofNat 16 (a.toNat + b.toNat) = carried .word (a.toInt + b.toInt) := by
    rw [carried_word, BitVec.ofInt_add, BitVec.ofInt_toInt, BitVec.ofInt_toInt, BitVec.ofNat_add, BitVec.ofNat_toNat,
      BitVec.ofNat_toNat, BitVec.setWidth_eq, BitVec.setWidth_eq]
  rw [addOp, hres, ← carried_word]
  exact congrArg (Prod.mk _) (flags_eq_exactFlags (signBit_overflow_add .word a b) _)

theorem subOp_eq (f : CC) (a b : Word) : subOp f a b =
    (BitVec.ofInt 16 (b.toInt - a.toInt), exactFlags .word (b.toInt - a.toInt) (decide (b.toNat < a.toNat))) := by
  have hres : b - a = carried .word (b.toInt - a.toInt) := by
    rw [carried_word, Int.sub_eq_add_neg, BitVec.ofInt_add, BitVec.ofInt_neg, BitVec.ofInt_toInt, BitVec.ofInt_toInt,
      BitVec.sub_eq_add_neg]
  rw [subOp, hres, ← carried_word, BitVec.xor_comm a b]
  exact congrArg (Prod.mk _) (flags_eq_exactFlags (signBit_overflow_sub .word b a) _)

/-- The flags of a value of the length, V and C cleared: the value fits (42_single_operand.md R208). -/
theorem tstFlags_eq_exactFlags {sz : Size} {d : Word} (h : d.toNat < 2 ^ widthOf sz) :
    tstFlags sz d = exactFlags sz (signedOf sz d) false := by
  rw [← flags_eq_exactFlags (v := false) (by simp [narrowed_signedOf]), carried_signedOf h]
  rfl

end Sys2Proof.Machine
end

section
/-! The double-operand instructions, TST and XOR once their operands are read (41_double_operand.md R181 to R188, 42_single_operand.md
R208, 43_eis_register.md R235). -/

namespace Sys2Proof.Machine

/-! ### A value read at a length has that length (40_addressing_modes.md R159, 20_memory.md R81) -/

theorem memReadAs_lt {m : ModeBits} {va : Word} {sz : Size} {s t : State} {v : Word} (h : memReadAs m va sz s = .ok v t) :
    v.toNat < 2 ^ widthOf sz := by
  obtain ⟨pa, u, -, hread⟩ := bind_eq_ok.mp h
  cases sz with
  | word => exact v.isLt
  | byte =>
    obtain ⟨w, x, -, hselect⟩ := bind_eq_ok.mp hread
    cases hselect
    have hbyte : ∀ b : Byte, (b.zeroExtend 16 : Word).toNat < 2 ^ 8 := fun b => by
      rw [BitVec.toNat_setWidth_of_le (by decide)]
      exact b.isLt
    rw [selectByte]
    split
    · exact hbyte _
    · exact hbyte _

theorem readLoc_lt {l : Loc} {sz : Size} {s t : State} {v : Word} (h : readLoc l sz s = .ok v t) : v.toNat < 2 ^ widthOf sz := by
  cases l with
  | reg n =>
    rw [readLoc_reg] at h
    cases h
    rw [BitVec.toNat_ofNat]
    exact (Nat.mod_le _ _).trans_lt (Nat.mod_lt _ (Nat.two_pow_pos _))
  | mem a => exact memReadAs_lt h

theorem destAndOld_lt {dst : Operand} {sz : Size} {s u : State} {dl : Loc} {d : Word} (h : destAndOld dst sz s = .ok (dl, d) u) :
    d.toNat < 2 ^ widthOf sz := by
  obtain ⟨l, v, -, h⟩ := bind_eq_ok.mp h
  obtain ⟨w, x, hread, h⟩ := bind_eq_ok.mp h
  cases h
  exact readLoc_lt hread

/-! ### The shared shapes after the start (R153, 70_reset_and_hazards.md R389) -/

/-- C is kept from before the instruction: no operand access changes the flags. -/
theorem getCC_of_operandRun {f : Reg → Bool} {s u : State} (h : OperandRun f s u) : getCC u = .ok s.cc u := by
  rw [getCC_apply, h.quiet.cc]

section
variable {src dst : Operand} {sz : Size} {s u : State} {a b : Word} {dl : Loc}

theorem movBody_of_start (h : sourceAndDest src dst .word s = .ok (a, dl) u) :
    movBody src dst s = writeLoc dl .word a (u.setCC (moveFlags .word a s.cc.c)) := by
  rw [← logicFlags_eq_moveFlags]
  exact (bind_of_ok h).trans (bind_of_ok (getCC_of_operandRun (sourceAndDest_ok h).1))

section
variable (h : sourceAndOld src dst sz s = .ok (a, dl, b) u)
include h

theorem modifyDouble_of_start (op : CC → Word → Word → Word × CC) :
    modifyDouble sz op src dst s = writeLoc dl sz (op s.cc a b).1 (u.setCC (op s.cc a b).2) :=
  (bind_of_ok h).trans (bind_of_ok (getCC_of_operandRun (sourceAndOld_ok h).1))

theorem testDouble_of_start (op : CC → Word → Word → CC) : testDouble sz op src dst s = .ok () (u.setCC (op s.cc a b)) :=
  (bind_of_ok h).trans (bind_of_ok (getCC_of_operandRun (sourceAndOld_ok h).1))

end

theorem testSingle_of_start (h : destAndOld dst sz s = .ok (dl, b) u) (op : Word → CC) :
    testSingle sz op dst s = .ok () (u.setCC (op b)) :=
  (bind_of_ok h).trans (putCC_apply _ _)

/-- XOR reads its register after the operand (43_eis_register.md R230, R235). -/
theorem xorBody_of_start (h : destAndOld dst .word s = .ok (dl, b) u) (reg : Reg) :
    xorBody reg dst s = writeLoc dl .word (b ^^^ u.reg reg) (u.setCC (moveFlags .word (b ^^^ u.reg reg) s.cc.c)) := by
  rw [← logicFlags_eq_moveFlags]
  exact (bind_of_ok h).trans ((bind_of_ok (getReg_apply _ _)).trans (bind_of_ok (getCC_of_operandRun (destAndOld_ok h).1)))

/-- A byte moved to a register is extended to the whole of it (R182). -/
theorem movbBody_to_register {n : Reg} (h : sourceAndDest src dst .byte s = .ok (a, .reg n) u) :
    movbBody src dst s =
      .ok () ((u.setCC (moveFlags .byte a s.cc.c)).setReg n (BitVec.ofInt 16 (a.extractLsb' 0 8).toInt)) := by
  rw [← logicFlags_eq_moveFlags]
  exact (bind_of_ok h).trans (bind_of_ok (getCC_of_operandRun (sourceAndDest_ok h).1))

theorem movbBody_to_memory {va : Word} (h : sourceAndDest src dst .byte s = .ok (a, .mem va) u) :
    movbBody src dst s = memWriteAs u.cm va .byte a (u.setCC (moveFlags .byte a s.cc.c)) := by
  rw [← logicFlags_eq_moveFlags, ← u.cm_setCC (logicFlags .byte s.cc a)]
  exact (bind_of_ok h).trans (bind_of_ok (getCC_of_operandRun (sourceAndDest_ok h).1))

end

/-- The word and the byte instruction of one meaning are its two lengths (30_encoding.md R130). -/
theorem bodyOf_form {word byte : Instr} {x : Size → Exec Unit} (hword : bodyOf word = x .word) (hbyte : bodyOf byte = x .byte)
    (sz : Size) : bodyOf (form sz word byte) = x sz := by
  cases sz with
  | word => exact hword
  | byte => exact hbyte

/-! ### The results -/

/-- Settles O35: MOV and MOVB are run past their start, to the write of the value. -/
theorem moveResults : Obligations.MoveResults :=
  fun _ _ _ _ _ _ _ => ⟨fun h hwrite => exec_of_ok ((movBody_of_start h).trans hwrite),
    fun _ h => exec_of_ok (movbBody_to_register h),
    fun _ h hwrite => exec_of_ok ((movbBody_to_memory h).trans hwrite)⟩

/-- Settles O36: the flags CMP, BIT and TST compute are those of the exact difference, the conjunction and the value. -/
theorem compareAndTestResults : Obligations.CompareAndTestResults := by
  refine fun sz src dst s u a b dl => ⟨fun h => ⟨exec_of_ok ?_, exec_of_ok ?_⟩, fun h => exec_of_ok ?_⟩
  · rw [bodyOf_form (x := fun sz => testDouble sz (fun _ => cmpFlags sz) src dst) rfl rfl, testDouble_of_start h,
      cmpFlags_eq_exactFlags]
  · rw [bodyOf_form (x := fun sz => testDouble sz (bitFlags sz) src dst) rfl rfl, testDouble_of_start h, bitFlags,
      logicFlags_eq_moveFlags]
  · rw [bodyOf_form (x := fun sz => testSingle sz (tstFlags sz) dst) rfl rfl, testSingle_of_start h,
      tstFlags_eq_exactFlags (destAndOld_lt h)]

/-- Settles O37: BIC, BIS and XOR write their result with the flags of a move of it. -/
theorem logicResults : Obligations.LogicResults := by
  refine fun sz src dst reg s u t a b dl => ⟨fun h => ⟨fun hwrite => exec_of_ok ?_, fun hwrite => exec_of_ok ?_⟩,
    fun h hwrite => exec_of_ok ((xorBody_of_start h reg).trans hwrite)⟩
  · rw [bodyOf_form (x := fun sz => modifyDouble sz (bicOp sz) src dst) rfl rfl, modifyDouble_of_start h, bicOp,
      logicFlags_eq_moveFlags]
    exact hwrite
  · rw [bodyOf_form (x := fun sz => modifyDouble sz (bisOp sz) src dst) rfl rfl, modifyDouble_of_start h, bisOp,
      logicFlags_eq_moveFlags]
    exact hwrite

/-- Settles O38: what ADD and SUB compute is the exact sum and the exact difference. -/
theorem addAndSubtractResults : Obligations.AddAndSubtractResults := by
  refine fun src dst s u t a b dl h => ⟨fun hwrite => exec_of_ok ?_, fun hwrite => exec_of_ok ?_⟩
  · rw [← hwrite]
    exact (modifyDouble_of_start h addOp).trans (by rw [addOp_eq])
  · rw [← hwrite]
    exact (modifyDouble_of_start h subOp).trans (by rw [subOp_eq])

end Sys2Proof.Machine
end

section
/-! The results and the flags of the single-operand instructions as exact arithmetic: COM, INC, DEC, NEG, ADC and SBC
(42_single_operand.md R202 to R207), the rotates and shifts (R209 to R212), SWAB (R225). -/

namespace Sys2Proof.Machine

/-! ### Sums, differences and carries under the mask (10_state.md R26) -/

theorem add_and_maskOf (sz : Size) (a b : Word) : (a + b) &&& maskOf sz = carried sz (signedOf sz a + signedOf sz b) := by
  apply and_maskOf_eq_carried
  rw [Int.add_emod (signedOf sz a), signedOf_emod, signedOf_emod, ← Int.add_emod, BitVec.toNat_add]
  cases sz <;> simp only [widthOf] <;> omega

theorem sub_and_maskOf (sz : Size) (a b : Word) : (a - b) &&& maskOf sz = carried sz (signedOf sz a - signedOf sz b) := by
  apply and_maskOf_eq_carried
  rw [Int.sub_emod (signedOf sz a), signedOf_emod, signedOf_emod, ← Int.sub_emod, BitVec.toNat_sub]
  cases sz <;> simp only [widthOf] <;> omega

theorem signedOf_bitWord (sz : Size) (b : Bool) : signedOf sz (bitWord b) = (if b then 1 else 0 : Nat) := by
  cases sz <;> cases b <;> rfl

theorem toNat_carried_lt (sz : Size) (e : Int) : (carried sz e).toNat < 2 ^ widthOf sz := by
  rw [← Int.ofNat_lt, toNat_carried]
  exact Int.emod_lt_of_pos e (Int.natCast_pos.mpr (Nat.two_pow_pos _))

/-! ### The ends of the signed range (00_scope.md R8) -/

section
variable {sz : Size} {d : Word} (hd : d.toNat < 2 ^ widthOf sz)
include hd

theorem eq_msbOf_iff : d = msbOf sz ↔ signedOf sz d = -2 ^ (widthOf sz - 1) := by
  rw [← BitVec.toNat_inj, signedOf_eq_bmod]
  cases sz <;> simp only [msbOf, widthOf, Int.bmod_def, BitVec.toNat_ofNat] at * <;> omega

theorem eq_msbOf_sub_one_iff : d = msbOf sz - 1 ↔ signedOf sz d = 2 ^ (widthOf sz - 1) - 1 := by
  have hmax : (msbOf sz - 1).toNat = 2 ^ (widthOf sz - 1) - 1 := by cases sz <;> rfl
  rw [← BitVec.toNat_inj, hmax, signedOf_eq_bmod]
  cases sz <;> simp only [widthOf, Int.bmod_def] at * <;> omega

theorem eq_zero_iff_signedOf : d = 0#16 ↔ signedOf sz d = 0 := by
  rw [← BitVec.toNat_inj, signedOf_eq_bmod]
  cases sz <;> simp only [widthOf, Int.bmod_def, BitVec.toNat_ofNat] at * <;> omega

theorem signBit_eq_le : signBit sz d = decide (2 ^ widthOf sz ≤ 2 * d.toNat) := by
  rw [signBit_eq_neg, signedOf_eq_bmod, decide_eq_decide]
  cases sz <;> simp only [widthOf, Int.bmod_def] at * <;> omega

end

section
variable {sz : Size} {x : Int} (hx : narrowed sz x = x)
include hx

theorem narrowed_add_one_ne_iff : narrowed sz (x + 1) ≠ x + 1 ↔ x = 2 ^ (widthOf sz - 1) - 1 := by
  cases sz <;> simp only [narrowed, widthOf, Int.bmod_def] at * <;> omega

theorem narrowed_sub_one_ne_iff : narrowed sz (x - 1) ≠ x - 1 ↔ x = -2 ^ (widthOf sz - 1) := by
  cases sz <;> simp only [narrowed, widthOf, Int.bmod_def] at * <;> omega

theorem narrowed_complement : narrowed sz (-1 - x) = -1 - x := by
  cases sz <;> simp only [narrowed, widthOf, Int.bmod_def] at * <;> omega

/-- Only the least number has no negative, and that one narrows to itself. -/
theorem narrowed_neg_ne_iff : narrowed sz (-x) ≠ -x ↔ narrowed sz (-x) = -2 ^ (widthOf sz - 1) := by
  cases sz <;> simp only [narrowed, widthOf, Int.bmod_def] at * <;> omega

theorem narrowed_neg_eq_zero_iff : narrowed sz (-x) = 0 ↔ x = 0 := by
  cases sz <;> simp only [narrowed, widthOf, Int.bmod_def] at * <;> omega

end

/-! ### COM, INC, DEC, NEG, ADC, SBC (R202 to R207) -/

theorem comOp_eq (sz : Size) (f : CC) (d : Word) :
    comOp sz f d = (carried sz (-1 - signedOf sz d), exactFlags sz (-1 - signedOf sz d) true) := by
  have hones : signedOf sz (BitVec.allOnes 16) = -1 := by cases sz <;> rfl
  have hres : ~~~d &&& maskOf sz = carried sz (-1 - signedOf sz d) := by
    rw [← hones, ← sub_and_maskOf, BitVec.allOnes_sub_eq_not]
  have hfits := narrowed_complement (narrowed_signedOf sz d)
  rw [comOp, hres]
  exact congrArg (Prod.mk _) (flags_eq_exactFlags (decide_eq_false (not_not.mpr hfits)).symm _)

section
variable {sz : Size} {d : Word} (hd : d.toNat < 2 ^ widthOf sz) (f : CC)
include hd

/-- V of INC and ADC: only the greatest number has no successor. -/
theorem overflow_add_carry (b : Bool) :
    let e := signedOf sz d + (if b then 1 else 0 : Nat)
    (decide (d = msbOf sz - 1) && b) = decide (narrowed sz e ≠ e) := by
  cases b with
  | false => simp [narrowed_signedOf]
  | true =>
    rw [Bool.and_true, decide_eq_decide, eq_msbOf_sub_one_iff hd]
    exact (narrowed_add_one_ne_iff (narrowed_signedOf sz d)).symm

/-- V of DEC and SBC: only the least number has no predecessor. -/
theorem overflow_sub_carry (b : Bool) :
    let e := signedOf sz d - (if b then 1 else 0 : Nat)
    (decide (d = msbOf sz) && b) = decide (narrowed sz e ≠ e) := by
  cases b with
  | false => simp [narrowed_signedOf]
  | true =>
    rw [Bool.and_true, decide_eq_decide, eq_msbOf_iff hd]
    exact (narrowed_sub_one_ne_iff (narrowed_signedOf sz d)).symm

theorem incOp_eq : incOp sz f d = (carried sz (signedOf sz d + 1), exactFlags sz (signedOf sz d + 1) f.c) := by
  have hres : (d + 1) &&& maskOf sz = carried sz (signedOf sz d + 1) :=
    (add_and_maskOf sz d (bitWord true)).trans (by rw [signedOf_bitWord]; rfl)
  rw [incOp, hres]
  exact congrArg (Prod.mk _) (flags_eq_exactFlags ((Bool.and_true _).symm.trans (overflow_add_carry hd true)) _)

theorem decOp_eq : decOp sz f d = (carried sz (signedOf sz d - 1), exactFlags sz (signedOf sz d - 1) f.c) := by
  have hres : (d - 1) &&& maskOf sz = carried sz (signedOf sz d - 1) :=
    (sub_and_maskOf sz d (bitWord true)).trans (by rw [signedOf_bitWord]; rfl)
  rw [decOp, hres]
  exact congrArg (Prod.mk _) (flags_eq_exactFlags ((Bool.and_true _).symm.trans (overflow_sub_carry hd true)) _)

theorem negOp_eq : negOp sz f d = (carried sz (-signedOf sz d), exactFlags sz (-signedOf sz d) (decide (d ≠ 0#16))) := by
  have hx := narrowed_signedOf sz d
  have hres : (0 - d) &&& maskOf sz = carried sz (-signedOf sz d) := by
    refine (sub_and_maskOf sz (bitWord false) d).trans ?_
    rw [signedOf_bitWord]
    exact congrArg (carried sz) (Int.zero_sub _)
  have hv : decide (carried sz (-signedOf sz d) = msbOf sz) = decide (narrowed sz (-signedOf sz d) ≠ -signedOf sz d) := by
    rw [decide_eq_decide, eq_msbOf_iff (toNat_carried_lt sz _), signedOf_carried]
    exact (narrowed_neg_ne_iff hx).symm
  have hc : (!isZero (carried sz (-signedOf sz d))) = decide (d ≠ 0#16) := by
    rw [isZero_carried, ← decide_not, decide_eq_decide, narrowed_neg_eq_zero_iff hx, ← eq_zero_iff_signedOf hd]
  rw [negOp, hres, hc]
  exact congrArg (Prod.mk _) (flags_eq_exactFlags hv _)

theorem adcOp_eq :
    let c : Nat := if f.c then 1 else 0
    adcOp sz f d = (carried sz (signedOf sz d + c), exactFlags sz (signedOf sz d + c) (decide (2 ^ widthOf sz ≤ d.toNat + c))) := by
  intro c
  have hc : (decide (d = maskOf sz) && f.c) = decide (2 ^ widthOf sz ≤ d.toNat + c) := by
    have hones : d = maskOf sz ↔ 2 ^ widthOf sz ≤ d.toNat + 1 := by
      rw [← BitVec.toNat_inj, toNat_maskOf]
      omega
    cases hf : f.c with
    | false => simp [c, hf, hd]
    | true => simp only [c, hf, hones, Bool.and_true, if_true]
  rw [adcOp, add_and_maskOf, signedOf_bitWord, hc]
  exact congrArg (Prod.mk _) (flags_eq_exactFlags (overflow_add_carry hd f.c) _)

theorem sbcOp_eq :
    let c : Nat := if f.c then 1 else 0
    sbcOp sz f d = (carried sz (signedOf sz d - c), exactFlags sz (signedOf sz d - c) (decide (d.toNat < c))) := by
  intro c
  have hc : (isZero d && f.c) = decide (d.toNat < c) := by
    have hzero : d = 0#16 ↔ d.toNat < 1 := by
      rw [← BitVec.toNat_inj, Nat.lt_one_iff]
      rfl
    cases hf : f.c with
    | false => simp [c, hf]
    | true => simp only [c, hf, isZero, hzero, Bool.and_true, if_true]
  rw [sbcOp, sub_and_maskOf, signedOf_bitWord, hc]
  exact congrArg (Prod.mk _) (flags_eq_exactFlags (overflow_sub_carry hd f.c) _)

end

/-! ### ROR, ROL, ASR, ASL (R209 to R212) -/

theorem shiftFlags_eq_rotateFlags (sz : Size) (res : Word) (out : Bool) : shiftFlags sz res out = rotateFlags sz res out := by
  rw [shiftFlags, signBit_eq_neg]
  rfl

theorem getLsbD_zero_eq_odd (d : Word) : d.getLsbD 0 = decide (d.toNat % 2 = 1) :=
  Nat.testBit_zero _

theorem and_msbOf (sz : Size) (d : Word) : d &&& msbOf sz = if signBit sz d then msbOf sz else 0 := by
  cases sz with
  | byte => exact BitVec.and_twoPow d 7
  | word => exact BitVec.and_twoPow d 15

/-- The place of the bit brought in at the right is free in the doubled value. -/
theorem shiftLeft_or_bitWord (d : Word) (b : Bool) : d <<< 1 ||| bitWord b = BitVec.ofNat 16 (2 * d.toNat + if b then 1 else 0) := by
  have hfree : d <<< 1 &&& bitWord b = 0#16 := by
    cases b with
    | false => exact BitVec.and_zero
    | true => simp [bitWord, BitVec.and_one_eq_setWidth_ofBool_getLsbD]
  apply BitVec.eq_of_toNat_eq
  rw [← BitVec.add_eq_or_of_and_eq_zero _ _ hfree, BitVec.toNat_add, BitVec.toNat_shiftLeft, Nat.shiftLeft_eq,
    BitVec.toNat_ofNat, pow_one, Nat.mod_add_mod, mul_comm]
  cases b <;> rfl

theorem shiftLeft_and_maskOf (sz : Size) (d : Word) : d <<< 1 &&& maskOf sz = carried sz (2 * signedOf sz d) := by
  apply and_maskOf_eq_carried
  rw [Int.mul_emod, signedOf_emod, ← Int.mul_emod, BitVec.toNat_shiftLeft, Nat.shiftLeft_eq]
  cases sz <;> simp only [widthOf] <;> omega

theorem rolOp_eq {sz : Size} {d : Word} (hd : d.toNat < 2 ^ widthOf sz) (f : CC) :
    let res := BitVec.ofNat 16 ((2 * d.toNat + if f.c then 1 else 0) % 2 ^ widthOf sz)
    rolOp sz f d = (res, rotateFlags sz res (decide (2 ^ widthOf sz ≤ 2 * d.toNat))) := by
  have hwidth : (2 : Nat) ^ widthOf sz ∣ 2 ^ 16 := pow_dvd_pow 2 (by cases sz <;> decide)
  rw [rolOp, shiftLeft_or_bitWord, and_maskOf, BitVec.toNat_ofNat, Nat.mod_mod_of_dvd _ hwidth, signBit_eq_le hd,
    shiftFlags_eq_rotateFlags]

theorem aslOp_eq (sz : Size) (f : CC) (d : Word) :
    let res := carried sz (2 * signedOf sz d)
    aslOp sz f d = (res, rotateFlags sz res (decide (signedOf sz d < 0))) := by
  rw [aslOp, shiftLeft_and_maskOf, shiftFlags_eq_rotateFlags, signBit_eq_neg]

section
variable {sz : Size} {d : Word} (hd : d.toNat < 2 ^ widthOf sz) (f : CC)
include hd

/-- The value halved leaves the place of the bit brought in at the left free. -/
theorem msbOf_or_half (b : Bool) : (if b then msbOf sz else 0) ||| d >>> 1 =
    BitVec.ofNat 16 ((d.toNat + 2 ^ widthOf sz * if b then 1 else 0) / 2) := by
  have hhalf : d.toNat / 2 < 2 ^ (widthOf sz - 1) := by cases sz <;> simp only [widthOf] at * <;> omega
  have htop : (if b then msbOf sz else 0).toNat = 2 ^ (widthOf sz - 1) * if b then 1 else 0 := by
    cases sz <;> cases b <;> rfl
  apply BitVec.eq_of_toNat_eq
  rw [BitVec.toNat_or, htop, BitVec.toNat_ushiftRight, Nat.shiftRight_eq_div_pow, pow_one,
    ← Nat.two_pow_add_eq_or_of_lt hhalf, BitVec.toNat_ofNat]
  cases sz <;> simp only [widthOf] at * <;> split <;> omega

theorem rorOp_eq :
    let res := BitVec.ofNat 16 ((d.toNat + 2 ^ widthOf sz * if f.c then 1 else 0) / 2)
    rorOp sz f d = (res, rotateFlags sz res (decide (d.toNat % 2 = 1))) := by
  rw [rorOp, msbOf_or_half hd, getLsbD_zero_eq_odd, shiftFlags_eq_rotateFlags]

/-- Keeping the sign bit halves the signed value, rounding down. -/
theorem sign_or_half : d &&& msbOf sz ||| d >>> 1 = carried sz (signedOf sz d / 2) := by
  have hsign := signBit_eq_le hd
  rw [and_msbOf, msbOf_or_half hd, carried, signedOf_eq_bmod, ← BitVec.ofInt_natCast]
  congr 1
  cases hb : signBit sz d with
  | false =>
    have hlow := of_decide_eq_false (hsign.symm.trans hb)
    rw [if_neg Bool.false_ne_true]
    cases sz <;> simp only [widthOf, Int.bmod_def] at * <;> omega
  | true =>
    have hhigh := of_decide_eq_true (hsign.symm.trans hb)
    rw [if_pos rfl]
    cases sz <;> simp only [widthOf, Int.bmod_def] at * <;> omega

theorem asrOp_eq :
    let res := carried sz (signedOf sz d / 2)
    asrOp sz f d = (res, rotateFlags sz res (decide (signedOf sz d % 2 = 1))) := by
  have hodd : d.toNat % 2 = 1 ↔ signedOf sz d % 2 = 1 := by
    rw [signedOf_eq_bmod]
    cases sz <;> simp only [widthOf, Int.bmod_def] at * <;> omega
  rw [asrOp, sign_or_half hd, getLsbD_zero_eq_odd, decide_eq_decide.mpr hodd, shiftFlags_eq_rotateFlags]

end

/-! ### SWAB (R225) -/

theorem append_swapped_bytes (d : Word) :
    (lowByte d ++ highByte d : Word) = BitVec.ofNat 16 (d.toNat % 256 * 256 + d.toNat / 256) := by
  apply BitVec.eq_of_toNat_eq
  rw [BitVec.toNat_append, ← Nat.shiftLeft_add_eq_or_of_lt (highByte d).isLt, Nat.shiftLeft_eq, toNat_lowByte, toNat_highByte,
    BitVec.toNat_ofNat]
  omega

theorem swabOp_eq (f : CC) (d : Word) : swabOp f d = (BitVec.ofNat 16 (d.toNat % 256 * 256 + d.toNat / 256),
    ⟨decide (0o200 ≤ d.toNat / 256), decide (d.toNat / 256 = 0), false, false⟩) := by
  have hlow : lowByte (lowByte d ++ highByte d : Word) = highByte d := lowByte_append _ _
  have hn : signBit .byte (lowByte d ++ highByte d : Word) = decide (0o200 ≤ d.toNat / 256) := by
    rw [signBit_eq_neg, signedOf, hlow, ← BitVec.msb_eq_toInt, BitVec.msb_eq_decide, toNat_highByte]
  have hz : decide (lowByte (lowByte d ++ highByte d : Word) = 0#8) = decide (d.toNat / 256 = 0) := by
    rw [decide_eq_decide, hlow, ← BitVec.toNat_inj, toNat_highByte]
    rfl
  rw [← append_swapped_bytes, ← hn, ← hz]
  rfl

end Sys2Proof.Machine
end

section
/-! The single-operand instructions once their operand is read, or resolved (42_single_operand.md R201 to R207, R209 to R212, R224,
R225). -/

namespace Sys2Proof.Machine

section
variable {word byte : Instr} {dst : Operand} {sz : Size} {s u t : State} {d res : Word} {dl : Loc} {f : CC}

/-- The flags of an instruction that reads its operand are written before its result (70_reset_and_hazards.md R389). -/
theorem modifySingle_of_start (h : destAndOld dst sz s = .ok (dl, d) u) {op : CC → Word → Word × CC} (hop : op s.cc d = (res, f)) :
    modifySingle sz op dst s = writeLoc dl sz res (u.setCC f) := by
  refine (bind_of_ok h).trans ((bind_of_ok (getCC_of_operandRun (destAndOld_ok h).1)).trans ?_)
  rw [hop]
  rfl

/-- The same where the operand is only resolved (R389). -/
theorem setSingle_of_resolve (h : resolve dst sz s = .ok dl u) {op : CC → Word × CC} (hop : op s.cc = (res, f)) :
    setSingle sz op dst s = writeLoc dl sz res (u.setCC f) := by
  refine (bind_of_ok h).trans ((bind_of_ok (getCC_of_operandRun (resolve_ok h).1)).trans ?_)
  rw [hop]
  rfl

/-- An instruction of both lengths that writes its result over the operand completes where the write does. -/
theorem exec_form_modifySingle {op : Size → CC → Word → Word × CC} (hword : bodyOf word = modifySingle .word (op .word) dst)
    (hbyte : bodyOf byte = modifySingle .byte (op .byte) dst) (h : destAndOld dst sz s = .ok (dl, d) u)
    (hop : op sz s.cc d = (res, f)) (hwrite : writeLoc dl sz res (u.setCC f) = .ok () t) : exec (form sz word byte) s = .next t := by
  apply exec_of_ok
  rw [bodyOf_form (x := fun sz => modifySingle sz (op sz) dst) hword hbyte, modifySingle_of_start h hop, hwrite]

end

/-- Settles O39: what the six operators compute is the exact result, carried, with its flags. -/
theorem singleOperandArithmetic : Obligations.SingleOperandArithmetic :=
  fun sz _ s _ d _ h =>
    have hd := destAndOld_lt h
    ⟨fun _ => exec_form_modifySingle (op := comOp) rfl rfl h (comOp_eq sz s.cc d),
      fun _ => exec_form_modifySingle (op := incOp) rfl rfl h (incOp_eq hd s.cc),
      fun _ => exec_form_modifySingle (op := decOp) rfl rfl h (decOp_eq hd s.cc),
      fun _ => exec_form_modifySingle (op := negOp) rfl rfl h (negOp_eq hd s.cc),
      fun _ => exec_form_modifySingle (op := adcOp) rfl rfl h (adcOp_eq hd s.cc),
      fun _ => exec_form_modifySingle (op := sbcOp) rfl rfl h (sbcOp_eq hd s.cc)⟩

/-- Settles O40: the rotates and shifts are halvings and doublings of the value read. -/
theorem rotateAndShiftResults : Obligations.RotateAndShiftResults :=
  fun sz _ s _ d _ h =>
    have hd := destAndOld_lt h
    ⟨fun _ => exec_form_modifySingle (op := rorOp) rfl rfl h (rorOp_eq hd s.cc),
      fun _ => exec_form_modifySingle (op := rolOp) rfl rfl h (rolOp_eq hd s.cc),
      fun _ => exec_form_modifySingle (op := asrOp) rfl rfl h (asrOp_eq hd s.cc),
      fun _ => exec_form_modifySingle (op := aslOp) rfl rfl h (aslOp_eq sz s.cc d)⟩

/-- Settles O41: CLR and SXT write after the resolution alone, SWAB after the read. -/
theorem clearExtendSwapResults : Obligations.ClearExtendSwapResults := by
  refine fun sz dst s u t d dl => ⟨fun h hwrite => exec_of_ok ?_,
    fun h hwrite => exec_of_ok ((setSingle_of_resolve h (op := sxtOp) rfl).trans hwrite),
    fun h hwrite => exec_of_ok ((modifySingle_of_start h (swabOp_eq s.cc d)).trans hwrite)⟩
  rw [bodyOf_form (x := fun sz => setSingle sz (fun _ => (0, clrFlags)) dst) rfl rfl]
  exact (setSingle_of_resolve h (op := fun _ => (0, clrFlags)) rfl).trans hwrite

end Sys2Proof.Machine
end

section
/-! The results and the flags of MUL, DIV, ASH and ASHC as exact arithmetic (43_eis_register.md R231 to R234). -/

namespace Sys2Proof.Machine

/-! ### The halves of a register pair (R230) -/

theorem toInt_append_words (hi lo : Word) : (hi ++ lo : BitVec 32).toInt = hi.toInt * 65536 + lo.toNat := by
  rw [BitVec.toInt_append, if_neg (by decide), mul_comm]
  rfl

theorem extractLsb'_high_ofInt (e : Int) : (BitVec.ofInt 32 e).extractLsb' 16 16 = BitVec.ofInt 16 (e / 65536) := by
  apply BitVec.eq_of_toNat_eq
  rw [BitVec.extractLsb'_toNat, BitVec.toNat_ofInt, BitVec.toNat_ofInt, Nat.shiftRight_eq_div_pow]
  omega

theorem extractLsb'_low_ofInt (e : Int) : (BitVec.ofInt 32 e).extractLsb' 0 16 = BitVec.ofInt 16 e := by
  apply BitVec.eq_of_toNat_eq
  rw [BitVec.extractLsb'_toNat, BitVec.toNat_ofInt, BitVec.toNat_ofInt, Nat.shiftRight_zero]
  omega

/-! ### MUL (R231) -/

theorem mulFlags_eq (p : Int) : mulFlags p = ⟨decide (p < 0), decide (p = 0), false, decide (p < -32768 ∨ 32767 < p)⟩ := by
  rw [mulFlags, Bool.decide_or]

/-! ### DIV (R232) -/

/-- The division with the remainder of the dividend's sign determines the quotient. -/
theorem tdiv_eq_of_remainder {dd q rem dv : Int} (hdd : dd = q * dv + rem) (hlt : rem.natAbs < dv.natAbs)
    (hsign : 0 ≤ rem * dd) : dd.tdiv dv = q := by
  have hdv : dv ≠ 0 := Int.natAbs_pos.mp (Nat.zero_lt_of_lt hlt)
  have hsum : rem + dv * q = dd := by rw [hdd, mul_comm, add_comm]
  rcases lt_trichotomy dd 0 with hneg | hzero | hpos
  · have hrem : rem ≤ 0 := nonpos_of_mul_nonneg_left hsign hneg
    exact ((Int.tdiv_tmod_unique' hneg.le hdv).mpr ⟨hsum, by omega, hrem⟩).1
  · have hrem : rem = 0 := Int.eq_zero_of_dvd_of_natAbs_lt_natAbs ⟨-q, by linarith⟩ hlt
    exact ((Int.tdiv_tmod_unique hzero.ge hdv).mpr ⟨hsum, by omega, by omega⟩).1
  · have hrem : 0 ≤ rem := nonneg_of_mul_nonneg_left hsign hpos
    exact ((Int.tdiv_tmod_unique hpos.le hdv).mpr ⟨hsum, hrem, by omega⟩).1

theorem divOp_zero (dd : BitVec 32) : divOp dd 0#16 = (⟨false, true, true, true⟩, none) := rfl

theorem divOp_of_remainder {dd : BitVec 32} {v : Word} {q rem : Int} (hdd : dd.toInt = q * v.toInt + rem)
    (hlt : rem.natAbs < v.toInt.natAbs) (hsign : 0 ≤ rem * dd.toInt) : divOp dd v =
      if 32767 < q ∨ q < -32768 then (⟨decide (q < 0), false, true, false⟩, none)
      else (⟨decide (q < 0), decide (q = 0), false, false⟩, some (BitVec.ofInt 16 q, BitVec.ofInt 16 rem)) := by
  have hv : v.toInt ≠ 0 := Int.natAbs_pos.mp (Nat.zero_lt_of_lt hlt)
  have hrem : dd.toInt - q * v.toInt = rem := by rw [hdd, add_sub_cancel_left]
  simp only [divOp, if_neg hv, tdiv_eq_of_remainder hdd hlt hsign, hrem]

/-! ### The shift count (R233) -/

theorem shiftCount_eq_bmod (v : Word) : shiftCount v = ((v.toNat % 64 : Nat) : Int).bmod 64 := by
  rw [shiftCount, BitVec.toInt_eq_toNat_bmod, BitVec.extractLsb'_toNat, Nat.shiftRight_zero]

theorem shiftCount_of_lt {v : Word} {n : Nat} (h : v.toNat % 64 = n) (hn : n < 32) : shiftCount v = n := by
  rw [shiftCount_eq_bmod, h]
  exact Int.bmod_eq_of_le_mul_two (by omega) (by omega)

theorem shiftCount_of_le {v : Word} {n : Nat} (h : v.toNat % 64 + n = 64) (hn : n ≤ 32) :
    shiftCount v = -n := by
  rw [shiftCount_eq_bmod, Int.bmod_def]
  omega

/-! ### Single-bit steps (R233) -/

theorem shiftSteps_succ {w : Nat} (one : ShiftAcc w → ShiftAcc w) (n : Nat) (a : ShiftAcc w) :
    shiftSteps one (n + 1) a = one (shiftSteps one n a) := by
  induction n generalizing a with
  | zero => rfl
  | succ n ih => exact ih (one a)

/-- Doubling gives a number that does not fit where the number did not fit, or where the sign changes. -/
theorem bmod_mul_two_ne_iff {m : Nat} (hm : 0 < m) (e : Int) :
    (e * 2).bmod m ≠ e * 2 ↔ e.bmod m ≠ e ∨ ¬ ((e * 2).bmod m < 0 ↔ e.bmod m < 0) := by
  have hfits : ∀ y : Int, y.bmod m = y ↔ -m ≤ y * 2 ∧ y * 2 < m := fun y => by
    have hle := Int.le_bmod (x := y) hm
    have hlt := Int.bmod_lt (x := y) hm
    exact ⟨fun h => by omega, fun h => Int.bmod_eq_of_le_mul_two h.1 h.2⟩
  by_cases he : e.bmod m = e
  · obtain ⟨hlo, hhi⟩ := (hfits e).mp he
    rw [ne_eq, hfits, he, Int.bmod_neg_iff hlo hhi]
    omega
  · have hout := (hfits e).not.mp he
    exact iff_of_true (by rw [ne_eq, hfits]; omega) (.inl he)

section
variable {w : Nat} (x : BitVec w)

/-! ### Left: a multiplication, V where it does not fit -/

theorem shiftLeft_eq_ofInt (n : Nat) : x <<< n = BitVec.ofInt w (x.toInt * 2 ^ n) := by
  have hpow : BitVec.ofInt w (2 ^ n) = BitVec.twoPow w n := by
    rw [← Nat.cast_ofNat, ← Nat.cast_pow, BitVec.ofInt_natCast]
    exact BitVec.eq_of_toNat_eq (by rw [BitVec.toNat_ofNat, BitVec.toNat_twoPow])
  rw [BitVec.shiftLeft_eq_mul_twoPow, BitVec.ofInt_mul, BitVec.ofInt_toInt, hpow]

theorem msb_shiftLeft_eq_neg (n : Nat) : (x <<< n).msb = decide ((x.toInt * 2 ^ n).bmod (2 ^ w) < 0) := by
  rw [shiftLeft_eq_ofInt, BitVec.msb_eq_toInt, BitVec.toInt_ofInt]

/-- The sign bit of the value so far is the bit the next step shifts out. -/
theorem msb_shiftLeft_eq_getLsbD (n : Nat) :
    (x <<< n).msb = (decide (0 < n + 1 ∧ n + 1 ≤ w) && x.getLsbD (w - (n + 1))) := by
  have hin : n < w ↔ 0 < n + 1 ∧ n + 1 ≤ w := by omega
  rw [BitVec.msb_shiftLeft, BitVec.getMsbD_eq_getLsbD, Nat.sub_sub, Nat.add_comm 1, decide_eq_decide.mpr hin]

theorem shiftSteps_left (n : Nat) : let e := x.toInt * 2 ^ n
    shiftSteps shiftLeftOne n ⟨x, false, false⟩ =
      ⟨x <<< n, decide (e.bmod (2 ^ w) ≠ e), decide (0 < n ∧ n ≤ w) && x.getLsbD (w - n)⟩ := by
  induction n with
  | zero => simp [shiftSteps, ← BitVec.toInt_ofInt]
  | succ n ih =>
    have hv : let e := x.toInt * 2 ^ n
        (decide (e.bmod (2 ^ w) ≠ e) || Bool.xor (x <<< (n + 1)).msb (x <<< n).msb) =
          decide ((e * 2).bmod (2 ^ w) ≠ e * 2) := by
      rw [msb_shiftLeft_eq_neg, msb_shiftLeft_eq_neg, pow_succ, ← mul_assoc, Bool.eq_iff_iff, decide_eq_true_iff,
        bmod_mul_two_ne_iff (Nat.two_pow_pos w)]
      simp
    rw [shiftSteps_succ, ih, shiftLeftOne, ← BitVec.shiftLeft_add, hv, msb_shiftLeft_eq_getLsbD, pow_succ, mul_assoc]

/-! ### Right: a division rounded down -/

theorem toInt_sshiftRight_eq_div (n : Nat) : (x.sshiftRight n).toInt = x.toInt / 2 ^ n := by
  rw [BitVec.toInt_sshiftRight, Int.shiftRight_eq_div_pow, Nat.cast_pow, Nat.cast_ofNat]

theorem getLsbD_zero_eq_odd_toInt : x.getLsbD 0 = decide (x.toInt % 2 = 1) := by
  have hodd : x.toNat % 2 = 1 ↔ x.toInt % 2 = 1 := by
    have hlt := x.isLt
    rw [BitVec.toInt_eq_toNat_cond]
    cases w with
    | zero => split <;> omega
    | succ w => rw [pow_succ] at *; split <;> omega
  rw [← decide_eq_decide.mpr hodd]
  exact Nat.testBit_zero _

theorem shiftSteps_right (n : Nat) :
    shiftSteps shiftRightOne (n + 1) ⟨x, false, false⟩ =
      ⟨x.sshiftRight (n + 1), false, decide (x.toInt / 2 ^ n % 2 = 1)⟩ := by
  rw [← toInt_sshiftRight_eq_div, ← getLsbD_zero_eq_odd_toInt]
  induction n with
  | zero => rw [BitVec.sshiftRight_zero]; rfl
  | succ n ih => rw [shiftSteps_succ, ih, BitVec.sshiftRight_add (m := n + 1)]; rfl

/-! ### The shift by a signed count -/

theorem shiftOp_natCast (n : Nat) : shiftOp x n = shiftSteps shiftLeftOne n ⟨x, false, false⟩ := by
  cases n with
  | zero => rfl
  | succ n => rw [shiftOp, if_pos (Int.natCast_pos.mpr n.succ_pos), Int.toNat_natCast]

theorem shiftOp_neg_natCast (n : Nat) : shiftOp x (-n) = shiftSteps shiftRightOne n ⟨x, false, false⟩ := by
  rw [shiftOp, if_neg (by omega), neg_neg, Int.toNat_natCast]

theorem value_shiftOp_left (n : Nat) : (shiftOp x n).value = BitVec.ofInt w (x.toInt * 2 ^ n) := by
  rw [shiftOp_natCast, shiftSteps_left, shiftLeft_eq_ofInt]

theorem flags_shiftOp_left (n : Nat) : let e := x.toInt * 2 ^ n
    (shiftOp x n).flags = ⟨decide (e.bmod (2 ^ w) < 0), decide (e.bmod (2 ^ w) = 0), decide (e.bmod (2 ^ w) ≠ e),
      decide (0 < n ∧ n ≤ w) && x.getLsbD (w - n)⟩ := by
  have hz : x <<< n = 0 ↔ (x.toInt * 2 ^ n).bmod (2 ^ w) = 0 := by
    rw [← BitVec.toInt_inj, shiftLeft_eq_ofInt, BitVec.toInt_ofInt, BitVec.ofNat_eq_ofNat, BitVec.toInt_zero]
  rw [shiftOp_natCast, shiftSteps_left, ShiftAcc.flags, msb_shiftLeft_eq_neg, decide_eq_decide.mpr hz]

section
variable {n : Nat} (hn : 0 < n)
include hn

theorem shiftOp_right : shiftOp x (-n) = ⟨x.sshiftRight n, false, decide (x.toInt / 2 ^ (n - 1) % 2 = 1)⟩ := by
  obtain ⟨k, rfl⟩ := Nat.exists_eq_add_one.mpr hn
  rw [shiftOp_neg_natCast, shiftSteps_right, Nat.add_sub_cancel]

theorem value_shiftOp_right : (shiftOp x (-n)).value = BitVec.ofInt w (x.toInt / 2 ^ n) := by
  rw [shiftOp_right x hn, ← toInt_sshiftRight_eq_div x n, BitVec.ofInt_toInt]

theorem flags_shiftOp_right : (shiftOp x (-n)).flags =
    ⟨decide (x.toInt < 0), decide (x.toInt / 2 ^ n = 0), false, decide (x.toInt / 2 ^ (n - 1) % 2 = 1)⟩ := by
  have hz : x.sshiftRight n = 0 ↔ x.toInt / 2 ^ n = 0 := by
    rw [← BitVec.toInt_inj, toInt_sshiftRight_eq_div, BitVec.ofNat_eq_ofNat, BitVec.toInt_zero]
  rw [shiftOp_right x hn, ShiftAcc.flags, BitVec.msb_sshiftRight, BitVec.msb_eq_toInt, decide_eq_decide.mpr hz]

end

end

end Sys2Proof.Machine
end

section
/-! MUL, DIV, ASH and ASHC once their source is read (43_eis_register.md R230 to R234). -/

namespace Sys2Proof.Machine

/-! ### The register pair (R230) -/

theorem State.setReg_setReg_same (s : State) (r : Reg) (v w : Word) : (s.setReg r v).setReg r w = s.setReg r w := by
  rw [State.setReg, State.setReg, State.setReg, Vector.set_set]

theorem partner_eq {r low : Reg} (h : low.val = r.val / 2 * 2 + 1) : partner r = low := by
  rw [partner]
  split
  · apply Fin.ext
    rw [Fin.val_ofNat]
    omega
  · apply Fin.ext
    omega

theorem putPair_ofInt (r : Reg) (e : Int) (s : State) :
    putPair r ((BitVec.ofInt 32 e).extractLsb' 16 16) ((BitVec.ofInt 32 e).extractLsb' 0 16) s =
      .ok () ((s.setReg r (BitVec.ofInt 16 (e / 65536))).setReg (partner r) (BitVec.ofInt 16 e)) := by
  rw [putPair_apply, extractLsb'_high_ofInt, extractLsb'_low_ofInt]

/-! ### The pseudocodes after the read of the source -/

section
variable {reg : Reg} {src : Operand} {s u : State} {v : Word} (h : sourceValue src .word s = .ok v u)
include h

theorem mulBody_of_source : let p := (u.reg reg).toInt * v.toInt
    let f : CC := ⟨decide (p < 0), decide (p = 0), false, decide (p < -32768 ∨ 32767 < p)⟩
    mulBody reg src s =
      .ok () (((u.setCC f).setReg reg (BitVec.ofInt 16 (p / 65536))).setReg (partner reg) (BitVec.ofInt 16 p)) := by
  intro p f
  have hf : mulFlags p = f := mulFlags_eq p
  rw [← hf]
  exact (bind_of_ok h).trans (putPair_ofInt reg p _)

theorem divBody_of_flags {f : CC} (hop : divOp (u.reg reg ++ u.reg (partner reg)) v = (f, none)) :
    divBody reg src s = .ok () (u.setCC f) := by
  refine (bind_of_ok h).trans ((bind_of_ok (getPair_apply _ _)).trans ?_)
  rw [hop]
  rfl

theorem divBody_of_quotient {f : CC} {q rem : Word} (hop : divOp (u.reg reg ++ u.reg (partner reg)) v = (f, some (q, rem))) :
    divBody reg src s = .ok () (((u.setCC f).setReg reg q).setReg (partner reg) rem) := by
  refine (bind_of_ok h).trans ((bind_of_ok (getPair_apply _ _)).trans ?_)
  rw [hop]
  rfl

theorem ashBody_of_source {f : CC} {res : Word} (hres : (shiftOp (u.reg reg) (shiftCount v)).value = res)
    (hf : (shiftOp (u.reg reg) (shiftCount v)).flags = f) : ashBody reg src s = .ok () ((u.setCC f).setReg reg res) := by
  rw [← hres, ← hf]
  exact bind_of_ok h

theorem ashcBody_of_source {f : CC} {e : Int}
    (hres : (shiftOp (u.reg reg ++ u.reg (partner reg)) (shiftCount v)).value = BitVec.ofInt 32 e)
    (hf : (shiftOp (u.reg reg ++ u.reg (partner reg)) (shiftCount v)).flags = f) : ashcBody reg src s =
      .ok () (((u.setCC f).setReg reg (BitVec.ofInt 16 (e / 65536))).setReg (partner reg) (BitVec.ofInt 16 e)) := by
  rw [← putPair_ofInt, ← hres, ← hf]
  exact bind_of_ok h

end

/-! ### The results -/

/-- Settles O42: an odd register is its own partner, so that the low word overwrites the high word. -/
theorem multiplyResult : Obligations.MultiplyResult := by
  intro reg src s u v h p f
  have hbody := mulBody_of_source (reg := reg) h
  refine ⟨fun hodd => exec_of_ok (hbody.trans ?_), fun odd heven hnext => exec_of_ok (hbody.trans ?_)⟩
  · rw [partner_eq (low := reg) (by omega), State.setReg_setReg_same]
  · rw [partner_eq (low := odd) (by omega)]

/-- Settles O43: the division's quotient and remainder are those of the model's division rounded toward zero. -/
theorem divideResult : Obligations.DivideResult := by
  intro reg low src s u v h hlow dd
  obtain rfl := partner_eq hlow
  refine ⟨?_, fun q rem hdd hlt hsign => ?_⟩
  · rintro rfl
    exact exec_of_ok (divBody_of_flags h (divOp_zero _))
  · have hdividend : (u.reg reg ++ u.reg (partner reg)).toInt = dd := toInt_append_words _ _
    rw [← hdividend] at hdd hsign
    have hop := divOp_of_remainder hdd hlt hsign
    refine ⟨fun hfits => exec_of_ok (divBody_of_quotient h ?_), fun hout => exec_of_ok (divBody_of_flags h ?_)⟩
    · rw [hop, if_neg (by omega)]
    · rw [hop, if_pos hout.symm]

/-- Settles O44: the single-bit steps left are a multiplication by 2^n, those right a division rounded down. -/
theorem arithmeticShiftResult : Obligations.ArithmeticShiftResult := by
  intro reg src s u v n h x
  refine ⟨fun hcount hlt => ?_, fun hcount hpos hle => ?_⟩
  · have hn := shiftCount_of_lt hcount hlt
    apply exec_of_ok
    apply ashBody_of_source h
    · rw [hn, value_shiftOp_left]
    · rw [hn, flags_shiftOp_left]
      rfl
  · have hn := shiftCount_of_le hcount hle
    apply exec_of_ok
    apply ashBody_of_source h
    · rw [hn, value_shiftOp_right _ hpos]
    · rw [hn, flags_shiftOp_right _ hpos]

/-- Settles O45: the steps of O44 on 32 bits, whose halves are the two words written. -/
theorem combinedShiftResult : Obligations.CombinedShiftResult := by
  intro reg low src s u v n h hlow x put
  obtain rfl := partner_eq hlow
  refine ⟨fun hcount hlt => ?_, fun hcount hpos hle => ?_⟩
  · have hn := shiftCount_of_lt hcount hlt
    have hin : (0 < n ∧ n ≤ 32) ↔ 0 < n := by omega
    apply exec_of_ok
    apply ashcBody_of_source h
    · rw [hn, value_shiftOp_left]
    · rw [hn, flags_shiftOp_left, decide_eq_decide.mpr hin]
  · have hn := shiftCount_of_le hcount hle
    apply exec_of_ok
    apply ashcBody_of_source h
    · rw [hn, value_shiftOp_right _ hpos]
    · rw [hn, flags_shiftOp_right _ hpos]

end Sys2Proof.Machine
end

section
/-! Branches, jumps, subroutine linkage and the loop instruction (44_branch_control.md). -/

namespace Sys2Proof.Machine

/-! ### The distances: twice a signed offset, twice an unsigned count (R240, R259, R260) -/

theorem add_branchOffset (pc : Word) (off : BitVec 8) :
    pc + branchOffset off = BitVec.ofInt 16 (pc.toInt + 2 * off.toInt) := by
  have hoff : branchOffset off = BitVec.ofInt 16 (2 * off.toInt) := by
    rw [branchOffset, shiftLeft_eq_ofInt, BitVec.toInt_signExtend_of_le (by decide), pow_one, mul_comm]
  rw [hoff, BitVec.ofInt_add, BitVec.ofInt_toInt]

theorem countBytes_eq_ofNat (nn : BitVec 6) : countBytes nn = BitVec.ofNat 16 (2 * nn.toNat) := by
  have hlt := nn.isLt
  apply BitVec.eq_of_toNat_eq
  rw [countBytes, BitVec.toNat_shiftLeft, BitVec.toNat_setWidth, BitVec.toNat_ofNat, Nat.shiftLeft_eq]
  omega

/-! ### Branches (R239 to R255) -/

theorem branchIf_apply (cond : CC → Bool) (off : BitVec 8) (s : State) : branchIf cond off s =
    .ok () (if cond s.cc then s.setReg PC (BitVec.ofInt 16 ((s.reg PC).toInt + 2 * off.toInt)) else s) := by
  rw [← add_branchOffset]
  refine (bind_of_ok (getCC_apply s)).trans ?_
  split
  · rfl
  · rfl

/-- A row of the branch table: the word of the opcode byte and the offset is the branch's encoding, and the branch's pseudocode is
the shared shape under the row's condition. -/
theorem branch_row {opcode off : BitVec 8} {i : Instr} {cond : CC → Bool} {taken : Bool} {s : State}
    (hword : opcode ++ off = encode i) (hbody : bodyOf i = branchIf cond off) (hcond : cond s.cc = taken) :
    decode (opcode ++ off) = .ok i ∧
      exec i s = .next (if taken then s.setReg PC (BitVec.ofInt 16 ((s.reg PC).toInt + 2 * off.toInt)) else s) := by
  refine ⟨hword ▸ decodeOfEncode i, exec_of_ok ?_⟩
  rw [hbody, branchIf_apply, hcond]

/-- Settles O46: the fifteen rows of the table. BGE's condition is the only one written in another form, N xor V = 0. -/
theorem branchResults : Obligations.BranchResults := by
  intro off s n z v c branches
  have bge : (!(n != v)) = (n == v) := Bool.not_not _
  exact ⟨branch_row rfl rfl rfl, branch_row rfl rfl rfl, branch_row rfl rfl rfl, branch_row rfl rfl bge,
    branch_row rfl rfl rfl, branch_row rfl rfl rfl, branch_row rfl rfl rfl, branch_row rfl rfl rfl, branch_row rfl rfl rfl,
    branch_row rfl rfl rfl, branch_row rfl rfl rfl, branch_row rfl rfl rfl, branch_row rfl rfl rfl, branch_row rfl rfl rfl,
    branch_row rfl rfl rfl⟩

/-! ### The stack and the address operand, once their access succeeds (R8, R161) -/

theorem push_apply (v : Word) (s : State) :
    push v s = memWriteAs s.cm (s.reg SP - 2) .word v (s.setReg SP (s.reg SP - 2)) := rfl

theorem pop_of_read {s u : State} {sp w : Word} (hsp : s.reg SP = sp) (h : memReadAs s.cm sp .word s = .ok w u) :
    pop s = .ok w (u.setReg SP (sp + 2)) := by
  subst hsp
  exact (bind_of_ok (getReg_apply SP s)).trans (bind_of_ok h)

theorem resolve_memLoc_of_memory {α : Type} {o : Operand} {s u : State} {a : Word} (h : resolve o .word s = .ok (.mem a) u)
    (f : Word → Exec α) : (resolve o .word >>= fun l => memLoc l >>= f) s = f a u :=
  (bind_of_ok h).trans (bind_of_ok (memLoc_mem_apply a u))

/-! ### SOB and JMP (R256, R260) -/

theorem sobBody_apply (reg : Reg) (nn : BitVec 6) (s : State) : let t := s.setReg reg (s.reg reg - 1)
    sobBody reg nn s =
      .ok () (if s.reg reg - 1 = 0#16 then t else t.setReg PC (t.reg PC - BitVec.ofNat 16 (2 * nn.toNat))) := by
  intro t
  have hreg : t.reg reg = s.reg reg - 1 := by rw [State.reg_setReg, if_pos rfl]
  rw [← countBytes_eq_ofNat, ← hreg]
  refine (bind_of_ok (getReg_apply _ _)).trans ((bind_of_ok (putReg_apply _ _ _)).trans ((bind_of_ok (getReg_apply _ _)).trans ?_))
  split
  · rfl
  · rfl

/-- Settles O47: SOB's pseudocode ends in every state, JMP's once its operand resolves to an address. -/
theorem loopAndJumpResults : Obligations.LoopAndJumpResults :=
  ⟨fun reg nn s => exec_of_ok (sobBody_apply reg nn s),
    fun dst _ _ _ h => exec_of_ok (i := .jmp dst) (resolve_memLoc_of_memory h _)⟩

/-! ### JSR, RTS and MARK (R257, R258, R259) -/

theorem jsrBody_of_push {reg : Reg} {dst : Operand} {s u t : State} {a : Word} (haddr : resolve dst .word s = .ok (.mem a) u)
    (hpush : push (u.reg reg) u = .ok () t) : jsrBody reg dst s = .ok () ((t.setReg reg (t.reg PC)).setReg PC a) :=
  (resolve_memLoc_of_memory haddr _).trans ((bind_of_ok (getReg_apply reg u)).trans (bind_of_ok hpush))

theorem rtsBody_of_pop {reg : Reg} {s t : State} {w : Word} (hpop : pop (s.setReg PC (s.reg reg)) = .ok w t) :
    rtsBody reg s = .ok () (t.setReg reg w) :=
  (bind_of_ok (getReg_apply reg s)).trans ((bind_of_ok (putReg_apply _ _ _)).trans (bind_of_ok hpop))

theorem markBody_of_pop {nn : BitVec 6} {s t : State} {w : Word}
    (hpop : pop ((s.setReg SP (s.reg PC + BitVec.ofNat 16 (2 * nn.toNat))).setReg PC (s.reg 5)) = .ok w t) :
    markBody nn s = .ok () (t.setReg 5 w) := by
  have hlink (sp : Word) : (s.setReg SP sp).reg 5 = s.reg 5 := by rw [State.reg_setReg, if_neg (by decide)]
  rw [← countBytes_eq_ofNat, ← hlink (s.reg PC + countBytes nn)] at hpop
  exact (bind_of_ok (getReg_apply PC s)).trans ((bind_of_ok (putReg_apply _ _ _)).trans
    ((bind_of_ok (getReg_apply 5 _)).trans ((bind_of_ok (putReg_apply _ _ _)).trans (bind_of_ok hpop))))

/-- Settles O48: JSR's link register is read before its push; neither RTS nor MARK moves, by its jump, the stack pointer from which
it then pops. -/
theorem subroutineLinkageResults : Obligations.SubroutineLinkageResults := by
  have jump_keeps_sp (s : State) (v : Word) : (s.setReg PC v).reg SP = s.reg SP := by
    rw [State.reg_setReg, if_neg (by decide)]
  refine ⟨?jsr, ?rts, ?mark⟩
  case jsr =>
    intro reg dst s u t a haddr hpush
    exact exec_of_ok (jsrBody_of_push haddr ((push_apply _ _).trans hpush))
  case rts =>
    intro reg s u w hread
    exact exec_of_ok (rtsBody_of_pop (pop_of_read (jump_keeps_sp s _) hread))
  case mark =>
    intro nn s u w sp hread
    have hsp : ((s.setReg SP sp).setReg PC (s.reg 5)).reg SP = sp := by
      rw [jump_keeps_sp, State.reg_setReg, if_pos rfl]
    exact exec_of_ok (markBody_of_pop (pop_of_read hsp hread))

end Sys2Proof.Machine
end

section
/-! The condition-code operators and the privileged instructions (45_trap_system.md R289 to R292, R296). -/

namespace Sys2Proof.Machine

/-! ### The condition-code operators (10_state.md R25, R30) -/

/-- A PSW whose low four bits were replaced, bit by bit. -/
theorem State.bit_setLow (s : State) (b : BitVec 4) (k : Nat) :
    (s.setLow b).psw.getLsbD k = if k < 4 then b.getLsbD k else s.psw.getLsbD k := by
  refine (bit_high_low _ b k).trans ?_
  split
  · rfl
  · next h =>
    rw [BitVec.getLsbD_extractLsb', Nat.add_sub_cancel' (Nat.not_lt.mp h)]
    by_cases hk : k < 16
    · simp [show k - 4 < 12 by omega]
    · simp [BitVec.getLsbD_of_ge s.psw k (by omega)]

/-- Settles O51: both operators replace the low four bits of the PSW, as setCC does, by the old ones cleared or set under the mask. -/
theorem conditionCodeOperators : Obligations.ConditionCodeOperators := by
  refine ⟨fun f s => ?codes, fun mask s => ?operators⟩
  case codes =>
    have hcodes : CC.ofPsw (s.setCC f).psw = f := s.cc_setCC f
    exact ⟨(s.setCC f).psw, rfl, rfl, congrArg CC.n hcodes, congrArg CC.z hcodes, congrArg CC.v hcodes, congrArg CC.c hcodes,
      fun k hk => (s.bit_setLow _ k).trans (if_neg (Nat.not_lt.mpr hk))⟩
  case operators =>
    let old := s.psw.extractLsb' 0 4
    refine ⟨(s.setLow (old &&& ~~~mask)).psw, (s.setLow (old ||| mask)).psw, exec_of_ok rfl, exec_of_ok rfl, fun k _ => ?_⟩
    rw [State.bit_setLow, State.bit_setLow]
    by_cases hk : k < 4
    · simp [old, hk]
    · simp [hk]

/-! ### The privileged instructions (60_exceptions.md R345) -/

theorem ifKernel_of_kernel {s : State} (h : s.cm = 0#2) (x y : Exec Unit) : ifKernel x y s = x s := if_pos h

theorem ifKernel_of_not_kernel {s : State} (h : s.cm ≠ 0#2) (x y : Exec Unit) : ifKernel x y s = y s := if_neg h

/-- Settles O30: outside kernel mode HALT and WAIT raise at VEC_ILL, RESET and SPL run nothing. -/
theorem privilegedOutsideKernel : Obligations.PrivilegedOutsideKernel :=
  fun _ n h => ⟨exec_of_trap (i := .halt) (ifKernel_of_not_kernel h _ _), exec_of_trap (i := .wait) (ifKernel_of_not_kernel h _ _),
    exec_of_ok (i := .reset) (ifKernel_of_not_kernel h _ _), exec_of_ok (i := .spl n) (ifKernel_of_not_kernel h _ _)⟩

/-- Settles O31: in kernel mode each runs its one statement, and SPL's writes the priority field alone. -/
theorem privilegedInKernel : Obligations.PrivilegedInKernel :=
  fun s n h => ⟨exec_of_ok (i := .halt) (ifKernel_of_kernel h _ _), exec_of_ok (i := .wait) (ifKernel_of_kernel h _ _),
    exec_of_ok (i := .reset) (ifKernel_of_kernel h _ _), (s.setPri n).psw, exec_of_ok (i := .spl n) (ifKernel_of_kernel h _ _),
    s.pri_setPri n, s.extract_setPri n 8 8 (by decide) (by decide), s.extract_setPri n 0 5 (by decide) (by decide)⟩

end Sys2Proof.Machine
end

section
/-! The return from a trap, and the moves between the spaces of the current and the previous mode (45_trap_system.md R287, R288, R294,
R295). -/

namespace Sys2Proof.Machine

/-! ### RTI and RTT (R287, R288) -/

theorem State.setReg_setReg (s : State) (n : Reg) (v w : Word) : (s.setReg n v).setReg n w = s.setReg n w := by
  simp [State.setReg]

/-- The second of two pops takes the word above the first one's, and SP ends 4 higher. -/
theorem pop_of_popped {s : State} (h : (s.setReg SP (s.reg SP + 2)).canPop) :
    pop (s.setReg SP (s.reg SP + 2)) = .ok (s.loadWord s.cm (s.reg SP + 2)) (s.setReg SP (s.reg SP + 4)) := by
  have hsp : s.reg SP + 2 + 2 = s.reg SP + 4 := by rw [BitVec.add_assoc]; rfl
  rw [pop_of_canPop h, State.reg_setReg, if_pos rfl, State.setReg_setReg, State.cm_setReg, State.loadWord_setReg, hsp]

theorem returnFromTrap_of_canPop {s : State} (hpc : s.canPop) (hpsw : (s.setReg SP (s.reg SP + 2)).canPop) :
    returnFromTrap s = .ok () (((s.setReg SP (s.reg SP + 4)).setReg PC (s.loadWord s.cm (s.reg SP))).setPsw
      (returnPsw s.psw (s.loadWord s.cm (s.reg SP + 2)))) :=
  (bind_of_ok (pop_of_canPop hpc)).trans (bind_of_ok (pop_of_popped hpsw))

theorem returnPsw_of_kernel {s : State} (h : s.cm = 0#2) (npsw : Word) : returnPsw s.psw npsw = npsw := if_pos h

theorem returnPsw_of_not_kernel {s : State} (h : s.cm ≠ 0#2) (npsw : Word) :
    returnPsw s.psw npsw = (s.psw &&& 0o177740#16) ||| (npsw &&& 0o000037#16) :=
  (if_neg h).trans (userReturnPsw_eq _ _)

/-- Settles O28: RTI and RTT are one pseudocode, and the mode it starts in decides which PSW it loads. -/
theorem returnRestoresPcAndPsw : Obligations.ReturnRestoresPcAndPsw := by
  intro i s hi hpc hpsw npc npsw
  have hbody : bodyOf i s = returnFromTrap s := by rcases hi with rfl | rfl <;> rfl
  rw [returnFromTrap_of_canPop hpc hpsw] at hbody
  refine ⟨fun hkernel => ?_, fun hother => ?_⟩
  · rw [exec_of_ok hbody, returnPsw_of_kernel hkernel]
  · rw [exec_of_ok hbody, returnPsw_of_not_kernel hother]

/-! ### The flags of a move between spaces: C is the one from before the instruction (R294, R295) -/

theorem putMoveFlags_of_cc {s u : State} (h : u.cc = s.cc) (v : Word) :
    putMoveFlags v u = .ok () (u.setCC (moveFlags .word v s.cc.c)) := by
  rw [putMoveFlags_apply, logicFlags_eq_moveFlags, h]

/-- An operand that resolves to an address is no register (R161). -/
theorem mode_ne_register_of_resolve {o : Operand} {sz : Size} {s u : State} {a : Word} (h : resolve o sz s = .ok (.mem a) u) :
    o.mode ≠ .register :=
  fun hm => nomatch (resolve_of_register hm sz s).symm.trans h

/-! ### MFPI (R294) -/

section
variable {src : Operand} {s u : State} {v : Word}

theorem previousValue_of_sp (hm : src.mode = .register) (hsp : src.reg = SP) : previousValue src s = .ok (s.spOf s.pm) s := by
  rw [previousValue, if_pos hm, if_pos hsp]
  rfl

/-- The operand's address is found in the current mode, its word read in the mode that was previous before the instruction. -/
theorem previousValue_of_resolve {a : Word} (h : resolve src .word s = .ok (.mem a) u) :
    previousValue src s = memReadAs s.pm a .word u := by
  rw [previousValue, if_neg (mode_ne_register_of_resolve h), ← (resolve_ok h).1.quiet.pm]
  exact resolve_memLoc_of_memory h _

/-- Once its value is found, MFPI writes the flags and pushes. -/
theorem mfpiBody_of_value (hv : previousValue src s = .ok v u) (hcc : u.cc = s.cc) : mfpiBody src s =
    memWriteAs u.cm (u.reg SP - 2) .word v ((u.setCC (moveFlags .word v s.cc.c)).setReg SP (u.reg SP - 2)) := by
  rw [← u.cm_setCC (moveFlags .word v s.cc.c)]
  exact (bind_of_ok hv).trans ((bind_of_ok (putMoveFlags_of_cc hcc v)).trans (push_apply _ _))

end

/-- Settles O49: MFPI's value is the previous mode's stack pointer or a word read in that mode, and neither search changes the flags. -/
theorem moveFromPreviousResults : Obligations.MoveFromPreviousResults := by
  refine fun src s u u' t v a => ⟨fun hm hsp hv hpush => ?sp, fun haddr hread hpush => ?memory⟩
  case sp =>
    have hvalue : previousValue src s = .ok v s := hv ▸ previousValue_of_sp hm hsp
    exact exec_of_ok ((mfpiBody_of_value hvalue rfl).trans hpush)
  case memory =>
    have hcc : u'.cc = s.cc := ((resolve_ok haddr).1.quiet.trans (memReadAs_ok hread).1).cc
    exact exec_of_ok ((mfpiBody_of_value ((previousValue_of_resolve haddr).trans hread) hcc).trans hpush)

/-! ### MTPI (R295) -/

theorem pop_quiet {s p : State} {v : Word} (h : pop s = .ok v p) : Quiet s p := by
  obtain ⟨u, -, hquiet, -, rfl⟩ := pop_ok h
  exact hquiet.trans (.setReg _ _ _)

section
variable {dst : Operand} {s p : State} {v : Word} (hpop : pop s = .ok v p)
include hpop

/-- MTPI of R6 writes the stack pointer of the mode that was previous before the instruction. -/
theorem mtpiBody_of_sp (hm : dst.mode = .register) (hsp : dst.reg = SP) :
    mtpiBody dst s = .ok () ((p.setCC (moveFlags .word v s.cc.c)).setSpOf s.pm v) := by
  have hquiet := pop_quiet hpop
  rw [← hquiet.pm, ← p.pm_setCC (moveFlags .word v s.cc.c)]
  refine (bind_of_ok hpop).trans ?_
  rw [if_pos hm, if_pos hsp]
  exact bind_of_ok (putMoveFlags_of_cc hquiet.cc v)

/-- MTPI of memory finds its address after the pop, in the current mode, and stores in the previous one. -/
theorem mtpiBody_of_resolve {u : State} {a : Word} (haddr : resolve dst .word p = .ok (.mem a) u) :
    mtpiBody dst s = memWriteAs s.pm a .word v (u.setCC (moveFlags .word v s.cc.c)) := by
  have hquiet := (pop_quiet hpop).trans (resolve_ok haddr).1.quiet
  rw [← hquiet.pm, ← u.pm_setCC (moveFlags .word v s.cc.c)]
  refine (bind_of_ok hpop).trans ?_
  rw [if_neg (mode_ne_register_of_resolve haddr)]
  exact (resolve_memLoc_of_memory haddr _).trans (bind_of_ok (putMoveFlags_of_cc hquiet.cc v))

end

/-- Settles O50: the pop and the resolution change neither the modes nor the flags, so the store is in the mode previous before them. -/
theorem moveToPreviousResults : Obligations.MoveToPreviousResults := by
  refine fun dst s p u t v a hpop => ⟨fun hm hsp => ?sp, fun haddr hwrite => ?memory⟩
  case sp =>
    rw [exec_of_ok (i := .mtpi dst) (mtpiBody_of_sp hpop hm hsp), State.setSpOf, State.cm_setCC, (pop_quiet hpop).cm]
  case memory => exact exec_of_ok ((mtpiBody_of_resolve hpop haddr).trans hwrite)

end Sys2Proof.Machine
end

section
/-! What the trap sequence leaves where its four accesses reach the memory array (60_exceptions.md R322 to R325), and the programmed traps
(45_trap_system.md R280 to R284). -/

namespace Sys2Proof.Machine

/-! ### One push of the sequence (20_memory.md R96, 60_exceptions.md R323) -/

/-- The page of an address, as a number (20_memory.md R92). -/
theorem eq_pageOf_iff {p : Fin 8} {va : Word} : p = (pageOf va).toFin ↔ p.val = va.toNat / 8192 := by
  refine ⟨fun h => h ▸ ?_, fun h => (pageOf_toFin h).symm⟩
  have hlt : va.toNat / 8192 < 8 := by omega
  exact congrArg Fin.val (pageOf_toFin (p := ⟨va.toNat / 8192, hlt⟩) rfl)

/-- With translation on, a write in mode 0 sets W of the page it is to, and of no other. -/
theorem State.pdr_marked_kernel (s : State) (va : Word) (i : Fin 8) : (s.marked 0#2 va true).pdr .kernel i =
    if s.sr0.getLsbD 0 = true ∧ i.val = va.toNat / 8192 then s.pdr .kernel i ||| 0o100#16 else s.pdr .kernel i := by
  simp only [← eq_pageOf_iff]
  cases hon : s.sr0.getLsbD 0 with
  | false => rw [State.marked_of_off hon, if_neg (by simp)]
  | true =>
    have hbank : bankOf 0#2 = .kernel := rfl
    rw [State.marked_of_on hon, if_pos rfl, State.pdr_setPdr, hbank]
    by_cases hi : i = (pageOf va).toFin
    · simp [hi]
    · simp [hi]

section
variable (s : State) (pa : Nat) (v : Word)

/-- A push of the sequence changes the stack pointers, the kernel descriptors and memory alone. -/
theorem State.kernelPushed_frame : ∃ r b k,
    s.kernelPushed pa v = { s with regs := r, spbank := b, kpdr := k, mem := Memory.writeWord s.mem pa v } := by
  rw [State.kernelPushed, State.setSpOf, State.marked]
  split
  · split
    · exact ⟨_, _, _, rfl⟩
    · exact ⟨_, _, _, rfl⟩
  · split
    · exact ⟨_, _, _, rfl⟩
    · exact ⟨_, _, _, rfl⟩

theorem State.spOf_kernelPushed_ne {m : ModeBits} (hm : m ≠ 0#2) : (s.kernelPushed pa v).spOf m = s.spOf m := by
  show ((s.setSpOf 0#2 (s.spOf 0#2 - 2)).marked 0#2 (s.spOf 0#2 - 2) true).spOf m = _
  rw [State.spOf_marked, State.spOf_setSpOf, if_neg hm]

theorem State.reg_kernelPushed {r : Reg} (hr : r ≠ SP) : (s.kernelPushed pa v).reg r = s.reg r := by
  obtain ⟨-, -, hreg⟩ := s.setSpOf_frame 0#2 (s.spOf 0#2 - 2)
  rw [State.kernelPushed, State.reg_setWord, State.reg_marked, hreg r hr]

theorem State.pdr_kernelPushed (i : Fin 8) : (s.kernelPushed pa v).pdr .kernel i =
    if s.sr0.getLsbD 0 = true ∧ i.val = (s.spOf 0#2 - 2).toNat / 8192 then s.pdr .kernel i ||| 0o100#16 else s.pdr .kernel i := by
  obtain ⟨-, -, hsr0, -, hpdr⟩ := s.setSpOf_translator 0#2 (s.spOf 0#2 - 2)
  rw [State.kernelPushed, State.pdr_setWord, State.pdr_marked_kernel, hpdr, hsr0]

end

/-! ### The frame of the sequence -/

/-- The state of the trap sequence with its frame pushed at physical addresses `p1` and `p2`. -/
def State.framed (s : State) (p1 p2 : Nat) : State :=
  ((s.setPsw (kernelPsw s.psw)).kernelPushed p1 s.psw).kernelPushed p2 (s.reg PC)

/-- The state in which the trap sequence ends, its vector read at physical addresses `v1` and `v2`. -/
def State.trapped (s : State) (p1 p2 v1 v2 : Nat) : State :=
  ((s.framed p1 p2).setReg PC ((s.framed p1 p2).wordAt v1)).setPsw (vectorPsw ((s.framed p1 p2).wordAt v2) s.psw)

/-- A bit set under one condition and then under another is set under either. -/
theorem or_if_or_if (p q : Prop) [Decidable p] [Decidable q] (d w : Word) :
    (if q then (if p then d ||| w else d) ||| w else if p then d ||| w else d) = if p ∨ q then d ||| w else d := by
  by_cases hp : p
  · simp [hp, BitVec.or_assoc]
  · simp [hp]

theorem getPsw_apply (s : State) : getPsw s = .ok s.psw s := rfl

theorem sub_two_sub_two (w : Word) : w - 2 - 2 = w - 4 := by rw [BitVec.sub_sub]; rfl

section
variable (s : State) (p1 p2 : Nat)

theorem State.framed_frame : ∃ r b k, s.framed p1 p2 = { s with
    psw := kernelPsw s.psw, regs := r, spbank := b, kpdr := k,
    mem := Memory.writeWord (Memory.writeWord s.mem p1 s.psw) p2 (s.reg PC) } := by
  obtain ⟨r1, b1, k1, h1⟩ := (s.setPsw (kernelPsw s.psw)).kernelPushed_frame p1 s.psw
  obtain ⟨r2, b2, k2, h2⟩ := ((s.setPsw (kernelPsw s.psw)).kernelPushed p1 s.psw).kernelPushed_frame p2 (s.reg PC)
  exact ⟨r2, b2, k2, by rw [State.framed, h2, h1]; rfl⟩

theorem State.spOf_framed : (s.framed p1 p2).spOf 0#2 = s.spOf 0#2 - 4 := by
  rw [State.framed, State.spOf_kernelPushed, State.spOf_kernelPushed, State.spOf_setPsw, sub_two_sub_two]

theorem State.spOf_framed_ne {m : ModeBits} (hm : m ≠ 0#2) : (s.framed p1 p2).spOf m = s.spOf m := by
  rw [State.framed, State.spOf_kernelPushed_ne _ _ _ hm, State.spOf_kernelPushed_ne _ _ _ hm, State.spOf_setPsw]

theorem State.reg_framed {r : Reg} (hr : r ≠ SP) : (s.framed p1 p2).reg r = s.reg r := by
  rw [State.framed, State.reg_kernelPushed _ _ _ hr, State.reg_kernelPushed _ _ _ hr, State.reg_setPsw_ne _ _ _ hr]

/-- A descriptor takes W at either push (20_memory.md R96). -/
theorem State.pdr_framed (i : Fin 8) : (s.framed p1 p2).pdr .kernel i =
    if s.sr0.getLsbD 0 = true ∧ (i.val = (s.spOf 0#2 - 2).toNat / 8192 ∨ i.val = (s.spOf 0#2 - 4).toNat / 8192)
    then s.pdr .kernel i ||| 0o100#16 else s.pdr .kernel i := by
  have hsr0 (k : State) (pa : Nat) (v : Word) : (k.kernelPushed pa v).sr0 = k.sr0 := by
    obtain ⟨r, b, d, h⟩ := k.kernelPushed_frame pa v
    rw [h]
  rw [State.framed, State.pdr_kernelPushed, State.pdr_kernelPushed, hsr0, State.spOf_kernelPushed, State.spOf_setPsw,
    sub_two_sub_two, State.sr0_setPsw, State.pdr_setPsw]
  simp only [and_or_left]
  exact or_if_or_if _ _ _ _

theorem State.reachesAt_framed {m va sz wr pa} : (s.framed p1 p2).reachesAt m va sz wr pa ↔ s.reachesAt m va sz wr pa :=
  State.reachesAt_kernelPushed.trans State.reachesAt_kernelPushed

end

/-! ### The sequence and what it leaves (R322, R324, R325) -/

theorem trapTaken_trapped (s : State) (p1 p2 v1 v2 : Nat) : TrapTaken s (s.trapped p1 p2 v1 v2) p1 p2 v1 v2 := by
  obtain ⟨r, b, k, hframe⟩ := s.framed_frame p1 p2
  obtain ⟨hmode, hprevious, hrest⟩ := vectorPsw_bits ((s.framed p1 p2).wordAt v2) s.psw
  have hstack (m : ModeBits) : (s.trapped p1 p2 v1 v2).spOf m = (s.framed p1 p2).spOf m :=
    (State.spOf_setPsw _ _ m).trans (State.spOf_setReg _ (.inl (by decide)))
  have hreg {n : Reg} (hn : n ≠ SP) :
      (s.trapped p1 p2 v1 v2).reg n = if n = PC then (s.framed p1 p2).wordAt v1 else (s.framed p1 p2).reg n :=
    (State.reg_setPsw_ne _ _ n hn).trans (State.reg_setReg _ _ _ n)
  exact {
    frame := show (s.framed p1 p2).mem = _ by rw [hframe]
    counter := (hreg (by decide)).trans (if_pos rfl)
    mode := hmode
    previous := hprevious
    rest := hrest
    kernelStack := (hstack 0#2).trans (s.spOf_framed p1 p2)
    otherStacks := fun m hm => (hstack m).trans (s.spOf_framed_ne p1 p2 hm)
    registers := fun n hsp hpc => by rw [hreg hsp, if_neg hpc, s.reg_framed p1 p2 hsp]
    translator := by rw [State.trapped, hframe]; exact ⟨rfl, rfl, rfl, rfl, rfl⟩
    kernelPages := s.pdr_framed p1 p2
    controller := by rw [State.trapped, hframe]; exact ⟨rfl, rfl⟩
    platform := by rw [State.trapped, hframe]; exact ⟨rfl, rfl, rfl, rfl, rfl⟩ }

theorem takeTrap_of_trapSequence {vec : Word} {s t : State} (hv : vec.getLsbD 0 = false) (h : trapSequence vec s = .ok () t) :
    takeTrap vec s = .next t := by
  rw [takeTrap, trapAt, hv, if_neg Bool.false_ne_true, doubleFaultOnTrap, h]

section
variable {vec : Word} {s : State} {p1 p2 v1 v2 : Nat} (hpsw : s.reachesAt 0#2 (s.spOf 0#2 - 2) .word true p1)
    (hpc : s.reachesAt 0#2 (s.spOf 0#2 - 4) .word true p2) (hnewPc : s.reachesAt 0#2 vec .word false v1)
    (hnewPsw : s.reachesAt 0#2 (vec + 2) .word false v2)
include hpsw hpc hnewPc hnewPsw

theorem trapSequence_of_reachesAt : trapSequence vec s = .ok () (s.trapped p1 p2 v1 v2) := by
  let k := s.setPsw (kernelPsw s.psw)
  have hpush1 : pushKernel s.psw k = .ok () (k.kernelPushed p1 s.psw) := by
    refine pushKernel_of_reachesAt ?_
    rw [State.spOf_setPsw]
    exact hpsw
  have hpush2 : pushKernel (s.reg PC) (k.kernelPushed p1 s.psw) = .ok () (s.framed p1 p2) := by
    refine pushKernel_of_reachesAt ?_
    rw [State.reachesAt_kernelPushed, State.spOf_kernelPushed, State.spOf_setPsw, sub_two_sub_two]
    exact hpc
  have hread {va : Word} {pa : Nat} (hva : s.reachesAt 0#2 va .word false pa) :
      memReadAs 0#2 va .word (s.framed p1 p2) = .ok ((s.framed p1 p2).wordAt pa) (s.framed p1 p2) :=
    memReadAs_word_array ((s.reachesAt_framed p1 p2).mpr hva)
  exact (bind_of_ok (getPsw_apply s)).trans ((bind_of_ok (getReg_apply _ _)).trans ((bind_of_ok (putPsw_apply _ _)).trans
    ((bind_of_ok hpush1).trans ((bind_of_ok hpush2).trans ((bind_of_ok (hread hnewPc)).trans (bind_of_ok (hread hnewPsw)))))))

/-- A trap at an even vector whose four accesses reach the memory array is taken, and leaves what R322, R324 and R325 say. -/
theorem takeTrap_of_reachesAt (hv : vec.getLsbD 0 = false) :
    ∃ t, takeTrap vec s = .next t ∧ TrapTaken s t p1 p2 v1 v2 :=
  ⟨_, takeTrap_of_trapSequence hv (trapSequence_of_reachesAt hpsw hpc hnewPc hnewPsw), trapTaken_trapped s p1 p2 v1 v2⟩

end

/-! ### EMT, TRAP, BPT and IOT -/

/-- Settles O25: each of the four raises at its vector, which is even in a legal configuration, before anything has changed. -/
theorem programmedTraps : Obligations.ProgrammedTraps := by
  intro code i vec s hwf hmem p1 p2 v1 v2 hpsw hpc hnewPc hnewPsw
  have hvec : ∃ f, i.trapVector = some f ∧ vec = f s.cfg := by
    simp only [List.mem_cons, Prod.mk.injEq, List.not_mem_nil, or_false] at hmem
    rcases hmem with ⟨rfl, rfl⟩ | ⟨rfl, rfl⟩ | ⟨rfl, rfl⟩ | ⟨rfl, rfl⟩
    · exact ⟨Config.vecEmt, rfl, rfl⟩
    · exact ⟨Config.vecTrap, rfl, rfl⟩
    · exact ⟨Config.vecBpt, rfl, rfl⟩
    · exact ⟨Config.vecIot, rfl, rfl⟩
  obtain ⟨f, hf, rfl⟩ := hvec
  obtain ⟨hbody, -⟩ := bodyOf_of_trapVector hf s
  have heven := Config.wf_vectors hwf _ ((RaisesOnly.bodyOf i).raises s _ s hbody)
  rw [exec_of_trap hbody]
  exact takeTrap_of_reachesAt hpsw hpc hnewPc hnewPsw heven

end Sys2Proof.Machine
end

section
/-! The interrupt table and the delivery decision (10_state.md R40, 60_exceptions.md R330 to R333, R340). -/

namespace Sys2Proof.Machine

/-! ### A request is inserted (R330, R331) -/

theorem outranks_iff {e q : IrqRequest} : outranks e q = true ↔
    q.priority.toNat < e.priority.toNat ∨ (e.priority = q.priority ∧ e.vector.toNat ≤ q.vector.toNat) := by
  simp [outranks]

/-- The request goes between the leading entries that outrank it and the rest. -/
theorem insertIrq_eq_append (q : IrqRequest) (t : List IrqRequest) :
    insertIrq q t = t.takeWhile (outranks · q) ++ q :: t.dropWhile (outranks · q) := by
  induction t with
  | nil => rfl
  | cons e t ih =>
    rw [insertIrq]
    cases h : outranks e q with
    | true => simp [h, ih]
    | false => simp [h]

/-- Settles O32: the table is cut where the first entry does not outrank the request. -/
theorem requestInsertionKeepsOrder : Obligations.RequestInsertionKeepsOrder := by
  refine fun q t => ⟨⟨t.takeWhile (outranks · q), t.dropWhile (outranks · q), ?_, insertIrq_eq_append q t, fun e he => ?_,
    fun e he => ?_⟩, pairwise_insertIrq q⟩
  · exact List.takeWhile_append_dropWhile.symm
  · exact outranks_iff.mp (List.mem_takeWhile_imp (p := (outranks · q)) he)
  · have hnot := List.head?_dropWhile_not (outranks · q) t
    rw [Option.mem_def.mp he] at hnot
    simpa [← outranks_iff] using hnot

/-! ### A request arrives (R330, R340) -/

/-- Settles O33: the three tests of the controller, in their order; vector 0 is even, and a legal configuration has eight slots. -/
theorem requestAcceptance : Obligations.RequestAcceptance := by
  refine fun q s => ⟨fun hodd => if_pos hodd, fun heven hnonzero hfull => ?_, fun heven hnonzero hfree => ?_, fun hzero => ?_,
    Config.wf_itabSlots⟩
  · rw [acceptIrq, heven, if_neg Bool.false_ne_true, if_neg hnonzero, if_pos hfull]
    rfl
  · rw [acceptIrq, heven, if_neg Bool.false_ne_true, if_neg hnonzero, if_neg (Nat.not_le.mpr hfree)]
  · have heven : q.vector.getLsbD 0 = false := by rw [hzero]; rfl
    rw [acceptIrq, heven, if_neg Bool.false_ne_true, if_pos hzero]

/-! ### The delivery decision (R332, R333) -/

theorem eligible_of_cons {s : State} {e : IrqRequest} {l : List IrqRequest} (h : s.itab = e :: l) :
    eligible s = if e.vector ≠ 0#8 ∧ s.pri.toNat < e.priority.toNat then some e else none := by
  rw [eligible, h]

theorem poll_of_none {s : State} (h : eligible s = none) : poll s = .next s := by
  rw [poll, h]

/-- A delivery is the trap sequence at the entry's vector; then the entry is removed and the machine runs. -/
theorem poll_of_some {s : State} {e : IrqRequest} (h : eligible s = some e) :
    poll s = andThen (takeTrap (e.vector.zeroExtend 16) s) fun t => .next { t with itab := popIrq t.itab, run := .running } := by
  rw [poll, h]
  rfl

/-- Settles O34: the decision is that of the head of the table, which the trap sequence leaves in place for the removal. -/
theorem deliveryDecision : Obligations.DeliveryDecision := by
  refine ⟨fun s hnil => poll_of_none (by rw [eligible, hnil]), fun s e l hcons => ⟨fun hnot => ?_, fun hvec hpri => ?_⟩,
    fun s t hrun hturn => ?_, fun s hrun => by rw [boundary, hrun]⟩
  · refine poll_of_none ((eligible_of_cons hcons).trans (if_neg ?_))
    rintro ⟨hvec, hpri⟩
    exact hnot.elim hvec (Nat.not_le.mpr hpri)
  · have hsome : eligible s = some e := (eligible_of_cons hcons).trans (if_pos ⟨hvec, hpri⟩)
    refine ⟨fun t ht => ?_, fun f hf => by rw [poll_of_some hsome, hf]; rfl⟩
    rw [poll_of_some hsome, ht, andThen, popIrq, (takeTrap_kept ht).itab, hcons, List.tail_cons]
  · rw [boundary_of_active hrun, hturn]
    rfl

end Sys2Proof.Machine
end

section
/-! The modes and the priority outside kernel mode (60_exceptions.md R346, 45_trap_system.md R287, R292). -/

namespace Sys2Proof.Machine

theorem extractLsb'_extractLsb' {w lo n k m : Nat} (h : k + m ≤ n) (x : BitVec w) :
    (x.extractLsb' lo n).extractLsb' k m = x.extractLsb' (lo + k) m := by
  apply BitVec.eq_of_getLsbD_eq
  intro i hi
  simp [show k + i < n by omega, Nat.add_assoc]

/-- The PSW a return loads outside kernel mode is the old one above bit 4 (R287). -/
theorem extract_userReturnPsw (p n : Word) {lo k : Nat} (hlo : 5 ≤ lo) (hk : lo + k ≤ 16) :
    (userReturnPsw p n).extractLsb' lo k = p.extractLsb' lo k := by
  rw [userReturnPsw]
  refine (BitVec.extractLsb'_append_eq_of_le hlo).trans ((extractLsb'_extractLsb' (by omega) p).trans ?_)
  rw [Nat.add_sub_cancel' hlo]

/-- The PSW after a return outside kernel mode: the pops keep it, and what is then loaded is the old one above bit 4. -/
theorem returnFromTrap_psw {s t : State} (hmode : s.cm ≠ 0#2) (h : returnFromTrap s = .ok () t) :
    ∃ npsw, t.psw = userReturnPsw s.psw npsw := by
  obtain ⟨npc, u, hpc, h⟩ := bind_eq_ok.mp h
  obtain ⟨npsw, v, hpsw, h⟩ := bind_eq_ok.mp h
  cases h
  have hkept : Quiet s v := (pop_quiet hpc).trans (pop_quiet hpsw)
  refine ⟨npsw, ?_⟩
  rw [← hkept.psw]
  exact if_neg fun hkernel => hmode (hkept.cm.symm.trans hkernel)

/-- Settles O58: a return loads the low five bits of the PSW alone, SPL runs nothing, and for the others it is the PSW frame. -/
theorem unprivilegedModeIsKept : Obligations.UnprivilegedModeIsKept := by
  intro i s t hmode h hpsw
  by_cases hspl : ∃ n, i = .spl n
  case pos =>
    obtain ⟨n, rfl⟩ := hspl
    cases (ifKernel_of_not_kernel hmode _ _).symm.trans h
    exact ⟨rfl, rfl, rfl⟩
  case neg =>
    cases hret : i.isReturn with
    | true =>
      have hbody : returnFromTrap s = .ok () t := by
        cases i with
        | rti | rtt => exact h
        | _ => cases hret
      obtain ⟨npsw, hload⟩ := returnFromTrap_psw hmode hbody
      simp only [State.cm, State.pm, State.pri, hload]
      exact ⟨extract_userReturnPsw _ _ (by decide) (by decide), extract_userReturnPsw _ _ (by decide) (by decide),
        extract_userReturnPsw _ _ (by decide) (by decide)⟩
    | false =>
      obtain ⟨hhigh, -, hpri, -⟩ := pswFrame i s t h hret hpsw
      have hcut {k : Nat} (hk : k + 2 ≤ 8) : t.psw.extractLsb' (8 + k) 2 = s.psw.extractLsb' (8 + k) 2 := by
        rw [← extractLsb'_extractLsb' hk, hhigh, extractLsb'_extractLsb' hk]
      exact ⟨hcut (k := 6) (by decide), hcut (k := 4) (by decide), hpri fun n hn => hspl ⟨n, hn⟩⟩

end Sys2Proof.Machine
end

section
/-! The trap sequence wherever its accesses end (60_exceptions.md R322 to R326, 20_memory.md R98), and where it cannot end. -/

namespace Sys2Proof.Machine

/-! ### The PSW words of the sequence, by masks (R322, R324) -/

/-- A vector's word with bits 13:12 replaced. -/
theorem vectorPsw_eq (n o : Word) :
    vectorPsw n o = (n &&& 0o147777#16) ||| ((o.extractLsb' 14 2).zeroExtend 16 <<< 12) := by
  have hmask : ∀ i < 16, (0o147777#16).getLsbD i = (decide (i < 12) || decide (14 ≤ i)) := by decide
  have hbit (i : Nat) : (vectorPsw n o).getLsbD i = if i < 14 then (if i < 12 then (n.extractLsb' 0 12).getLsbD i
      else (o.extractLsb' 14 2).getLsbD (i - 12)) else (n.extractLsb' 14 2).getLsbD (i - 14) := by
    refine (BitVec.getLsbD_append (y := (o.extractLsb' 14 2 ++ n.extractLsb' 0 12 : BitVec 14))).trans ?_
    rw [BitVec.getLsbD_append]
  apply BitVec.eq_of_getLsbD_eq
  intro i hi
  rw [hbit, BitVec.getLsbD_or, BitVec.getLsbD_and, hmask i hi, BitVec.getLsbD_shiftLeft]
  by_cases hlow : i < 12
  · simp [hlow, show i < 14 by omega]
  · by_cases hmid : i < 14
    · simp [hlow, hmid, hi, show i - 12 < 2 by omega, show i - 12 < 16 by omega, show ¬ 14 ≤ i by omega]
    · simp [hlow, hmid, hi, show i - 14 < 2 by omega, show ¬ i - 12 < 2 by omega, show 14 + (i - 14) = i by omega,
        show 14 ≤ i by omega]

/-- The PSW of the pushes is the old one with bits 15:12 cleared and the old mode put into 13:12. -/
theorem kernelPsw_eq_vectorPsw (o : Word) : kernelPsw o = vectorPsw (o &&& 0o007777#16) o := by
  have hmode : (o &&& 0o007777#16).extractLsb' 14 2 = 0#2 := BitVec.extractLsb'_and.trans BitVec.and_zero
  have hrest : (o &&& 0o007777#16).extractLsb' 0 12 = o.extractLsb' 0 12 := BitVec.extractLsb'_and.trans BitVec.and_allOnes
  rw [vectorPsw, hmode, hrest, kernelPsw]

theorem kernelPsw_eq (o : Word) : kernelPsw o = (o &&& 0o007777#16) ||| ((o.extractLsb' 14 2).zeroExtend 16 <<< 12) := by
  rw [kernelPsw_eq_vectorPsw, vectorPsw_eq, BitVec.and_assoc]
  rfl

/-! ### The sequence, statement by statement (R322) -/

/-- A push of the sequence in kernel mode moves R6. -/
theorem pushKernel_of_kernel {s : State} (h : s.cm = 0#2) (v : Word) :
    pushKernel v s = memWriteAs 0#2 (s.spOf 0#2 - 2) .word v (s.setReg SP (s.spOf 0#2 - 2)) := by
  rw [pushKernel, State.setSpOf, h, if_pos rfl]

/-- A push of the sequence that ends leaves the kernel stack pointer 2 lower, whatever it stores to. -/
theorem spOf_of_pushKernel {s t : State} {v : Word} (h : pushKernel v s = .ok () t) : t.spOf 0#2 = s.spOf 0#2 - 2 := by
  obtain ⟨pa, -, heffect⟩ := memWriteAs_ok h
  rw [heffect.stackPtr, State.spOf_setSpOf, if_pos rfl]

/-- The sequence ends where its two pushes and its two reads end, and then loads PC and PSW. -/
theorem trapSequence_eq_ok_iff {vec : Word} {s t : State} : trapSequence vec s = .ok () t ↔
    ∃ a b c d npc npsw, pushKernel s.psw (s.setPsw (kernelPsw s.psw)) = .ok () a ∧ pushKernel (s.reg PC) a = .ok () b ∧
      memReadAs 0#2 vec .word b = .ok npc c ∧ memReadAs 0#2 (vec + 2) .word c = .ok npsw d ∧
      t = (d.setReg PC npc).setPsw (vectorPsw npsw s.psw) := by
  constructor
  · intro h
    rw [trapSequence, bind_of_ok (getPsw_apply s), bind_of_ok (getReg_apply _ _), bind_of_ok (putPsw_apply _ _)] at h
    obtain ⟨_, a, hpush1, h⟩ := bind_eq_ok.mp h
    obtain ⟨_, b, hpush2, h⟩ := bind_eq_ok.mp h
    obtain ⟨npc, c, hread1, h⟩ := bind_eq_ok.mp h
    obtain ⟨npsw, d, hread2, h⟩ := bind_eq_ok.mp h
    cases h
    exact ⟨a, b, c, d, npc, npsw, hpush1, hpush2, hread1, hread2, rfl⟩
  · rintro ⟨a, b, c, d, npc, npsw, hpush1, hpush2, hread1, hread2, rfl⟩
    rw [trapSequence, bind_of_ok (getPsw_apply s), bind_of_ok (getReg_apply _ _), bind_of_ok (putPsw_apply _ _),
      bind_of_ok hpush1, bind_of_ok hpush2, bind_of_ok hread1, bind_of_ok hread2]
    rfl

/-- The first push of the sequence is in kernel mode, below the kernel stack pointer before the trap. -/
theorem pushKernel_first (s : State) : pushKernel s.psw (s.setPsw (kernelPsw s.psw)) =
    memWriteAs 0#2 (s.spOf 0#2 - 2) .word s.psw ((s.setPsw (kernelPsw s.psw)).setReg SP (s.spOf 0#2 - 2)) := by
  have hkernel : (s.setPsw (kernelPsw s.psw)).cm = 0#2 := (s.cm_setPsw _).trans (cm_kernelPsw s.psw)
  rw [pushKernel_of_kernel hkernel, State.spOf_setPsw]

/-- Settles O24: in the memory array it is the state `trapped`; elsewhere the first push leaves the kernel stack pointer 2 lower. -/
theorem trapSequenceCompletes : Obligations.TrapSequenceCompletes := by
  refine ⟨fun vec s p1 p2 v1 v2 heven hpsw hpc hnewPc hnewPsw => takeTrap_of_reachesAt hpsw hpc hnewPc hnewPsw heven, ?_⟩
  intro vec npc npsw s a b c d heven previous hpush1 hpush2 hread1 hread2
  have hfirst : pushKernel s.psw (s.setPsw (kernelPsw s.psw)) = .ok () a := by
    rw [pushKernel_first, kernelPsw_eq]
    exact hpush1
  have hsp : a.spOf 0#2 - 2 = s.spOf 0#2 - 4 := by
    rw [spOf_of_pushKernel hfirst, State.spOf_setPsw, sub_two_sub_two]
  have hsecond : pushKernel (s.reg PC) a = .ok () b := by
    rw [pushKernel, hsp, State.setSpOf, ← hpush2]
    simp only [eq_comm (a := (0#2 : ModeBits))]
  refine takeTrap_of_trapSequence heven (trapSequence_eq_ok_iff.mpr ⟨a, b, c, d, npc, npsw, hfirst, hsecond, hread1, hread2, ?_⟩)
  rw [vectorPsw_eq]
  rfl

/-! ### What is recorded (R324) -/

/-- R6 is the stack pointer of the current mode (10_state.md R22). -/
theorem State.reg_sp (s : State) : s.reg SP = s.spOf s.cm := (if_pos rfl).symm

/-- Settles O26: the sequence ends with the load of a PSW whose bits 13:12 are the mode before it; R6 is then the stack pointer of the
mode loaded, which the frame lowered if it is the kernel's. -/
theorem trapRecordsPreviousMode : Obligations.TrapRecordsPreviousMode := by
  intro vec s t h
  obtain ⟨heven, hseq⟩ := takeTrap_next h
  constructor
  · obtain ⟨a, b, c, d, npc, npsw, -, -, -, -, rfl⟩ := trapSequence_eq_ok_iff.mp hseq
    obtain ⟨-, hprevious, -⟩ := vectorPsw_bits npsw s.psw
    exact hprevious
  · intro p1 p2 v1 v2 hpsw hpc hnewPc hnewPsw npsw
    obtain ⟨t', ht', taken⟩ := takeTrap_of_reachesAt hpsw hpc hnewPc hnewPsw heven
    cases h.symm.trans ht'
    refine ⟨taken.mode, taken.previous, taken.rest, ?_⟩
    rw [State.reg_sp, taken.mode]
    show t.spOf (npsw.extractLsb' 14 2) = _
    by_cases hkernel : npsw.extractLsb' 14 2 = 0#2
    · rw [if_pos hkernel, hkernel, taken.kernelStack]
    · rw [if_neg hkernel, taken.otherStacks _ hkernel]

/-! ### Where it cannot end (R322, R326) -/

/-- A word write that ends is at an even virtual address, translation keeping the alignment (20_memory.md R73). -/
theorem even_of_memWriteAs_word {s t : State} {m : ModeBits} {va v : Word} (h : memWriteAs m va .word v s = .ok () t)
    (hwf : s.cfg.wf = true) : va.getLsbD 0 = false := by
  obtain ⟨pa, htranslate, -⟩ := memWriteAs_ok h
  rw [memWriteAs_word htranslate] at h
  obtain ⟨heven, -⟩ := physWrite_ok h
  obtain ⟨hmapped, -⟩ := translate_ok_iff.mp htranslate
  have halign := State.mapped_mod_two hwf hmapped
  rw [getLsbD_zero_eq_odd, decide_eq_false_iff_not]
  omega

theorem getLsbD_zero_sub_two (w : Word) : (w - 2).getLsbD 0 = w.getLsbD 0 := by
  have htwo : (2 : Word).toNat = 2 := rfl
  rw [getLsbD_zero_eq_odd, getLsbD_zero_eq_odd, BitVec.toNat_sub, decide_eq_decide]
  omega

/-- Settles O27: a trap at an even vector is taken or a double fault, and its first push does not end on an odd stack. -/
theorem trapOnOddStackIsDoubleFault : Obligations.TrapOnOddStackIsDoubleFault := by
  refine fun vec s => ⟨fun hwf heven hodd => ?_, fun hvec => ?_⟩
  · rcases takeTrap_of_even heven s with ⟨t, h⟩ | ⟨t, h⟩
    · obtain ⟨-, hseq⟩ := takeTrap_next h
      obtain ⟨a, b, c, d, npc, npsw, hpush, -⟩ := trapSequence_eq_ok_iff.mp hseq
      rw [pushKernel_first] at hpush
      have hword := even_of_memWriteAs_word hpush hwf
      rw [getLsbD_zero_sub_two, hodd] at hword
      cases hword
    · exact ⟨_, rfl, h⟩
  · rw [takeTrap, trapAt, hvec, if_pos rfl]
    rfl

end Sys2Proof.Machine
end

section
/-! A return from the handler of a trap (60_exceptions.md R339, 45_trap_system.md R287, R288). -/

namespace Sys2Proof.Machine

theorem State.regs_eq {s t : State} (h : ∀ r, t.reg r = s.reg r) : t.regs = s.regs :=
  Vector.ext fun n hn => h ⟨n, hn⟩

/-- What may be written may be read, at the same place. -/
theorem State.reachesAt_read_of_write {s : State} {m : ModeBits} {va : Word} {sz : Size} {pa : Nat}
    (h : s.reachesAt m va sz true pa) : s.reachesAt m va sz false pa :=
  h.imp_left State.mapped_read_of_write

theorem State.loadWord_of_reachesAt {s : State} {m : ModeBits} {va : Word} {sz : Size} {pa : Nat}
    (h : s.reachesAt m va sz false pa) : s.loadWord m va = s.wordAt pa := by
  obtain ⟨hmapped, -⟩ := h
  rw [State.loadWord, hmapped]

/-- The trap sequence changes no translation. -/
theorem State.reachesAt_trapped {s : State} {p1 p2 v1 v2 : Nat} {m va sz wr pa} :
    (s.trapped p1 p2 v1 v2).reachesAt m va sz wr pa ↔ s.reachesAt m va sz wr pa :=
  State.reachesAt_framed (s := s) p1 p2

/-- The frame, read back: the two words were pushed at even addresses, so neither covers the other. -/
theorem TrapTaken.wordAt_frame {s t : State} {p1 p2 v1 v2 : Nat} {m1 m2 : ModeBits} {va1 va2 : Word}
    (taken : TrapTaken s t p1 p2 v1 v2) (hpsw : s.reachesAt m1 va1 .word true p1) (hpc : s.reachesAt m2 va2 .word true p2)
    (hne : p1 ≠ p2) : t.wordAt p2 = s.reg PC ∧ t.wordAt p1 = s.psw := by
  obtain ⟨-, -, heven1⟩ := hpsw
  obtain ⟨-, -, heven2⟩ := hpc
  have hapart : p1 + 1 < p2 ∨ p2 + 1 < p1 := by
    have := heven1 rfl
    have := heven2 rfl
    omega
  rw [State.wordAt, State.wordAt, taken.frame, Memory.readWord_writeWord, Memory.readWord_writeWord_ne _ _ _ _ _ hapart,
    Memory.readWord_writeWord]
  exact ⟨rfl, rfl⟩

/-- A trap taken and then undone: the stack pointer raised by the frame, PC and PSW loaded. -/
theorem TrapTaken.undone {s t : State} {p1 p2 v1 v2 : Nat} (taken : TrapTaken s t p1 p2 v1 v2) (hkernel : t.cm = 0#2) :
    let u := ((t.setReg SP (t.reg SP + 4)).setReg PC (s.reg PC)).setPsw s.psw
    u.regs = s.regs ∧ u.psw = s.psw ∧ ∀ m, u.spOf m = s.spOf m := by
  intro u
  have htop : t.reg SP + 4 = s.spOf 0#2 := by
    rw [State.reg_sp, hkernel, taken.kernelStack, BitVec.sub_add_cancel]
  have hstack (m : ModeBits) : u.spOf m = s.spOf m := by
    have hraise : t.setReg SP (t.reg SP + 4) = t.setSpOf 0#2 (t.reg SP + 4) := (if_pos hkernel.symm).symm
    rw [State.spOf_setPsw, State.spOf_setReg _ (.inl (by decide)), hraise, State.spOf_setSpOf, htop]
    by_cases hm : m = 0#2
    · rw [if_pos hm, hm]
    · rw [if_neg hm, taken.otherStacks m hm]
  refine ⟨State.regs_eq fun r => ?_, rfl, hstack⟩
  by_cases hsp : r = SP
  · rw [hsp, State.reg_sp, hstack, State.reg_sp]
    rfl
  · rw [State.reg_setPsw_ne _ _ r hsp, State.reg_setReg, State.reg_setReg, if_neg hsp]
    by_cases hpc : r = PC
    · rw [if_pos hpc, hpc]
    · rw [if_neg hpc, taken.registers r hsp hpc]

/-- Settles O29: the handler's kernel stack holds the frame at its top, and the trap kept everything the frame does not hold. -/
theorem returnReversesTheTrap : Obligations.ReturnReversesTheTrap := by
  intro vec s t p1 p2 i hi hpsw hpc hne hready h hkernel
  obtain ⟨heven, -⟩ := takeTrap_next h
  obtain ⟨-, -, ⟨v1, hnewPc⟩, ⟨v2, hnewPsw⟩⟩ := hready
  have htrapped := takeTrap_of_trapSequence heven (trapSequence_of_reachesAt hpsw hpc hnewPc hnewPsw)
  cases h.symm.trans htrapped
  set t := s.trapped p1 p2 v1 v2
  have taken : TrapTaken s t p1 p2 v1 v2 := trapTaken_trapped s p1 p2 v1 v2
  have hsp : t.reg SP = s.spOf 0#2 - 4 := by rw [State.reg_sp, hkernel, taken.kernelStack]
  have hsp2 : t.reg SP + 2 = s.spOf 0#2 - 2 := by rw [hsp, ← sub_two_sub_two, BitVec.sub_add_cancel]
  have hpop1 : t.reachesAt t.cm (t.reg SP) .word false p2 := by
    rw [hkernel, hsp]
    exact State.reachesAt_trapped.mpr (State.reachesAt_read_of_write hpc)
  have hpop2 : t.reachesAt t.cm (t.reg SP + 2) .word false p1 := by
    rw [hkernel, hsp2]
    exact State.reachesAt_trapped.mpr (State.reachesAt_read_of_write hpsw)
  obtain ⟨hframePc, hframePsw⟩ := taken.wordAt_frame hpsw hpc hne
  obtain ⟨hexec, -⟩ := returnRestoresPcAndPsw i t hi ⟨p2, hpop1⟩ (State.canPop_setReg_sp ⟨p1, hpop2⟩)
  rw [State.loadWord_of_reachesAt hpop1, State.loadWord_of_reachesAt hpop2, hframePc, hframePsw] at hexec
  exact ⟨_, hexec hkernel, taken.undone hkernel⟩

end Sys2Proof.Machine
end
